-- ==== Sys2Proof/Word.lean ====
section
/-! DEFINITION. The machine word of the ACA core (R7) and the reduction `wrap` of the spec's notation. -/

namespace Sys2Proof

/-- The value held by a register, a data-memory cell, an immediate or a result on the broadcast path:
`XLEN = 32` bits, read as a two's-complement signed integer (R7).  The default of R7 is taken; the spec's
alternative instantiation `XLEN = unbounded` is not (log 1, DESIGN CHOICE). -/
abbrev Word := BitVec 32

/-- `wrap(v)` of the notation table (00_scope, section 5): the representative of `v` modulo `2^32`. -/
def wrap (v : Int) : Word := BitVec.ofInt 32 v

end Sys2Proof
end

