-- ==== Sys2Proof/Syntax.lean ====
section
/-! DEFINITION. The instruction set of R70 as syntax: opcodes, their classes, the eleven instructions, the fields
of the decoded record of R61, and the two external forms of an instruction (R60). -/

namespace Sys2Proof

/-- An architectural register index `0 .. 31` (R5, R18); an index out of range cannot be written down. -/
abbrev RegId := Fin 32

/-- The closed set of eleven mnemonics (R70). -/
inductive Op where
  | add | sub | mul | div | idiv | mod | addi | lw | sw | beq | j
deriving DecidableEq, Repr

/-- The six opcode classes (R61, R70). -/
inductive OpClass where
  | arith | imm | load | store | branch | jump
deriving DecidableEq, Repr

/-- The class column of the table of R70. -/
def Op.cls : Op → OpClass
  | .add | .sub | .mul | .div | .idiv | .mod => .arith
  | .addi => .imm
  | .lw => .load
  | .sw => .store
  | .beq => .branch
  | .j => .jump

/-- An instruction, with its operands in the order of its text form (R65 to R69).  Registers and immediates are
of the types their rules allow (R63, R64), so every term is an instruction some word encodes. -/
inductive Instr where
  | add  (rd rs rt : RegId)
  | sub  (rd rs rt : RegId)
  | mul  (rd rs rt : RegId)
  | div  (rd rs rt : RegId)
  | idiv (rd rs rt : RegId)
  | mod  (rd rs rt : RegId)
  | addi (rt rs : RegId) (imm : Word)
  | lw   (rt : RegId) (imm : Word) (rs : RegId)
  | sw   (rt : RegId) (imm : Word) (rs : RegId)
  | beq  (rs rt : RegId) (target : Word)
  | j    (target : Word)
deriving DecidableEq, Repr

/-- The field `op` of the record (R61). -/
def Instr.op : Instr → Op
  | .add .. => .add
  | .sub .. => .sub
  | .mul .. => .mul
  | .div .. => .div
  | .idiv .. => .idiv
  | .mod .. => .mod
  | .addi .. => .addi
  | .lw .. => .lw
  | .sw .. => .sw
  | .beq .. => .beq
  | .j .. => .j

/-- The field `cls` of the record: "a function of `op`" (R61). -/
def Instr.cls (i : Instr) : OpClass := i.op.cls

/-- The field `dest` of the record (R61): the register an instruction writes, if any. -/
def Instr.dest : Instr → Option RegId
  | .add rd _ _ | .sub rd _ _ | .mul rd _ _ | .div rd _ _ | .idiv rd _ _ | .mod rd _ _ => some rd
  | .addi rt _ _ => some rt
  | .lw rt _ _ => some rt
  | .sw .. | .beq .. | .j .. => none

/-- The field `src1` of the record (R61). -/
def Instr.src1 : Instr → Option RegId
  | .add _ rs _ | .sub _ rs _ | .mul _ rs _ | .div _ rs _ | .idiv _ rs _ | .mod _ rs _ => some rs
  | .addi _ rs _ => some rs
  | .lw _ _ rs => some rs
  | .sw _ _ rs => some rs
  | .beq rs _ _ => some rs
  | .j _ => none

/-- The field `src2` of the record (R61). -/
def Instr.src2 : Instr → Option RegId
  | .add _ _ rt | .sub _ _ rt | .mul _ _ rt | .div _ _ rt | .idiv _ _ rt | .mod _ _ rt => some rt
  | .sw rt _ _ => some rt
  | .beq _ rt _ => some rt
  | .addi .. | .lw .. | .j .. => none

/-- The field `imm` of the record (R61). -/
def Instr.imm : Instr → Option Word
  | .addi _ _ imm => some imm
  | .lw _ imm _ => some imm
  | .sw _ imm _ => some imm
  | .beq _ _ target => some target
  | .j target => some target
  | .add .. | .sub .. | .mul .. | .div .. | .idiv .. | .mod .. => none

/-- One line of program text, already trimmed by the assembler (R62, R81). -/
abbrev Line := List Char

/-- The text of a label (R64). -/
abbrev Label := List Char

/-- The symbol table the assembler hands to the decoder: label text to resolved integer (R64, R81). -/
abbrev SymTab := List (Label × Int)

/-- What `IMem` returns: an instruction in one of the two external forms of R60. -/
inductive Code where
  | word (w : BitVec 64)
  | text (l : Line)
deriving DecidableEq, Repr

end Sys2Proof
end

