-- ==== Sys2Proof/Config.lean ====
section
/-! DEFINITION. What a build of the core fixes: the parameters of R5 to R17, the inputs of R201 and R204, and the
two values the spec leaves free (R16, R190). -/

namespace Sys2Proof

/-- `HALT_REG = 31` (R6, R20). -/
def Config.haltReg : RegId := 31

/-- `DIV_INEXACT` (R16, R88, R210): the result of `div` when the divisor is not zero and does not divide the
dividend.  A function of the two operands of which nothing else is known (log 2). -/
opaque Config.divInexact : Int → Int → Word

/-- The values of poisoned results (R127, R190): "an `XLEN`-bit value that this spec does not determine".  The
`n`-th poisoned result of a run is `Config.poison n`, of which nothing is known (log 3). -/
opaque Config.poison : Nat → Word

/-- The prediction policy as requested (R12, R149, R150).  `other` stands for any value that R150 does not name. -/
inductive Policy where
  | notTaken | oneBit | taken | twoBit | other
deriving DecidableEq, Repr

/-- The two policies that exist (R149); the others "fail loudly if selected" (R150). -/
def Policy.implemented : Policy → Bool
  | .notTaken | .oneBit => true
  | .taken | .twoBit | .other => false

/-- Which of the two machines the spec defines a step advances: the scheduled core of R158 to R174, or the
sequential reference machine of R178 (log 4, DESIGN CHOICE). -/
inductive Engine where
  | scheduled | reference
deriving DecidableEq, Repr

/-- The parameters of one build (R8 to R10, R13, R15, R17), and the choice of engine (log 4). -/
structure Params where
  /-- `MEM_SIZE`, the number of data-memory cells (R13). -/
  memSize : Nat
  /-- `ROB_SIZE` (R8). -/
  robSize : Nat
  /-- `LSQ_SIZE` (R9). -/
  lsqSize : Nat
  /-- `RS_SIZE` (R10). -/
  rsSize : Nat
  /-- `Q_CAP`; `none` is the spec's `unbounded` (R15). -/
  qCap : Option Nat
  /-- `DEBUG`: "changes no state and no rule of this spec" (R17, R199). -/
  debug : Bool
  /-- The machine a step advances (log 4). -/
  engine : Engine
deriving DecidableEq, Repr

/-- What the environment supplies before it pulses reset (R201, R204). -/
structure Inputs where
  params : Params
  /-- `POLICY` (R12). -/
  policy : Policy
  /-- `WIDTH` (R11), an integer because a non-positive one can be requested and is refused (R189). -/
  width : Int
  /-- `PROG` (R14). -/
  prog : List Code
  /-- The symbol table (R64, R81). -/
  symtab : SymTab
  /-- `MEM_INIT`: cell address and value (R204). -/
  memInit : List (Nat × Word)
deriving DecidableEq, Repr

/-- The parameters `State.reset` is built with: the spec's defaults for the capacities and `DEBUG` (R8 to R10,
R15, R17); `MEM_SIZE`, which must be supplied (R13), at every address a register can name (log 5). -/
def Config.params : Params where
  memSize := 2147483648
  robSize := 32
  lsqSize := 32
  rsSize := 32
  qCap := some 32
  debug := false
  engine := .scheduled

/-- The inputs `State.reset` is built with.  `POLICY`, `WIDTH` and `PROG` must be supplied (92_eei_decisions,
last table); `not-taken`, eight and the empty program are this model's (log 5, DESIGN CHOICE). -/
def Config.inputs : Inputs where
  params := Config.params
  policy := .notTaken
  width := 8
  prog := []
  symtab := []
  memInit := []

end Sys2Proof
end

