-- ==== Sys2Proof/WellFormed.lean ====
section
/-! DEFINITION. What the spec demands of an instruction record, of the parameters and of the inputs before a run.
`Instr` itself can hold no ill-formed operand (registers are `Fin 32`, immediates 32-bit words); the checks of R61
and R63 to R64 are stated on the raw record, whose fields are unchecked numbers. -/

namespace Sys2Proof

/-- An instruction record whose operands are numbers nobody has checked: the fields of R61 with register indices
and immediates as they stand in a text line (R63, R64). -/
structure RawRecord where
  op : Op
  dest : Option Nat
  src1 : Option Nat
  src2 : Option Nat
  imm : Option Int
deriving DecidableEq, Repr

/-- A register index is in `0 .. 31` (R63). -/
def regInRange (r : Option Nat) : Bool := r.all (· < 32)

/-- An immediate is in `[-2^31, 2^31 - 1]` (R64). -/
def immInRange (v : Option Int) : Bool := v.all fun x => -2147483648 ≤ x && x ≤ 2147483647

/-- The fields present are those of the record's class (second table of R61). -/
def RawRecord.shapeOk (r : RawRecord) : Bool :=
  match r.op.cls with
  | .arith => r.dest.isSome && r.src1.isSome && r.src2.isSome && r.imm.isNone
  | .imm | .load => r.dest.isSome && r.src1.isSome && r.src2.isNone && r.imm.isSome
  | .store | .branch => r.dest.isNone && r.src1.isSome && r.src2.isSome && r.imm.isSome
  | .jump => r.dest.isNone && r.src1.isNone && r.src2.isNone && r.imm.isSome

/-- A record that stands for an instruction: the fields of its class (R61), every register index and the immediate
in range (R63, R64). -/
def RawRecord.wellFormed (r : RawRecord) : Bool :=
  r.shapeOk && regInRange r.dest && regInRange r.src1 && regInRange r.src2 && immInRange r.imm

/-- The record of an instruction. -/
def Instr.toRaw (i : Instr) : RawRecord where
  op := i.op
  dest := i.dest.map Fin.val
  src1 := i.src1.map Fin.val
  src2 := i.src2.map Fin.val
  imm := i.imm.map BitVec.toInt

/-- Every instruction is well formed when its record is. -/
def Instr.wellFormed (i : Instr) : Bool := i.toRaw.wellFormed

/-- The parameters are of the kinds R8 to R10, R13 and R15 name: positive integers. -/
def Params.wellFormed (p : Params) : Bool :=
  0 < p.memSize && 0 < p.robSize && 0 < p.lsqSize && 0 < p.rsSize && p.qCap.all (0 < ·)

/-- `PROG_LEN <= 2^31 - 1` (R14). -/
def programFits (prog : List Code) : Bool := prog.length ≤ 2147483647

/-- `MEM_INIT` names only cells of memory (R204). -/
def memInitFits (memSize : Nat) (image : List (Nat × Word)) : Bool := image.all fun c => c.1 < memSize

/-- The configuration is one the core does not refuse at reset (R149, R189). -/
def configAccepted (policy : Policy) (width : Int) : Bool := policy.implemented && 0 < width

/-- The inputs are what R11 to R15 and R204 ask of the environment. -/
def Inputs.wellFormed (i : Inputs) : Bool :=
  i.params.wellFormed && programFits i.prog && memInitFits i.params.memSize i.memInit &&
    configAccepted i.policy i.width

end Sys2Proof
end

