-- ==== Sys2Proof/Decode.lean ====
section
/-! DEFINITION. The instruction decoder (30_encoding): the binary form of R73 to R77 and the text form of R62 to
R69, the two decode errors of R71 and R72, and the encoder and printer that go the other way. -/

namespace Sys2Proof

/-- Why an instruction does not decode (R78). -/
inductive DecodeFailure where
  /-- The opcode is not one of the eleven (R72). -/
  | unsupportedOpcode
  /-- The opcode is known and the operands do not match its grammar (R71). -/
  | malformed
deriving DecidableEq, Repr

/-! ### Binary form -/

/-- `opc`, bits `[63:56]` (R73). -/
def wordOpc (w : BitVec 64) : BitVec 8 := w.extractLsb' 56 8
/-- `fa`, bits `[55:51]` (R73). -/
def wordFa (w : BitVec 64) : BitVec 5 := w.extractLsb' 51 5
/-- `fb`, bits `[50:46]` (R73). -/
def wordFb (w : BitVec 64) : BitVec 5 := w.extractLsb' 46 5
/-- `fc`, bits `[45:41]` (R73). -/
def wordFc (w : BitVec 64) : BitVec 5 := w.extractLsb' 41 5
/-- The reserved field `zero`, bits `[40:32]` (R73, R77). -/
def wordZero (w : BitVec 64) : BitVec 9 := w.extractLsb' 32 9
/-- `imm32`, bits `[31:0]`; with `XLEN = 32` "the field is the immediate exactly" (R76). -/
def wordImm (w : BitVec 64) : Word := w.extractLsb' 0 32

/-- A 5-bit register field as a register index. -/
def regOfBits (b : BitVec 5) : RegId := b.toFin

/-- The opcode numbers of R74. -/
def opNumber : Op → BitVec 8
  | .add => 0x01
  | .sub => 0x02
  | .mul => 0x03
  | .div => 0x04
  | .idiv => 0x05
  | .mod => 0x06
  | .addi => 0x08
  | .lw => 0x10
  | .sw => 0x11
  | .beq => 0x18
  | .j => 0x1C

/-- The eleven opcodes in the order of R70. -/
def allOps : List Op := [.add, .sub, .mul, .div, .idiv, .mod, .addi, .lw, .sw, .beq, .j]

/-- The opcode a number selects: "Every other value of `opc`, including `0x00`, selects no instruction" (R74). -/
def opOfNumber (n : BitVec 8) : Option Op := allOps.find? fun o => opNumber o == n

/-- The must-be-zero fields of a class are zero (R75, R77). -/
def reservedClear (c : OpClass) (w : BitVec 64) : Bool :=
  wordZero w == 0 &&
    match c with
    | .arith => wordImm w == 0
    | .imm | .load | .store | .branch => wordFc w == 0
    | .jump => wordFa w == 0 && wordFb w == 0 && wordFc w == 0

/-- The instruction the fields of a word make, by opcode (R75, R76). -/
def instrOfFields (o : Op) (fa fb fc : RegId) (imm : Word) : Instr :=
  match o with
  | .add => .add fa fb fc
  | .sub => .sub fa fb fc
  | .mul => .mul fa fb fc
  | .div => .div fa fb fc
  | .idiv => .idiv fa fb fc
  | .mod => .mod fa fb fc
  | .addi => .addi fa fb imm
  | .lw => .lw fa imm fb
  | .sw => .sw fa imm fb
  | .beq => .beq fa fb imm
  | .j => .j imm

/-- Decoding of the binary form: the opcode number first (R72), then the must-be-zero fields (R71, R77). -/
def decodeWord (w : BitVec 64) : Except DecodeFailure Instr :=
  match opOfNumber (wordOpc w) with
  | none => .error .unsupportedOpcode
  | some o =>
    if reservedClear o.cls w then
      .ok (instrOfFields o (regOfBits (wordFa w)) (regOfBits (wordFb w)) (regOfBits (wordFc w)) (wordImm w))
    else .error .malformed

/-! ### Text form -/

/-- The tokens of a line: "separated by one or more spaces" (R62).  Only the space separates (R62, N28). -/
def tokens (l : Line) : List Line := (l.splitOn ' ').filter fun t => !t.isEmpty

/-- A decimal digit (R63, R64). -/
def digitValue (c : Char) : Option Nat :=
  if 48 ≤ c.toNat ∧ c.toNat ≤ 57 then some (c.toNat - 48) else none

/-- The digits of a decimal number read on from the value of the digits before them. -/
def digitsFrom : Nat → Line → Option Nat
  | acc, [] => some acc
  | acc, c :: cs =>
    match digitValue c with
    | some d => digitsFrom (acc * 10 + d) cs
    | none => none

/-- A decimal numeral: one or more digits. -/
def parseNat (t : Line) : Option Nat := if t.isEmpty then none else digitsFrom 0 t

/-- A register token: `$` and "a decimal integer with no sign" in `0 .. 31` (R63). -/
def parseReg (t : Line) : Option RegId :=
  match t with
  | '$' :: cs =>
    match parseNat cs with
    | some n => if h : n < 32 then some ⟨n, h⟩ else none
    | none => none
  | _ => none

/-- A literal: "an optional `-` then decimal digits" (R64). -/
def parseLiteral (t : Line) : Option Int :=
  match t with
  | '-' :: cs => (parseNat cs).map fun n => -(n : Int)
  | cs => (parseNat cs).map fun n => (n : Int)

/-- The integer of a label (R64): the first entry of the symbol table with its text.  The empty text is no label
(vector V-ENC-3, `lw $1 ($2)`). -/
def lookupLabel (sym : SymTab) (t : Line) : Option Int :=
  if t.isEmpty then none else (sym.find? fun e => e.1 == t).map Prod.snd

/-- An immediate must lie in `[-2^31, 2^31 - 1]` (R64). -/
def immOfInt (v : Int) : Option Word := if immInRange (some v) then some (wrap v) else none

/-- An immediate token: a literal or a label (R64). -/
def parseImm (sym : SymTab) (t : Line) : Option Word :=
  match parseLiteral t with
  | some v => immOfInt v
  | none =>
    match lookupLabel sym t with
    | some v => immOfInt v
    | none => none

/-- The memory operand `imm($s)`: "one token of the form immediate, `(`, register token, `)` with no spaces"
(R67).  A register token holds no `(` (R63), so the last `(` of the token is the one of the form, also where a label
holds others: R64 bounds no label's text (log 12, DEDUCED).  The token is read from its end. -/
def parseMemOperand (sym : SymTab) (t : Line) : Option (Word × RegId) :=
  match t.reverse with
  | ')' :: rest =>
    match rest.dropWhile (· != '(') with
    | _ :: offset =>
      match parseImm sym offset.reverse, parseReg (rest.takeWhile (· != '(')).reverse with
      | some imm, some rs => some (imm, rs)
      | _, _ => none
    | [] => none
  | _ => none

/-- The mnemonics in lower case, as the source writes them (R62). -/
def opText : Op → Line
  | .add => ['a', 'd', 'd']
  | .sub => ['s', 'u', 'b']
  | .mul => ['m', 'u', 'l']
  | .div => ['d', 'i', 'v']
  | .idiv => ['i', 'd', 'i', 'v']
  | .mod => ['m', 'o', 'd']
  | .addi => ['a', 'd', 'd', 'i']
  | .lw => ['l', 'w']
  | .sw => ['s', 'w']
  | .beq => ['b', 'e', 'q']
  | .j => ['j']

/-- The opcode a first token names, if any (R62, R72). -/
def opOfText (t : Line) : Option Op := allOps.find? fun o => opText o == t

/-- The operand grammar of each class (R65 to R69): exactly the number of tokens the class has, each of its kind.
The tokens are bound to the same fields as in the binary form, "token by token" (R75). -/
def bindOperands (sym : SymTab) (o : Op) (args : List Line) : Option Instr :=
  match o.cls, args with
  | .arith, [d, s, t] =>
    match parseReg d, parseReg s, parseReg t with
    | some rd, some rs, some rt => some (instrOfFields o rd rs rt 0)
    | _, _, _ => none
  | .imm, [t, s, v] | .branch, [t, s, v] =>
    match parseReg t, parseReg s, parseImm sym v with
    | some r1, some r2, some imm => some (instrOfFields o r1 r2 0 imm)
    | _, _, _ => none
  | .load, [t, m] | .store, [t, m] =>
    match parseReg t, parseMemOperand sym m with
    | some rt, some (imm, rs) => some (instrOfFields o rt rs 0 imm)
    | _, _ => none
  | .jump, [v] => (parseImm sym v).map fun imm => instrOfFields o 0 0 0 imm
  | _, _ => none

/-- Decoding of the text form: "Decode checks the opcode before the operands" (R72), then the grammar (R71). -/
def decodeText (sym : SymTab) (l : Line) : Except DecodeFailure Instr :=
  match tokens l with
  | [] => .error .unsupportedOpcode
  | t :: args =>
    match opOfText t with
    | none => .error .unsupportedOpcode
    | some o =>
      match bindOperands sym o args with
      | some i => .ok i
      | none => .error .malformed

/-- The decoder: "a pure function" of the instruction as fetched and the symbol table (R64, R83). -/
def decode (sym : SymTab) (c : Code) : Except DecodeFailure Instr :=
  match c with
  | .word w => decodeWord w
  | .text l => decodeText sym l

/-! ### Encoder and printer -/

/-- A register index as a 5-bit field. -/
def bitsOfReg (r : RegId) : BitVec 5 := BitVec.ofNat 5 r.val

/-- A 64-bit word from its fields, the reserved field zero (R73). -/
def packWord (opc : BitVec 8) (fa fb fc : BitVec 5) (imm : Word) : BitVec 64 :=
  opc ++ fa ++ fb ++ fc ++ (0 : BitVec 9) ++ imm

/-- The binary form of an instruction (R73 to R76). -/
def encode (i : Instr) : BitVec 64 :=
  match i with
  | .add rd rs rt | .sub rd rs rt | .mul rd rs rt | .div rd rs rt | .idiv rd rs rt | .mod rd rs rt =>
    packWord (opNumber i.op) (bitsOfReg rd) (bitsOfReg rs) (bitsOfReg rt) 0
  | .addi rt rs imm => packWord (opNumber .addi) (bitsOfReg rt) (bitsOfReg rs) 0 imm
  | .lw rt imm rs => packWord (opNumber .lw) (bitsOfReg rt) (bitsOfReg rs) 0 imm
  | .sw rt imm rs => packWord (opNumber .sw) (bitsOfReg rt) (bitsOfReg rs) 0 imm
  | .beq rs rt target => packWord (opNumber .beq) (bitsOfReg rs) (bitsOfReg rt) 0 target
  | .j target => packWord (opNumber .j) 0 0 0 target

/-- The last decimal digits of a number, most significant first, without leading zeros but for the number 0.  The
first argument bounds how many; ten suffice for any 32-bit value. -/
def digitsText : Nat → Nat → Line
  | 0, _ => []
  | fuel + 1, n =>
    if n < 10 then [Char.ofNat (48 + n)]
    else digitsText fuel (n / 10) ++ [Char.ofNat (48 + n % 10)]

/-- The decimal text of a natural number below `10^10`. -/
def natText (n : Nat) : Line := digitsText 10 n

/-- A register token (R63). -/
def regText (r : RegId) : Line := '$' :: natText r.val

/-- An immediate as a literal (R64). -/
def immText (v : Word) : Line :=
  if v.toInt < 0 then '-' :: natText v.toInt.natAbs else natText v.toInt.natAbs

/-- A memory operand (R67). -/
def memText (imm : Word) (rs : RegId) : Line := immText imm ++ '(' :: regText rs ++ [')']

/-- The operand tokens of an instruction in text order (R65 to R69). -/
def operandTexts : Instr → List Line
  | .add rd rs rt | .sub rd rs rt | .mul rd rs rt | .div rd rs rt | .idiv rd rs rt | .mod rd rs rt =>
    [regText rd, regText rs, regText rt]
  | .addi rt rs imm => [regText rt, regText rs, immText imm]
  | .lw rt imm rs | .sw rt imm rs => [regText rt, memText imm rs]
  | .beq rs rt target => [regText rs, regText rt, immText target]
  | .j target => [immText target]

/-- The text form of an instruction, every immediate a literal and one space between tokens (R62, R65 to R69). -/
def printLine (i : Instr) : Line := [' '].intercalate (opText i.op :: operandTexts i)

/-- The instruction read from a row of the opcode table whose bits are `w`, of which the table gives the low
`nbits`: one 64-bit word (R73), every bit above `nbits` zero. -/
def decodeTableWord (nbits w : Nat) : Option Instr :=
  match decodeWord (BitVec.ofNat 64 (w % 2 ^ nbits)) with
  | .ok i => some i
  | .error _ => none

end Sys2Proof
end

