-- ==== Sys2Proof/Machine/Memory.lean ====
section
/-! DEFINITION. Data memory and the other sparse table of the core, as lists of (index, value) in one canonical form.
The smallest addressable unit is the cell of one word (R24, R43, R46): a cell has no bytes (log 6). -/

namespace Sys2Proof.Machine

/-- One listed cell: its address and the word it holds (R24). -/
abbrev Cell := Nat × Word

/-- The value listed for an index, if there is one. -/
def sparseFind : List (Nat × Word) → Nat → Option Word
  | [], _ => none
  | (k, v) :: rest, a => if k = a then some v else sparseFind rest a

/-- The list with `v` at `a`, indices kept rising. -/
def sparseInsert : List (Nat × Word) → Nat → Word → List (Nat × Word)
  | [], a, v => [(a, v)]
  | (k, w) :: rest, a, v =>
    if a < k then (a, v) :: (k, w) :: rest
    else if a = k then (a, v) :: rest
    else (k, w) :: sparseInsert rest a v

/-- The list with nothing at `a`. -/
def sparseErase : List (Nat × Word) → Nat → List (Nat × Word)
  | [], _ => []
  | (k, w) :: rest, a => if k = a then rest else (k, w) :: sparseErase rest a

/-- Indices strictly rising: the canonical order. -/
abbrev sparseSorted (m : List (Nat × Word)) : Prop := m.Pairwise fun c d => c.1 < d.1

/-- Data memory `MEM` (R24), sparsely: a cell that is not listed holds `Memory.unlisted`. -/
abbrev Memory := List Cell

/-- What a cell nobody has set holds: 0 (R40, R204). -/
def Memory.unlisted : Word := 0

/-- `MemRead(addr, 1)` (00_scope, section 5). -/
def Memory.read (m : Memory) (a : Nat) : Word := (sparseFind m a).getD Memory.unlisted

/-- `MemWrite(addr, 1, v)` (00_scope, section 5); writing the unlisted value removes the entry. -/
def Memory.write (m : Memory) (a : Nat) (v : Word) : Memory :=
  if v = Memory.unlisted then sparseErase m a else sparseInsert m a v

/-- The canonical form: addresses strictly rising, no entry equal to the unlisted value. -/
abbrev Memory.wf (m : Memory) : Prop := sparseSorted m ∧ ∀ c ∈ m, c.2 ≠ Memory.unlisted

/-- The cell an address names: "valid when `0 <= a < MEM_SIZE`" (R45). -/
def cellOf (memSize : Nat) (a : Word) : Option Nat :=
  if 0 ≤ a.toInt ∧ a.toInt < memSize then some a.toNat else none

/-- `MEM_INIT` written into a memory of zeros (R40, R204); a cell outside memory does not exist and is left out. -/
def Memory.load (memSize : Nat) : List Cell → Memory → Memory
  | [], m => m
  | c :: rest, m => Memory.load memSize rest (if c.1 < memSize then Memory.write m c.1 c.2 else m)

end Sys2Proof.Machine
end

