-- ==== Sys2Proof/Machine/State.lean ====
section
/-! DEFINITION. All state of the core (10_state), the ways a step can stop, and reset (R40, R201). -/

namespace Sys2Proof.Machine

/-- A fault recorded at execute or memory time, to be raised at commit (R30, R190); the memory fault carries the
address that R188 makes its info value. -/
inductive SlotFault where
  | arithmetic
  | memoryAddress (addr : Word)
deriving DecidableEq, Repr

/-- The fatal errors of R181, with the info values R184 and R188 give.  `ResourceExhausted` and `Misprediction` are
no errors (R185, R186) and have no constructor. -/
inductive FatalError where
  | decodeError
  | unsupportedOpcodeError
  | programCounterOutOfRange (pc : Word)
  | arithmeticFault
  | memoryAddressFault (addr : Word)
  | configError
deriving DecidableEq, Repr

/-- The run status `STATUS` (R26). -/
inductive Status where
  | running
  | halted
  | fatal (err : FatalError)
deriving DecidableEq, Repr

/-- A tag-or-value operand (R28). -/
inductive Operand where
  | val (v : Word)
  | tag (slot : Nat)
deriving DecidableEq, Repr

/-- A live ROB slot's entry (R30).  Its class is a function of `op` (`OpClass` of R61). -/
structure RobEntry where
  op : Op
  dest : Option RegId
  result : Option Word
  rpc : Word
  pc : Word
  done : Bool
  fault : Option SlotFault
deriving DecidableEq, Repr

/-- The reorder buffer (R29): `ROB_SIZE` slots and its three registers.  A slot that is not live holds `none`
(R30, R202; log 7). -/
structure Rob where
  slots : List (Option RobEntry)
  head : Nat
  tail : Nat
  count : Nat
deriving DecidableEq, Repr

/-- A reservation-station entry (R32). -/
structure RsEntry where
  tag : Nat
  op : Op
  o1 : Operand
  o2 : Operand
deriving DecidableEq, Repr

/-- The opcode of a memory operation (R33). -/
inductive MemOp where
  | lw | sw
deriving DecidableEq, Repr

/-- A load-store-queue entry (R33). -/
structure LsqEntry where
  tag : Nat
  op : MemOp
  base : Operand
  imm : Word
  addr : Option Word
  val : Option Operand
  fwd : Option Word
  seq : Nat
  disp : Bool
deriving DecidableEq, Repr

/-- The load-store queue (R33): its live entries oldest first (`entries[k]` is the spec's `LSQ[k]`, their number
its `lsq_count`), the two pointers and the position counter `lsq_next_seq` (R133). -/
structure Lsq where
  entries : List LsqEntry
  head : Nat
  tail : Nat
  nextSeq : Nat
deriving DecidableEq, Repr

/-- An inter-stage FIFO (R35): the part its reader sees and the items pushed in the current sub-step. -/
structure Fifo (α : Type) where
  visible : List α
  pending : List α
deriving DecidableEq, Repr

/-- An item of `FQ` (R34): the instruction as fetched and its fetch pc. -/
structure FetchItem where
  code : Code
  pc : Word
deriving DecidableEq, Repr

/-- An item of `IQ` (R34): the decoded record of R61, which is the instruction and its `pc`. -/
structure IssueItem where
  instr : Instr
  pc : Word
deriving DecidableEq, Repr

/-- An item of `EQ` (R34): a dispatched RS entry with both operands resolved. -/
structure ExecItem where
  tag : Nat
  op : Op
  v1 : Word
  v2 : Word
deriving DecidableEq, Repr

/-- An item of `MQ` (R34): the snapshot of a dispatched LSQ entry (R138), with the forwarded value of a load or the
value of a store. -/
inductive MemItem where
  | load (tag : Nat) (addr : Word) (fwd : Option Word)
  | store (tag : Nat) (addr val : Word)
deriving DecidableEq, Repr

/-- An item of `WQ` (R34): a result to broadcast. -/
structure WriteItem where
  tag : Nat
  value : Word
  fault : Option SlotFault
deriving DecidableEq, Repr

/-- The five inter-stage queues (R34). -/
structure Queues where
  fq : Fifo FetchItem
  iq : Fifo IssueItem
  eq : Fifo ExecItem
  mq : Fifo MemItem
  wq : Fifo WriteItem
deriving DecidableEq, Repr

/-- The predictor's table, from fetch pc to predicted next pc (R36), and its counters (R37). -/
structure Predictor where
  btb : List (Nat × Word)
  nChecked : Nat
  nMissed : Nat
  distSum : Nat
deriving DecidableEq, Repr

/-- All state of the machine. -/
structure State where
  /-- The parameters of the build (R8 to R10, R13, R15, R17). -/
  params : Params
  /-- `ARF` (R18). -/
  regs : Vector Word 32
  /-- `MEM` (R24). -/
  mem : Memory
  /-- `PROG`, in instruction memory (R25). -/
  prog : List Code
  /-- The symbol table, an input of the decoder (R64, R81). -/
  symtab : SymTab
  /-- `PC`, the fetch program counter (R21). -/
  pc : Word
  /-- `STATUS` (R26). -/
  status : Status
  /-- `RAT` (R27). -/
  rat : Vector (Option Nat) 32
  /-- `ROB` (R29). -/
  rob : Rob
  /-- `RS` (R31); a free station holds `none`. -/
  rs : List (Option RsEntry)
  /-- `LSQ` (R33). -/
  lsq : Lsq
  /-- `FQ`, `IQ`, `EQ`, `MQ`, `WQ` (R34). -/
  queues : Queues
  /-- `BTB` and the predictor counters (R36, R37). -/
  pred : Predictor
  /-- `executed` (R38). -/
  executed : Nat
  /-- `cycles` (R38). -/
  cycles : Nat
  /-- `cfg_policy` (R39). -/
  cfgPolicy : Policy
  /-- `cfg_width` (R39). -/
  cfgWidth : Int
  /-- The model's own: how many poisoned results have been drawn (log 3). -/
  poisonSeq : Nat
deriving DecidableEq, Repr

/-- Why a step can stop without a next state.  Each is an assertion the spec allows a model to keep, in states its
invariants rule out; all are safe (log 8).  The errors of R181 are not faults here: they are next states whose
`status` is `fatal`, as R192 describes them. -/
inductive Fault where
  /-- Raised by the commit stage when `rob_count > 0` and the slot at `rob_head` holds no entry (against R29);
  safe, since no run reaches such a state. -/
  | robHeadAbsent
  /-- Raised by the commit stage when the head slot is complete and has no result (against R113); safe, since no
  run reaches such a state. -/
  | resultAbsent
  /-- Raised by the commit stage when a load or store is at the ROB head and the LSQ head is not its entry, or is
  a store's with no resolved address (the assertion of R145); safe, since no run reaches such a state. -/
  | lsqHeadMismatch
deriving DecidableEq, Repr

/-- Why an instruction has no meaning. -/
inductive Refusal where
  /-- For an arm of `exec` that has no meaning yet; safe.  No arm is left that answers with it. -/
  | notModelled (mnemonic : String)
deriving DecidableEq, Repr

/-- The two parts of a queue empty (R40). -/
def Fifo.empty {α : Type} : Fifo α := ⟨[], []⟩

/-- All five queues empty (R40, R169). -/
def Queues.empty : Queues := ⟨.empty, .empty, .empty, .empty, .empty⟩

/-- Reset with the inputs of R201 and R204: the table of R40, and the refusal of R189. -/
def State.boot (i : Inputs) : State where
  params := i.params
  regs := Vector.replicate 32 0
  mem := Memory.load i.params.memSize i.memInit []
  prog := i.prog
  symtab := i.symtab
  pc := 0
  status := if configAccepted i.policy i.width then .running else .fatal .configError
  rat := Vector.replicate 32 none
  rob := ⟨List.replicate i.params.robSize none, 0, 0, 0⟩
  rs := List.replicate i.params.rsSize none
  lsq := ⟨[], 0, 0, 0⟩
  queues := Queues.empty
  pred := ⟨[], 0, 0, 0⟩
  executed := 0
  cycles := 0
  cfgPolicy := i.policy
  cfgWidth := i.width
  poisonSeq := 0

/-- The machine right after reset with nothing loaded (R40, R201). -/
def State.reset : State := State.boot Config.inputs

/-! ### Updates of one field -/

/-- Replaces `regs`. -/
def State.withRegs (s : State) (v : Vector Word 32) : State := { s with regs := v }
/-- Replaces `mem`. -/
def State.withMem (s : State) (v : Memory) : State := { s with mem := v }
/-- Replaces `prog`. -/
def State.withProg (s : State) (v : List Code) : State := { s with prog := v }
/-- Replaces `pc`. -/
def State.withPc (s : State) (v : Word) : State := { s with pc := v }
/-- Replaces `status`. -/
def State.withStatus (s : State) (v : Status) : State := { s with status := v }
/-- Replaces `rat`. -/
def State.withRat (s : State) (v : Vector (Option Nat) 32) : State := { s with rat := v }
/-- Replaces `rob`. -/
def State.withRob (s : State) (v : Rob) : State := { s with rob := v }
/-- Replaces `rs`. -/
def State.withRs (s : State) (v : List (Option RsEntry)) : State := { s with rs := v }
/-- Replaces `lsq`. -/
def State.withLsq (s : State) (v : Lsq) : State := { s with lsq := v }
/-- Replaces `queues`. -/
def State.withQueues (s : State) (v : Queues) : State := { s with queues := v }
/-- Replaces `pred`. -/
def State.withPred (s : State) (v : Predictor) : State := { s with pred := v }
/-- Replaces `executed`. -/
def State.withExecuted (s : State) (v : Nat) : State := { s with executed := v }
/-- Replaces `cycles`. -/
def State.withCycles (s : State) (v : Nat) : State := { s with cycles := v }
/-- Replaces `poisonSeq`. -/
def State.withPoisonSeq (s : State) (v : Nat) : State := { s with poisonSeq := v }

end Sys2Proof.Machine
end

