-- ==== Sys2Proof/Machine/Flags.lean ====
section
/-! DEFINITION. The core has "no flags, condition codes or predicate registers" (R22).  The one condition it
computes is the boolean of a compare-branch or jump, which lives only in its ROB entry. -/

namespace Sys2Proof.Machine

/-- The numeric form of a branch result: taken is 1, not taken is 0 (R126). -/
def truthWord (taken : Bool) : Word := if taken then 1 else 0

/-- A result is tested as `result != 0` (R154). -/
def takenOf (result : Word) : Bool := result != 0

/-- The condition of `beq`: the two operands are equal (R100, R126). -/
def beqTaken (a b : Word) : Bool := a == b

end Sys2Proof.Machine
end

