-- ==== Sys2Proof/Machine/Operands.lean ====
section
/-! DEFINITION. Operands: a register's committed value, an operand read through the alias table (R104), capture of
a broadcast, and the one addressing mode (R95). -/

namespace Sys2Proof.Machine

/-- `x[i]` (R18). -/
def State.reg (s : State) (r : RegId) : Word := s.regs[r]

/-- `RAT[r]` (R27). -/
def State.alias? (s : State) (r : RegId) : Option Nat := s.rat[r]

/-- The entry of a ROB slot, if the slot holds one (R29). -/
def Rob.entry? (b : Rob) (slot : Nat) : Option RobEntry := (b.slots[slot]?).join

/-- The value of a slot that is complete (R104). -/
def Rob.doneValue? (b : Rob) (slot : Nat) : Option Word :=
  match b.entry? slot with
  | some e => if e.done then e.result else none
  | none => none

/-- `read(r)`: the operand read at issue (R104).  A mapping always names a live slot (R42); for one that does not,
the operand stays pending. -/
def State.readOperand (s : State) (r : RegId) : Operand :=
  match s.alias? r with
  | none => .val (s.reg r)
  | some slot =>
    match s.rob.doneValue? slot with
    | some v => .val v
    | none => .tag slot

/-- The value of a resolved operand (R28). -/
def Operand.value? : Operand → Option Word
  | .val v => some v
  | .tag _ => none

/-- What a broadcast of slot `t` with value `v` makes of an operand (R122, R134). -/
def Operand.capture (t : Nat) (v : Word) : Operand → Operand
  | .val w => .val w
  | .tag u => if u = t then .val v else .tag u

/-- The effective address `wrap(x_base + imm)` (R44, R95). -/
def effAddr (base imm : Word) : Word := wrap (base.toInt + imm.toInt)

end Sys2Proof.Machine
end

