-- ==== Sys2Proof/Machine/Alu.lean ====
section
/-! DEFINITION. The arithmetic unit (R126): the exact integer result, reduced by `wrap` (R91). -/

namespace Sys2Proof.Machine

/-- `add`, `addi` (R85, R93). -/
def aluAdd (a b : Word) : Word := wrap (a.toInt + b.toInt)

/-- `sub`: first operand minus second (R86). -/
def aluSub (a b : Word) : Word := wrap (a.toInt - b.toInt)

/-- `mul`: the low `XLEN` bits of the product (R87). -/
def aluMul (a b : Word) : Word := wrap (a.toInt * b.toInt)

/-- `div`, the non-truncating division (R88): no result for a zero divisor (R92), the exact quotient when the
divisor divides the dividend, else the open function `DIV_INEXACT` (R16). -/
def aluDiv (a b : Word) : Option Word :=
  if b.toInt = 0 then none
  else if b.toInt ∣ a.toInt then some (wrap (a.toInt.tdiv b.toInt))
  else some (Config.divInexact a.toInt b.toInt)

/-- `idiv`, the truncating division (R89): no result for a zero divisor (R92). -/
def aluIdiv (a b : Word) : Option Word :=
  if b.toInt = 0 then none else some (wrap (a.toInt.tdiv b.toInt))

/-- `mod`, the remainder of the truncating division (R90): no result for a zero divisor (R92). -/
def aluMod (a b : Word) : Option Word :=
  if b.toInt = 0 then none else some (wrap (a.toInt - b.toInt * a.toInt.tdiv b.toInt))

/-- What the unit answers (R126 to R128). -/
inductive AluResult where
  /-- A value and no fault. -/
  | value (v : Word)
  /-- A poisoned value and `ArithmeticFault`. -/
  | arithmeticFault
  /-- The opcode is not in the table of R126. -/
  | unsupported
deriving DecidableEq, Repr

/-- A division's answer: poisoned for a zero divisor (R92, R127). -/
def AluResult.ofDivision : Option Word → AluResult
  | some v => .value v
  | none => .arithmeticFault

/-- `ALU(op, a, b)` (R126). -/
def alu (op : Op) (a b : Word) : AluResult :=
  match op with
  | .add | .addi => .value (aluAdd a b)
  | .sub => .value (aluSub a b)
  | .mul => .value (aluMul a b)
  | .div => .ofDivision (aluDiv a b)
  | .idiv => .ofDivision (aluIdiv a b)
  | .mod => .ofDivision (aluMod a b)
  | .beq => .value (truthWord (beqTaken a b))
  | .j => .value (truthWord true)
  | .lw | .sw => .unsupported

end Sys2Proof.Machine
end

