-- ==== Sys2Proof/Machine/Predictor.lean ====
section
/-! DEFINITION. The branch predictor (53_predictor). -/

namespace Sys2Proof.Machine

/-- `BTB[pc]`, if valid (R36). -/
def Predictor.target? (p : Predictor) (pc : Word) : Option Word := sparseFind p.btb pc.toNat

/-- `BTB[pc] <- target`. -/
def Predictor.record (p : Predictor) (pc target : Word) : Predictor :=
  { p with btb := sparseInsert p.btb pc.toNat target }

/-- `predict(pc)`: the prediction is returned and recorded (R151 to R153).  A policy that is not implemented never
gets here: `State.configured` stands before every fetch (R150; log 9). -/
def Predictor.predict (policy : Policy) (p : Predictor) (pc : Word) : Predictor × Word :=
  match policy, p.target? pc with
  | .oneBit, some t => (p, t)
  | _, _ => (p.record pc (pc + 1), pc + 1)

/-- The correct next pc of a branch or jump (R154): its recovery pc if taken, else its fetch pc plus one. -/
def correctNext (pc rpc result : Word) : Word := if takenOf result then rpc else pc + 1

/-- `|correct - pc|` on integers (R154, R156). -/
def branchDistance (pc correct : Word) : Nat := (correct.toInt - pc.toInt).natAbs

/-- What `check` answers (R154): the predictor after it, whether the prediction was right, and the correct pc. -/
structure CheckResult where
  pred : Predictor
  ok : Bool
  correct : Word
deriving DecidableEq, Repr

/-- The counting of one validation (R154): `n_checked` and `dist_sum`. -/
def Predictor.counted (p : Predictor) (pc correct : Word) : Predictor :=
  { p with nChecked := p.nChecked + 1, distSum := p.distSum + branchDistance pc correct }

/-- What a mismatch adds (R154): `n_missed`, and under one-bit the corrected table entry. -/
def Predictor.missed (policy : Policy) (p : Predictor) (pc correct : Word) : Predictor :=
  let counted : Predictor := { p with nMissed := p.nMissed + 1 }
  if policy = .oneBit then counted.record pc correct else counted

/-- `check(e)` of an entry with fetch pc `pc`, recovery pc `rpc` and result `result` (R154).  An entry of the table
that is not valid differs from every pc. -/
def Predictor.check (policy : Policy) (p : Predictor) (pc rpc result : Word) : CheckResult :=
  let correct := correctNext pc rpc result
  if p.target? pc = some correct then ⟨p.counted pc correct, true, correct⟩
  else ⟨(p.counted pc correct).missed policy pc correct, false, correct⟩

/-- `prediction_accuracy()` (R155). -/
def Predictor.accuracy (p : Predictor) : ℚ :=
  if p.nChecked = 0 then 1 else 1 - (p.nMissed : ℚ) / (p.nChecked : ℚ)

/-- `average_branch_distance()` (R156). -/
def Predictor.averageDistance (p : Predictor) : ℚ :=
  if p.nChecked = 0 then 0 else (p.distSum : ℚ) / (p.nChecked : ℚ)

end Sys2Proof.Machine
end

