-- ==== Sys2Proof/Machine/Ops.lean ====
section
/-! DEFINITION. The named operations every instruction and every stage is written over: the write of a register,
memory, the fetch of an instruction, raising a fatal error (the one exception mechanism, R192), and the end of an
instruction in program order. -/

namespace Sys2Proof.Machine

/-- `x[r] <- v` (R18, R19: no register is hard-wired). -/
def State.setReg (s : State) (r : RegId) (v : Word) : State := s.withRegs (s.regs.set r v)

/-- The value of the cell an address names; `none` for an address outside memory (R45). -/
def State.loadCell (s : State) (a : Word) : Option Word := (cellOf s.params.memSize a).map s.mem.read

/-- The state with `v` written to the cell an address names; `none` for an address outside memory, to which nothing
is ever written (R45, R188). -/
def State.storeCell (s : State) (a v : Word) : Option State :=
  (cellOf s.params.memSize a).map fun k => s.withMem (s.mem.write k v)

/-- `0 <= pc < PROG_LEN` (R58). -/
def State.pcInRange (s : State) (pc : Word) : Bool := 0 ≤ pc.toInt && pc.toInt < s.prog.length

/-- `IMem(pc)`, defined for a pc in range (R58). -/
def State.imem? (s : State) (pc : Word) : Option Code :=
  if s.pcInRange pc then s.prog[pc.toNat]? else none

/-- `running` (R26, R158). -/
def State.running (s : State) : Bool := s.status == .running

/-- The sampled configuration is one that R189 accepts. -/
def State.configured (s : State) : Bool := configAccepted s.cfgPolicy s.cfgWidth

/-- `raise E(info)`: the core enters the fatal state (R192).  Nothing is saved for a handler, and there is no return
but reset (R192, R193). -/
def State.raise (s : State) (e : FatalError) : State := s.withStatus (.fatal e)

/-- The fatal error a decode failure raises (R71, R72, R182, R183). -/
def decodeErrorOf : DecodeFailure → FatalError
  | .unsupportedOpcode => .unsupportedOpcodeError
  | .malformed => .decodeError

/-- The fatal error a recorded fault raises at commit (R187, R188, R190). -/
def SlotFault.error : SlotFault → FatalError
  | .arithmetic => .arithmeticFault
  | .memoryAddress a => .memoryAddressFault a

/-- The halt test at a commit: `STATUS <- Halted` when `x[31] = 1` (R20, R168, R170). -/
def State.haltTest (s : State) : State :=
  if s.reg Config.haltReg = 1 then s.withStatus .halted else s

/-- The prediction every fetch records (R153), as part of the state. -/
def State.recordPrediction (s : State) : State :=
  s.withPred (Predictor.predict s.cfgPolicy s.pred s.pc).1

/-- The end of an instruction in program order: it is counted (R174), the next instruction is at `next`, and the
halt register is tested (R170). -/
def State.retire (s : State) (next : Word) : State :=
  ((s.withPc next).withExecuted (s.executed + 1)).haltTest

/-- The end of an instruction that writes `v` to register `r` and goes on at the next instruction (R84, R93, R96). -/
def State.retireReg (s : State) (r : RegId) (v : Word) : State := (s.setReg r v).retire (s.pc + 1)

/-- A division's end: `ArithmeticFault` for a zero divisor (R92, R187), and the destination is not written. -/
def State.retireDivision (s : State) (r : RegId) (q : Option Word) : State :=
  match q with
  | some v => s.retireReg r v
  | none => s.raise .arithmeticFault

/-- The end of a branch or jump with target `target` and boolean `result`: the predictor validates it (R102, R154)
and the next instruction is at the correct next pc (R100, R101). -/
def State.retireBranch (s : State) (target result : Word) : State :=
  let c := s.pred.check s.cfgPolicy s.pc target result
  (s.withPred c.pred).retire c.correct

end Sys2Proof.Machine
end

