-- ==== Sys2Proof/Machine/LoadStoreQueue.lean ====
section
/-! DEFINITION. The load-store queue (52_lsq).  `entries[k]` is `LSQ[k]`, the `k`-th live entry from the head. -/

namespace Sys2Proof.Machine

/-- `lsq_count` (R33). -/
def Lsq.count (q : Lsq) : Nat := q.entries.length

/-- `LSQ.full()` (R130). -/
def Lsq.full (lsqSize : Nat) (q : Lsq) : Bool := q.count == lsqSize

/-- The address of an entry, once its base is resolved (R33, R131). -/
def addrOfBase (base : Operand) (imm : Word) : Option Word := base.value?.map fun v => effAddr v imm

/-- The entry of a load or of a store (R131, R132); nothing for an instruction that is neither. -/
def State.lsqEntryOf (s : State) (i : Instr) (slot : Nat) : Option LsqEntry :=
  match i with
  | .lw _ imm rs =>
    some ⟨slot, .lw, s.readOperand rs, imm, addrOfBase (s.readOperand rs) imm, none, none, s.lsq.nextSeq, false⟩
  | .sw rt imm rs =>
    some ⟨slot, .sw, s.readOperand rs, imm, addrOfBase (s.readOperand rs) imm, some (s.readOperand rt), none,
      s.lsq.nextSeq, false⟩
  | _ => none

/-- Appending an entry at `lsq_tail` (R131). -/
def Lsq.add (lsqSize : Nat) (q : Lsq) (e : LsqEntry) : Lsq where
  entries := q.entries ++ [e]
  head := q.head
  tail := (q.tail + 1) % lsqSize
  nextSeq := q.nextSeq + 1

/-- A broadcast seen by one entry (R134): base and value may both wait on it, and the address follows the base. -/
def LsqEntry.capture (t : Nat) (v : Word) (e : LsqEntry) : LsqEntry :=
  { e with
    base := e.base.capture t v
    addr := if e.base = .tag t then some (effAddr v e.imm) else e.addr
    val := if e.op = .sw then e.val.map (Operand.capture t v) else e.val }

/-- `LSQ.capture(t, v)`: "All live entries are examined, dispatched or not" (R134). -/
def Lsq.capture (q : Lsq) (t : Nat) (v : Word) : Lsq := { q with entries := q.entries.map (LsqEntry.capture t v) }

/-- The youngest older store to an address (R136 (4)).  The older entries are given youngest first. -/
def youngestStore (older : List LsqEntry) (a : Word) : Option LsqEntry :=
  older.find? fun e => e.op == .sw && e.addr == some a

/-- The value of a store entry, if it is resolved (R28, R33). -/
def LsqEntry.storeValue? (e : LsqEntry) : Option Word := e.val.bind Operand.value?

/-- What is dispatched of a store entry with address `a` that is ready (R135, R138). -/
def LsqEntry.storeItem? (e : LsqEntry) (a : Word) : Option MemItem :=
  if e.disp then none else e.storeValue?.map (.store e.tag a)

/-- A load with address `a` is ready, given the entries older than it, youngest first (R136): it is not dispatched,
no older store has an unresolved address, and the value of the youngest older store to its address, if there is
one, has been forwarded into it. -/
def LsqEntry.loadReady (older : List LsqEntry) (e : LsqEntry) (a : Word) : Bool :=
  !e.disp && older.all (fun o => o.op == .lw || o.addr.isSome) &&
    match youngestStore older a with
    | none => true
    | some st =>
      match st.storeValue? with
      | some w => e.fwd == some w
      | none => false

/-- What is dispatched of an entry that is ready: the snapshot that travels to the memory stage (R135, R136,
R138). -/
def LsqEntry.ready? (older : List LsqEntry) (e : LsqEntry) : Option MemItem :=
  match e.addr with
  | none => none
  | some a =>
    match e.op with
    | .sw => e.storeItem? a
    | .lw => if e.loadReady older a then some (.load e.tag a e.fwd) else none

/-- What the forward scan makes of one entry (R137): a load takes the value of the youngest older store to its
address, and loses what it had while that value is pending. -/
def LsqEntry.scan (older : List LsqEntry) (e : LsqEntry) : LsqEntry :=
  match e.op, e.addr with
  | .lw, some a =>
    match youngestStore older a with
    | some st => { e with fwd := st.storeValue? }
    | none => e
  | _, _ => e

/-- The forward scan over a list of entries, given those older than it, youngest first (R137). -/
def scanEntries : List LsqEntry → List LsqEntry → List LsqEntry
  | _, [] => []
  | older, e :: rest => e.scan older :: scanEntries (e :: older) rest

/-- `LSQ.forward_scan()` (R137). -/
def Lsq.forwardScan (q : Lsq) : Lsq := { q with entries := scanEntries [] q.entries }

/-- The oldest ready entry, marked dispatched in place, and its snapshot (R138). -/
def dispatchEntries : List LsqEntry → List LsqEntry → Option (MemItem × List LsqEntry)
  | _, [] => none
  | older, e :: rest =>
    match e.ready? older with
    | some item => some (item, { e with disp := true } :: rest)
    | none => (dispatchEntries (e :: older) rest).map fun r => (r.1, e :: r.2)

/-- `LSQ.next_ready()` (R138). -/
def Lsq.nextReady (q : Lsq) : Option (MemItem × Lsq) :=
  (dispatchEntries [] q.entries).map fun r => (r.1, { q with entries := r.2 })

/-- The walk of `forward_store` over the entries younger than the committing store: it stops at a younger store to
the same address, and passes over loads already dispatched (R142). -/
def forwardStoreTo (a w : Word) : List LsqEntry → List LsqEntry
  | [] => []
  | e :: rest =>
    if e.op = .sw ∧ e.addr = some a then e :: rest
    else if e.op = .lw ∧ e.addr = some a ∧ e.disp = false then { e with fwd := some w } :: forwardStoreTo a w rest
    else e :: forwardStoreTo a w rest

/-- `LSQ.forward_store(a, w)`, called with the committing store still at the head (R142). -/
def Lsq.forwardStore (q : Lsq) (a w : Word) : Lsq :=
  match q.entries with
  | [] => q
  | e :: rest => { q with entries := e :: forwardStoreTo a w rest }

/-- `LSQ.free()` (R143). -/
def Lsq.free (lsqSize : Nat) (q : Lsq) : Lsq where
  entries := q.entries.tail
  head := (q.head + 1) % lsqSize
  tail := q.tail
  nextSeq := q.nextSeq

/-- `LSQ.clear()`: the tail joins the head, and the position counter goes on (R133, R144). -/
def Lsq.clear (q : Lsq) : Lsq where
  entries := []
  head := q.head
  tail := q.head
  nextSeq := q.nextSeq

/-- The entry the LSQ head must be when the memory instruction in `slot` commits (R145). -/
def Lsq.headFor (q : Lsq) (slot : Nat) (op : MemOp) : Option LsqEntry :=
  match q.entries with
  | e :: _ => if e.tag = slot ∧ e.op = op then some e else none
  | [] => none

end Sys2Proof.Machine
end

