-- ==== Sys2Proof/Machine/Rename.lean ====
section
/-! DEFINITION. The register alias table and the reorder buffer (50_rename_rob). -/

namespace Sys2Proof.Machine

/-- `RAT[r] <- slot` (R105). -/
def State.remap (s : State) (r : RegId) (slot : Nat) : State := s.withRat (s.rat.set r (some slot))

/-- The RAT with every mapping cleared (R107). -/
def emptyRat : Vector (Option Nat) 32 := Vector.replicate 32 none

/-- The register part of commit (R106): the destination is written, and its mapping cleared only if it still names
the committing slot. -/
def State.commitReg (s : State) (dest : Option RegId) (v : Word) (slot : Nat) : State :=
  match dest with
  | none => s
  | some r =>
    let s' := s.setReg r v
    if s.alias? r = some slot then s'.withRat (s.rat.set r none) else s'

/-- `ROB.full()` (R109). -/
def Rob.full (robSize : Nat) (b : Rob) : Bool := b.count == robSize

/-- The recovery pc computed at issue (R112). -/
def recoveryPc (i : Instr) (pc : Word) : Word :=
  match i with
  | .beq _ _ target => target
  | .j target => target
  | _ => pc + 1

/-- The entry `ROB.add` makes (R110, R111). -/
def robEntryOf (i : Instr) (pc : Word) : RobEntry where
  op := i.op
  dest := i.dest
  result := none
  rpc := recoveryPc i pc
  pc := pc
  done := false
  fault := none

/-- `ROB.add(I)` (R110).  The slot allocated is the tail before it. -/
def Rob.add (robSize : Nat) (b : Rob) (i : Instr) (pc : Word) : Rob where
  slots := b.slots.set b.tail (some (robEntryOf i pc))
  head := b.head
  tail := (b.tail + 1) % robSize
  count := b.count + 1

/-- `ROB.complete(s, v, f)` (R113). -/
def Rob.complete (b : Rob) (slot : Nat) (v : Word) (f : Option SlotFault) : Rob :=
  match b.entry? slot with
  | some e => { b with slots := b.slots.set slot (some { e with result := some v, fault := f, done := true }) }
  | none => b

/-- `ROB.free()` (R115); the freed slot holds nothing (log 7). -/
def Rob.free (robSize : Nat) (b : Rob) : Rob where
  slots := b.slots.set b.head none
  head := (b.head + 1) % robSize
  tail := b.tail
  count := b.count - 1

/-- `ROB.clear_on_flush()` (R116): the head moves past the branch and the tail joins it. -/
def Rob.clearOnFlush (robSize : Nat) (b : Rob) : Rob where
  slots := b.slots.map fun _ => none
  head := (b.head + 1) % robSize
  tail := (b.head + 1) % robSize
  count := 0

end Sys2Proof.Machine
end

