-- ==== Sys2Proof/Machine/Stations.lean ====
section
/-! DEFINITION. The reservation-station pool (51_rs_alu). -/

namespace Sys2Proof.Machine

/-- The pool `RS` (R31). -/
abbrev Stations := List (Option RsEntry)

/-- `RS.full()`: no station is free (R119). -/
def Stations.full (p : Stations) : Bool := p.all Option.isSome

/-- An optional source register read at issue; the operand of an instruction that has none is `Val(0)` (R120). -/
def State.readSource (s : State) (r : Option RegId) : Operand :=
  match r with
  | some r => s.readOperand r
  | none => .val 0

/-- The second operand an RS entry is filled with: the second source, or the immediate of `addi` (R120). -/
def State.secondOperand (s : State) (i : Instr) : Operand :=
  match i with
  | .addi _ _ imm => .val imm
  | i => s.readSource i.src2

/-- The entry `RS.add` makes (R120). -/
def State.rsEntryOf (s : State) (i : Instr) (slot : Nat) : RsEntry where
  tag := slot
  op := i.op
  o1 := s.readSource i.src1
  o2 := s.secondOperand i

/-- The entry is stored in the lowest-numbered free station (R121). -/
def Stations.add : Stations → RsEntry → Stations
  | [], _ => []
  | none :: rest, e => some e :: rest
  | some o :: rest, e => some o :: Stations.add rest e

/-- A broadcast seen by one station (R122). -/
def RsEntry.capture (t : Nat) (v : Word) (e : RsEntry) : RsEntry :=
  { e with o1 := e.o1.capture t v, o2 := e.o2.capture t v }

/-- `RS.capture(t, v)`: every station is examined (R122). -/
def Stations.capture (p : Stations) (t : Nat) (v : Word) : Stations := p.map (Option.map (RsEntry.capture t v))

/-- What is dispatched of an entry whose operands are both resolved (R123, R124). -/
def RsEntry.ready? (e : RsEntry) : Option ExecItem :=
  match e.o1, e.o2 with
  | .val a, .val b => some ⟨e.tag, e.op, a, b⟩
  | _, _ => none

/-- `RS.next_ready()`: the ready entry in the lowest station, evicted (R124). -/
def Stations.nextReady : Stations → Option (ExecItem × Stations)
  | [] => none
  | none :: rest => (Stations.nextReady rest).map fun r => (r.1, none :: r.2)
  | some e :: rest =>
    match e.ready? with
    | some item => some (item, none :: rest)
    | none => (Stations.nextReady rest).map fun r => (r.1, some e :: r.2)

/-- `RS.clear()` (R125). -/
def Stations.clear (p : Stations) : Stations := p.map fun _ => none

end Sys2Proof.Machine
end

