-- ==== Sys2Proof/Machine/Engine.lean ====
section
/-! DEFINITION. The cycle engine (54_cycle_engine): the eight stages, the flush, the sub-step and the outer cycle. -/

namespace Sys2Proof.Machine

/-- How a stage or a sub-step ends (R159, R160). -/
inductive SubResult where
  | cont (s : State)
  | flush (s : State)
  | halt (s : State)
  | fatal (s : State)
  /-- An assertion the spec lets a model keep has failed (log 8). -/
  | broken (f : Fault)
deriving DecidableEq, Repr

/-- The next stage runs only after one that lets the sub-step go on: "the first `raise` wins" (R191). -/
def SubResult.andThen (r : SubResult) (k : State → SubResult) : SubResult :=
  match r with
  | .cont s => k s
  | .flush s => .flush s
  | .halt s => .halt s
  | .fatal s => .fatal s
  | .broken f => .broken f

/-- The property `P` holds of the state a stage or a sub-step ends in, if it ends in one. -/
def SubResult.all (P : State → Prop) : SubResult → Prop
  | .cont s | .flush s | .halt s | .fatal s => P s
  | .broken _ => True

/-! ### Inter-stage queues (R35) -/

/-- `|Q|`: both parts together. -/
def Fifo.size {α : Type} (q : Fifo α) : Nat := q.visible.length + q.pending.length

/-- `|Q| < Q_CAP` (R15, R172). -/
def Fifo.hasRoom {α : Type} (cap : Option Nat) (q : Fifo α) : Bool := cap.all (q.size < ·)

/-- `Q.push(i)`. -/
def Fifo.push {α : Type} (q : Fifo α) (i : α) : Fifo α := { q with pending := q.pending ++ [i] }

/-- `Q.pop()` from the visible part. -/
def Fifo.pop {α : Type} (q : Fifo α) : Fifo α := { q with visible := q.visible.tail }

/-- The pending part joins the visible part (R171). -/
def Fifo.settle {α : Type} (q : Fifo α) : Fifo α := ⟨q.visible ++ q.pending, []⟩

/-- Every queue settled (R171). -/
def Queues.settle (q : Queues) : Queues := ⟨q.fq.settle, q.iq.settle, q.eq.settle, q.mq.settle, q.wq.settle⟩

/-- All five queues empty, both parts (R171, R184). -/
def Queues.isEmpty (q : Queues) : Bool :=
  q.fq.size == 0 && q.iq.size == 0 && q.eq.size == 0 && q.mq.size == 0 && q.wq.size == 0

/-! ### The stages -/

/-- Stage 1, fetch (R161). -/
def stageFetch (s : State) : State :=
  match s.imem? s.pc, s.queues.fq.hasRoom s.params.qCap with
  | some code, true =>
    let p := s.pred.predict s.cfgPolicy s.pc
    ((s.withPred p.1).withQueues { s.queues with fq := s.queues.fq.push ⟨code, s.pc⟩ }).withPc p.2
  | _, _ => s

/-- Stage 2, decode (R162).  A decode failure is fatal at once, on any path (R71, R182, R183). -/
def stageDecode (s : State) : SubResult :=
  match s.queues.fq.visible, s.queues.iq.hasRoom s.params.qCap with
  | item :: _, true =>
    let popped := { s.queues with fq := s.queues.fq.pop }
    match decode s.symtab item.code with
    | .ok i => .cont (s.withQueues { popped with iq := s.queues.iq.push ⟨i, item.pc⟩ })
    | .error e => .fatal ((s.withQueues popped).raise (decodeErrorOf e))
  | _, _ => .cont s

/-- Whether the structure an instruction's class needs can take it (R119, R130, R163). -/
def State.issueBlocked (s : State) (c : OpClass) : Bool :=
  s.rob.full s.params.robSize ||
    match c with
    | .load | .store => s.lsq.full s.params.lsqSize
    | .arith | .imm | .branch | .jump => Stations.full s.rs

/-- The issue of one instruction that is not blocked (R163): a ROB slot, an LSQ or RS entry with its operands read
before the destination is remapped, then the remap. -/
def State.issue (s : State) (i : Instr) (pc : Word) : State :=
  let slot := s.rob.tail
  let s1 := s.withRob (s.rob.add s.params.robSize i pc)
  let s2 :=
    match s1.lsqEntryOf i slot with
    | some e => s1.withLsq (s1.lsq.add s.params.lsqSize e)
    | none => s1.withRs (Stations.add s1.rs (s1.rsEntryOf i slot))
  match i.dest with
  | some r => s2.remap r slot
  | none => s2

/-- Stage 3, issue (R163).  A blocked instruction stays at the front of `IQ` (R185). -/
def stageIssue (s : State) : State :=
  match s.queues.iq.visible with
  | [] => s
  | item :: _ =>
    if s.issueBlocked item.instr.cls then s
    else (s.withQueues { s.queues with iq := s.queues.iq.pop }).issue item.instr item.pc

/-- The first half of stage 4: at most one ready RS entry (R164). -/
def dispatchStation (s : State) : State :=
  if s.queues.eq.hasRoom s.params.qCap then
    match Stations.nextReady s.rs with
    | some (item, rs') => (s.withRs rs').withQueues { s.queues with eq := s.queues.eq.push item }
    | none => s
  else s

/-- The second half of stage 4: the forward scan, then at most one ready LSQ entry (R164). -/
def dispatchMemory (s : State) : State :=
  let s1 := s.withLsq s.lsq.forwardScan
  if s1.queues.mq.hasRoom s1.params.qCap then
    match s1.lsq.nextReady with
    | some (item, lsq') => (s1.withLsq lsq').withQueues { s1.queues with mq := s1.queues.mq.push item }
    | none => s1
  else s1

/-- Stage 4, dispatch (R164). -/
def stageDispatch (s : State) : State := dispatchMemory (dispatchStation s)

/-- A result pushed for writeback. -/
def State.pushWrite (s : State) (w : WriteItem) : State :=
  s.withQueues { s.queues with wq := s.queues.wq.push w }

/-- A poisoned result pushed for writeback with its fault (R127, R190); the value is drawn (log 3). -/
def State.pushPoisoned (s : State) (tag : Nat) (f : SlotFault) : State :=
  (s.pushWrite ⟨tag, Config.poison s.poisonSeq, some f⟩).withPoisonSeq (s.poisonSeq + 1)

/-- Stage 5, execute (R165).  An opcode the unit does not know is fatal (R128). -/
def stageExecute (s : State) : SubResult :=
  match s.queues.eq.visible, s.queues.wq.hasRoom s.params.qCap with
  | item :: _, true =>
    let s1 := s.withQueues { s.queues with eq := s.queues.eq.pop }
    match alu item.op item.v1 item.v2 with
    | .value v => .cont (s1.pushWrite ⟨item.tag, v, none⟩)
    | .arithmeticFault => .cont (s1.pushPoisoned item.tag .arithmetic)
    | .unsupported => .fatal (s1.raise .unsupportedOpcodeError)
  | _, _ => .cont s

/-- The memory stage's evaluation of one item: a load takes its forwarded value, else reads memory, else is poisoned
(R139); a store passes its value through (R140). -/
def State.evalMemory (s : State) (m : MemItem) : State :=
  match m with
  | .load tag _ (some w) => s.pushWrite ⟨tag, w, none⟩
  | .load tag a none =>
    match s.loadCell a with
    | some v => s.pushWrite ⟨tag, v, none⟩
    | none => s.pushPoisoned tag (.memoryAddress a)
  | .store tag _ w => s.pushWrite ⟨tag, w, none⟩

/-- Stage 6, memory (R166). -/
def stageMemory (s : State) : State :=
  match s.queues.mq.visible, s.queues.wq.hasRoom s.params.qCap with
  | item :: _, true => (s.withQueues { s.queues with mq := s.queues.mq.pop }).evalMemory item
  | _, _ => s

/-- Stage 7, writeback (R167): one result is broadcast and its slot completed. -/
def stageWriteback (s : State) : State :=
  match s.queues.wq.visible with
  | item :: _ =>
    (((s.withQueues { s.queues with wq := s.queues.wq.pop }).withRs (Stations.capture s.rs item.tag item.value)).withLsq
      (s.lsq.capture item.tag item.value)).withRob (s.rob.complete item.tag item.value item.fault)
  | [] => s

/-- `flush(correct)` (R169). -/
def State.flush (s : State) (correct : Word) : State :=
  (((((s.withRat emptyRat).withQueues Queues.empty).withRs (Stations.clear s.rs)).withLsq s.lsq.clear).withRob
    (s.rob.clearOnFlush s.params.robSize)).withPc correct

/-- The part of commit common to all classes: the register, the ROB head, the count, the halt test (R168). -/
def State.finishCommit (s : State) (e : RobEntry) (v : Word) : SubResult :=
  let s1 := ((s.commitReg e.dest v s.rob.head).withRob (s.rob.free s.params.robSize)).withExecuted (s.executed + 1)
  if s1.reg Config.haltReg = 1 then .halt (s1.withStatus .halted) else .cont s1

/-- The commit of a store (R141): the address check, the write, the forward to younger loads, the LSQ head. -/
def State.commitStore (s : State) (e : RobEntry) (v : Word) : SubResult :=
  match (s.lsq.headFor s.rob.head .sw).bind LsqEntry.addr with
  | none => .broken .lsqHeadMismatch
  | some a =>
    match s.storeCell a v with
    | none => .fatal (s.raise (.memoryAddressFault a))
    | some s1 => (s1.withLsq ((s.lsq.forwardStore a v).free s.params.lsqSize)).finishCommit e v

/-- The commit of a load frees the LSQ head (R143, R168). -/
def State.commitLoad (s : State) (e : RobEntry) (v : Word) : SubResult :=
  match s.lsq.headFor s.rob.head .lw with
  | none => .broken .lsqHeadMismatch
  | some _ => (s.withLsq (s.lsq.free s.params.lsqSize)).finishCommit e v

/-- The commit of a branch or jump (R168): validation, and the flush of a misprediction, counted once (R169,
R174). -/
def State.commitBranch (s : State) (e : RobEntry) (v : Word) : SubResult :=
  let c := s.pred.check s.cfgPolicy e.pc e.rpc v
  let s1 := s.withPred c.pred
  if c.ok then s1.finishCommit e v
  else .flush ((s1.flush c.correct).withExecuted (s.executed + 1))

/-- The commit of the head entry, known to be complete (R168); a recorded fault is raised before any effect (R187,
R190, R191). -/
def State.commitEntry (s : State) (e : RobEntry) : SubResult :=
  match e.fault, e.result with
  | some f, _ => .fatal (s.raise f.error)
  | none, none => .broken .resultAbsent
  | none, some v =>
    match e.op.cls with
    | .branch | .jump => s.commitBranch e v
    | .store => s.commitStore e v
    | .load => s.commitLoad e v
    | .arith | .imm => s.finishCommit e v

/-- Stage 8, commit (R114, R168). -/
def stageCommit (s : State) : SubResult :=
  if s.rob.count = 0 then .cont s
  else
    match s.rob.entry? s.rob.head with
    | none => .broken .robHeadAbsent
    | some e => if e.done then s.commitEntry e else .cont s

/-- The end of a sub-step that goes on (R171): the queues settle, and an out-of-range `PC` with nothing in flight is
fatal (R184). -/
def endOfSubstep (s : State) : SubResult :=
  let s1 := s.withQueues s.queues.settle
  if !s1.pcInRange s1.pc && s1.queues.isEmpty && s1.rob.count == 0 then
    .fatal (s1.raise (.programCounterOutOfRange s1.pc))
  else .cont s1

/-- The first seven stages of a sub-step (R160): what the commit stage sees, if no error ends them. -/
def beforeCommit (s : State) : SubResult :=
  (stageDecode (stageFetch s)).andThen fun s2 =>
    (stageExecute (stageDispatch (stageIssue s2))).andThen fun s5 => .cont (stageWriteback (stageMemory s5))

/-- One sub-step (R160): the eight stages in order, then its end. -/
def substep (s : State) : SubResult :=
  (beforeCommit s).andThen fun u => (stageCommit u).andThen endOfSubstep

/-- Up to `n` sub-steps, ended early by a flush, a halt or a fatal error (R159). -/
def subLoop : Nat → State → SubResult
  | 0, s => .cont s
  | n + 1, s => (substep s).andThen (subLoop n)

/-- One outer cycle (R159), which counts unless it ends in a fatal error (R173). -/
def runCycle (s : State) : Host.Outcome State Fault Refusal :=
  match subLoop s.cfgWidth.toNat s with
  | .cont t | .flush t | .halt t => .next (t.withCycles (t.cycles + 1))
  | .fatal t => .next t
  | .broken f => .fault f

/-- `cycle`, which does nothing unless the core is running (R158).  A configuration R189 refuses never runs. -/
def cycle (s : State) : Host.Outcome State Fault Refusal :=
  if !s.running then .next s
  else if !s.configured then .next (s.raise .configError)
  else runCycle s

end Sys2Proof.Machine
end

