-- ==== Sys2Proof/Machine/Arithmetic.lean ====
section
/-! DEFINITION. The arithmetic class (40_arithmetic): the architectural effect of each instruction, in program
order (R84, R178). -/

namespace Sys2Proof.Machine

/-- `add $d $s $t` (R85). -/
def execAdd (rd rs rt : RegId) (s : State) : Host.Outcome State Fault Refusal :=
  .next (s.retireReg rd (aluAdd (s.reg rs) (s.reg rt)))

/-- `sub $d $s $t` (R86). -/
def execSub (rd rs rt : RegId) (s : State) : Host.Outcome State Fault Refusal :=
  .next (s.retireReg rd (aluSub (s.reg rs) (s.reg rt)))

/-- `mul $d $s $t` (R87). -/
def execMul (rd rs rt : RegId) (s : State) : Host.Outcome State Fault Refusal :=
  .next (s.retireReg rd (aluMul (s.reg rs) (s.reg rt)))

/-- `div $d $s $t`, the non-truncating division (R88, R92). -/
def execDiv (rd rs rt : RegId) (s : State) : Host.Outcome State Fault Refusal :=
  .next (s.retireDivision rd (aluDiv (s.reg rs) (s.reg rt)))

/-- `idiv $d $s $t`, the truncating division (R89, R92). -/
def execIdiv (rd rs rt : RegId) (s : State) : Host.Outcome State Fault Refusal :=
  .next (s.retireDivision rd (aluIdiv (s.reg rs) (s.reg rt)))

/-- `mod $d $s $t`, the remainder of the truncating division (R90, R92). -/
def execMod (rd rs rt : RegId) (s : State) : Host.Outcome State Fault Refusal :=
  .next (s.retireDivision rd (aluMod (s.reg rs) (s.reg rt)))

end Sys2Proof.Machine
end

