-- ==== Sys2Proof/Machine/Control.lean ====
section
/-! DEFINITION. The control-transfer classes (43_control).  Targets are absolute instruction indices (R99). -/

namespace Sys2Proof.Machine

/-- `beq $s $t target` (R100). -/
def execBeq (rs rt : RegId) (target : Word) (s : State) : Host.Outcome State Fault Refusal :=
  .next (s.retireBranch target (truthWord (beqTaken (s.reg rs) (s.reg rt))))

/-- `j target` (R101): "jump always evaluates to taken". -/
def execJ (target : Word) (s : State) : Host.Outcome State Fault Refusal :=
  .next (s.retireBranch target (truthWord true))

end Sys2Proof.Machine
end

