-- ==== Sys2Proof/Machine/Immediate.lean ====
section
/-! DEFINITION. The immediate-arithmetic class (41_immediate). -/

namespace Sys2Proof.Machine

/-- `addi $t $s imm` (R93).  The halt idiom of R94 is this instruction with destination 31. -/
def execAddi (rt rs : RegId) (imm : Word) (s : State) : Host.Outcome State Fault Refusal :=
  .next (s.retireReg rt (aluAdd (s.reg rs) imm))

end Sys2Proof.Machine
end

