-- ==== Sys2Proof/Machine/LoadStore.lean ====
section
/-! DEFINITION. The memory classes (42_loadstore). -/

namespace Sys2Proof.Machine

/-- `lw $t imm($s)` (R95, R96): the whole cell, or `MemoryAddressFault` with nothing read or written (R188). -/
def execLw (rt : RegId) (imm : Word) (rs : RegId) (s : State) : Host.Outcome State Fault Refusal :=
  match s.loadCell (effAddr (s.reg rs) imm) with
  | some v => .next (s.retireReg rt v)
  | none => .next (s.raise (.memoryAddressFault (effAddr (s.reg rs) imm)))

/-- `sw $t imm($s)` (R95, R97): the whole cell is written, or `MemoryAddressFault` and nothing is (R188). -/
def execSw (rt : RegId) (imm : Word) (rs : RegId) (s : State) : Host.Outcome State Fault Refusal :=
  match s.storeCell (effAddr (s.reg rs) imm) (s.reg rt) with
  | some s' => .next (s'.retire (s.pc + 1))
  | none => .next (s.raise (.memoryAddressFault (effAddr (s.reg rs) imm)))

end Sys2Proof.Machine
end

