-- ==== Sys2Proof/Machine/Fetch.lean ====
section
/-! DEFINITION. The sequential reference machine (R178), one instruction a step, over the same state: the fetch of the
instruction at `PC`, its decoding, its meaning. -/

namespace Sys2Proof.Machine

/-- The instruction at `PC` run in program order (R178).  The prediction that every fetch records (R153) is recorded,
so that the validation counters of R212 are those of the scheduled core. -/
def fetchAndExec (s : State) : Host.Outcome State Fault Refusal :=
  match s.imem? s.pc with
  | none => .next (s.raise (.programCounterOutOfRange s.pc))
  | some code =>
    match decode s.symtab code with
    | .error e => .next (s.raise (decodeErrorOf e))
    | .ok i => exec i s.recordPrediction

/-- One step of the reference machine (R178): nothing unless running; it stops when `x[31] = 1`, and otherwise runs
the instruction at `PC`. -/
def referenceStep (s : State) : Host.Outcome State Fault Refusal :=
  if !s.running then .next s
  else if !s.configured then .next (s.raise .configError)
  else if s.reg Config.haltReg = 1 then .next s.haltTest
  else fetchAndExec s

/-- The program with the instruction `c` at index `at_`; a program that does not reach so far is `c` alone. -/
def placeCode (prog : List Code) (at_ : Nat) (c : Code) : List Code :=
  if at_ < prog.length then prog.set at_ c else [c]

/-- `s` with the word `w` placed in instruction memory where the next fetch reads (log 10): at `PC` when `PC` is in
range, else as a program of one instruction with `PC` at its only index. -/
def loadFetchWord (s : State) (w : BitVec 64) : State :=
  if s.pcInRange s.pc then s.withProg (placeCode s.prog s.pc.toNat (.word w))
  else (s.withProg [.word w]).withPc 0

end Sys2Proof.Machine
end

