-- ==== Sys2Proof/Machine/Step.lean ====
section
/-! DEFINITION. One step of the machine: an outer cycle of the scheduled core (R158, R159) or one instruction of the
reference machine (R178), as the parameters say (log 4). -/

namespace Sys2Proof.Machine

/-- One step. -/
def step (s : State) : Host.Outcome State Fault Refusal :=
  match s.params.engine with
  | .scheduled => cycle s
  | .reference => referenceStep s

/-- `s` with the instruction word `w` (its low `nbits` bits, all above them zero) where the next step fetches. -/
def State.withFetchWord (s : State) (nbits w : Nat) : State :=
  loadFetchWord s (BitVec.ofNat 64 (w % 2 ^ nbits))

end Sys2Proof.Machine
end

