-- ==== Sys2Proof/Machine/Observe.lean ====
section
/-! DEFINITION. What the environment reads of the core (R41, R158, R200). -/

namespace Sys2Proof.Machine

/-- The observables of R41. -/
structure Observation where
  regs : Vector Word 32
  mem : Memory
  status : Status
  running : Bool
  executed : Nat
  cycles : Nat
  accuracy : ℚ
  averageDistance : ℚ
deriving DecidableEq

/-- The observation of a state (R41, R200). -/
def State.observe (s : State) : Observation where
  regs := s.regs
  mem := s.mem
  status := s.status
  running := s.running
  executed := s.executed
  cycles := s.cycles
  accuracy := s.pred.accuracy
  averageDistance := s.pred.averageDistance

/-- Nothing is in flight: every queue, the ROB, the stations, the LSQ and the alias table are empty, as after reset
or a flush (R40, R169). -/
def State.drained (s : State) : Bool :=
  s.queues == Queues.empty && s.rob.count == 0 && s.rob.slots.all Option.isNone && s.rs.all Option.isNone &&
    s.lsq.entries.isEmpty && s.rat == emptyRat

end Sys2Proof.Machine
end

