-- ==== Sys2Proof/Safety.lean ====
section
/-! DEFINITION. The terms statements use: what an instruction leaves alone, what a register write, a store and a raised
error are, what a safe run is, and the invariants of the core. -/

namespace Sys2Proof

/-! ### Inputs -/

/-- The inputs with another choice of the machine a step advances (R178; log 4). -/
def Inputs.withEngine (i : Inputs) (e : Engine) : Inputs := { i with params := { i.params with engine := e } }

/-- Every line of the program decodes (R178: "provided every instruction the core decodes on any path is
well-formed"). -/
def Inputs.linesDecode (i : Inputs) : Prop := ∀ c ∈ i.prog, ∃ j, decode i.symtab c = .ok j

/-! ### The opcode table -/

/-- The mask of an opcode's row in opcode_table.json: its opcode number and its must-be-zero fields. -/
def tableMask : OpClass → BitVec 64
  | .arith => 0xFF0001FFFFFFFFFF
  | .imm | .load | .store | .branch => 0xFF003FFF00000000
  | .jump => 0xFFFFFFFF00000000

/-- The match of an opcode's row in opcode_table.json. -/
def tableMatch : Op → BitVec 64
  | .add => 0x0100000000000000
  | .sub => 0x0200000000000000
  | .mul => 0x0300000000000000
  | .div => 0x0400000000000000
  | .idiv => 0x0500000000000000
  | .mod => 0x0600000000000000
  | .addi => 0x0800000000000000
  | .lw => 0x1000000000000000
  | .sw => 0x1100000000000000
  | .beq => 0x1800000000000000
  | .j => 0x1C00000000000000

end Sys2Proof

namespace Sys2Proof.Machine

/-! ### Frames -/

/-- Everything but the registers, memory, `PC`, `STATUS`, `executed` and the predictor is as before. -/
def sameMachine (s t : State) : Prop :=
  t.params = s.params ∧ t.prog = s.prog ∧ t.symtab = s.symtab ∧ t.rat = s.rat ∧ t.rob = s.rob ∧ t.rs = s.rs ∧
    t.lsq = s.lsq ∧ t.queues = s.queues ∧ t.cycles = s.cycles ∧ t.cfgPolicy = s.cfgPolicy ∧
    t.cfgWidth = s.cfgWidth ∧ t.poisonSeq = s.poisonSeq

/-- Every cell of memory reads as before. -/
def sameCells (s t : State) : Prop := ∀ a, t.mem.read a = s.mem.read a

/-- Every cell of memory but one reads as before. -/
def sameCellsBut (k : Nat) (s t : State) : Prop := ∀ a, a ≠ k → t.mem.read a = s.mem.read a

/-- Every register holds what it held. -/
def sameRegs (s t : State) : Prop := ∀ r, t.reg r = s.reg r

/-- Every register but one holds what it held. -/
def sameRegsBut (d : RegId) (s t : State) : Prop := ∀ r, r ≠ d → t.reg r = s.reg r

/-- The status after an instruction that raises nothing (R20, R170): `Halted` if register 31 then holds 1, else as
before. -/
def haltRule (s t : State) : Prop := t.status = if t.reg 31 = 1 then .halted else s.status

/-- `t` is `s` with one instruction done, at `next`, whatever it wrote: it is counted, and the halt register is
tested. -/
def completes (next : Word) (s t : State) : Prop :=
  t.pc = next ∧ t.executed = s.executed + 1 ∧ haltRule s t ∧ sameMachine s t

/-- `t` is `s` with one instruction done that wrote `v` to register `d` and nothing else. -/
def writesRegister (d : RegId) (v : Word) (s t : State) : Prop :=
  t.reg d = v ∧ sameRegsBut d s t ∧ sameCells s t ∧ t.pred = s.pred ∧ completes (s.pc + 1) s t

/-- `t` is `s` with one instruction done that wrote `v` to cell `k` and nothing else. -/
def writesCell (k : Nat) (v : Word) (s t : State) : Prop :=
  t.mem.read k = v ∧ sameCellsBut k s t ∧ sameRegs s t ∧ t.pred = s.pred ∧ completes (s.pc + 1) s t

/-! ### Issue -/

/-- The operands of the RS entry of an instruction, by the table of R120, with `read` the operand read; none for a load
or store, which has no RS entry. -/
def stationOperands (read : RegId → Operand) : Instr → Option (Operand × Operand)
  | .add _ rs rt | .sub _ rs rt | .mul _ rs rt | .div _ rs rt | .idiv _ rs rt | .mod _ rs rt =>
    some (read rs, read rt)
  | .addi _ rs imm => some (read rs, .val imm)
  | .beq rs rt _ => some (read rs, read rt)
  | .j _ => some (.val 0, .val 0)
  | .lw .. | .sw .. => none

/-- The address of an LSQ entry at issue: known when its base is a value (R131, R132). -/
def issueAddress (base : Operand) (imm : Word) : Option Word :=
  match base with
  | .val v => some (wrap (v.toInt + imm.toInt))
  | .tag _ => none

/-- The LSQ entry of a load or store (R131, R132), with `read` the operand read; none for any other instruction. -/
def queuedEntry (read : RegId → Operand) (slot seq : Nat) : Instr → Option LsqEntry
  | .lw _ imm rs => some ⟨slot, .lw, read rs, imm, issueAddress (read rs) imm, none, none, seq, false⟩
  | .sw rt imm rs => some ⟨slot, .sw, read rs, imm, issueAddress (read rs) imm, some (read rt), none, seq, false⟩
  | .add .. | .sub .. | .mul .. | .div .. | .idiv .. | .mod .. | .addi .. | .beq .. | .j .. => none

/-! ### Runs -/

/-- The core is in the fatal state (R192). -/
def State.isFatal (s : State) : Bool :=
  match s.status with
  | .fatal _ => true
  | .running | .halted => false

/-- A run of `n` steps from `s` that no assertion of the model stops and that has not become fatal. -/
def safeFor (n : Nat) (s : State) : Prop :=
  match Sys2Proof.core.run n s with
  | .next t => t.isFatal = false
  | .fault _ | .refused _ => False

/-- A safe run: no number of steps ends it in a fatal error (R200). -/
def safeRun (s : State) : Prop := ∀ n, safeFor n s

/-! ### Invariants -/

/-- Every listed cell lies in memory (R45, R188). -/
def memInside (s : State) : Prop := ∀ c ∈ s.mem, c.1 < s.params.memSize

/-- While the core runs, the halt register does not hold 1 (R26, R170). -/
def runningNotHalted (s : State) : Prop := s.status = .running → s.reg 31 ≠ 1

/-- The ROB is a circular buffer (R29): its size, its registers, and its live slots, which are the `count` slots from
`head` on and no others. -/
def robShape (s : State) : Prop :=
  s.rob.slots.length = s.params.robSize ∧ s.rob.head < s.params.robSize ∧ s.rob.count ≤ s.params.robSize ∧
    s.rob.tail = (s.rob.head + s.rob.count) % s.params.robSize ∧
      ∀ k, k < s.params.robSize →
        ((s.rob.entry? ((s.rob.head + k) % s.params.robSize)).isSome ↔ k < s.rob.count)

/-- The pool keeps its size (R31). -/
def stationsShape (s : State) : Prop := s.rs.length = s.params.rsSize

/-- The LSQ is a circular buffer (R33). -/
def lsqShape (s : State) : Prop :=
  s.lsq.entries.length ≤ s.params.lsqSize ∧ s.lsq.head < s.params.lsqSize ∧
    s.lsq.tail = (s.lsq.head + s.lsq.entries.length) % s.params.lsqSize

/-- A queue holds at most `Q_CAP` items (R15, R34). -/
def queueFits {α : Type} (s : State) (q : Fifo α) : Prop := ∀ c, s.params.qCap = some c → q.size ≤ c

/-- The five queues hold at most `Q_CAP` items each. -/
def queuesShape (s : State) : Prop :=
  queueFits s s.queues.fq ∧ queueFits s s.queues.iq ∧ queueFits s s.queues.eq ∧ queueFits s s.queues.mq ∧
    queueFits s s.queues.wq

/-- Every structure has the shape and the bounds the spec gives it. -/
def structuresSound (s : State) : Prop := robShape s ∧ stationsShape s ∧ lsqShape s ∧ queuesShape s

/-- R42: a mapping names a live slot whose destination is the register, and the youngest such. -/
def ratSound (s : State) : Prop :=
  ∀ r slot, s.alias? r = some slot →
    ∃ k, k < s.rob.count ∧ slot = (s.rob.head + k) % s.params.robSize ∧
      (∃ e, s.rob.entry? slot = some e ∧ e.dest = some r) ∧
      ∀ j e, k < j → j < s.rob.count → s.rob.entry? ((s.rob.head + j) % s.params.robSize) = some e →
        e.dest ≠ some r

/-- R157: under `not-taken` every entry of the table is the next instruction. -/
def btbBetsOnNext (s : State) : Prop :=
  s.cfgPolicy = .notTaken → ∀ pc t, s.pred.target? pc = some t → t = pc + 1

end Sys2Proof.Machine
end

