-- ==== Sys2Proof/Certificates/Slice0/Obligations.lean ====
section
/-! DEFINITION. The statements made about this model, for the provers. -/

open Sys2Proof Sys2Proof.Machine

/-! ### Encoding and decoding -/

/-- Decode and encode agree on every instruction, with every operand at every value (R73 to R77). -/
def Obligations.DecodeOfEncodeIsTheInstruction : Prop := ∀ i : Instr, decodeWord (encode i) = .ok i

/-- A word that decodes is the encoding of what it decodes to: one layout, one word for each instruction (R73,
R77). -/
def Obligations.DecodedWordIsItsEncoding : Prop :=
  ∀ (w : BitVec 64) (i : Instr), decodeWord w = .ok i → encode i = w

/-- The text form of every instruction decodes to it, under every symbol table (R60, R62 to R69).  That this holds also
of a table with a numeral as a label's text is the model's choice: a literal is never looked up as a label (log 12,
DEDUCED). -/
def Obligations.DecodeOfPrintedLineIsTheInstruction : Prop :=
  ∀ (sym : SymTab) (i : Instr), decodeText sym (printLine i) = .ok i

/-- Six words of vector V-ENC-1, one of each class of opcode, decode to the instruction the vector gives. -/
def Obligations.SpecWordsDecode : Prop :=
  decodeWord 0x0118440000000000 = .ok (.add 3 1 2) ∧
    decodeWord 0x0829800080000000 = .ok (.addi 5 6 (-2147483648)) ∧
      decodeWord 0x1021C000FFFFFFFE = .ok (.lw 4 (-2) 7) ∧
        decodeWord 0x11FFC0007FFFFFFF = .ok (.sw 31 2147483647 31) ∧
          decodeWord 0x1808800000000009 = .ok (.beq 1 2 9) ∧ decodeWord 0x1C000000FFFFFFFF = .ok (.j (-1))

/-- Every opcode number but the eleven of R74, and every first token but the eleven mnemonics, selects no instruction,
whatever follows it (R72). -/
def Obligations.UnknownOpcodeIsUnsupported : Prop :=
  (∀ w : BitVec 64,
    w.extractLsb' 56 8 ∉
        ([0x01, 0x02, 0x03, 0x04, 0x05, 0x06, 0x08, 0x10, 0x11, 0x18, 0x1C] : List (BitVec 8)) →
      decodeWord w = .error .unsupportedOpcode) ∧
    ∀ (sym : SymTab) (l t : Line) (rest : List Line), tokens l = t :: rest → (∀ o, opText o ≠ t) →
      decodeText sym l = .error .unsupportedOpcode

/-- The decoder accepts a word as an instruction of an opcode exactly when the word meets the mask and match of that
opcode's row in opcode_table.json. -/
def Obligations.DecoderAcceptsExactlyTheTableRows : Prop :=
  ∀ (w : BitVec 64) (o : Op),
    (∃ i, decodeWord w = .ok i ∧ i.op = o) ↔
      w &&& tableMask o.cls = tableMatch o

/-- A known opcode with a bit set that must be zero is malformed, not another instruction (R71, R77). -/
def Obligations.ReservedBitsAreMalformed : Prop :=
  ∀ (w : BitVec 64) (o : Op),
    w.extractLsb' 56 8 = opNumber o → w &&& tableMask o.cls ≠ tableMatch o →
      decodeWord w = .error .malformed

/-! ### Arithmetic -/

/-- `add` writes the wrapped sum, and nothing else (R85). -/
def Obligations.AddWritesWrappedSum : Prop :=
  ∀ (rd rs rt : RegId) (s : State), ∃ t, exec (.add rd rs rt) s = .next t ∧
    writesRegister rd (wrap ((s.reg rs).toInt + (s.reg rt).toInt)) s t

/-- `sub` writes the wrapped difference, and nothing else (R86).  That `sub` subtracts, and the second source from the
first, is R86's sentence "from general knowledge, not in source" (log 19, PRESUMED). -/
def Obligations.SubWritesWrappedDifference : Prop :=
  ∀ (rd rs rt : RegId) (s : State), ∃ t, exec (.sub rd rs rt) s = .next t ∧
    writesRegister rd (wrap ((s.reg rs).toInt - (s.reg rt).toInt)) s t

/-- `mul` writes the wrapped product, and nothing else (R87).  That `mul` multiplies is R87's sentence "from general
knowledge, not in source" (log 19, PRESUMED). -/
def Obligations.MulWritesWrappedProduct : Prop :=
  ∀ (rd rs rt : RegId) (s : State), ∃ t, exec (.mul rd rs rt) s = .next t ∧
    writesRegister rd (wrap ((s.reg rs).toInt * (s.reg rt).toInt)) s t

/-- `div` by a divisor that is not zero writes the exact quotient when there is one, and else the value of the open
function `DIV_INEXACT`, of which this statement assumes nothing (R88).  That `rs` is the dividend and `rt` the divisor is
marked "from general knowledge, not in source" in R88 (log 19, PRESUMED). -/
def Obligations.DivWritesExactQuotientOrOpenValue : Prop :=
  ∀ (rd rs rt : RegId) (s : State), s.reg rt ≠ 0 → ∃ t, exec (.div rd rs rt) s = .next t ∧
    writesRegister rd
      (if (s.reg rt).toInt ∣ (s.reg rs).toInt then wrap ((s.reg rs).toInt / (s.reg rt).toInt)
      else Config.divInexact (s.reg rs).toInt (s.reg rt).toInt) s t

/-- `idiv` by a divisor that is not zero writes the quotient rounded toward zero (R89).  That `rs` is the dividend and
`rt` the divisor is marked "from general knowledge, not in source" in R89 (log 19, PRESUMED). -/
def Obligations.IdivWritesTruncatedQuotient : Prop :=
  ∀ (rd rs rt : RegId) (s : State), s.reg rt ≠ 0 → ∃ t, exec (.idiv rd rs rt) s = .next t ∧
    writesRegister rd (wrap (Int.tdiv (s.reg rs).toInt (s.reg rt).toInt)) s t

/-- `mod` by a divisor that is not zero writes the remainder of the truncating division (R90).  That `rs` is
the dividend and `rt` the divisor is marked "from general knowledge, not in source" in R90 (log 19, PRESUMED). -/
def Obligations.ModWritesTruncatedRemainder : Prop :=
  ∀ (rd rs rt : RegId) (s : State), s.reg rt ≠ 0 → ∃ t, exec (.mod rd rs rt) s = .next t ∧
    writesRegister rd
      (wrap ((s.reg rs).toInt - (s.reg rt).toInt * Int.tdiv (s.reg rs).toInt (s.reg rt).toInt)) s t

/-- A zero divisor raises `ArithmeticFault`, and nothing else changes: the destination is not written (R92,
R187).  That `rt` is the divisor is marked "from general knowledge, not in source" in R88 to R90 (log 19, PRESUMED). -/
def Obligations.DivisionByZeroRaisesAndWritesNothing : Prop :=
  ∀ (rd rs rt : RegId) (s : State), s.reg rt = 0 →
    exec (.div rd rs rt) s = .next { s with status := .fatal .arithmeticFault } ∧
      exec (.idiv rd rs rt) s = .next { s with status := .fatal .arithmeticFault } ∧
        exec (.mod rd rs rt) s = .next { s with status := .fatal .arithmeticFault }

/-- The corner cases of R89 and R90: the remainder read as an integer is smaller than the divisor, is zero or has the
sign of the dividend, and makes up the dividend with the truncated quotient. -/
def Obligations.ModIsZeroOrHasTheSignOfTheDividend : Prop :=
  ∀ (a b : Word), b ≠ 0 → ∃ r, alu .mod a b = .value r ∧
    r.toInt.natAbs < b.toInt.natAbs ∧ (r.toInt = 0 ∨ (r.toInt < 0 ↔ a.toInt < 0)) ∧
      a.toInt = b.toInt * Int.tdiv a.toInt b.toInt + r.toInt

/-- `addi` writes the wrapped sum of its source and the immediate as decoded (R93). -/
def Obligations.AddiWritesWrappedSum : Prop :=
  ∀ (rt rs : RegId) (imm : Word) (s : State), ∃ t, exec (.addi rt rs imm) s = .next t ∧
    writesRegister rt (wrap ((s.reg rs).toInt + imm.toInt)) s t

/-- The halt idiom `addi $31 $0 1` with `$0` holding 0 sets the halt register and halts (R94). -/
def Obligations.HaltIdiomHalts : Prop :=
  ∀ s : State, s.reg 0 = 0 →
    ∃ t, exec (.addi 31 0 1) s = .next t ∧ t.reg 31 = 1 ∧ t.status = .halted

/-- Only the value 1 in register 31 halts, and whichever instruction leaves it there (R20): an instruction that raises
no error ends `Halted` exactly when it leaves 1 in register 31. -/
def Obligations.OnlyTheValueOneHalts : Prop :=
  ∀ (i : Instr) (s t : State), s.status = .running → exec i s = .next t →
    (t.status = .halted → t.reg 31 = 1) ∧ (t.isFatal = false → t.reg 31 = 1 → t.status = .halted)

/-! ### Loads and stores -/

/-- `lw` from an address inside memory writes the whole cell to its destination (R96). -/
def Obligations.LwLoadsTheCell : Prop :=
  ∀ (rt rs : RegId) (imm : Word) (s : State),
    0 ≤ (wrap ((s.reg rs).toInt + imm.toInt)).toInt →
      (wrap ((s.reg rs).toInt + imm.toInt)).toInt < s.params.memSize →
        ∃ t, exec (.lw rt imm rs) s = .next t ∧
          writesRegister rt (s.mem.read (effAddr (s.reg rs) imm).toNat) s t ∧
            effAddr (s.reg rs) imm = wrap ((s.reg rs).toInt + imm.toInt)

/-- `sw` to an address inside memory writes the whole register to that cell and to no other (R97).  The premise on
memory is the invariant that `StepKeepsMemoryCanonical` states. -/
def Obligations.SwStoresTheRegister : Prop :=
  ∀ (rt rs : RegId) (imm : Word) (s : State), s.mem.wf →
    0 ≤ (wrap ((s.reg rs).toInt + imm.toInt)).toInt →
      (wrap ((s.reg rs).toInt + imm.toInt)).toInt < s.params.memSize →
        ∃ t, exec (.sw rt imm rs) s = .next t ∧
          writesCell (effAddr (s.reg rs) imm).toNat (s.reg rt) s t ∧
            effAddr (s.reg rs) imm = wrap ((s.reg rs).toInt + imm.toInt)

/-- A load or store whose address is outside memory raises `MemoryAddressFault` with that address, and nothing else
changes: nothing is read or written (R45, R96, R97, R188). -/
def Obligations.BadAddressRaisesAndTouchesNothing : Prop :=
  ∀ (rt rs : RegId) (imm a : Word) (s : State), a = wrap ((s.reg rs).toInt + imm.toInt) →
    ¬ (0 ≤ a.toInt ∧ a.toInt < s.params.memSize) →
      exec (.lw rt imm rs) s = .next { s with status := .fatal (.memoryAddressFault a) } ∧
        exec (.sw rt imm rs) s = .next { s with status := .fatal (.memoryAddressFault a) }

/-! ### Control transfer -/

/-- `beq` goes on at its absolute target when its registers are equal and at the next instruction when not; no register
and no memory cell is written, and the predictor validates it (R99, R100, R154).  That the comparison is equality is R100's sentence
"from general knowledge, not in source" (log 19, PRESUMED). -/
def Obligations.BeqContinuesAtTargetOrNext : Prop :=
  ∀ (rs rt : RegId) (target : Word) (s : State), ∃ t, exec (.beq rs rt target) s = .next t ∧
    completes (if s.reg rs = s.reg rt then target else s.pc + 1) s t ∧ sameRegs s t ∧ sameCells s t ∧
      t.pred = (s.pred.check s.cfgPolicy s.pc target (if s.reg rs = s.reg rt then 1 else 0)).pred

/-- `j` goes on at its absolute target; no register and no memory cell is written, and the predictor validates it (R99,
R101, R154). -/
def Obligations.JumpContinuesAtTarget : Prop :=
  ∀ (target : Word) (s : State), ∃ t, exec (.j target) s = .next t ∧ completes target s t ∧ sameRegs s t ∧
    sameCells s t ∧ t.pred = (s.pred.check s.cfgPolicy s.pc target 1).pred

/-! ### Steps, reset, status -/

/-- A step of the reference machine runs the instruction the code at `PC` decodes to; that a step is one of that machine
where the parameters say so is the model's choice (log 4), and `DrainedCoreCommitsAsTheMeaning` and
`ScheduledCoreEqualsTheReference` relate the scheduled core to it.  What the step adds before it is the prediction of
that fetch (R151 to R153): the table holds it at `PC` and is as before elsewhere, and no counter moves. -/
def Obligations.StepRunsTheDecodedInstruction : Prop :=
  ∀ (s : State) (code : Code) (i : Instr), s.params.engine = .reference → s.status = .running →
    s.configured = true → s.reg 31 ≠ 1 → s.imem? s.pc = some code → decode s.symtab code = .ok i →
      let p := s.pred.predict s.cfgPolicy s.pc
      step s = exec i (s.withPred p.1) ∧ p.1.target? s.pc = some p.2 ∧
        (∀ q, q ≠ s.pc → p.1.target? q = s.pred.target? q) ∧ p.1.nChecked = s.pred.nChecked ∧
          p.1.nMissed = s.pred.nMissed ∧ p.1.distSum = s.pred.distSum

/-- A core that is not running does nothing, whichever machine the step advances (R26, R158). -/
def Obligations.StoppedCoreStaysAsItIs : Prop := ∀ s : State, s.status ≠ .running → step s = .next s

/-- Reset leaves every piece of state at the value of the table of R40, with accepted inputs: memory aside, which
`ResetLoadsTheMemoryImage` covers. -/
def Obligations.ResetLeavesTheTableValues : Prop :=
  ∀ inp : Inputs, configAccepted inp.policy inp.width = true →
    let s := State.boot inp
    (∀ r, s.reg r = 0) ∧ s.pc = 0 ∧ s.prog = inp.prog ∧ s.status = .running ∧ (∀ r, s.alias? r = none) ∧
      s.rob.head = 0 ∧ s.rob.tail = 0 ∧ s.rob.count = 0 ∧ (∀ k, k < inp.params.rsSize → s.rs[k]? = some none) ∧
        s.lsq.entries = [] ∧ s.lsq.head = 0 ∧ s.lsq.tail = 0 ∧ s.lsq.nextSeq = 0 ∧ s.queues = Queues.empty ∧
          (∀ pc, s.pred.target? pc = none) ∧ s.pred.nChecked = 0 ∧ s.pred.nMissed = 0 ∧ s.pred.distSum = 0 ∧
            s.executed = 0 ∧ s.cycles = 0 ∧ s.cfgPolicy = inp.policy ∧ s.cfgWidth = inp.width

/-- Reset loads the image: a cell the loader sets, once, inside memory, holds its value, and a cell it does not set
holds 0 (R40, R204). -/
def Obligations.ResetLoadsTheMemoryImage : Prop :=
  ∀ inp : Inputs,
    (∀ a, (∀ c ∈ inp.memInit, c.1 ≠ a) → (State.boot inp).mem.read a = 0) ∧
      ((inp.memInit.map Prod.fst).Nodup →
        ∀ a v, (a, v) ∈ inp.memInit → a < inp.params.memSize → (State.boot inp).mem.read a = v)

/-- A refused configuration is fatal at reset: `taken`, `two-bit`, any policy with no name, and any width that is not
positive; no cycle runs (R150, R189). -/
def Obligations.RefusedConfigurationIsFatalAtReset : Prop :=
  ∀ inp : Inputs, (inp.policy ≠ .notTaken ∧ inp.policy ≠ .oneBit) ∨ inp.width ≤ 0 →
    (State.boot inp).status = .fatal .configError ∧ (State.boot inp).cycles = 0 ∧
      step (State.boot inp) = .next (State.boot inp)

/-! ### Renaming and the reorder buffer -/

/-- The operand read at issue (R104): the committed value, the value of a complete slot, or the slot as a tag. -/
def Obligations.OperandReadGoesThroughTheRat : Prop :=
  ∀ (s : State) (r : RegId),
    (s.alias? r = none → s.readOperand r = .val (s.reg r)) ∧
      ∀ slot e, s.alias? r = some slot → s.rob.entry? slot = some e →
        (∀ v, e.done = true → e.result = some v → s.readOperand r = .val v) ∧
          (e.done = false → s.readOperand r = .tag slot)

/-- The register part of commit (R106): the destination is written, and its mapping is cleared only if it still names
the committing slot; every other register and mapping is as before. -/
def Obligations.CommitClearsOnlyItsOwnMapping : Prop :=
  ∀ (s : State) (r : RegId) (v : Word) (slot : Nat),
    let t := s.commitReg (some r) v slot
    t.reg r = v ∧ sameRegsBut r s t ∧ (s.alias? r = some slot → t.alias? r = none) ∧
      (s.alias? r ≠ some slot → t.alias? r = s.alias? r) ∧ (∀ q, q ≠ r → t.alias? q = s.alias? q) ∧
        s.commitReg none v slot = s

/-- The issue of an instruction that nothing blocks (R163).  It leaves `IQ`.  The tail slot of the ROB gets its entry
(R110 to R112): the destination for the classes that write a register, the recovery pc (the target of a branch or jump,
else the next pc), no result, not done and no fault.  A load or store is appended to the LSQ (R131, R132), any other
instruction takes the lowest free station (R120, R121), with its operands read before the destination is remapped to
the slot (R105).  Nothing else changes. -/
def Obligations.IssueAllocatesTheTailSlot : Prop :=
  ∀ (s : State) (item : IssueItem) (rest : List IssueItem), s.queues.iq.visible = item :: rest →
    s.rob.tail < s.rob.slots.length → s.rob.count ≠ s.params.robSize →
      (item.instr.cls ∈ [OpClass.load, OpClass.store] → s.lsq.entries.length ≠ s.params.lsqSize) →
        (item.instr.cls ∉ [OpClass.load, OpClass.store] → ∃ x ∈ s.rs, x = none) →
          let i := item.instr
          let slot := s.rob.tail
          let t := stageIssue s
          let read := (s.withRob (s.rob.add s.params.robSize i item.pc)).readOperand
          t.queues = { s.queues with iq := { s.queues.iq with visible := rest } } ∧
            (∃ e, t.rob.entry? slot = some e ∧ e.op = i.op ∧
              e.dest = (if i.cls ∈ [OpClass.arith, OpClass.imm, OpClass.load] then i.dest else none) ∧
                e.result = none ∧ (i.cls ∈ [OpClass.branch, OpClass.jump] → i.imm = some e.rpc) ∧
                  (i.cls ∉ [OpClass.branch, OpClass.jump] → e.rpc = item.pc + 1) ∧ e.pc = item.pc ∧
                    e.done = false ∧ e.fault = none) ∧
            (∀ k, k ≠ slot → t.rob.entry? k = s.rob.entry? k) ∧ t.rob.head = s.rob.head ∧
            t.rob.tail = (slot + 1) % s.params.robSize ∧ t.rob.count = s.rob.count + 1 ∧
            (∀ o1 o2, stationOperands read i = some (o1, o2) → t.lsq = s.lsq ∧
              ∃ k, s.rs[k]? = some none ∧ (∀ j, j < k → s.rs[j]? ≠ some none) ∧
                t.rs = s.rs.set k (some ⟨slot, i.op, o1, o2⟩)) ∧
            (∀ e, queuedEntry read slot s.lsq.nextSeq i = some e → t.rs = s.rs ∧
              t.lsq.entries = s.lsq.entries ++ [e] ∧ t.lsq.head = s.lsq.head ∧
                t.lsq.tail = (s.lsq.tail + 1) % s.params.lsqSize ∧ t.lsq.nextSeq = s.lsq.nextSeq + 1) ∧
            (∀ r, t.alias? r = if i.dest = some r then some slot else s.alias? r) ∧ t.regs = s.regs ∧
            t.mem = s.mem ∧ t.pc = s.pc ∧ t.status = s.status ∧ t.pred = s.pred ∧ t.executed = s.executed ∧
            t.cycles = s.cycles ∧ t.params = s.params ∧ t.prog = s.prog ∧ t.symtab = s.symtab ∧
            t.cfgPolicy = s.cfgPolicy ∧ t.cfgWidth = s.cfgWidth ∧ t.poisonSeq = s.poisonSeq

/-- An instruction that issue cannot take stays where it is, and nothing changes: a full ROB, a full pool for the
classes that use it, a full LSQ for loads and stores (R163, R185). -/
def Obligations.FullStructureStallsIssue : Prop :=
  ∀ (s : State) (item : IssueItem) (rest : List IssueItem), s.queues.iq.visible = item :: rest →
    (s.rob.count = s.params.robSize ∨
      (item.instr.cls ∈ [OpClass.load, OpClass.store] ∧ s.lsq.entries.length = s.params.lsqSize) ∨
        (item.instr.cls ∈ [OpClass.arith, OpClass.imm, OpClass.branch, OpClass.jump] ∧
          ∀ x ∈ s.rs, x ≠ none)) →
      stageIssue s = s

/-- Slots are consumed at the head one by one, flushes included, and each consumption counts one instruction (R117,
R174): a sub-step either leaves `rob_head` and `executed`, or moves the one to the next slot and the other by one. -/
def Obligations.SlotsAreConsumedInSequence : Prop :=
  ∀ s : State, (substep s).all fun t =>
    (t.executed = s.executed ∧ t.rob.head = s.rob.head) ∨
      (t.executed = s.executed + 1 ∧ t.rob.head = (s.rob.head + 1) % s.params.robSize)

/-! ### Reservation stations -/

/-- A broadcast is seen by every station, and both operands of one entry may take it (R122). -/
def Obligations.CaptureResolvesEveryStation : Prop :=
  ∀ (p : List (Option RsEntry)) (t : Nat) (v : Word) (k : Nat),
    (Stations.capture p t v)[k]? =
      p[k]?.map (Option.map fun e =>
        { e with o1 := if e.o1 = .tag t then .val v else e.o1, o2 := if e.o2 = .tag t then .val v else e.o2 })

/-- Dispatch takes the ready entry in the lowest station and frees that station only; it takes none exactly when none
is ready (R123, R124). -/
def Obligations.LowestReadyStationIsDispatched : Prop :=
  ∀ p : List (Option RsEntry),
    (∀ item p', Stations.nextReady p = some (item, p') →
      ∃ k e a b, p[k]? = some (some e) ∧ e.o1 = .val a ∧ e.o2 = .val b ∧ item = ⟨e.tag, e.op, a, b⟩ ∧
        p' = p.set k none ∧
          ∀ (j : Nat) (e' : RsEntry), j < k → p[j]? = some (some e') → ¬ ∃ a' b', e'.o1 = .val a' ∧ e'.o2 = .val b') ∧
      (Stations.nextReady p = none ↔
        ∀ (j : Nat) (e' : RsEntry), p[j]? = some (some e') → ¬ ∃ a' b', e'.o1 = .val a' ∧ e'.o2 = .val b')

/-! ### Load-store queue -/

/-- A load is dispatched exactly when R136 says: it has an address and has not been sent, no older store has an
unresolved address, and the youngest older store to its address, if there is one, has a value that has been forwarded
into it.  What is dispatched is its slot, its address and its forwarded value, if any (R138).  The older entries are
listed youngest first. -/
def Obligations.LoadIsReadyExactlyWhenSafe : Prop :=
  ∀ (older : List LsqEntry) (e : LsqEntry) (item : MemItem), e.op = .lw →
    (e.ready? older = some item ↔
      e.disp = false ∧ (∃ a, e.addr = some a ∧ item = .load e.tag a e.fwd) ∧
        (∀ o ∈ older, o.op = .sw → o.addr ≠ none) ∧
          ∀ pre st post, older = pre ++ st :: post → st.op = .sw → st.addr = e.addr →
            (∀ o ∈ pre, ¬ (o.op = .sw ∧ o.addr = e.addr)) → ∃ w, st.val = some (.val w) ∧ e.fwd = some w)

/-- The oldest ready entry is dispatched: it is marked in place, nothing older is ready, every other entry is as before,
and nothing is dispatched exactly when no entry is ready (R138).  A store is ready when it has not been sent and has an
address and a value, whatever is older, and what is dispatched of it is its slot, its address and its value (R135,
R138); `LoadIsReadyExactlyWhenSafe` says the same of a load. -/
def Obligations.OldestReadyMemoryEntryIsDispatched : Prop :=
  (∀ (q q' : Lsq) (item : MemItem), q.nextReady = some (item, q') →
    ∃ k e, q.entries[k]? = some e ∧ e.ready? (q.entries.take k).reverse = some item ∧
      (∀ (j : Nat) (e' : LsqEntry), j < k → q.entries[j]? = some e' →
        e'.ready? (q.entries.take j).reverse = none) ∧
        q'.entries = q.entries.set k { e with disp := true } ∧ q'.head = q.head ∧ q'.tail = q.tail ∧
          q'.nextSeq = q.nextSeq) ∧
    (∀ q : Lsq, q.nextReady = none ↔
      ∀ (k : Nat) (e : LsqEntry), q.entries[k]? = some e → e.ready? (q.entries.take k).reverse = none) ∧
      ∀ (older : List LsqEntry) (e : LsqEntry) (item : MemItem), e.op = .sw →
        (e.ready? older = some item ↔
          e.disp = false ∧ ∃ a w, e.addr = some a ∧ e.val = some (.val w) ∧ item = .store e.tag a w)

/-- The forward scan (R137): a load with an address takes the value of the youngest older store to that address, none
while that value is pending, and keeps what it has when there is no such store. -/
def Obligations.ForwardScanTakesTheYoungestOlderStore : Prop :=
  ∀ (q : Lsq) (k : Nat) (l : LsqEntry) (a : Word), q.entries[k]? = some l → l.op = .lw → l.addr = some a →
    ((∀ j st, j < k → q.entries[j]? = some st → ¬ (st.op = .sw ∧ st.addr = some a)) →
      q.forwardScan.entries[k]? = some l) ∧
      ∀ j st, j < k → q.entries[j]? = some st → st.op = .sw → st.addr = some a →
        (∀ i o, j < i → i < k → q.entries[i]? = some o → ¬ (o.op = .sw ∧ o.addr = some a)) →
          (∀ w, st.val = some (.val w) → q.forwardScan.entries[k]? = some { l with fwd := some w }) ∧
            (∀ u, st.val = some (.tag u) → q.forwardScan.entries[k]? = some { l with fwd := none })

/-- `forward_store` over the entries younger than the committing store (R142): a load to the address that has not been
dispatched takes the value unless a store to that address stands before it; every other entry is as before. -/
def Obligations.StoreForwardingStopsAtAYoungerStore : Prop :=
  ∀ (a w : Word) (younger : List LsqEntry) (k : Nat) (e : LsqEntry), younger[k]? = some e →
    ((e.op = .lw ∧ e.addr = some a ∧ e.disp = false ∧
        ∀ j o, j < k → younger[j]? = some o → ¬ (o.op = .sw ∧ o.addr = some a)) →
      (forwardStoreTo a w younger)[k]? = some { e with fwd := some w }) ∧
      (¬ (e.op = .lw ∧ e.addr = some a ∧ e.disp = false ∧
        ∀ j o, j < k → younger[j]? = some o → ¬ (o.op = .sw ∧ o.addr = some a)) →
      (forwardStoreTo a w younger)[k]? = some e)

/-- A broadcast in the LSQ (R134): the base resolves and with it the address, and a store's value resolves; an entry
that waits for another slot is as before. -/
def Obligations.LsqCaptureResolvesBaseAndValue : Prop :=
  ∀ (q : Lsq) (t : Nat) (v : Word) (k : Nat) (e : LsqEntry), q.entries[k]? = some e →
    ∃ e', (q.capture t v).entries[k]? = some e' ∧
      (e.base = .tag t → e'.base = .val v ∧ e'.addr = some (wrap (v.toInt + e.imm.toInt))) ∧
        (e.base ≠ .tag t → e'.base = e.base ∧ e'.addr = e.addr) ∧
          (e.op = .sw → e.val = some (.tag t) → e'.val = some (.val v)) ∧
            (¬ (e.op = .sw ∧ e.val = some (.tag t)) → e'.val = e.val) ∧
              e' = { e with base := e'.base, addr := e'.addr, val := e'.val }

/-! ### Predictor -/

/-- `predict` under both policies (R151, R152): what it returns and what it records. -/
def Obligations.PredictReturnsAndRecords : Prop :=
  ∀ (p : Predictor) (pc : Word),
    (p.predict .notTaken pc).2 = pc + 1 ∧ (p.predict .notTaken pc).1.target? pc = some (pc + 1) ∧
      (p.target? pc = none →
        (p.predict .oneBit pc).2 = pc + 1 ∧ (p.predict .oneBit pc).1.target? pc = some (pc + 1)) ∧
        ∀ t, p.target? pc = some t → p.predict .oneBit pc = (p, t)

/-- `check` (R154), with both its answers and every counter.  That a pc with no valid entry in the table, which R154
excludes, is a mismatch is the model's choice (log 16, DEDUCED). -/
def Obligations.CheckValidatesAndCounts : Prop :=
  ∀ (policy : Policy) (p : Predictor) (pc rpc result correct : Word),
    correct = (if result ≠ 0 then rpc else pc + 1) →
      let c := p.check policy pc rpc result
      c.correct = correct ∧ c.pred.nChecked = p.nChecked + 1 ∧
        c.pred.distSum = p.distSum + (correct.toInt - pc.toInt).natAbs ∧
          (p.target? pc = some correct → c.ok = true ∧ c.pred.nMissed = p.nMissed ∧ c.pred.btb = p.btb) ∧
            (p.target? pc ≠ some correct → c.ok = false ∧ c.pred.nMissed = p.nMissed + 1 ∧
              (policy = .oneBit → c.pred.target? pc = some correct) ∧ (policy ≠ .oneBit → c.pred.btb = p.btb))

/-- The accuracy (R155): one before any validation, and one minus the share of misses after. -/
def Obligations.AccuracyIsOneWithoutBranches : Prop :=
  ∀ p : Predictor,
    (p.nChecked = 0 → p.accuracy = 1) ∧
      (p.nChecked ≠ 0 → p.accuracy = 1 - (p.nMissed : ℚ) / (p.nChecked : ℚ))

/-! ### The cycle engine -/

/-- The flush (R169): every speculative structure is emptied, fetch goes to the corrected pc, and registers, memory, the
table, the counters and the status stay; the LSQ head keeps its place and the tail joins it (R144). -/
def Obligations.FlushDiscardsAllSpeculation : Prop :=
  ∀ (s : State) (correct : Word),
    let t := s.flush correct
    (∀ r, t.alias? r = none) ∧ t.queues = Queues.empty ∧ (∀ x ∈ t.rs, x = none) ∧ t.lsq.entries = [] ∧
      t.rob.count = 0 ∧ (∀ k, t.rob.entry? k = none) ∧ t.rob.head = (s.rob.head + 1) % s.params.robSize ∧
        t.rob.tail = t.rob.head ∧ t.pc = correct ∧ t.regs = s.regs ∧ t.mem = s.mem ∧ t.pred = s.pred ∧
          t.executed = s.executed ∧ t.cycles = s.cycles ∧ t.lsq.nextSeq = s.lsq.nextSeq ∧ t.lsq.head = s.lsq.head ∧
          t.lsq.tail = s.lsq.head ∧ t.status = s.status

/-- A fault recorded in the head slot is raised at its commit before any of the instruction's effects (R168, R187,
R190, R191): only the status changes. -/
def Obligations.RecordedFaultIsRaisedBeforeAnyEffect : Prop :=
  ∀ (s : State) (e : RobEntry) (f : SlotFault), s.rob.count ≠ 0 → s.rob.entry? s.rob.head = some e →
    e.done = true → e.fault = some f → stageCommit s = .fatal { s with status := .fatal f.error }

/-- A line that does not decode is fatal in the sub-step that decodes it, on any path, before anything commits in that
sub-step (R162, R182, R183, R191): registers, memory and `executed` are as before it. -/
def Obligations.DecodeErrorIsFatalAtOnce : Prop :=
  ∀ (s : State) (item : FetchItem) (rest : List FetchItem) (err : DecodeFailure),
    s.queues.fq.visible = item :: rest → s.queues.iq.hasRoom s.params.qCap = true →
      decode s.symtab item.code = .error err →
        ∃ t, substep s = .fatal t ∧
          t.status = .fatal (match err with
            | .unsupportedOpcode => .unsupportedOpcodeError
            | .malformed => .decodeError) ∧
            t.regs = s.regs ∧ t.mem = s.mem ∧ t.executed = s.executed ∧ t.rob = s.rob

/-- Registers and memory are written only by the commit of an instruction (R50, R177).  A sub-step that counts none
leaves them.  In one that counts one, with `u` what its commit stage sees and `e` the entry at the ROB head of `u`: no
register is written but the destination of `e`, which then holds the result of `e` unless `e` is a branch or jump; no
cell is written unless `e` is a store, and then only the cell named by the address of the LSQ head, inside memory, which
then holds the result of `e`.  That the cell reads back needs memory in the form `StepKeepsMemoryCanonical` keeps. -/
def Obligations.CommitIsTheOnlyWriter : Prop :=
  ∀ s : State, (substep s).all fun t =>
    (t.executed = s.executed → t.regs = s.regs ∧ t.mem = s.mem) ∧
      (t.executed ≠ s.executed → ∃ u e, beforeCommit s = .cont u ∧ u.rob.entry? u.rob.head = some e ∧
        e.done = true ∧ e.fault = none ∧
          (∀ r, e.dest ≠ some r → t.reg r = s.reg r) ∧
          (∀ r, e.dest = some r → e.op.cls ∉ [OpClass.branch, OpClass.jump] → e.result = some (t.reg r)) ∧
          (e.op.cls ≠ .store → t.mem = s.mem) ∧
          (e.op.cls = .store →
            ∃ a k, (u.lsq.headFor u.rob.head .sw).bind LsqEntry.addr = some a ∧
              cellOf s.params.memSize a = some k ∧ (∀ j, j ≠ k → t.mem.read j = s.mem.read j) ∧
                (s.mem.wf → e.result = some (t.mem.read k))))

/-- A sub-step that halts leaves 1 in register 31 and `STATUS` `Halted`; one that is fatal leaves `STATUS` fatal; one
that goes on or flushes leaves `STATUS` as it was (R170, R192). -/
def Obligations.SubstepOutcomeIsTheStatus : Prop :=
  ∀ s t : State,
    (substep s = .halt t → t.status = .halted ∧ t.reg 31 = 1) ∧ (substep s = .fatal t → t.isFatal = true) ∧
      (substep s = .cont t → t.status = s.status) ∧ (substep s = .flush t → t.status = s.status ∧ t.drained = true)

/-- Every outer cycle of a running core is counted once, but for one that ends in a fatal error (R173). -/
def Obligations.CyclesCountAllButTheFatal : Prop :=
  ∀ s t : State, s.status = .running → s.configured = true → cycle s = .next t →
    t.cycles = if t.isFatal then s.cycles else s.cycles + 1

/-- Nothing a program does changes the program, the configuration or the parameters (R39, R57). -/
def Obligations.ProgramAndConfigurationAreFixed : Prop :=
  ∀ s t : State, step s = .next t →
    t.prog = s.prog ∧ t.symtab = s.symtab ∧ t.params = s.params ∧ t.cfgPolicy = s.cfgPolicy ∧
      t.cfgWidth = s.cfgWidth

/-! ### Invariants -/

/-- Every step keeps memory in its canonical form.  The form is the model's choice, which makes equal memories equal
data (log 6). -/
def Obligations.StepKeepsMemoryCanonical : Prop := ∀ s t : State, s.mem.wf → step s = .next t → t.mem.wf

/-- Nothing is ever written at an invalid address (R188): every step keeps every listed cell inside memory. -/
def Obligations.StepNeverWritesOutsideMemory : Prop :=
  ∀ s t : State, memInside s → step s = .next t → memInside t

/-- Every step keeps this: a core that runs does not hold 1 in its halt register (R26, R170). -/
def Obligations.StepKeepsRunningNotHalted : Prop :=
  ∀ s t : State, runningNotHalted s → step s = .next t → runningNotHalted t

/-- Every step keeps the ROB, the pool, the LSQ and the queues in their shapes and within their capacities (R29, R31,
R33, R34, R109, R130, R172). -/
def Obligations.StepKeepsStructuresSound : Prop :=
  ∀ s t : State, structuresSound s → step s = .next t → structuresSound t

/-- Every step keeps the alias table sound (R42). -/
def Obligations.StepKeepsAliasTableSound : Prop :=
  ∀ s t : State, structuresSound s → ratSound s → step s = .next t → ratSound t

/-- Under `not-taken` every step keeps every entry of the table at the next instruction (R157). -/
def Obligations.StepKeepsNotTakenTable : Prop :=
  ∀ s t : State, btbBetsOnNext s → step s = .next t → btbBetsOnNext t

/-- Every invariant above holds after reset, whatever the inputs, where the capacities are positive. -/
def Obligations.ResetEstablishesTheInvariants : Prop :=
  ∀ inp : Inputs, inp.params.wellFormed = true →
    (State.boot inp).mem.wf ∧ memInside (State.boot inp) ∧ runningNotHalted (State.boot inp) ∧
      structuresSound (State.boot inp) ∧ ratSound (State.boot inp) ∧ btbBetsOnNext (State.boot inp)

/-- The assertions the spec lets a model keep never fail (R113, R145): no run from reset, with any program, ends in a
fault of the model, and none is refused. -/
def Obligations.NoAssertionFailsInAnyRun : Prop :=
  ∀ (inp : Inputs) (n : Nat), inp.params.wellFormed = true → ∃ t, Sys2Proof.core.run n (State.boot inp) = .next t

/-! ### The scheduled core against the sequential meaning -/

/-- The first instruction a drained core fetches commits in the fifth sub-step (R180) with exactly the effect its
meaning gives in program order, unless a later line fails to decode first: registers, memory, `executed`, the
validation counters and the status, where the end of the program may follow at once (R171, R178).
That the meaning counts the instruction and validates a branch, and that it is taken here on the state with the
prediction of its fetch recorded, is the model's choice (log 4, DESIGN CHOICE). -/
def Obligations.DrainedCoreCommitsAsTheMeaning : Prop :=
  ∀ (s u e : State) (code : Code) (i : Instr), s.drained = true → structuresSound s →
    s.params.wellFormed = true → s.status = .running → s.reg 31 ≠ 1 → s.imem? s.pc = some code →
      decode s.symtab code = .ok i → exec i s.recordPrediction = .next e → subLoop 4 s = .cont u →
        (∀ f, substep u ≠ .broken f) ∧ (substep u).all fun t =>
          t.status = .fatal .decodeError ∨ t.status = .fatal .unsupportedOpcodeError ∨
            (t.regs = e.regs ∧ t.mem = e.mem ∧ t.executed = e.executed ∧ t.pred.nChecked = e.pred.nChecked ∧
              t.pred.nMissed = e.pred.nMissed ∧ t.pred.distSum = e.pred.distSum ∧
                (t.status = e.status ∨
                  (e.status = .running ∧ t.status = .fatal (.programCounterOutOfRange t.pc))))

/-- Equivalence with the sequential reference semantics (R178, R212): if the reference machine stops, the scheduled core
stops with the same status, registers, memory, count of instructions and validation counters, under both policies, every
width and all capacities, provided every line decodes.  The reference machine of R178 has no counters; that the model's
counts and validates as it does, so that they can be compared as R212 has it, is the model's choice (log 4, DESIGN
CHOICE). -/
def Obligations.ScheduledCoreEqualsTheReference : Prop :=
  ∀ (inp : Inputs) (n : Nat) (t : State), inp.wellFormed = true → inp.linesDecode →
    Sys2Proof.core.run n (State.boot (inp.withEngine .reference)) = .next t → t.status ≠ .running →
      ∃ m u, Sys2Proof.core.run m (State.boot (inp.withEngine .scheduled)) = .next u ∧ u.status = t.status ∧
        u.regs = t.regs ∧ u.mem = t.mem ∧ u.executed = t.executed ∧ u.pred.nChecked = t.pred.nChecked ∧
          u.pred.nMissed = t.pred.nMissed ∧ u.pred.distSum = t.pred.distSum
end

