-- ==== Sys2Proof/Laws/Memory.lean ====
section
/-! SUPPORT. Sparse tables and memory: a read after a write, and the canonical form every operation keeps. -/

namespace Sys2Proof.Machine

variable {m : List (Nat × Word)} {a b : Nat} {v : Word}

@[simp] theorem sparseFind_nil : sparseFind [] a = none := rfl

theorem sparseFind_insert_self (m : List (Nat × Word)) (a : Nat) (v : Word) :
    sparseFind (sparseInsert m a v) a = some v := by
  induction m with
  | nil => simp [sparseInsert, sparseFind]
  | cons c rest ih =>
    obtain ⟨k, w⟩ := c
    simp only [sparseInsert]
    split
    · simp [sparseFind]
    · split
      · simp [sparseFind]
      · rename_i _ h
        simp [sparseFind, ih, Ne.symm h]

theorem sparseFind_insert_ne (m : List (Nat × Word)) (v : Word) (h : b ≠ a) :
    sparseFind (sparseInsert m a v) b = sparseFind m b := by
  induction m with
  | nil => simp [sparseInsert, sparseFind, Ne.symm h]
  | cons c rest ih =>
    obtain ⟨k, w⟩ := c
    simp only [sparseInsert]
    split
    · simp [sparseFind, Ne.symm h]
    · split
      · rename_i _ hk
        subst hk
        simp [sparseFind, Ne.symm h]
      · simp [sparseFind, ih]

theorem sparseFind_none_of_lt (h : ∀ c ∈ m, a < c.1) : sparseFind m a = none := by
  induction m with
  | nil => rfl
  | cons c rest ih =>
    have hc : a < c.1 := h c (by simp)
    simp only [sparseFind, show ¬ c.1 = a by omega, if_false]
    exact ih fun d hd => h d (by simp [hd])

theorem sparseFind_erase_ne (m : List (Nat × Word)) (h : b ≠ a) :
    sparseFind (sparseErase m a) b = sparseFind m b := by
  induction m with
  | nil => rfl
  | cons c rest ih =>
    obtain ⟨k, w⟩ := c
    simp only [sparseErase]
    split
    · rename_i hk
      subst hk
      simp [sparseFind, Ne.symm h]
    · simp [sparseFind, ih]

/-- In a sorted table nothing is left at an index that was erased. -/
theorem sparseFind_erase_self (h : sparseSorted m) : sparseFind (sparseErase m a) a = none := by
  induction m with
  | nil => rfl
  | cons c rest ih =>
    obtain ⟨k, w⟩ := c
    rw [sparseSorted, List.pairwise_cons] at h
    simp only [sparseErase]
    split
    · rename_i hk
      subst hk
      exact sparseFind_none_of_lt h.1
    · rename_i hk
      simp [sparseFind, hk, ih h.2]

theorem mem_sparseInsert {c : Nat × Word} (h : c ∈ sparseInsert m a v) : c = (a, v) ∨ c ∈ m := by
  induction m with
  | nil => exact .inl (by simpa [sparseInsert] using h)
  | cons d rest ih =>
    obtain ⟨k, w⟩ := d
    simp only [sparseInsert] at h
    split at h
    · rcases List.mem_cons.mp h with h | h
      · exact .inl h
      · exact .inr h
    · split at h
      · rcases List.mem_cons.mp h with h | h
        · exact .inl h
        · exact .inr (List.mem_cons_of_mem _ h)
      · rcases List.mem_cons.mp h with h | h
        · exact .inr (by simp [h])
        · exact (ih h).imp_right (List.mem_cons_of_mem _)

theorem mem_sparseErase {c : Nat × Word} (h : c ∈ sparseErase m a) : c ∈ m := by
  induction m with
  | nil => exact h
  | cons d rest ih =>
    obtain ⟨k, w⟩ := d
    simp only [sparseErase] at h
    split at h
    · exact List.mem_cons_of_mem _ h
    · rcases List.mem_cons.mp h with h | h
      · simp [h]
      · exact List.mem_cons_of_mem _ (ih h)

theorem sparseInsert_sorted (h : sparseSorted m) (a : Nat) (v : Word) : sparseSorted (sparseInsert m a v) := by
  induction m with
  | nil => simp [sparseSorted, sparseInsert]
  | cons c rest ih =>
    obtain ⟨k, w⟩ := c
    rw [sparseSorted, List.pairwise_cons] at h
    simp only [sparseInsert]
    split
    · rename_i hlt
      rw [sparseSorted, List.pairwise_cons]
      refine ⟨?_, List.pairwise_cons.mpr h⟩
      intro d hd
      rcases List.mem_cons.mp hd with rfl | hd
      · exact hlt
      · exact hlt.trans (h.1 d hd)
    · split
      · rename_i _ heq
        subst heq
        exact List.pairwise_cons.mpr h
      · rename_i h1 h2
        refine List.pairwise_cons.mpr ⟨?_, ih h.2⟩
        intro d hd
        rcases mem_sparseInsert hd with rfl | hd
        · simp only
          omega
        · exact h.1 d hd

theorem sparseErase_sorted (h : sparseSorted m) (a : Nat) : sparseSorted (sparseErase m a) := by
  induction m with
  | nil => exact h
  | cons c rest ih =>
    obtain ⟨k, w⟩ := c
    rw [sparseSorted, List.pairwise_cons] at h
    simp only [sparseErase]
    split
    · exact h.2
    · exact List.pairwise_cons.mpr ⟨fun d hd => h.1 d (mem_sparseErase hd), ih h.2⟩

/-- A read after a write to the same cell gives the value written. -/
theorem Memory.read_write_self {m : Memory} (h : m.wf) (a : Nat) (v : Word) : (m.write a v).read a = v := by
  unfold Memory.write Memory.read
  split
  · rename_i hv
    rw [sparseFind_erase_self h.1, hv]
    rfl
  · rw [sparseFind_insert_self]
    rfl

/-- A write leaves every other cell alone. -/
theorem Memory.read_write_ne (m : Memory) (v : Word) (h : b ≠ a) : (m.write a v).read b = m.read b := by
  unfold Memory.write Memory.read
  split
  · rw [sparseFind_erase_ne m h]
  · rw [sparseFind_insert_ne m v h]

theorem Memory.wf_nil : Memory.wf [] := by simp [Memory.wf]

/-- A write keeps the canonical form. -/
theorem Memory.write_wf {m : Memory} (h : m.wf) (a : Nat) (v : Word) : (m.write a v).wf := by
  unfold Memory.write
  split
  · exact ⟨sparseErase_sorted h.1 a, fun c hc => h.2 c (mem_sparseErase hc)⟩
  · rename_i hv
    refine ⟨sparseInsert_sorted h.1 a v, fun c hc => ?_⟩
    rcases mem_sparseInsert hc with rfl | hc
    · exact hv
    · exact h.2 c hc

/-- The loader keeps the canonical form. -/
theorem Memory.load_wf (memSize : Nat) (image : List Cell) {m : Memory} (h : m.wf) :
    (Memory.load memSize image m).wf := by
  induction image generalizing m with
  | nil => exact h
  | cons c rest ih =>
    simp only [Memory.load]
    split
    · exact ih (Memory.write_wf h _ _)
    · exact ih h

/-- The cell of an address lies in memory and is the address read as an integer (R45). -/
theorem cellOf_eq_some {memSize : Nat} {a : Word} {k : Nat} :
    cellOf memSize a = some k ↔ 0 ≤ a.toInt ∧ a.toInt < memSize ∧ k = a.toNat := by
  unfold cellOf
  split
  · rename_i h
    simp [h.1, h.2, eq_comm]
  · rename_i h
    simp only [reduceCtorEq, false_iff]
    exact fun hk => h ⟨hk.1, hk.2.1⟩

end Sys2Proof.Machine
end

