-- ==== Sys2Proof/Laws/State.lean ====
section
/-! SUPPORT. One lemma per field per update of State, each true by unfolding, so that no later proof unfolds one. -/

namespace Sys2Proof.Machine

variable (s : State)

@[simp] theorem State.withRegs_params (v : Vector Word 32) : (s.withRegs v).params = s.params := rfl
@[simp] theorem State.withRegs_regs (v : Vector Word 32) : (s.withRegs v).regs = v := rfl
@[simp] theorem State.withRegs_mem (v : Vector Word 32) : (s.withRegs v).mem = s.mem := rfl
@[simp] theorem State.withRegs_prog (v : Vector Word 32) : (s.withRegs v).prog = s.prog := rfl
@[simp] theorem State.withRegs_symtab (v : Vector Word 32) : (s.withRegs v).symtab = s.symtab := rfl
@[simp] theorem State.withRegs_pc (v : Vector Word 32) : (s.withRegs v).pc = s.pc := rfl
@[simp] theorem State.withRegs_status (v : Vector Word 32) : (s.withRegs v).status = s.status := rfl
@[simp] theorem State.withRegs_rat (v : Vector Word 32) : (s.withRegs v).rat = s.rat := rfl
@[simp] theorem State.withRegs_rob (v : Vector Word 32) : (s.withRegs v).rob = s.rob := rfl
@[simp] theorem State.withRegs_rs (v : Vector Word 32) : (s.withRegs v).rs = s.rs := rfl
@[simp] theorem State.withRegs_lsq (v : Vector Word 32) : (s.withRegs v).lsq = s.lsq := rfl
@[simp] theorem State.withRegs_queues (v : Vector Word 32) : (s.withRegs v).queues = s.queues := rfl
@[simp] theorem State.withRegs_pred (v : Vector Word 32) : (s.withRegs v).pred = s.pred := rfl
@[simp] theorem State.withRegs_executed (v : Vector Word 32) : (s.withRegs v).executed = s.executed := rfl
@[simp] theorem State.withRegs_cycles (v : Vector Word 32) : (s.withRegs v).cycles = s.cycles := rfl
@[simp] theorem State.withRegs_cfgPolicy (v : Vector Word 32) : (s.withRegs v).cfgPolicy = s.cfgPolicy := rfl
@[simp] theorem State.withRegs_cfgWidth (v : Vector Word 32) : (s.withRegs v).cfgWidth = s.cfgWidth := rfl
@[simp] theorem State.withRegs_poisonSeq (v : Vector Word 32) : (s.withRegs v).poisonSeq = s.poisonSeq := rfl

@[simp] theorem State.withMem_params (v : Memory) : (s.withMem v).params = s.params := rfl
@[simp] theorem State.withMem_regs (v : Memory) : (s.withMem v).regs = s.regs := rfl
@[simp] theorem State.withMem_mem (v : Memory) : (s.withMem v).mem = v := rfl
@[simp] theorem State.withMem_prog (v : Memory) : (s.withMem v).prog = s.prog := rfl
@[simp] theorem State.withMem_symtab (v : Memory) : (s.withMem v).symtab = s.symtab := rfl
@[simp] theorem State.withMem_pc (v : Memory) : (s.withMem v).pc = s.pc := rfl
@[simp] theorem State.withMem_status (v : Memory) : (s.withMem v).status = s.status := rfl
@[simp] theorem State.withMem_rat (v : Memory) : (s.withMem v).rat = s.rat := rfl
@[simp] theorem State.withMem_rob (v : Memory) : (s.withMem v).rob = s.rob := rfl
@[simp] theorem State.withMem_rs (v : Memory) : (s.withMem v).rs = s.rs := rfl
@[simp] theorem State.withMem_lsq (v : Memory) : (s.withMem v).lsq = s.lsq := rfl
@[simp] theorem State.withMem_queues (v : Memory) : (s.withMem v).queues = s.queues := rfl
@[simp] theorem State.withMem_pred (v : Memory) : (s.withMem v).pred = s.pred := rfl
@[simp] theorem State.withMem_executed (v : Memory) : (s.withMem v).executed = s.executed := rfl
@[simp] theorem State.withMem_cycles (v : Memory) : (s.withMem v).cycles = s.cycles := rfl
@[simp] theorem State.withMem_cfgPolicy (v : Memory) : (s.withMem v).cfgPolicy = s.cfgPolicy := rfl
@[simp] theorem State.withMem_cfgWidth (v : Memory) : (s.withMem v).cfgWidth = s.cfgWidth := rfl
@[simp] theorem State.withMem_poisonSeq (v : Memory) : (s.withMem v).poisonSeq = s.poisonSeq := rfl

@[simp] theorem State.withProg_params (v : List Code) : (s.withProg v).params = s.params := rfl
@[simp] theorem State.withProg_regs (v : List Code) : (s.withProg v).regs = s.regs := rfl
@[simp] theorem State.withProg_mem (v : List Code) : (s.withProg v).mem = s.mem := rfl
@[simp] theorem State.withProg_prog (v : List Code) : (s.withProg v).prog = v := rfl
@[simp] theorem State.withProg_symtab (v : List Code) : (s.withProg v).symtab = s.symtab := rfl
@[simp] theorem State.withProg_pc (v : List Code) : (s.withProg v).pc = s.pc := rfl
@[simp] theorem State.withProg_status (v : List Code) : (s.withProg v).status = s.status := rfl
@[simp] theorem State.withProg_rat (v : List Code) : (s.withProg v).rat = s.rat := rfl
@[simp] theorem State.withProg_rob (v : List Code) : (s.withProg v).rob = s.rob := rfl
@[simp] theorem State.withProg_rs (v : List Code) : (s.withProg v).rs = s.rs := rfl
@[simp] theorem State.withProg_lsq (v : List Code) : (s.withProg v).lsq = s.lsq := rfl
@[simp] theorem State.withProg_queues (v : List Code) : (s.withProg v).queues = s.queues := rfl
@[simp] theorem State.withProg_pred (v : List Code) : (s.withProg v).pred = s.pred := rfl
@[simp] theorem State.withProg_executed (v : List Code) : (s.withProg v).executed = s.executed := rfl
@[simp] theorem State.withProg_cycles (v : List Code) : (s.withProg v).cycles = s.cycles := rfl
@[simp] theorem State.withProg_cfgPolicy (v : List Code) : (s.withProg v).cfgPolicy = s.cfgPolicy := rfl
@[simp] theorem State.withProg_cfgWidth (v : List Code) : (s.withProg v).cfgWidth = s.cfgWidth := rfl
@[simp] theorem State.withProg_poisonSeq (v : List Code) : (s.withProg v).poisonSeq = s.poisonSeq := rfl

@[simp] theorem State.withPc_params (v : Word) : (s.withPc v).params = s.params := rfl
@[simp] theorem State.withPc_regs (v : Word) : (s.withPc v).regs = s.regs := rfl
@[simp] theorem State.withPc_mem (v : Word) : (s.withPc v).mem = s.mem := rfl
@[simp] theorem State.withPc_prog (v : Word) : (s.withPc v).prog = s.prog := rfl
@[simp] theorem State.withPc_symtab (v : Word) : (s.withPc v).symtab = s.symtab := rfl
@[simp] theorem State.withPc_pc (v : Word) : (s.withPc v).pc = v := rfl
@[simp] theorem State.withPc_status (v : Word) : (s.withPc v).status = s.status := rfl
@[simp] theorem State.withPc_rat (v : Word) : (s.withPc v).rat = s.rat := rfl
@[simp] theorem State.withPc_rob (v : Word) : (s.withPc v).rob = s.rob := rfl
@[simp] theorem State.withPc_rs (v : Word) : (s.withPc v).rs = s.rs := rfl
@[simp] theorem State.withPc_lsq (v : Word) : (s.withPc v).lsq = s.lsq := rfl
@[simp] theorem State.withPc_queues (v : Word) : (s.withPc v).queues = s.queues := rfl
@[simp] theorem State.withPc_pred (v : Word) : (s.withPc v).pred = s.pred := rfl
@[simp] theorem State.withPc_executed (v : Word) : (s.withPc v).executed = s.executed := rfl
@[simp] theorem State.withPc_cycles (v : Word) : (s.withPc v).cycles = s.cycles := rfl
@[simp] theorem State.withPc_cfgPolicy (v : Word) : (s.withPc v).cfgPolicy = s.cfgPolicy := rfl
@[simp] theorem State.withPc_cfgWidth (v : Word) : (s.withPc v).cfgWidth = s.cfgWidth := rfl
@[simp] theorem State.withPc_poisonSeq (v : Word) : (s.withPc v).poisonSeq = s.poisonSeq := rfl

@[simp] theorem State.withStatus_params (v : Status) : (s.withStatus v).params = s.params := rfl
@[simp] theorem State.withStatus_regs (v : Status) : (s.withStatus v).regs = s.regs := rfl
@[simp] theorem State.withStatus_mem (v : Status) : (s.withStatus v).mem = s.mem := rfl
@[simp] theorem State.withStatus_prog (v : Status) : (s.withStatus v).prog = s.prog := rfl
@[simp] theorem State.withStatus_symtab (v : Status) : (s.withStatus v).symtab = s.symtab := rfl
@[simp] theorem State.withStatus_pc (v : Status) : (s.withStatus v).pc = s.pc := rfl
@[simp] theorem State.withStatus_status (v : Status) : (s.withStatus v).status = v := rfl
@[simp] theorem State.withStatus_rat (v : Status) : (s.withStatus v).rat = s.rat := rfl
@[simp] theorem State.withStatus_rob (v : Status) : (s.withStatus v).rob = s.rob := rfl
@[simp] theorem State.withStatus_rs (v : Status) : (s.withStatus v).rs = s.rs := rfl
@[simp] theorem State.withStatus_lsq (v : Status) : (s.withStatus v).lsq = s.lsq := rfl
@[simp] theorem State.withStatus_queues (v : Status) : (s.withStatus v).queues = s.queues := rfl
@[simp] theorem State.withStatus_pred (v : Status) : (s.withStatus v).pred = s.pred := rfl
@[simp] theorem State.withStatus_executed (v : Status) : (s.withStatus v).executed = s.executed := rfl
@[simp] theorem State.withStatus_cycles (v : Status) : (s.withStatus v).cycles = s.cycles := rfl
@[simp] theorem State.withStatus_cfgPolicy (v : Status) : (s.withStatus v).cfgPolicy = s.cfgPolicy := rfl
@[simp] theorem State.withStatus_cfgWidth (v : Status) : (s.withStatus v).cfgWidth = s.cfgWidth := rfl
@[simp] theorem State.withStatus_poisonSeq (v : Status) : (s.withStatus v).poisonSeq = s.poisonSeq := rfl

@[simp] theorem State.withRat_params (v : Vector (Option Nat) 32) : (s.withRat v).params = s.params := rfl
@[simp] theorem State.withRat_regs (v : Vector (Option Nat) 32) : (s.withRat v).regs = s.regs := rfl
@[simp] theorem State.withRat_mem (v : Vector (Option Nat) 32) : (s.withRat v).mem = s.mem := rfl
@[simp] theorem State.withRat_prog (v : Vector (Option Nat) 32) : (s.withRat v).prog = s.prog := rfl
@[simp] theorem State.withRat_symtab (v : Vector (Option Nat) 32) : (s.withRat v).symtab = s.symtab := rfl
@[simp] theorem State.withRat_pc (v : Vector (Option Nat) 32) : (s.withRat v).pc = s.pc := rfl
@[simp] theorem State.withRat_status (v : Vector (Option Nat) 32) : (s.withRat v).status = s.status := rfl
@[simp] theorem State.withRat_rat (v : Vector (Option Nat) 32) : (s.withRat v).rat = v := rfl
@[simp] theorem State.withRat_rob (v : Vector (Option Nat) 32) : (s.withRat v).rob = s.rob := rfl
@[simp] theorem State.withRat_rs (v : Vector (Option Nat) 32) : (s.withRat v).rs = s.rs := rfl
@[simp] theorem State.withRat_lsq (v : Vector (Option Nat) 32) : (s.withRat v).lsq = s.lsq := rfl
@[simp] theorem State.withRat_queues (v : Vector (Option Nat) 32) : (s.withRat v).queues = s.queues := rfl
@[simp] theorem State.withRat_pred (v : Vector (Option Nat) 32) : (s.withRat v).pred = s.pred := rfl
@[simp] theorem State.withRat_executed (v : Vector (Option Nat) 32) : (s.withRat v).executed = s.executed := rfl
@[simp] theorem State.withRat_cycles (v : Vector (Option Nat) 32) : (s.withRat v).cycles = s.cycles := rfl
@[simp] theorem State.withRat_cfgPolicy (v : Vector (Option Nat) 32) : (s.withRat v).cfgPolicy = s.cfgPolicy := rfl
@[simp] theorem State.withRat_cfgWidth (v : Vector (Option Nat) 32) : (s.withRat v).cfgWidth = s.cfgWidth := rfl
@[simp] theorem State.withRat_poisonSeq (v : Vector (Option Nat) 32) : (s.withRat v).poisonSeq = s.poisonSeq := rfl

@[simp] theorem State.withRob_params (v : Rob) : (s.withRob v).params = s.params := rfl
@[simp] theorem State.withRob_regs (v : Rob) : (s.withRob v).regs = s.regs := rfl
@[simp] theorem State.withRob_mem (v : Rob) : (s.withRob v).mem = s.mem := rfl
@[simp] theorem State.withRob_prog (v : Rob) : (s.withRob v).prog = s.prog := rfl
@[simp] theorem State.withRob_symtab (v : Rob) : (s.withRob v).symtab = s.symtab := rfl
@[simp] theorem State.withRob_pc (v : Rob) : (s.withRob v).pc = s.pc := rfl
@[simp] theorem State.withRob_status (v : Rob) : (s.withRob v).status = s.status := rfl
@[simp] theorem State.withRob_rat (v : Rob) : (s.withRob v).rat = s.rat := rfl
@[simp] theorem State.withRob_rob (v : Rob) : (s.withRob v).rob = v := rfl
@[simp] theorem State.withRob_rs (v : Rob) : (s.withRob v).rs = s.rs := rfl
@[simp] theorem State.withRob_lsq (v : Rob) : (s.withRob v).lsq = s.lsq := rfl
@[simp] theorem State.withRob_queues (v : Rob) : (s.withRob v).queues = s.queues := rfl
@[simp] theorem State.withRob_pred (v : Rob) : (s.withRob v).pred = s.pred := rfl
@[simp] theorem State.withRob_executed (v : Rob) : (s.withRob v).executed = s.executed := rfl
@[simp] theorem State.withRob_cycles (v : Rob) : (s.withRob v).cycles = s.cycles := rfl
@[simp] theorem State.withRob_cfgPolicy (v : Rob) : (s.withRob v).cfgPolicy = s.cfgPolicy := rfl
@[simp] theorem State.withRob_cfgWidth (v : Rob) : (s.withRob v).cfgWidth = s.cfgWidth := rfl
@[simp] theorem State.withRob_poisonSeq (v : Rob) : (s.withRob v).poisonSeq = s.poisonSeq := rfl

@[simp] theorem State.withRs_params (v : List (Option RsEntry)) : (s.withRs v).params = s.params := rfl
@[simp] theorem State.withRs_regs (v : List (Option RsEntry)) : (s.withRs v).regs = s.regs := rfl
@[simp] theorem State.withRs_mem (v : List (Option RsEntry)) : (s.withRs v).mem = s.mem := rfl
@[simp] theorem State.withRs_prog (v : List (Option RsEntry)) : (s.withRs v).prog = s.prog := rfl
@[simp] theorem State.withRs_symtab (v : List (Option RsEntry)) : (s.withRs v).symtab = s.symtab := rfl
@[simp] theorem State.withRs_pc (v : List (Option RsEntry)) : (s.withRs v).pc = s.pc := rfl
@[simp] theorem State.withRs_status (v : List (Option RsEntry)) : (s.withRs v).status = s.status := rfl
@[simp] theorem State.withRs_rat (v : List (Option RsEntry)) : (s.withRs v).rat = s.rat := rfl
@[simp] theorem State.withRs_rob (v : List (Option RsEntry)) : (s.withRs v).rob = s.rob := rfl
@[simp] theorem State.withRs_rs (v : List (Option RsEntry)) : (s.withRs v).rs = v := rfl
@[simp] theorem State.withRs_lsq (v : List (Option RsEntry)) : (s.withRs v).lsq = s.lsq := rfl
@[simp] theorem State.withRs_queues (v : List (Option RsEntry)) : (s.withRs v).queues = s.queues := rfl
@[simp] theorem State.withRs_pred (v : List (Option RsEntry)) : (s.withRs v).pred = s.pred := rfl
@[simp] theorem State.withRs_executed (v : List (Option RsEntry)) : (s.withRs v).executed = s.executed := rfl
@[simp] theorem State.withRs_cycles (v : List (Option RsEntry)) : (s.withRs v).cycles = s.cycles := rfl
@[simp] theorem State.withRs_cfgPolicy (v : List (Option RsEntry)) : (s.withRs v).cfgPolicy = s.cfgPolicy := rfl
@[simp] theorem State.withRs_cfgWidth (v : List (Option RsEntry)) : (s.withRs v).cfgWidth = s.cfgWidth := rfl
@[simp] theorem State.withRs_poisonSeq (v : List (Option RsEntry)) : (s.withRs v).poisonSeq = s.poisonSeq := rfl

@[simp] theorem State.withLsq_params (v : Lsq) : (s.withLsq v).params = s.params := rfl
@[simp] theorem State.withLsq_regs (v : Lsq) : (s.withLsq v).regs = s.regs := rfl
@[simp] theorem State.withLsq_mem (v : Lsq) : (s.withLsq v).mem = s.mem := rfl
@[simp] theorem State.withLsq_prog (v : Lsq) : (s.withLsq v).prog = s.prog := rfl
@[simp] theorem State.withLsq_symtab (v : Lsq) : (s.withLsq v).symtab = s.symtab := rfl
@[simp] theorem State.withLsq_pc (v : Lsq) : (s.withLsq v).pc = s.pc := rfl
@[simp] theorem State.withLsq_status (v : Lsq) : (s.withLsq v).status = s.status := rfl
@[simp] theorem State.withLsq_rat (v : Lsq) : (s.withLsq v).rat = s.rat := rfl
@[simp] theorem State.withLsq_rob (v : Lsq) : (s.withLsq v).rob = s.rob := rfl
@[simp] theorem State.withLsq_rs (v : Lsq) : (s.withLsq v).rs = s.rs := rfl
@[simp] theorem State.withLsq_lsq (v : Lsq) : (s.withLsq v).lsq = v := rfl
@[simp] theorem State.withLsq_queues (v : Lsq) : (s.withLsq v).queues = s.queues := rfl
@[simp] theorem State.withLsq_pred (v : Lsq) : (s.withLsq v).pred = s.pred := rfl
@[simp] theorem State.withLsq_executed (v : Lsq) : (s.withLsq v).executed = s.executed := rfl
@[simp] theorem State.withLsq_cycles (v : Lsq) : (s.withLsq v).cycles = s.cycles := rfl
@[simp] theorem State.withLsq_cfgPolicy (v : Lsq) : (s.withLsq v).cfgPolicy = s.cfgPolicy := rfl
@[simp] theorem State.withLsq_cfgWidth (v : Lsq) : (s.withLsq v).cfgWidth = s.cfgWidth := rfl
@[simp] theorem State.withLsq_poisonSeq (v : Lsq) : (s.withLsq v).poisonSeq = s.poisonSeq := rfl

@[simp] theorem State.withQueues_params (v : Queues) : (s.withQueues v).params = s.params := rfl
@[simp] theorem State.withQueues_regs (v : Queues) : (s.withQueues v).regs = s.regs := rfl
@[simp] theorem State.withQueues_mem (v : Queues) : (s.withQueues v).mem = s.mem := rfl
@[simp] theorem State.withQueues_prog (v : Queues) : (s.withQueues v).prog = s.prog := rfl
@[simp] theorem State.withQueues_symtab (v : Queues) : (s.withQueues v).symtab = s.symtab := rfl
@[simp] theorem State.withQueues_pc (v : Queues) : (s.withQueues v).pc = s.pc := rfl
@[simp] theorem State.withQueues_status (v : Queues) : (s.withQueues v).status = s.status := rfl
@[simp] theorem State.withQueues_rat (v : Queues) : (s.withQueues v).rat = s.rat := rfl
@[simp] theorem State.withQueues_rob (v : Queues) : (s.withQueues v).rob = s.rob := rfl
@[simp] theorem State.withQueues_rs (v : Queues) : (s.withQueues v).rs = s.rs := rfl
@[simp] theorem State.withQueues_lsq (v : Queues) : (s.withQueues v).lsq = s.lsq := rfl
@[simp] theorem State.withQueues_queues (v : Queues) : (s.withQueues v).queues = v := rfl
@[simp] theorem State.withQueues_pred (v : Queues) : (s.withQueues v).pred = s.pred := rfl
@[simp] theorem State.withQueues_executed (v : Queues) : (s.withQueues v).executed = s.executed := rfl
@[simp] theorem State.withQueues_cycles (v : Queues) : (s.withQueues v).cycles = s.cycles := rfl
@[simp] theorem State.withQueues_cfgPolicy (v : Queues) : (s.withQueues v).cfgPolicy = s.cfgPolicy := rfl
@[simp] theorem State.withQueues_cfgWidth (v : Queues) : (s.withQueues v).cfgWidth = s.cfgWidth := rfl
@[simp] theorem State.withQueues_poisonSeq (v : Queues) : (s.withQueues v).poisonSeq = s.poisonSeq := rfl

@[simp] theorem State.withPred_params (v : Predictor) : (s.withPred v).params = s.params := rfl
@[simp] theorem State.withPred_regs (v : Predictor) : (s.withPred v).regs = s.regs := rfl
@[simp] theorem State.withPred_mem (v : Predictor) : (s.withPred v).mem = s.mem := rfl
@[simp] theorem State.withPred_prog (v : Predictor) : (s.withPred v).prog = s.prog := rfl
@[simp] theorem State.withPred_symtab (v : Predictor) : (s.withPred v).symtab = s.symtab := rfl
@[simp] theorem State.withPred_pc (v : Predictor) : (s.withPred v).pc = s.pc := rfl
@[simp] theorem State.withPred_status (v : Predictor) : (s.withPred v).status = s.status := rfl
@[simp] theorem State.withPred_rat (v : Predictor) : (s.withPred v).rat = s.rat := rfl
@[simp] theorem State.withPred_rob (v : Predictor) : (s.withPred v).rob = s.rob := rfl
@[simp] theorem State.withPred_rs (v : Predictor) : (s.withPred v).rs = s.rs := rfl
@[simp] theorem State.withPred_lsq (v : Predictor) : (s.withPred v).lsq = s.lsq := rfl
@[simp] theorem State.withPred_queues (v : Predictor) : (s.withPred v).queues = s.queues := rfl
@[simp] theorem State.withPred_pred (v : Predictor) : (s.withPred v).pred = v := rfl
@[simp] theorem State.withPred_executed (v : Predictor) : (s.withPred v).executed = s.executed := rfl
@[simp] theorem State.withPred_cycles (v : Predictor) : (s.withPred v).cycles = s.cycles := rfl
@[simp] theorem State.withPred_cfgPolicy (v : Predictor) : (s.withPred v).cfgPolicy = s.cfgPolicy := rfl
@[simp] theorem State.withPred_cfgWidth (v : Predictor) : (s.withPred v).cfgWidth = s.cfgWidth := rfl
@[simp] theorem State.withPred_poisonSeq (v : Predictor) : (s.withPred v).poisonSeq = s.poisonSeq := rfl

@[simp] theorem State.withExecuted_params (v : Nat) : (s.withExecuted v).params = s.params := rfl
@[simp] theorem State.withExecuted_regs (v : Nat) : (s.withExecuted v).regs = s.regs := rfl
@[simp] theorem State.withExecuted_mem (v : Nat) : (s.withExecuted v).mem = s.mem := rfl
@[simp] theorem State.withExecuted_prog (v : Nat) : (s.withExecuted v).prog = s.prog := rfl
@[simp] theorem State.withExecuted_symtab (v : Nat) : (s.withExecuted v).symtab = s.symtab := rfl
@[simp] theorem State.withExecuted_pc (v : Nat) : (s.withExecuted v).pc = s.pc := rfl
@[simp] theorem State.withExecuted_status (v : Nat) : (s.withExecuted v).status = s.status := rfl
@[simp] theorem State.withExecuted_rat (v : Nat) : (s.withExecuted v).rat = s.rat := rfl
@[simp] theorem State.withExecuted_rob (v : Nat) : (s.withExecuted v).rob = s.rob := rfl
@[simp] theorem State.withExecuted_rs (v : Nat) : (s.withExecuted v).rs = s.rs := rfl
@[simp] theorem State.withExecuted_lsq (v : Nat) : (s.withExecuted v).lsq = s.lsq := rfl
@[simp] theorem State.withExecuted_queues (v : Nat) : (s.withExecuted v).queues = s.queues := rfl
@[simp] theorem State.withExecuted_pred (v : Nat) : (s.withExecuted v).pred = s.pred := rfl
@[simp] theorem State.withExecuted_executed (v : Nat) : (s.withExecuted v).executed = v := rfl
@[simp] theorem State.withExecuted_cycles (v : Nat) : (s.withExecuted v).cycles = s.cycles := rfl
@[simp] theorem State.withExecuted_cfgPolicy (v : Nat) : (s.withExecuted v).cfgPolicy = s.cfgPolicy := rfl
@[simp] theorem State.withExecuted_cfgWidth (v : Nat) : (s.withExecuted v).cfgWidth = s.cfgWidth := rfl
@[simp] theorem State.withExecuted_poisonSeq (v : Nat) : (s.withExecuted v).poisonSeq = s.poisonSeq := rfl

@[simp] theorem State.withCycles_params (v : Nat) : (s.withCycles v).params = s.params := rfl
@[simp] theorem State.withCycles_regs (v : Nat) : (s.withCycles v).regs = s.regs := rfl
@[simp] theorem State.withCycles_mem (v : Nat) : (s.withCycles v).mem = s.mem := rfl
@[simp] theorem State.withCycles_prog (v : Nat) : (s.withCycles v).prog = s.prog := rfl
@[simp] theorem State.withCycles_symtab (v : Nat) : (s.withCycles v).symtab = s.symtab := rfl
@[simp] theorem State.withCycles_pc (v : Nat) : (s.withCycles v).pc = s.pc := rfl
@[simp] theorem State.withCycles_status (v : Nat) : (s.withCycles v).status = s.status := rfl
@[simp] theorem State.withCycles_rat (v : Nat) : (s.withCycles v).rat = s.rat := rfl
@[simp] theorem State.withCycles_rob (v : Nat) : (s.withCycles v).rob = s.rob := rfl
@[simp] theorem State.withCycles_rs (v : Nat) : (s.withCycles v).rs = s.rs := rfl
@[simp] theorem State.withCycles_lsq (v : Nat) : (s.withCycles v).lsq = s.lsq := rfl
@[simp] theorem State.withCycles_queues (v : Nat) : (s.withCycles v).queues = s.queues := rfl
@[simp] theorem State.withCycles_pred (v : Nat) : (s.withCycles v).pred = s.pred := rfl
@[simp] theorem State.withCycles_executed (v : Nat) : (s.withCycles v).executed = s.executed := rfl
@[simp] theorem State.withCycles_cycles (v : Nat) : (s.withCycles v).cycles = v := rfl
@[simp] theorem State.withCycles_cfgPolicy (v : Nat) : (s.withCycles v).cfgPolicy = s.cfgPolicy := rfl
@[simp] theorem State.withCycles_cfgWidth (v : Nat) : (s.withCycles v).cfgWidth = s.cfgWidth := rfl
@[simp] theorem State.withCycles_poisonSeq (v : Nat) : (s.withCycles v).poisonSeq = s.poisonSeq := rfl

@[simp] theorem State.withPoisonSeq_params (v : Nat) : (s.withPoisonSeq v).params = s.params := rfl
@[simp] theorem State.withPoisonSeq_regs (v : Nat) : (s.withPoisonSeq v).regs = s.regs := rfl
@[simp] theorem State.withPoisonSeq_mem (v : Nat) : (s.withPoisonSeq v).mem = s.mem := rfl
@[simp] theorem State.withPoisonSeq_prog (v : Nat) : (s.withPoisonSeq v).prog = s.prog := rfl
@[simp] theorem State.withPoisonSeq_symtab (v : Nat) : (s.withPoisonSeq v).symtab = s.symtab := rfl
@[simp] theorem State.withPoisonSeq_pc (v : Nat) : (s.withPoisonSeq v).pc = s.pc := rfl
@[simp] theorem State.withPoisonSeq_status (v : Nat) : (s.withPoisonSeq v).status = s.status := rfl
@[simp] theorem State.withPoisonSeq_rat (v : Nat) : (s.withPoisonSeq v).rat = s.rat := rfl
@[simp] theorem State.withPoisonSeq_rob (v : Nat) : (s.withPoisonSeq v).rob = s.rob := rfl
@[simp] theorem State.withPoisonSeq_rs (v : Nat) : (s.withPoisonSeq v).rs = s.rs := rfl
@[simp] theorem State.withPoisonSeq_lsq (v : Nat) : (s.withPoisonSeq v).lsq = s.lsq := rfl
@[simp] theorem State.withPoisonSeq_queues (v : Nat) : (s.withPoisonSeq v).queues = s.queues := rfl
@[simp] theorem State.withPoisonSeq_pred (v : Nat) : (s.withPoisonSeq v).pred = s.pred := rfl
@[simp] theorem State.withPoisonSeq_executed (v : Nat) : (s.withPoisonSeq v).executed = s.executed := rfl
@[simp] theorem State.withPoisonSeq_cycles (v : Nat) : (s.withPoisonSeq v).cycles = s.cycles := rfl
@[simp] theorem State.withPoisonSeq_cfgPolicy (v : Nat) : (s.withPoisonSeq v).cfgPolicy = s.cfgPolicy := rfl
@[simp] theorem State.withPoisonSeq_cfgWidth (v : Nat) : (s.withPoisonSeq v).cfgWidth = s.cfgWidth := rfl
@[simp] theorem State.withPoisonSeq_poisonSeq (v : Nat) : (s.withPoisonSeq v).poisonSeq = v := rfl

end Sys2Proof.Machine
end

