-- ==== Sys2Proof/Laws/Ops.lean ====
section
/-! SUPPORT. What each shared operation of the instruction meanings can do, said once. -/

namespace Sys2Proof.Machine

variable (s : State)

/-! ### Registers -/

@[simp] theorem State.withMem_reg (v : Memory) (r : RegId) : (s.withMem v).reg r = s.reg r := rfl
@[simp] theorem State.withProg_reg (v : List Code) (r : RegId) : (s.withProg v).reg r = s.reg r := rfl
@[simp] theorem State.withPc_reg (v : Word) (r : RegId) : (s.withPc v).reg r = s.reg r := rfl
@[simp] theorem State.withStatus_reg (v : Status) (r : RegId) : (s.withStatus v).reg r = s.reg r := rfl
@[simp] theorem State.withRat_reg (v : Vector (Option Nat) 32) (r : RegId) : (s.withRat v).reg r = s.reg r := rfl
@[simp] theorem State.withRob_reg (v : Rob) (r : RegId) : (s.withRob v).reg r = s.reg r := rfl
@[simp] theorem State.withRs_reg (v : List (Option RsEntry)) (r : RegId) : (s.withRs v).reg r = s.reg r := rfl
@[simp] theorem State.withLsq_reg (v : Lsq) (r : RegId) : (s.withLsq v).reg r = s.reg r := rfl
@[simp] theorem State.withQueues_reg (v : Queues) (r : RegId) : (s.withQueues v).reg r = s.reg r := rfl
@[simp] theorem State.withPred_reg (v : Predictor) (r : RegId) : (s.withPred v).reg r = s.reg r := rfl
@[simp] theorem State.withExecuted_reg (v : Nat) (r : RegId) : (s.withExecuted v).reg r = s.reg r := rfl
@[simp] theorem State.withCycles_reg (v : Nat) (r : RegId) : (s.withCycles v).reg r = s.reg r := rfl
@[simp] theorem State.withPoisonSeq_reg (v : Nat) (r : RegId) : (s.withPoisonSeq v).reg r = s.reg r := rfl

@[simp] theorem State.setReg_reg_self (r : RegId) (v : Word) : (s.setReg r v).reg r = v := by
  simp [State.setReg, State.reg]

theorem State.setReg_reg_ne {r q : RegId} (v : Word) (h : q ≠ r) : (s.setReg r v).reg q = s.reg q := by
  have h' : ¬ (r : Nat) = q := fun e => h (Fin.ext e.symm)
  simp [State.setReg, State.reg, h']

theorem State.setReg_eq (r : RegId) (v : Word) : s.setReg r v = s.withRegs (s.regs.set r v) := rfl

@[simp] theorem State.setReg_mem (r : RegId) (v : Word) : (s.setReg r v).mem = s.mem := rfl
@[simp] theorem State.setReg_pc (r : RegId) (v : Word) : (s.setReg r v).pc = s.pc := rfl
@[simp] theorem State.setReg_status (r : RegId) (v : Word) : (s.setReg r v).status = s.status := rfl
@[simp] theorem State.setReg_pred (r : RegId) (v : Word) : (s.setReg r v).pred = s.pred := rfl
@[simp] theorem State.setReg_executed (r : RegId) (v : Word) : (s.setReg r v).executed = s.executed := rfl
@[simp] theorem State.setReg_params (r : RegId) (v : Word) : (s.setReg r v).params = s.params := rfl

/-! ### Memory cells -/

/-- A load answers the content of the cell its address names, and nothing for an address outside memory. -/
theorem State.loadCell_eq_some {a v : Word} :
    s.loadCell a = some v ↔ ∃ k, cellOf s.params.memSize a = some k ∧ s.mem.read k = v := by
  simp [State.loadCell]

theorem State.loadCell_eq_none {a : Word} : s.loadCell a = none ↔ cellOf s.params.memSize a = none := by
  simp [State.loadCell]

/-- A store answers the state with one cell written, and nothing for an address outside memory. -/
theorem State.storeCell_eq_some {a v : Word} {t : State} :
    s.storeCell a v = some t ↔ ∃ k, cellOf s.params.memSize a = some k ∧ t = s.withMem (s.mem.write k v) := by
  simp [State.storeCell, eq_comm]

theorem State.storeCell_eq_none {a v : Word} : s.storeCell a v = none ↔ cellOf s.params.memSize a = none := by
  simp [State.storeCell]

/-! ### Fetch -/

/-- An instruction is there exactly for a pc in range. -/
theorem State.imem?_isSome {pc : Word} : (s.imem? pc).isSome = s.pcInRange pc := by
  unfold State.imem?
  cases h : s.pcInRange pc
  · simp
  · simp only [State.pcInRange, Bool.and_eq_true, decide_eq_true_eq] at h
    have h2 : pc.toNat < s.prog.length := by
      have := BitVec.toInt_eq_toNat_cond pc
      have hlt := pc.isLt
      split at this <;> omega
    simp [h2]

theorem State.imem?_eq_none {pc : Word} : s.imem? pc = none ↔ s.pcInRange pc = false := by
  rw [← State.imem?_isSome]
  simp

/-! ### Status -/

theorem State.raise_eq (e : FatalError) : s.raise e = s.withStatus (.fatal e) := rfl
@[simp] theorem State.raise_status (e : FatalError) : (s.raise e).status = .fatal e := rfl
@[simp] theorem State.raise_reg (e : FatalError) (r : RegId) : (s.raise e).reg r = s.reg r := rfl
@[simp] theorem State.raise_mem (e : FatalError) : (s.raise e).mem = s.mem := rfl
@[simp] theorem State.raise_executed (e : FatalError) : (s.raise e).executed = s.executed := rfl

/-- The halt test changes nothing but the status. -/
theorem State.haltTest_eq :
    s.haltTest = s.withStatus (if s.reg Config.haltReg = 1 then .halted else s.status) := by
  unfold State.haltTest
  split <;> rfl

/-- The end of an instruction in program order, field by field. -/
theorem State.retire_eq (next : Word) :
    s.retire next =
      ((s.withPc next).withExecuted (s.executed + 1)).withStatus
        (if s.reg Config.haltReg = 1 then .halted else s.status) := by
  rw [State.retire, State.haltTest_eq]
  rfl

/-- The end of an instruction that writes a register. -/
theorem State.retireReg_eq (r : RegId) (v : Word) :
    s.retireReg r v =
      (((s.setReg r v).withPc (s.pc + 1)).withExecuted (s.executed + 1)).withStatus
        (if (s.setReg r v).reg Config.haltReg = 1 then .halted else s.status) := by
  rw [State.retireReg, State.retire_eq]
  rfl

/-- A division ends in its quotient or in the fault. -/
theorem State.retireDivision_cases (r : RegId) (q : Option Word) :
    (∃ v, q = some v ∧ s.retireDivision r q = s.retireReg r v) ∨
      (q = none ∧ s.retireDivision r q = s.raise .arithmeticFault) := by
  cases q with
  | none => exact .inr ⟨rfl, rfl⟩
  | some v => exact .inl ⟨v, rfl, rfl⟩

/-- No division answers for a zero divisor, and every one answers for another. -/
theorem aluDiv_eq_none {a b : Word} : aluDiv a b = none ↔ b.toInt = 0 := by
  unfold aluDiv
  split
  · simp_all
  · split <;> simp_all

theorem aluIdiv_eq_none {a b : Word} : aluIdiv a b = none ↔ b.toInt = 0 := by
  unfold aluIdiv
  split <;> simp_all

theorem aluMod_eq_none {a b : Word} : aluMod a b = none ↔ b.toInt = 0 := by
  unfold aluMod
  split <;> simp_all

/-! ### Predictor -/

/-- `predict` changes the table at one pc at most, and no counter. -/
theorem Predictor.predict_cases (policy : Policy) (p : Predictor) (pc : Word) :
    (∃ t, policy = .oneBit ∧ p.target? pc = some t ∧ p.predict policy pc = (p, t)) ∨
      p.predict policy pc = (p.record pc (pc + 1), pc + 1) := by
  unfold Predictor.predict
  split
  · rename_i t h
    exact .inl ⟨t, rfl, h, rfl⟩
  · exact .inr rfl

@[simp] theorem Predictor.record_nChecked (p : Predictor) (pc t : Word) : (p.record pc t).nChecked = p.nChecked := rfl
@[simp] theorem Predictor.record_nMissed (p : Predictor) (pc t : Word) : (p.record pc t).nMissed = p.nMissed := rfl
@[simp] theorem Predictor.record_distSum (p : Predictor) (pc t : Word) : (p.record pc t).distSum = p.distSum := rfl

/-- The table holds what was recorded last. -/
theorem Predictor.record_target_self (p : Predictor) (pc t : Word) : (p.record pc t).target? pc = some t :=
  sparseFind_insert_self _ _ _

theorem Predictor.record_target_ne (p : Predictor) {pc q : Word} (t : Word) (h : q ≠ pc) :
    (p.record pc t).target? q = p.target? q :=
  sparseFind_insert_ne _ _ fun e => h (BitVec.eq_of_toNat_eq e)

/-- `check` answers the correct next pc whether or not it was predicted. -/
@[simp] theorem Predictor.check_correct (policy : Policy) (p : Predictor) (pc rpc result : Word) :
    (p.check policy pc rpc result).correct = correctNext pc rpc result := by
  by_cases h : p.target? pc = some (correctNext pc rpc result) <;> simp [Predictor.check, h]

/-- The counters after a validation. -/
@[simp] theorem Predictor.counted_nChecked (p : Predictor) (pc c : Word) :
    (p.counted pc c).nChecked = p.nChecked + 1 := rfl
@[simp] theorem Predictor.counted_nMissed (p : Predictor) (pc c : Word) : (p.counted pc c).nMissed = p.nMissed := rfl
@[simp] theorem Predictor.counted_distSum (p : Predictor) (pc c : Word) :
    (p.counted pc c).distSum = p.distSum + branchDistance pc c := rfl
@[simp] theorem Predictor.counted_btb (p : Predictor) (pc c : Word) : (p.counted pc c).btb = p.btb := rfl

/-- A mismatch counts one miss, and writes the table only under one-bit. -/
theorem Predictor.missed_cases (policy : Policy) (p : Predictor) (pc c : Word) :
    (policy = .oneBit ∧ p.missed policy pc c = { p with btb := sparseInsert p.btb pc.toNat c, nMissed := p.nMissed + 1 }) ∨
      (policy ≠ .oneBit ∧ p.missed policy pc c = { p with nMissed := p.nMissed + 1 }) := by
  by_cases h : policy = .oneBit
  · exact .inl ⟨h, by simp [Predictor.missed, h, Predictor.record]⟩
  · exact .inr ⟨h, by simp [Predictor.missed, h]⟩

/-- `check` succeeds exactly when the table holds the correct next pc. -/
theorem Predictor.check_ok (policy : Policy) (p : Predictor) (pc rpc result : Word) :
    (p.check policy pc rpc result).ok = true ↔ p.target? pc = some (correctNext pc rpc result) := by
  by_cases h : p.target? pc = some (correctNext pc rpc result) <;> simp [Predictor.check, h]

@[simp] theorem takenOf_truthWord (b : Bool) : takenOf (truthWord b) = b := by
  cases b <;> rfl

end Sys2Proof.Machine
end

