-- ==== Sys2Proof/Laws/Engine.lean ====
section
/-! SUPPORT. What an instruction, a stage, a sub-step and a step can do, said once, and the induction over a run's
sub-steps packaged once: a property that every stage and every instruction keeps is kept by every step. -/

namespace Sys2Proof.Machine

/-! ### Instructions -/

/-- All that an instruction can do: write one register and go on, raise an error, write one cell and go on, or end as
a branch. -/
theorem exec_cases {i : Instr} {s t : State} (h : exec i s = .next t) :
    (∃ r v, i.dest = some r ∧ t = s.retireReg r v) ∨ (∃ e, t = s.raise e) ∨
      (∃ a v k, cellOf s.params.memSize a = some k ∧ t = (s.withMem (s.mem.write k v)).retire (s.pc + 1)) ∨
      ∃ target result, t = s.retireBranch target result := by
  have division : ∀ {r : RegId} {q : Option Word}, s.retireDivision r q = t →
      (∃ v, t = s.retireReg r v) ∨ ∃ e, t = s.raise e := by
    intro r q hq
    rcases s.retireDivision_cases r q with ⟨v, -, hv⟩ | ⟨-, hv⟩
    · exact .inl ⟨v, hq ▸ hv⟩
    · exact .inr ⟨_, hq ▸ hv⟩
  cases i with
  | add rd rs rt | sub rd rs rt | mul rd rs rt | addi rd rs imm =>
    exact .inl ⟨rd, _, rfl, ((Host.Outcome.next.injEq _ _).mp h).symm⟩
  | div rd rs rt | idiv rd rs rt | mod rd rs rt =>
    rcases division ((Host.Outcome.next.injEq _ _).mp h) with ⟨v, hv⟩ | he
    · exact .inl ⟨rd, v, rfl, hv⟩
    · exact .inr (.inl he)
  | lw rt imm rs =>
    simp only [exec, execLw] at h
    split at h
    · exact .inl ⟨rt, _, rfl, ((Host.Outcome.next.injEq _ _).mp h).symm⟩
    · exact .inr (.inl ⟨_, ((Host.Outcome.next.injEq _ _).mp h).symm⟩)
  | sw rt imm rs =>
    simp only [exec, execSw] at h
    split at h
    · rename_i s' hs
      obtain ⟨k, hk, rfl⟩ := s.storeCell_eq_some.mp hs
      exact .inr (.inr (.inl ⟨_, _, k, hk, ((Host.Outcome.next.injEq _ _).mp h).symm⟩))
    · exact .inr (.inl ⟨_, ((Host.Outcome.next.injEq _ _).mp h).symm⟩)
  | beq rs rt target | j target =>
    exact .inr (.inr (.inr ⟨target, _, ((Host.Outcome.next.injEq _ _).mp h).symm⟩))

/-! ### Results of stages -/

@[simp] theorem SubResult.all_cont (P : State → Prop) (s : State) : (SubResult.cont s).all P = P s := rfl
@[simp] theorem SubResult.all_flush (P : State → Prop) (s : State) : (SubResult.flush s).all P = P s := rfl
@[simp] theorem SubResult.all_halt (P : State → Prop) (s : State) : (SubResult.halt s).all P = P s := rfl
@[simp] theorem SubResult.all_fatal (P : State → Prop) (s : State) : (SubResult.fatal s).all P = P s := rfl
@[simp] theorem SubResult.all_broken (P : State → Prop) (f : Fault) : (SubResult.broken f).all P = True := rfl

@[simp] theorem SubResult.cont_andThen (s : State) (k : State → SubResult) : (SubResult.cont s).andThen k = k s := rfl
@[simp] theorem SubResult.flush_andThen (s : State) (k : State → SubResult) :
    (SubResult.flush s).andThen k = .flush s := rfl
@[simp] theorem SubResult.halt_andThen (s : State) (k : State → SubResult) :
    (SubResult.halt s).andThen k = .halt s := rfl
@[simp] theorem SubResult.fatal_andThen (s : State) (k : State → SubResult) :
    (SubResult.fatal s).andThen k = .fatal s := rfl
@[simp] theorem SubResult.broken_andThen (f : Fault) (k : State → SubResult) :
    (SubResult.broken f).andThen k = .broken f := rfl

/-- A sequence of stages keeps what its parts keep. -/
theorem SubResult.all_andThen {P Q : State → Prop} {r : SubResult} {k : State → SubResult} (hr : r.all P)
    (hk : ∀ s, P s → (k s).all Q) (hPQ : ∀ s, P s → Q s) : (r.andThen k).all Q := by
  cases r with
  | cont s => exact hk s hr
  | flush s | halt s | fatal s => exact hPQ s hr
  | broken f => trivial

/-- A sequence that goes on went on in both parts. -/
theorem SubResult.andThen_eq_cont {r : SubResult} {k : State → SubResult} {t : State} :
    r.andThen k = .cont t ↔ ∃ s, r = .cont s ∧ k s = .cont t := by
  cases r <;> simp [SubResult.andThen]

/-! ### Stages -/

/-- Fetch reads one instruction, records its prediction and moves `PC` to it, or does nothing (R161). -/
theorem stageFetch_cases (s : State) :
    (∃ code, s.imem? s.pc = some code ∧ s.queues.fq.hasRoom s.params.qCap = true ∧
      stageFetch s =
        ((s.withPred (s.pred.predict s.cfgPolicy s.pc).1).withQueues
          { s.queues with fq := s.queues.fq.push ⟨code, s.pc⟩ }).withPc (s.pred.predict s.cfgPolicy s.pc).2) ∨
      stageFetch s = s := by
  unfold stageFetch
  split
  · rename_i code h1 h2
    exact .inl ⟨code, h1, h2, rfl⟩
  · exact .inr rfl

/-- Decode moves one item from `FQ` to `IQ`, or raises a decode error, or does nothing (R162). -/
theorem stageDecode_cases (s : State) :
    (∃ item rest i, s.queues.fq.visible = item :: rest ∧ decode s.symtab item.code = .ok i ∧
      stageDecode s =
        .cont (s.withQueues { s.queues with fq := s.queues.fq.pop, iq := s.queues.iq.push ⟨i, item.pc⟩ })) ∨
      (∃ item rest e, s.queues.fq.visible = item :: rest ∧ decode s.symtab item.code = .error e ∧
        stageDecode s = .fatal ((s.withQueues { s.queues with fq := s.queues.fq.pop }).raise (decodeErrorOf e))) ∨
      stageDecode s = .cont s := by
  unfold stageDecode
  split
  · rename_i item rest h1 h2
    dsimp only
    split
    · rename_i i hi
      exact .inl ⟨item, rest, i, h1, hi, rfl⟩
    · rename_i e he
      exact .inr (.inl ⟨item, rest, e, h1, he, rfl⟩)
  · exact .inr (.inr rfl)

/-- Issue takes the front of `IQ` when nothing blocks it, or does nothing (R163, R185). -/
theorem stageIssue_cases (s : State) :
    (∃ item rest, s.queues.iq.visible = item :: rest ∧ s.issueBlocked item.instr.cls = false ∧
      stageIssue s = (s.withQueues { s.queues with iq := s.queues.iq.pop }).issue item.instr item.pc) ∨
      stageIssue s = s := by
  unfold stageIssue
  split
  · exact .inr rfl
  · rename_i item rest h
    split
    · exact .inr rfl
    · rename_i hb
      exact .inl ⟨item, rest, h, by simpa using hb, rfl⟩

/-- The first half of dispatch takes one ready entry out of its station, or does nothing (R164). -/
theorem dispatchStation_cases (s : State) :
    (∃ item rs', Stations.nextReady s.rs = some (item, rs') ∧ s.queues.eq.hasRoom s.params.qCap = true ∧
      dispatchStation s = (s.withRs rs').withQueues { s.queues with eq := s.queues.eq.push item }) ∨
      dispatchStation s = s := by
  unfold dispatchStation
  split
  · rename_i hroom
    split
    · rename_i item rs' h
      exact .inl ⟨item, rs', h, hroom, rfl⟩
    · exact .inr rfl
  · exact .inr rfl

/-- The second half of dispatch scans, and then dispatches one ready entry or none (R164). -/
theorem dispatchMemory_cases (s : State) :
    (∃ item lsq', s.lsq.forwardScan.nextReady = some (item, lsq') ∧ s.queues.mq.hasRoom s.params.qCap = true ∧
      dispatchMemory s = (s.withLsq lsq').withQueues { s.queues with mq := s.queues.mq.push item }) ∨
      dispatchMemory s = s.withLsq s.lsq.forwardScan := by
  unfold dispatchMemory
  dsimp only
  split
  · rename_i hroom
    split
    · rename_i item lsq' h
      exact .inl ⟨item, lsq', h, hroom, rfl⟩
    · exact .inr rfl
  · exact .inr rfl

/-- Execute evaluates the front of `EQ`, or does nothing (R165). -/
theorem stageExecute_cases (s : State) :
    (∃ item rest, s.queues.eq.visible = item :: rest ∧
      ((∃ v, alu item.op item.v1 item.v2 = .value v ∧
          stageExecute s =
            .cont ((s.withQueues { s.queues with eq := s.queues.eq.pop }).pushWrite ⟨item.tag, v, none⟩)) ∨
        (alu item.op item.v1 item.v2 = .arithmeticFault ∧
          stageExecute s =
            .cont ((s.withQueues { s.queues with eq := s.queues.eq.pop }).pushPoisoned item.tag .arithmetic)) ∨
        (alu item.op item.v1 item.v2 = .unsupported ∧
          stageExecute s =
            .fatal ((s.withQueues { s.queues with eq := s.queues.eq.pop }).raise .unsupportedOpcodeError)))) ∨
      stageExecute s = .cont s := by
  unfold stageExecute
  split
  · rename_i item rest h1 h2
    dsimp only
    refine .inl ⟨item, rest, h1, ?_⟩
    split
    · rename_i v hv
      exact .inl ⟨v, hv, rfl⟩
    · rename_i hv
      exact .inr (.inl ⟨hv, rfl⟩)
    · rename_i hv
      exact .inr (.inr ⟨hv, rfl⟩)
  · exact .inr rfl

/-- Memory evaluates the front of `MQ`, or does nothing (R166). -/
theorem stageMemory_cases (s : State) :
    (∃ item rest, s.queues.mq.visible = item :: rest ∧
      stageMemory s = (s.withQueues { s.queues with mq := s.queues.mq.pop }).evalMemory item) ∨
      stageMemory s = s := by
  unfold stageMemory
  split
  · rename_i item rest h1 h2
    exact .inl ⟨item, rest, h1, rfl⟩
  · exact .inr rfl

/-- What the memory stage delivers: a value, or a poisoned one for an address outside memory (R139, R140). -/
theorem State.evalMemory_cases (s : State) (m : MemItem) :
    (∃ tag v, s.evalMemory m = s.pushWrite ⟨tag, v, none⟩) ∨
      ∃ tag a, cellOf s.params.memSize a = none ∧ s.evalMemory m = s.pushPoisoned tag (.memoryAddress a) := by
  unfold State.evalMemory
  split
  · exact .inl ⟨_, _, rfl⟩
  · split
    · exact .inl ⟨_, _, rfl⟩
    · rename_i h
      exact .inr ⟨_, _, s.loadCell_eq_none.mp h, rfl⟩
  · exact .inl ⟨_, _, rfl⟩

/-- Writeback broadcasts the front of `WQ`, or does nothing (R167). -/
theorem stageWriteback_cases (s : State) :
    (∃ item rest, s.queues.wq.visible = item :: rest ∧
      stageWriteback s =
        (((s.withQueues { s.queues with wq := s.queues.wq.pop }).withRs
          (Stations.capture s.rs item.tag item.value)).withLsq (s.lsq.capture item.tag item.value)).withRob
          (s.rob.complete item.tag item.value item.fault)) ∨
      stageWriteback s = s := by
  unfold stageWriteback
  split
  · rename_i item rest h
    exact .inl ⟨item, rest, h, rfl⟩
  · exact .inr rfl

/-- The common part of commit goes on, or halts exactly when the halt register holds 1 (R168, R170). -/
theorem State.finishCommit_cases (s : State) (e : RobEntry) (v : Word) :
    let t := ((s.commitReg e.dest v s.rob.head).withRob (s.rob.free s.params.robSize)).withExecuted (s.executed + 1)
    (t.reg Config.haltReg = 1 ∧ s.finishCommit e v = .halt (t.withStatus .halted)) ∨
      (t.reg Config.haltReg ≠ 1 ∧ s.finishCommit e v = .cont t) := by
  intro t
  by_cases h : t.reg Config.haltReg = 1
  · exact .inl ⟨h, if_pos h⟩
  · exact .inr ⟨h, if_neg h⟩

/-- Commit acts only on a complete head entry (R114, R168). -/
theorem stageCommit_cases (s : State) :
    (∃ e, s.rob.count ≠ 0 ∧ s.rob.entry? s.rob.head = some e ∧ e.done = true ∧ stageCommit s = s.commitEntry e) ∨
      stageCommit s = .cont s ∨ stageCommit s = .broken .robHeadAbsent := by
  unfold stageCommit
  split
  · exact .inr (.inl rfl)
  · rename_i hc
    split
    · exact .inr (.inr rfl)
    · rename_i e he
      split
      · rename_i hd
        exact .inl ⟨e, hc, he, hd, rfl⟩
      · exact .inr (.inl rfl)

/-- What committing a complete entry can be: the fault it recorded, a failed assertion, or the commit of its class
(R168). -/
theorem State.commitEntry_cases (s : State) (e : RobEntry) :
    (∃ f, e.fault = some f ∧ s.commitEntry e = .fatal (s.raise f.error)) ∨
      (e.fault = none ∧ e.result = none ∧ s.commitEntry e = .broken .resultAbsent) ∨
      ∃ v, e.fault = none ∧ e.result = some v ∧
        ((e.op.cls = .branch ∨ e.op.cls = .jump) ∧ s.commitEntry e = s.commitBranch e v ∨
          e.op.cls = .store ∧ s.commitEntry e = s.commitStore e v ∨
          e.op.cls = .load ∧ s.commitEntry e = s.commitLoad e v ∨
          (e.op.cls = .arith ∨ e.op.cls = .imm) ∧ s.commitEntry e = s.finishCommit e v) := by
  unfold State.commitEntry
  split
  · rename_i f hf
    exact .inl ⟨f, hf, rfl⟩
  · rename_i hf hr
    exact .inr (.inl ⟨hf, hr, rfl⟩)
  · rename_i v hf hr
    refine .inr (.inr ⟨v, hf, hr, ?_⟩)
    cases hc : e.op.cls <;> simp

/-- A branch's commit is the common part, or a flush counted once (R168, R169). -/
theorem State.commitBranch_cases (s : State) (e : RobEntry) (v : Word) :
    let c := s.pred.check s.cfgPolicy e.pc e.rpc v
    (c.ok = true ∧ s.commitBranch e v = (s.withPred c.pred).finishCommit e v) ∨
      (c.ok = false ∧
        s.commitBranch e v = .flush (((s.withPred c.pred).flush c.correct).withExecuted (s.executed + 1))) := by
  intro c
  by_cases h : c.ok = true
  · exact .inl ⟨h, if_pos h⟩
  · exact .inr ⟨by simpa using h, if_neg h⟩

/-- A store's commit writes one cell and goes on, or raises the address fault, or fails its assertion (R141). -/
theorem State.commitStore_cases (s : State) (e : RobEntry) (v : Word) :
    (∃ a k, cellOf s.params.memSize a = some k ∧
      s.commitStore e v =
        ((s.withMem (s.mem.write k v)).withLsq ((s.lsq.forwardStore a v).free s.params.lsqSize)).finishCommit e v) ∨
      (∃ a, cellOf s.params.memSize a = none ∧ s.commitStore e v = .fatal (s.raise (.memoryAddressFault a))) ∨
      s.commitStore e v = .broken .lsqHeadMismatch := by
  unfold State.commitStore
  split
  · exact .inr (.inr rfl)
  · rename_i a ha
    split
    · rename_i hn
      exact .inr (.inl ⟨a, s.storeCell_eq_none.mp hn, rfl⟩)
    · rename_i s1 hs
      obtain ⟨k, hk, rfl⟩ := s.storeCell_eq_some.mp hs
      exact .inl ⟨a, k, hk, rfl⟩

/-- A load's commit frees the LSQ head and goes on, or fails its assertion (R143). -/
theorem State.commitLoad_cases (s : State) (e : RobEntry) (v : Word) :
    (∃ l, s.lsq.headFor s.rob.head .lw = some l ∧
      s.commitLoad e v = (s.withLsq (s.lsq.free s.params.lsqSize)).finishCommit e v) ∨
      s.commitLoad e v = .broken .lsqHeadMismatch := by
  unfold State.commitLoad
  split
  · exact .inr rfl
  · rename_i l hl
    exact .inl ⟨l, hl, rfl⟩

/-- The end of a sub-step settles the queues, and is fatal when the core would idle for ever (R171). -/
theorem endOfSubstep_cases (s : State) :
    endOfSubstep s = .cont (s.withQueues s.queues.settle) ∨
      (s.pcInRange s.pc = false ∧ s.rob.count = 0 ∧
        endOfSubstep s = .fatal ((s.withQueues s.queues.settle).raise (.programCounterOutOfRange s.pc))) := by
  unfold endOfSubstep
  dsimp only
  split
  · rename_i h
    simp only [Bool.and_eq_true, Bool.not_eq_true', beq_iff_eq] at h
    exact .inr ⟨h.1.1, h.2, rfl⟩
  · exact .inl rfl

/-! ### Runs -/

/-- A property that the first seven stages keep holds of what the commit stage sees (R160). -/
theorem beforeCommit_keeps {P : State → Prop} (fetch : ∀ s, P s → P (stageFetch s))
    (dec : ∀ s, P s → (stageDecode s).all P) (issue : ∀ s, P s → P (stageIssue s))
    (dispatch : ∀ s, P s → P (stageDispatch s)) (execute : ∀ s, P s → (stageExecute s).all P)
    (memory : ∀ s, P s → P (stageMemory s)) (writeback : ∀ s, P s → P (stageWriteback s)) {s : State} (h : P s) :
    (beforeCommit s).all P := by
  refine SubResult.all_andThen (dec _ (fetch s h)) (fun s2 h2 => ?_) fun _ => id
  exact SubResult.all_andThen (execute _ (dispatch _ (issue _ h2))) (fun s5 h5 => writeback _ (memory _ h5)) fun _ => id

/-- A property that every stage keeps is kept by a sub-step (R160). -/
theorem substep_keeps {P : State → Prop} (fetch : ∀ s, P s → P (stageFetch s))
    (dec : ∀ s, P s → (stageDecode s).all P) (issue : ∀ s, P s → P (stageIssue s))
    (dispatch : ∀ s, P s → P (stageDispatch s)) (execute : ∀ s, P s → (stageExecute s).all P)
    (memory : ∀ s, P s → P (stageMemory s)) (writeback : ∀ s, P s → P (stageWriteback s))
    (commit : ∀ s, P s → (stageCommit s).all P) (ending : ∀ s, P s → (endOfSubstep s).all P) {s : State}
    (h : P s) : (substep s).all P :=
  SubResult.all_andThen (beforeCommit_keeps fetch dec issue dispatch execute memory writeback h)
    (fun _ hu => SubResult.all_andThen (commit _ hu) ending fun _ => id) fun _ => id

/-- A property that every sub-step keeps is kept by any number of them (R159). -/
theorem subLoop_keeps {P : State → Prop} (h : ∀ s, P s → (substep s).all P) (n : Nat) {s : State} (hs : P s) :
    (subLoop n s).all P := by
  induction n generalizing s with
  | zero => exact hs
  | succ n ih => exact SubResult.all_andThen (h s hs) (fun t ht => ih ht) fun _ => id

/-- What an outer cycle can answer (R158, R159, R173). -/
theorem cycle_cases {s t : State} (h : cycle s = .next t) :
    t = s ∨ t = s.raise .configError ∨
      ∃ r, subLoop s.cfgWidth.toNat s = r ∧
        ((∃ u, (r = .cont u ∨ r = .flush u ∨ r = .halt u) ∧ t = u.withCycles (u.cycles + 1)) ∨ r = .fatal t) := by
  unfold cycle runCycle at h
  split at h
  · exact .inl ((Host.Outcome.next.injEq _ _).mp h).symm
  · split at h
    · exact .inr (.inl ((Host.Outcome.next.injEq _ _).mp h).symm)
    · refine .inr (.inr ⟨_, rfl, ?_⟩)
      split at h
      · rename_i u hu
        exact .inl ⟨u, .inl hu, ((Host.Outcome.next.injEq _ _).mp h).symm⟩
      · rename_i u hu
        exact .inl ⟨u, .inr (.inl hu), ((Host.Outcome.next.injEq _ _).mp h).symm⟩
      · rename_i u hu
        exact .inl ⟨u, .inr (.inr hu), ((Host.Outcome.next.injEq _ _).mp h).symm⟩
      · rename_i u hu
        exact .inr (((Host.Outcome.next.injEq _ _).mp h) ▸ hu)
      · cases h

/-- What a step of the reference machine can answer (R178). -/
theorem referenceStep_cases {s t : State} (h : referenceStep s = .next t) :
    t = s ∨ (∃ e, t = s.raise e) ∨ t = s.haltTest ∨
      ∃ code i, s.running = true ∧ s.imem? s.pc = some code ∧ decode s.symtab code = .ok i ∧
        exec i s.recordPrediction = .next t := by
  unfold referenceStep fetchAndExec at h
  split at h
  · exact .inl ((Host.Outcome.next.injEq _ _).mp h).symm
  · rename_i hr
    split at h
    · exact .inr (.inl ⟨_, ((Host.Outcome.next.injEq _ _).mp h).symm⟩)
    · split at h
      · exact .inr (.inr (.inl ((Host.Outcome.next.injEq _ _).mp h).symm))
      · split at h
        · exact .inr (.inl ⟨_, ((Host.Outcome.next.injEq _ _).mp h).symm⟩)
        · rename_i code hc
          split at h
          · exact .inr (.inl ⟨_, ((Host.Outcome.next.injEq _ _).mp h).symm⟩)
          · rename_i i hi
            exact .inr (.inr (.inr ⟨code, i, by simpa using hr, hc, hi, h⟩))

/-- A property that every sub-step, the cycle counter, a raise, the halt test, a recorded prediction and every
instruction keep is kept by every step of the machine. -/
theorem step_keeps {P : State → Prop} (sub : ∀ s, P s → (substep s).all P)
    (count : ∀ s n, P s → P (s.withCycles n)) (raised : ∀ s e, P s → P (s.raise e))
    (halt : ∀ s, P s → P s.haltTest)
    (instr : ∀ s t i, P s → exec i s.recordPrediction = .next t → P t) {s t : State} (hs : P s)
    (h : step s = .next t) : P t := by
  unfold step at h
  split at h
  · rcases cycle_cases h with rfl | rfl | ⟨r, hr, ⟨u, hu, rfl⟩ | hf⟩
    · exact hs
    · exact raised _ _ hs
    · have := hr ▸ subLoop_keeps sub s.cfgWidth.toNat hs
      rcases hu with rfl | rfl | rfl <;> exact count _ _ this
    · have := hr ▸ subLoop_keeps sub s.cfgWidth.toNat hs
      subst hf
      exact this
  · rcases referenceStep_cases h with rfl | ⟨e, rfl⟩ | rfl | ⟨code, i, -, -, -, hi⟩
    · exact hs
    · exact raised _ _ hs
    · exact halt _ hs
    · exact instr _ _ _ hs hi

end Sys2Proof.Machine
end

