-- ==== Sys2Proof/Laws/PerInstr.lean ====
section
/-! SUPPORT. Statements made about every instruction as syntax, one lemma per constructor. -/

namespace Sys2Proof

/-- A register index is below 32. -/
theorem regInRange_map_val (r : Option RegId) : regInRange (r.map Fin.val) = true := by
  cases r <;> simp [regInRange]

/-- A 32-bit immediate lies in the range of R64. -/
theorem immInRange_map_toInt (v : Option Word) : immInRange (v.map BitVec.toInt) = true := by
  cases v with
  | none => rfl
  | some v =>
    have h1 := BitVec.le_toInt v
    have h2 := BitVec.toInt_lt (x := v)
    simp only [immInRange, Option.map_some, Option.all_some, Bool.and_eq_true, decide_eq_true_eq]
    omega

/-- The operands of an instruction are always in range: only the shape of its record is left to see. -/
theorem Instr.wellFormed_of_shape {i : Instr} (h : i.toRaw.shapeOk = true) : i.wellFormed = true := by
  rw [Instr.wellFormed, RawRecord.wellFormed, h]
  simp only [Instr.toRaw, regInRange_map_val, immInRange_map_toInt, Bool.and_self]

end Sys2Proof

namespace Sys2Proof.Laws.RecordWellFormed

/-- The record of the instruction has the fields of its class, every register index below 32 and the immediate in
range (R61, R63, R64). -/
def Statement (i : Instr) : Prop := i.wellFormed = true

theorem add (rd : RegId) (rs : RegId) (rt : RegId) : Statement (.add rd rs rt) := Instr.wellFormed_of_shape rfl
theorem sub (rd : RegId) (rs : RegId) (rt : RegId) : Statement (.sub rd rs rt) := Instr.wellFormed_of_shape rfl
theorem mul (rd : RegId) (rs : RegId) (rt : RegId) : Statement (.mul rd rs rt) := Instr.wellFormed_of_shape rfl
theorem div (rd : RegId) (rs : RegId) (rt : RegId) : Statement (.div rd rs rt) := Instr.wellFormed_of_shape rfl
theorem idiv (rd : RegId) (rs : RegId) (rt : RegId) : Statement (.idiv rd rs rt) := Instr.wellFormed_of_shape rfl
theorem mod (rd : RegId) (rs : RegId) (rt : RegId) : Statement (.mod rd rs rt) := Instr.wellFormed_of_shape rfl
theorem addi (rt : RegId) (rs : RegId) (imm : Word) : Statement (.addi rt rs imm) := Instr.wellFormed_of_shape rfl
theorem lw (rt : RegId) (imm : Word) (rs : RegId) : Statement (.lw rt imm rs) := Instr.wellFormed_of_shape rfl
theorem sw (rt : RegId) (imm : Word) (rs : RegId) : Statement (.sw rt imm rs) := Instr.wellFormed_of_shape rfl
theorem beq (rs : RegId) (rt : RegId) (target : Word) : Statement (.beq rs rt target) := Instr.wellFormed_of_shape rfl
theorem j (target : Word) : Statement (.j target) := Instr.wellFormed_of_shape rfl

end Sys2Proof.Laws.RecordWellFormed
end

