-- ==== Sys2Proof/Laws/Structures.lean ====
section
/-! SUPPORT. What the operations of the alias table, the ROB, the stations, the LSQ and the queues can do, said once. -/

namespace Sys2Proof.Machine

/-- The halt register is register 31 (R6). -/
theorem haltReg_eq : Config.haltReg = 31 := rfl

/-! ### Alias table and registers -/

variable (s : State)

/-- A remap names the slot for its register, and no other mapping changes (R105). -/
theorem State.remap_alias (r q : RegId) (slot : Nat) :
    (s.remap r slot).alias? q = if q = r then some slot else s.alias? q := by
  by_cases h : q = r
  · subst h
    simp [State.remap, State.alias?]
  · have hv : r.val ≠ q.val := fun e => h (Fin.ext e.symm)
    simp [State.remap, State.alias?, h, Vector.getElem_set_ne _ _ hv]

/-- The register part of commit writes at most one register, and clears at most its mapping (R106). -/
theorem State.commitReg_cases (dest : Option RegId) (v : Word) (slot : Nat) :
    (dest = none ∧ s.commitReg dest v slot = s) ∨
      ∃ r, dest = some r ∧
        ((s.alias? r = some slot ∧ s.commitReg dest v slot = (s.setReg r v).withRat (s.rat.set r none)) ∨
          (s.alias? r ≠ some slot ∧ s.commitReg dest v slot = s.setReg r v)) := by
  cases dest with
  | none => exact .inl ⟨rfl, rfl⟩
  | some r =>
    refine .inr ⟨r, rfl, ?_⟩
    by_cases h : s.alias? r = some slot
    · exact .inl ⟨h, by simp [State.commitReg, h]⟩
    · exact .inr ⟨h, by simp [State.commitReg, h]⟩

/-! ### Reorder buffer -/

/-- Completing a slot changes its entry's result, fault and completion flag, or nothing (R113). -/
theorem Rob.complete_cases (b : Rob) (slot : Nat) (v : Word) (f : Option SlotFault) :
    (∃ e, b.entry? slot = some e ∧
      b.complete slot v f =
        { b with slots := b.slots.set slot (some { e with result := some v, fault := f, done := true }) }) ∨
      (b.entry? slot = none ∧ b.complete slot v f = b) := by
  unfold Rob.complete
  cases h : b.entry? slot with
  | none => exact .inr ⟨rfl, rfl⟩
  | some e => exact .inl ⟨e, rfl, rfl⟩

@[simp] theorem Rob.complete_head (b : Rob) (slot : Nat) (v : Word) (f : Option SlotFault) :
    (b.complete slot v f).head = b.head := by unfold Rob.complete; split <;> rfl
@[simp] theorem Rob.complete_tail (b : Rob) (slot : Nat) (v : Word) (f : Option SlotFault) :
    (b.complete slot v f).tail = b.tail := by unfold Rob.complete; split <;> rfl
@[simp] theorem Rob.complete_count (b : Rob) (slot : Nat) (v : Word) (f : Option SlotFault) :
    (b.complete slot v f).count = b.count := by unfold Rob.complete; split <;> rfl
@[simp] theorem Rob.complete_length (b : Rob) (slot : Nat) (v : Word) (f : Option SlotFault) :
    (b.complete slot v f).slots.length = b.slots.length := by unfold Rob.complete; split <;> simp
@[simp] theorem Rob.add_length (n : Nat) (b : Rob) (i : Instr) (pc : Word) :
    (b.add n i pc).slots.length = b.slots.length := by simp [Rob.add]
@[simp] theorem Rob.free_length (n : Nat) (b : Rob) : (b.free n).slots.length = b.slots.length := by simp [Rob.free]
@[simp] theorem Rob.clearOnFlush_length (n : Nat) (b : Rob) :
    (b.clearOnFlush n).slots.length = b.slots.length := by simp [Rob.clearOnFlush]

/-- The entry of a slot after one slot of the list is set. -/
theorem Rob.entry?_set (slots : List (Option RobEntry)) (h t c k j : Nat) (e : Option RobEntry) :
    (Rob.mk (slots.set k e) h t c).entry? j =
      if j = k ∧ k < slots.length then e else (Rob.mk slots h t c).entry? j := by
  simp only [Rob.entry?, List.getElem?_set]
  by_cases hjk : k = j
  · subst hjk
    by_cases hl : k < slots.length
    · simp [hl]
    · simp [hl]
  · simp [hjk, Ne.symm hjk]

/-! ### Reservation stations -/

@[simp] theorem Stations.add_length (p : Stations) (e : RsEntry) :
    List.length (Stations.add p e) = List.length p := by
  induction p with
  | nil => rfl
  | cons x rest ih => cases x <;> simp [Stations.add, ih]

@[simp] theorem Stations.capture_length (p : Stations) (t : Nat) (v : Word) :
    List.length (Stations.capture p t v) = List.length p := by simp [Stations.capture]

@[simp] theorem Stations.clear_length (p : Stations) : List.length (Stations.clear p) = List.length p := by
  simp [Stations.clear]

/-- Dispatch keeps the number of stations (R31). -/
theorem Stations.nextReady_length {p q : Stations} {item : ExecItem} (h : Stations.nextReady p = some (item, q)) :
    List.length q = List.length p := by
  induction p generalizing q with
  | nil => cases h
  | cons x rest ih =>
    cases x with
    | none =>
      simp only [Stations.nextReady, Option.map_eq_some_iff] at h
      obtain ⟨⟨item', q'⟩, hr, he⟩ := h
      cases he
      simp [ih hr]
    | some e =>
      simp only [Stations.nextReady] at h
      split at h
      · cases h
        simp
      · simp only [Option.map_eq_some_iff] at h
        obtain ⟨⟨item', q'⟩, hr, he⟩ := h
        cases he
        simp [ih hr]

/-! ### Load-store queue -/

/-- The forward scan changes nothing but forwarded values (R137). -/
theorem LsqEntry.scan_eq (older : List LsqEntry) (e : LsqEntry) : ∃ w, e.scan older = { e with fwd := w } := by
  unfold LsqEntry.scan
  split
  · split
    · exact ⟨_, rfl⟩
    · exact ⟨e.fwd, rfl⟩
  · exact ⟨e.fwd, rfl⟩

@[simp] theorem scanEntries_length (older l : List LsqEntry) : (scanEntries older l).length = l.length := by
  induction l generalizing older with
  | nil => rfl
  | cons e rest ih => simp [scanEntries, ih]

@[simp] theorem Lsq.forwardScan_length (q : Lsq) : q.forwardScan.entries.length = q.entries.length := by
  simp [Lsq.forwardScan]
@[simp] theorem Lsq.forwardScan_head (q : Lsq) : q.forwardScan.head = q.head := rfl
@[simp] theorem Lsq.forwardScan_tail (q : Lsq) : q.forwardScan.tail = q.tail := rfl
@[simp] theorem Lsq.forwardScan_nextSeq (q : Lsq) : q.forwardScan.nextSeq = q.nextSeq := rfl
@[simp] theorem Lsq.capture_length (q : Lsq) (t : Nat) (v : Word) :
    (q.capture t v).entries.length = q.entries.length := by simp [Lsq.capture]
@[simp] theorem Lsq.capture_head (q : Lsq) (t : Nat) (v : Word) : (q.capture t v).head = q.head := rfl
@[simp] theorem Lsq.capture_tail (q : Lsq) (t : Nat) (v : Word) : (q.capture t v).tail = q.tail := rfl

@[simp] theorem forwardStoreTo_length (a w : Word) (l : List LsqEntry) :
    (forwardStoreTo a w l).length = l.length := by
  induction l with
  | nil => rfl
  | cons e rest ih =>
    simp only [forwardStoreTo]
    split
    · rfl
    · split <;> simp [ih]

@[simp] theorem Lsq.forwardStore_length (q : Lsq) (a w : Word) :
    (q.forwardStore a w).entries.length = q.entries.length := by
  unfold Lsq.forwardStore
  split <;> simp_all
@[simp] theorem Lsq.forwardStore_head (q : Lsq) (a w : Word) : (q.forwardStore a w).head = q.head := by
  unfold Lsq.forwardStore; split <;> rfl
@[simp] theorem Lsq.forwardStore_tail (q : Lsq) (a w : Word) : (q.forwardStore a w).tail = q.tail := by
  unfold Lsq.forwardStore; split <;> rfl

/-- Dispatching marks one entry and keeps all others (R138). -/
theorem dispatchEntries_length {older l l' : List LsqEntry} {item : MemItem}
    (h : dispatchEntries older l = some (item, l')) : l'.length = l.length := by
  induction l generalizing older l' with
  | nil => cases h
  | cons e rest ih =>
    simp only [dispatchEntries] at h
    split at h
    · cases h
      simp
    · simp only [Option.map_eq_some_iff] at h
      obtain ⟨⟨item', q'⟩, hr, he⟩ := h
      cases he
      simp [ih hr]

/-- Dispatch keeps the length and the pointers of the queue (R138). -/
theorem Lsq.nextReady_shape {q q' : Lsq} {item : MemItem} (h : q.nextReady = some (item, q')) :
    q'.entries.length = q.entries.length ∧ q'.head = q.head ∧ q'.tail = q.tail ∧ q'.nextSeq = q.nextSeq := by
  simp only [Lsq.nextReady, Option.map_eq_some_iff] at h
  obtain ⟨⟨item', l'⟩, hr, he⟩ := h
  cases he
  exact ⟨dispatchEntries_length hr, rfl, rfl, rfl⟩

/-- The LSQ head of a committing memory instruction is the oldest entry, with its slot and opcode (R145). -/
theorem Lsq.headFor_eq_some {q : Lsq} {slot : Nat} {op : MemOp} {e : LsqEntry} :
    q.headFor slot op = some e ↔ (∃ rest, q.entries = e :: rest) ∧ e.tag = slot ∧ e.op = op := by
  unfold Lsq.headFor
  cases q.entries with
  | nil => simp
  | cons x rest =>
    by_cases h : x.tag = slot ∧ x.op = op
    · simp only [h, and_self, if_true, Option.some.injEq, List.cons.injEq]
      constructor
      · rintro rfl
        exact ⟨⟨rest, rfl, rfl⟩, h⟩
      · rintro ⟨⟨-, he, -⟩, -⟩
        exact he
    · simp only [h, if_false]
      constructor
      · intro hn
        cases hn
      · rintro ⟨⟨r, he⟩, hh⟩
        obtain ⟨rfl, -⟩ := List.cons.inj he
        exact absurd hh h

/-! ### Queues -/

@[simp] theorem Fifo.size_empty {α : Type} : (Fifo.empty : Fifo α).size = 0 := rfl
@[simp] theorem Fifo.size_push {α : Type} (q : Fifo α) (i : α) : (q.push i).size = q.size + 1 := by
  simp [Fifo.size, Fifo.push, Nat.add_assoc]
@[simp] theorem Fifo.size_settle {α : Type} (q : Fifo α) : q.settle.size = q.size := by
  simp [Fifo.size, Fifo.settle]

/-- Popping never makes a queue longer (R35). -/
theorem Fifo.size_pop_le {α : Type} (q : Fifo α) : q.pop.size ≤ q.size := by
  simp [Fifo.size, Fifo.pop]

/-- A queue has room when it holds fewer items than its capacity (R15, R172). -/
theorem Fifo.hasRoom_iff {α : Type} (cap : Option Nat) (q : Fifo α) :
    q.hasRoom cap = true ↔ ∀ c, cap = some c → q.size < c := by
  cases cap <;> simp [Fifo.hasRoom]

/-! ### Issue and flush -/

/-- Issue allocates a ROB slot, adds an LSQ entry or an RS entry, and remaps the destination if there is one (R163). -/
theorem State.issue_cases (i : Instr) (pc : Word) :
    ∃ lsq' rs' rat', s.issue i pc =
        (((s.withRob (s.rob.add s.params.robSize i pc)).withLsq lsq').withRs rs').withRat rat' ∧
      ((∃ e, lsq' = s.lsq.add s.params.lsqSize e ∧ rs' = s.rs) ∨ ∃ e, lsq' = s.lsq ∧ rs' = Stations.add s.rs e) ∧
        ((i.dest = none ∧ rat' = s.rat) ∨ ∃ r, i.dest = some r ∧ rat' = s.rat.set r (some s.rob.tail)) := by
  cases ho : (s.withRob (s.rob.add s.params.robSize i pc)).lsqEntryOf i s.rob.tail with
  | some e =>
    cases hd : i.dest with
    | none =>
      exact ⟨_, s.rs, s.rat, by simp only [State.issue, ho, hd]; rfl, .inl ⟨e, rfl, rfl⟩, .inl ⟨rfl, rfl⟩⟩
    | some r =>
      exact ⟨_, s.rs, _, by simp only [State.issue, ho, hd]; rfl, .inl ⟨e, rfl, rfl⟩, .inr ⟨r, rfl, rfl⟩⟩
  | none =>
    cases hd : i.dest with
    | none =>
      exact ⟨s.lsq, _, s.rat, by simp only [State.issue, ho, hd]; rfl, .inr ⟨_, rfl, rfl⟩, .inl ⟨rfl, rfl⟩⟩
    | some r =>
      exact ⟨s.lsq, _, _, by simp only [State.issue, ho, hd]; rfl, .inr ⟨_, rfl, rfl⟩, .inr ⟨r, rfl, rfl⟩⟩

/-- Every update of the flush (R169). -/
theorem State.flush_eq (correct : Word) :
    s.flush correct =
      (((((s.withRat emptyRat).withQueues Queues.empty).withRs (Stations.clear s.rs)).withLsq s.lsq.clear).withRob
        (s.rob.clearOnFlush s.params.robSize)).withPc correct := rfl

end Sys2Proof.Machine
end

