-- ==== Sys2Proof/Tests/Slice0.lean ====
section
/-! SUPPORT. The model's own tests.  Expected results come from the vectors of 95_test_vectors, by the name of the
vector, or are worked out by hand from the rule named.  The last section holds the witnesses: for each statement with
hypotheses, a concrete case that meets them all. -/

namespace Sys2Proof.Tests

open Sys2Proof Sys2Proof.Machine

/-! ### Helpers -/

/-- Small parameters: eight cells, a ROB of four, an LSQ of two, four stations, queues of four. -/
def smallParams (e : Engine) : Params := ⟨8, 4, 2, 4, some 4, false, e⟩

/-- Inputs with the small parameters and a program given as instructions. -/
def inputs (e : Engine) (p : Policy) (prog : List Instr) : Inputs where
  params := smallParams e
  policy := p
  width := 8
  prog := prog.map fun i => .word (encode i)
  symtab := []
  memInit := [(0, 10), (3, 13), (7, 17)]

/-- The core after reset with a program. -/
def boot (prog : List Instr) : State := State.boot (inputs .scheduled .notTaken prog)

/-- The same under the other engine. -/
def bootReference (prog : List Instr) : State := State.boot (inputs .reference .notTaken prog)

/-- A state with registers 1 and 2 set. -/
def regs (a b : Word) : State := ((boot []).setReg 1 a).setReg 2 b

/-- The state an instruction leaves; the state before it if it leaves none. -/
def after (i : Instr) (s : State) : State :=
  match exec i s with
  | .next t => t
  | .fault _ | .refused _ => s

/-- The state a step leaves; the state before it if it leaves none. -/
def stepped (s : State) : State :=
  match step s with
  | .next t => t
  | .fault _ | .refused _ => s

/-- The state a sub-step goes on with; the state before it if it does not go on. -/
def subbed (s : State) : State :=
  match substep s with
  | .cont t => t
  | .flush _ | .halt _ | .fatal _ | .broken _ => s

/-- A sub-step goes on. -/
def goesOn (s : State) : Bool :=
  match substep s with
  | .cont _ => true
  | .flush _ | .halt _ | .fatal _ | .broken _ => false

/-! ### Well-formedness, with a term each check refuses -/

theorem test_wf_accepts : (Instr.sw 31 2147483647 31).wellFormed = true := by decide
theorem test_wf_shape_arith : RawRecord.shapeOk ⟨.add, some 1, some 2, none, none⟩ = false := by decide
theorem test_wf_shape_imm : RawRecord.shapeOk ⟨.addi, some 1, some 2, some 3, some 4⟩ = false := by decide
theorem test_wf_shape_load : RawRecord.shapeOk ⟨.lw, none, some 2, none, some 4⟩ = false := by decide
theorem test_wf_shape_store : RawRecord.shapeOk ⟨.sw, some 1, some 2, some 3, some 4⟩ = false := by decide
theorem test_wf_shape_branch : RawRecord.shapeOk ⟨.beq, none, some 2, some 3, none⟩ = false := by decide
theorem test_wf_shape_jump : RawRecord.shapeOk ⟨.j, none, some 2, none, some 4⟩ = false := by decide
theorem test_wf_register : regInRange (some 31) = true ∧ regInRange (some 32) = false := by decide
theorem test_wf_immediate : immInRange (some 2147483647) = true ∧ immInRange (some 2147483648) = false ∧
    immInRange (some (-2147483648)) = true ∧ immInRange (some (-2147483649)) = false := by decide
theorem test_wf_record : RawRecord.wellFormed ⟨.add, some 32, some 1, some 2, none⟩ = false ∧
    RawRecord.wellFormed ⟨.add, some 3, some 32, some 2, none⟩ = false ∧
      RawRecord.wellFormed ⟨.add, some 3, some 1, some 32, none⟩ = false ∧
        RawRecord.wellFormed ⟨.j, none, none, none, some 2147483648⟩ = false := by decide
theorem test_wf_params : Config.params.wellFormed = true ∧
    { Config.params with memSize := 0 }.wellFormed = false ∧ { Config.params with robSize := 0 }.wellFormed = false ∧
      { Config.params with lsqSize := 0 }.wellFormed = false ∧ { Config.params with rsSize := 0 }.wellFormed = false ∧
        { Config.params with qCap := some 0 }.wellFormed = false ∧
          { Config.params with qCap := none }.wellFormed = true := by decide
theorem test_wf_config : configAccepted .notTaken 1 = true ∧ configAccepted .oneBit 4 = true ∧
    configAccepted .taken 1 = false ∧ configAccepted .twoBit 1 = false ∧ configAccepted .other 1 = false ∧
      configAccepted .oneBit 0 = false := by decide
theorem test_wf_image : memInitFits 8 [(7, 1)] = true ∧ memInitFits 8 [(8, 1)] = false := by decide
/-- A program one longer than R14 allows is refused. -/
theorem test_wf_program : programFits [.word 0] = true ∧
    ∀ p : List Code, p.length = 2147483648 → programFits p = false :=
  ⟨by decide, fun p h => by unfold programFits; rw [h]; decide⟩
theorem test_wf_inputs : (inputs .scheduled .oneBit []).wellFormed = true ∧
    { inputs .scheduled .oneBit [] with width := -1 }.wellFormed = false ∧
      { inputs .scheduled .oneBit [] with memInit := [(8, 1)] }.wellFormed = false := by decide

/-! ### Decoding and encoding (V-ENC) -/

theorem test_decode_add : decodeWord 0x0118440000000000 = .ok (.add 3 1 2) := by decide
theorem test_decode_add_high : decodeWord 0x01FFFE0000000000 = .ok (.add 31 31 31) := by decide
theorem test_decode_sub : decodeWord 0x0218440000000000 = .ok (.sub 3 1 2) := by decide
theorem test_decode_mul : decodeWord 0x0318440000000000 = .ok (.mul 3 1 2) := by decide
theorem test_decode_div : decodeWord 0x0418440000000000 = .ok (.div 3 1 2) := by decide
theorem test_decode_idiv : decodeWord 0x0518440000000000 = .ok (.idiv 3 1 2) := by decide
theorem test_decode_mod : decodeWord 0x0618440000000000 = .ok (.mod 3 1 2) := by decide
theorem test_decode_addi : decodeWord 0x08108000FFFFFFFF = .ok (.addi 2 2 (-1)) := by decide
theorem test_decode_lw : decodeWord 0x1021C000FFFFFFFE = .ok (.lw 4 (-2) 7) := by decide
theorem test_decode_sw : decodeWord 0x1118000000000000 = .ok (.sw 3 0 0) := by decide
theorem test_decode_beq : decodeWord 0x1808800000000009 = .ok (.beq 1 2 9) := by decide
theorem test_decode_j : decodeWord 0x1C00000000000007 = .ok (.j 7) := by decide
theorem test_encode_add : encode (.add 3 1 2) = 0x0118440000000000 := by decide
theorem test_encode_sw : encode (.sw 31 2147483647 31) = 0x11FFC0007FFFFFFF := by decide
/-- V-ENC-2. -/
theorem test_decode_refuses : decodeWord 0x0000000000000000 = .error .unsupportedOpcode ∧
    decodeWord 0x0700000000000000 = .error .unsupportedOpcode ∧
      decodeWord 0xFF18440000000000 = .error .unsupportedOpcode ∧
        decodeWord 0x0118440000000001 = .error .malformed ∧ decodeWord 0x0118440100000000 = .error .malformed ∧
          decodeWord 0x0808020000000005 = .error .malformed ∧ decodeWord 0x1C08000000000002 = .error .malformed := by
  decide

/-- A line read with the symbol table of V-ENC-1. -/
def line (l : String) : Except DecodeFailure Instr := decodeText [("loop".toList, 2), ("table".toList, 16)] l.toList

/-- V-ENC-1, the text column. -/
theorem test_text : line "add $3 $1 $2" = .ok (.add 3 1 2) ∧
    line "addi $5 $6 -2147483648" = .ok (.addi 5 6 (-2147483648)) ∧ line "lw $2 table($1)" = .ok (.lw 2 16 1) ∧
      line "sw $31 2147483647($31)" = .ok (.sw 31 2147483647 31) ∧ line "beq $4 $4 loop" = .ok (.beq 4 4 2) ∧
        line "j -1" = .ok (.j (-1)) := by decide
/-- R67 with R64: a label that holds `(`, in a memory operand and as a target. -/
theorem test_text_label_paren : decodeText [("a(b".toList, 5)] "lw $1 a(b($2)".toList = .ok (.lw 1 5 2) ∧
    decodeText [("a(b".toList, 5)] "j a(b".toList = .ok (.j 5) ∧ line "lw $1 4($2))" = .error .malformed := by decide
/-- V-ENC-3, the rows with an unknown mnemonic. -/
theorem test_text_unsupported : line "nop" = .error .unsupportedOpcode ∧
    line "ADD $1 $2 $3" = .error .unsupportedOpcode ∧ line "bne $1 $2 4" = .error .unsupportedOpcode ∧
      line "foo $1 $2" = .error .unsupportedOpcode := by decide
/-- V-ENC-3, the rows with the wrong tokens. -/
theorem test_text_malformed : line "addi $1 $0" = .error .malformed ∧ line "add $1 $2 3" = .error .malformed ∧
    line "add $32 $1 $2" = .error .malformed ∧ line "add $1 $2 $3 $4" = .error .malformed ∧
      line "lw $1 0 ($2)" = .error .malformed ∧ line "lw $1 ($2)" = .error .malformed ∧
        line "sw $1 4($2" = .error .malformed ∧ line "beq $1 $2" = .error .malformed := by decide
/-- V-ENC-3, the rows with a bad immediate. -/
theorem test_text_immediate : line "j nowhere" = .error .malformed ∧
    line "addi $1 $0 2147483648" = .error .malformed ∧ line "addi $1 $0 +5" = .error .malformed ∧
      line "addi $1 $0 0x10" = .error .malformed := by decide

/-- The opcode table's words reach the decoder, and the very next step runs the word put where it fetches. -/
theorem test_table_word : decodeTableWord 64 0x0118440000000000 = some (.add 3 1 2) ∧
    decodeTableWord 64 0x0118440000000001 = none := by decide
theorem test_fetch_word : (stepped (State.reset.withFetchWord 64 0x0808000000000005)).reg 1 = 5 ∧
    (stepped (State.reset.withFetchWord 64 0x0808000000000005)).executed = 1 := by decide

/-! ### Instructions (V-AR, V-IM, V-LS, V-CT) -/

theorem test_add_wraps : (after (.add 3 1 2) (regs 2147483647 1)).reg 3 = -2147483648 := by decide
theorem test_add_same_register : (after (.add 1 1 1) (regs 21 0)).reg 1 = 42 := by decide
theorem test_sub_order : (after (.sub 3 1 2) (regs 5 10)).reg 3 = -5 := by decide
theorem test_sub_wraps : (after (.sub 3 1 2) (regs 0 (-2147483648))).reg 3 = -2147483648 := by decide
theorem test_mul_low_bits : (after (.mul 3 1 2) (regs 46341 46341)).reg 3 = -2147479015 := by decide
theorem test_mul_sign : (after (.mul 3 1 2) (regs (-3) 7)).reg 3 = -21 := by decide
theorem test_div_exact : (after (.div 3 1 2) (regs (-21) 7)).reg 3 = -3 ∧
    (after (.div 3 1 2) (regs (-2147483648) (-1))).reg 3 = -2147483648 := by decide
/-- An inexact quotient is no fault, and the value is the open one. -/
theorem test_div_inexact : (after (.div 3 1 2) (regs 7 2)).reg 3 = Config.divInexact 7 2 ∧
    (after (.div 3 1 2) (regs 7 2)).executed = 1 := ⟨rfl, rfl⟩
theorem test_idiv_toward_zero : (after (.idiv 3 1 2) (regs (-7) 2)).reg 3 = -3 ∧
    (after (.idiv 3 1 2) (regs (-1) 2)).reg 3 = 0 := by decide
theorem test_idiv_zero_divisor : (after (.idiv 3 1 2) (regs 6 0)).status = .fatal .arithmeticFault := by decide
theorem test_mod_sign : (after (.mod 3 1 2) (regs (-7) 2)).reg 3 = -1 ∧
    (after (.mod 3 1 2) (regs 7 (-3))).reg 3 = 1 := by decide
theorem test_mod_zero_divisor : (after (.mod 3 1 2) (regs 0 0)).status = .fatal .arithmeticFault := by decide
theorem test_addi_negative : (after (.addi 5 1 (-2147483648)) (regs (-1) 0)).reg 5 = 2147483647 := by decide
theorem test_addi_halts : (after (.addi 31 0 1) (regs 0 0)).status = .halted ∧
    (after (.addi 31 0 2) (regs 0 0)).status = .running := by decide
theorem test_lw_offset : (after (.lw 1 (-2) 2) (regs 0 5)).reg 1 = 13 := by decide
theorem test_lw_outside : (after (.lw 1 0 2) (regs 0 8)).status = .fatal (.memoryAddressFault 8) := by decide
theorem test_sw_stores : (after (.sw 1 1 2) (regs 21 2)).mem.read 3 = 21 := by decide
theorem test_sw_outside : (after (.sw 1 (-1) 2) (regs 21 0)).status = .fatal (.memoryAddressFault (-1)) := by decide
theorem test_beq_taken : (after (.beq 1 2 9) ((regs 3 3).withPc 4)).pc = 9 := by decide
theorem test_beq_not_taken : (after (.beq 1 2 9) ((regs 3 4).withPc 4)).pc = 5 := by decide
theorem test_j : (after (.j 7) ((regs 0 0).withPc 2)).pc = 7 := by decide

/-! ### The engine -/

/-- The ROB entry used below: an `addi` to register 4 in flight. -/
def robEntry : RobEntry := ⟨.addi, some 4, none, 1, 0, false, none⟩

/-- Register 4 holds 40 and is mapped to slot 2, which holds `robEntry` or its completion (V-RAT-2). -/
def mapped (e : RobEntry) : State :=
  ((((boot []).setReg 4 40).remap 4 2).withRob ⟨[none, none, some e, none], 2, 3, 1⟩)

/-- V-RAT-2. -/
theorem test_read_operand : ((boot []).setReg 4 40).readOperand 4 = .val 40 ∧
    (mapped robEntry).readOperand 4 = .tag 2 ∧
      (mapped { robEntry with done := true, result := some 77 }).readOperand 4 = .val 77 := by decide
/-- V-ROB-1. -/
theorem test_rob_add : robEntryOf (.beq 1 2 9) 4 = ⟨.beq, none, none, 9, 4, false, none⟩ ∧
    robEntryOf (.lw 4 0 0) 4 = ⟨.lw, some 4, none, 5, 4, false, none⟩ ∧
      robEntryOf (.sw 3 0 0) 4 = ⟨.sw, none, none, 5, 4, false, none⟩ := by decide
/-- V-ROB-3, in a ROB of eight. -/
theorem test_rob_flush : (Rob.clearOnFlush 8 ⟨List.replicate 8 none, 1, 4, 3⟩).head = 2 ∧
    (Rob.clearOnFlush 8 ⟨List.replicate 8 none, 1, 4, 3⟩).tail = 2 := by decide

/-- The stations of V-RS-2. -/
def stations : List (Option RsEntry) := [some ⟨4, .add, .tag 2, .val 7⟩, some ⟨5, .add, .tag 2, .tag 2⟩, none]

/-- V-RS-2: the broadcast, and then the dispatch of the lowest ready station. -/
theorem test_rs_capture : Stations.capture stations 2 9 =
      [some ⟨4, .add, .val 9, .val 7⟩, some ⟨5, .add, .val 9, .val 9⟩, none] ∧
    Stations.nextReady stations = none ∧
      (Stations.nextReady (Stations.capture stations 2 9)).map Prod.fst = some ⟨4, .add, 9, 7⟩ := by decide

/-- A load entry to address 3. -/
def loadEntry (fwd : Option Word) : LsqEntry := ⟨1, .lw, .val 3, 0, some 3, none, fwd, 1, false⟩

/-- A store entry to address 3. -/
def storeEntry (v : Operand) : LsqEntry := ⟨0, .sw, .val 3, 0, some 3, some v, none, 0, false⟩

/-- V-LSQ-3: an older store whose address is not resolved holds a load back (R136). -/
theorem test_lsq_unresolved_store : (loadEntry none).ready?
    [⟨0, .sw, .tag 5, 0, none, some (.val 1), none, 0, true⟩] = none := by decide
/-- V-LSQ-4: forwarding at a store's commit stops at a younger store to the address. -/
theorem test_lsq_forward_store : forwardStoreTo 3 11 [loadEntry none, storeEntry (.val 22), loadEntry none] =
    [loadEntry (some 11), storeEntry (.val 22), loadEntry none] := by decide
/-- V-LSQ-5, with offset 0: base and value wait for the same slot. -/
theorem test_lsq_capture : LsqEntry.capture 5 4 ⟨6, .sw, .tag 5, 0, none, some (.tag 5), none, 0, false⟩ =
    ⟨6, .sw, .val 4, 0, some 4, some (.val 4), none, 0, false⟩ := by decide

/-- A predictor with one entry. -/
def predictor (pc target : Word) : Predictor := Predictor.record ⟨[], 0, 0, 0⟩ pc target

/-- V-BP-2. -/
theorem test_predict : ((predictor 7 3).predict .notTaken 7).2 = 8 ∧ ((predictor 7 3).predict .oneBit 7).2 = 3 ∧
    ((predictor 6 3).predict .oneBit 7).2 = 8 := by decide
/-- V-BP-3: a taken branch that was predicted to fall through. -/
theorem test_check : ((predictor 4 5).check .notTaken 4 9 1).ok = false ∧
    ((predictor 4 5).check .notTaken 4 9 1).pred.target? 4 = some 5 ∧
      ((predictor 4 5).check .oneBit 4 9 1).pred.target? 4 = some 9 ∧
        ((predictor 4 5).check .oneBit 4 9 1).pred.distSum = 5 := by decide

/-- The latency of R180: the first instruction commits in the fifth sub-step and not before. -/
theorem test_latency : (subbed (subbed (subbed (subbed (boot [.addi 1 0 5, .j 1]))))).executed = 0 ∧
    (subbed (subbed (subbed (subbed (subbed (boot [.addi 1 0 5, .j 1])))))).executed = 1 := by decide

/-! ### Witnesses -/

theorem witness_DecodedWordIsItsEncoding : decodeWord 0x1C000000FFFFFFFF = .ok (.j (-1)) := by decide

/-- Both clauses: an unknown number and an unknown mnemonic. -/
theorem witness_UnknownOpcodeIsUnsupported : ((0x0700000000000000 : BitVec 64).extractLsb' 56 8) ∉
      ([0x01, 0x02, 0x03, 0x04, 0x05, 0x06, 0x08, 0x10, 0x11, 0x18, 0x1C] : List (BitVec 8)) ∧
    tokens "bne $1 $2 4".toList = ["bne".toList, "$1".toList, "$2".toList, "4".toList] ∧
      ∀ o, opText o ≠ "bne".toList := by
  refine ⟨by decide, by decide, fun o => ?_⟩
  cases o <;> decide

theorem witness_ReservedBitsAreMalformed :
    (0x0118440000000001 : BitVec 64).extractLsb' 56 8 = opNumber .add ∧
      (0x0118440000000001 : BitVec 64) &&& tableMask Op.add.cls ≠ tableMatch .add := by decide

/-- For DivWritesExactQuotientOrOpenValue, IdivWritesTruncatedQuotient and ModWritesTruncatedRemainder: a divisor that is not zero, with an exact and with an inexact quotient. -/
theorem witness_divisions : (regs 6 2).reg 2 ≠ 0 ∧ ((regs 6 2).reg 2).toInt ∣ ((regs 6 2).reg 1).toInt ∧
    (regs 7 2).reg 2 ≠ 0 ∧ ¬ ((regs 7 2).reg 2).toInt ∣ ((regs 7 2).reg 1).toInt := by decide

theorem witness_DivisionByZeroRaisesAndWritesNothing : (regs 7 0).reg 2 = 0 := by decide

theorem witness_ModIsZeroOrHasTheSignOfTheDividend : (-1 : Word) ≠ 0 := by decide

theorem witness_HaltIdiomHalts : (boot []).reg 0 = 0 := by decide

/-- Both clauses: an instruction that halts, and one that does not. -/
theorem witness_OnlyTheValueOneHalts : (regs 1 0).status = .running ∧
    exec (.addi 31 1 0) (regs 1 0) = .next (after (.addi 31 1 0) (regs 1 0)) ∧
      (after (.addi 31 1 0) (regs 1 0)).status = .halted ∧
        exec (.addi 31 1 1) (regs 1 0) = .next (after (.addi 31 1 1) (regs 1 0)) ∧
          (after (.addi 31 1 1) (regs 1 0)).status = .running := ⟨rfl, rfl, by decide, rfl, by decide⟩

/-- For LwLoadsTheCell and SwStoresTheRegister: both ends of memory. -/
theorem witness_addresses_inside : (regs 0 7).mem.wf ∧ (wrap (((regs 0 7).reg 1).toInt + (0 : Word).toInt)).toInt = 0 ∧
    (wrap (((regs 0 7).reg 2).toInt + (0 : Word).toInt)).toInt = 7 ∧ (regs 0 7).params.memSize = 8 := by decide

/-- The first address past each end of memory. -/
theorem witness_BadAddressRaisesAndTouchesNothing :
    (8 : Word) = wrap (((regs 0 8).reg 2).toInt + (0 : Word).toInt) ∧
      ¬ (0 ≤ (8 : Word).toInt ∧ (8 : Word).toInt < (regs 0 8).params.memSize) ∧
        (-1 : Word) = wrap (((regs 0 8).reg 1).toInt + (-1 : Word).toInt) ∧
          ¬ (0 ≤ (-1 : Word).toInt ∧ (-1 : Word).toInt < (regs 0 8).params.memSize) := by decide

theorem witness_StepRunsTheDecodedInstruction :
    let s := bootReference [.addi 1 0 5]
    s.params.engine = .reference ∧ s.status = .running ∧ s.configured = true ∧ s.reg 31 ≠ 1 ∧
      s.imem? s.pc = some (.word (encode (.addi 1 0 5))) ∧
        decode s.symtab (.word (encode (.addi 1 0 5))) = .ok (.addi 1 0 5) := by decide

theorem witness_StoppedCoreStaysAsItIs : ((boot []).raise .decodeError).status ≠ .running ∧
    (stepped (boot [.addi 31 0 1])).status = .halted := by decide

theorem witness_ResetLeavesTheTableValues : configAccepted (inputs .scheduled .notTaken []).policy
    (inputs .scheduled .notTaken []).width = true := by decide

/-- The first and the last cell of memory set, and one cell that is not. -/
theorem witness_ResetLoadsTheMemoryImage : let i := inputs .scheduled .notTaken []
    (i.memInit.map Prod.fst).Nodup ∧ (0, (10 : Word)) ∈ i.memInit ∧ (7, (17 : Word)) ∈ i.memInit ∧
      7 < i.params.memSize ∧ ∀ c ∈ i.memInit, c.1 ≠ 1 := by decide

/-- Each ground of refusal alone. -/
theorem witness_RefusedConfigurationIsFatalAtReset :
    (inputs .scheduled .taken []).policy ≠ .notTaken ∧ (inputs .scheduled .taken []).policy ≠ .oneBit ∧
      { inputs .scheduled .oneBit [] with width := 0 }.width ≤ 0 := by decide

/-- An unmapped register, one mapped to a slot in flight and one mapped to a complete slot. -/
theorem witness_OperandReadGoesThroughTheRat :
    let e : RobEntry := { robEntry with done := true, result := some 77 }
    (boot []).alias? 4 = none ∧ (mapped robEntry).alias? 4 = some 2 ∧
      (mapped robEntry).rob.entry? 2 = some robEntry ∧ robEntry.done = false ∧
        (mapped e).rob.entry? 2 = some e ∧ e.done = true ∧ e.result = some 77 := by decide

/-- A mapping that names the committing slot, and one that does not. -/
theorem witness_CommitClearsOnlyItsOwnMapping : (mapped robEntry).alias? 4 = some 2 ∧
    (mapped robEntry).alias? 4 ≠ some 1 := by decide

/-- A state with one decoded instruction waiting. -/
def waiting (i : Instr) (s : State) : State :=
  s.withQueues { s.queues with iq := { visible := [⟨i, 0⟩], pending := [] } }

/-- Nothing blocks: an arithmetic instruction with only the last station free and the ROB one short of full, and a store
with the LSQ one short of full. -/
theorem witness_IssueAllocatesTheTailSlot :
    let rs := waiting (.add 1 2 3) (((boot []).withRs
      [some ⟨0, .add, .tag 0, .val 1⟩, some ⟨1, .add, .tag 0, .val 1⟩, some ⟨2, .add, .tag 0, .val 1⟩, none]).withRob
        ⟨[some robEntry, some robEntry, some robEntry, none], 0, 3, 3⟩)
    let lsq := waiting (.sw 1 0 2) ((boot []).withLsq ⟨[storeEntry (.val 1)], 0, 1, 1⟩)
    rs.queues.iq.visible = [⟨.add 1 2 3, 0⟩] ∧ rs.rob.tail < rs.rob.slots.length ∧ rs.rob.count ≠ rs.params.robSize ∧
      (∃ x ∈ rs.rs, x = none) ∧ stationOperands rs.readOperand (.add 1 2 3) = some (.val 0, .val 0) ∧
        lsq.queues.iq.visible = [⟨.sw 1 0 2, 0⟩] ∧ lsq.rob.tail < lsq.rob.slots.length ∧
          lsq.rob.count ≠ lsq.params.robSize ∧ lsq.lsq.entries.length ≠ lsq.params.lsqSize ∧
            queuedEntry lsq.readOperand 0 1 (.sw 1 0 2) =
              some ⟨0, .sw, .val 0, 0, some 0, some (.val 0), none, 1, false⟩ := by decide

/-- What issue does in those two states: the last station is taken, and the LSQ gets its second entry. -/
theorem test_issue : (stageIssue (waiting (.add 1 2 3) ((boot []).withRs
      [some ⟨0, .add, .tag 0, .val 1⟩, none]))).rs = [some ⟨0, .add, .tag 0, .val 1⟩, some ⟨0, .add, .val 0, .val 0⟩] ∧
    ((stageIssue (waiting (.sw 1 0 2) ((boot []).withLsq ⟨[storeEntry (.val 1)], 0, 1, 1⟩))).lsq.entries.length = 2) := by
  decide

/-- A full ROB, a full LSQ before a load, a full pool before an arithmetic instruction. -/
theorem witness_FullStructureStallsIssue :
    let rob := waiting (.add 1 2 3) ((boot []).withRob ⟨List.replicate 4 (some robEntry), 0, 0, 4⟩)
    let lsq := waiting (.lw 1 0 2) ((boot []).withLsq ⟨[storeEntry (.val 1), loadEntry none], 0, 0, 2⟩)
    let rs := waiting (.add 1 2 3) ((boot []).withRs (List.replicate 4 (some ⟨0, .add, .tag 0, .val 1⟩)))
    rob.queues.iq.visible = [⟨.add 1 2 3, 0⟩] ∧ rob.rob.count = rob.params.robSize ∧
      lsq.queues.iq.visible = [⟨.lw 1 0 2, 0⟩] ∧ lsq.lsq.entries.length = lsq.params.lsqSize ∧
        rs.queues.iq.visible = [⟨.add 1 2 3, 0⟩] ∧ ∀ x ∈ rs.rs, x ≠ none := by decide

/-- Something ready, and nothing ready. -/
theorem witness_LowestReadyStationIsDispatched :
    Stations.nextReady [none, some ⟨4, .add, .val 9, .val 7⟩] = some (⟨4, .add, 9, 7⟩, [none, none]) ∧
      Stations.nextReady stations = none := by decide

/-- A load that is ready, with the youngest older store's value forwarded, and one that is not, without. -/
theorem witness_LoadIsReadyExactlyWhenSafe : (loadEntry (some 22)).op = .lw ∧
    (loadEntry (some 22)).ready? [storeEntry (.val 22), storeEntry (.tag 1)] = some (.load 1 3 (some 22)) ∧
      (loadEntry none).ready? [storeEntry (.val 22)] = none := by decide

/-- An entry that is dispatched behind one that is not ready, nothing ready, and a store that is ready. -/
theorem witness_OldestReadyMemoryEntryIsDispatched :
    Lsq.nextReady ⟨[storeEntry (.tag 1), storeEntry (.val 22)], 0, 0, 2⟩ =
        some (.store 0 3 22, ⟨[storeEntry (.tag 1), { storeEntry (.val 22) with disp := true }], 0, 0, 2⟩) ∧
      Lsq.nextReady ⟨[storeEntry (.tag 1)], 0, 0, 1⟩ = none ∧ (storeEntry (.val 22)).op = .sw ∧
        (storeEntry (.val 22)).ready? [] = some (.store 0 3 22) := by decide

/-- No older store; one with a value, younger than another; one whose value is pending. -/
theorem witness_ForwardScanTakesTheYoungestOlderStore :
    (Lsq.forwardScan ⟨[loadEntry (some 5)], 0, 0, 1⟩).entries[0]? = some (loadEntry (some 5)) ∧
      (Lsq.forwardScan ⟨[storeEntry (.tag 1), storeEntry (.val 22), loadEntry none], 0, 0, 3⟩).entries[2]? =
          some (loadEntry (some 22)) ∧
        (Lsq.forwardScan ⟨[storeEntry (.val 22), storeEntry (.tag 1), loadEntry (some 22)], 0, 0, 3⟩).entries[2]? =
          some (loadEntry none) := by decide

/-- A load that takes the value, and a load behind a younger store that does not. -/
theorem witness_StoreForwardingStopsAtAYoungerStore :
    let l := [loadEntry none, storeEntry (.val 22), loadEntry none]
    l[0]? = some (loadEntry none) ∧ (loadEntry none).addr = some 3 ∧ (loadEntry none).disp = false ∧
      l[2]? = some (loadEntry none) ∧ l[1]? = some (storeEntry (.val 22)) ∧ (storeEntry (.val 22)).addr = some 3 := by
  decide

/-- An entry whose base and value wait, and one where neither does. -/
theorem witness_LsqCaptureResolvesBaseAndValue :
    let e : LsqEntry := ⟨6, .sw, .tag 5, 0, none, some (.tag 5), none, 0, false⟩
    (Lsq.mk [e, loadEntry none] 0 0 2).entries[0]? = some e ∧ e.base = .tag 5 ∧ e.op = .sw ∧ e.val = some (.tag 5) ∧
      (loadEntry none).base ≠ .tag 5 ∧ (loadEntry none).op ≠ .sw := by decide

/-- A pc without an entry, and one with. -/
theorem witness_PredictReturnsAndRecords : (predictor 4 5).target? 7 = none ∧
    (predictor 4 5).target? 4 = some 5 := by decide

/-- A right prediction, a wrong one, and a pc with no entry. -/
theorem witness_CheckValidatesAndCounts : (9 : Word) = (if (1 : Word) ≠ 0 then 9 else 4 + 1) ∧
    (predictor 4 9).target? 4 = some 9 ∧ (predictor 4 5).target? 4 ≠ some 9 ∧
      (predictor 6 5).target? 4 = none := by decide

/-- Before any validation, and after one. -/
theorem witness_AccuracyIsOneWithoutBranches : (predictor 4 9).nChecked = 0 ∧
    ((predictor 4 9).check .oneBit 4 9 1).pred.nChecked ≠ 0 := by decide

/-- An invalid load at the head of the ROB, complete with its fault. -/
theorem witness_RecordedFaultIsRaisedBeforeAnyEffect :
    let e : RobEntry := ⟨.lw, some 4, some 0, 1, 0, true, some (.memoryAddress 8)⟩
    (mapped e).rob.count ≠ 0 ∧ (mapped e).rob.entry? (mapped e).rob.head = some e ∧ e.done = true ∧
      e.fault = some (.memoryAddress 8) := by decide

/-- A word that does not decode at the front of the fetch queue. -/
theorem witness_DecodeErrorIsFatalAtOnce :
    let s := (boot []).withQueues { Queues.empty with fq := { visible := [⟨.word 0, 0⟩], pending := [] } }
    s.queues.fq.visible = [⟨.word 0, 0⟩] ∧ s.queues.iq.hasRoom s.params.qCap = true ∧
      decode s.symtab (.word 0) = .error .unsupportedOpcode := by decide

/-- The state just before the fifth sub-step of a one-instruction program. -/
def atFifth (i : Instr) : State := subbed (subbed (subbed (subbed (boot [i, .j 1]))))

/-- A sub-step that goes on, one that flushes, one that halts and one that is fatal. -/
theorem witness_SubstepOutcomeIsTheStatus : goesOn (boot [.j 3]) = true ∧
    (match substep (atFifth (.j 3)) with
      | .flush t => t.drained && t.pc == 3
      | _ => false) = true ∧
      (match substep (atFifth (.addi 31 0 1)) with
        | .halt t => t.status == .halted && t.reg 31 == 1
        | _ => false) = true ∧
        (match substep (boot []) with
          | .fatal t => t.isFatal
          | _ => false) = true := by decide

/-- Both cases of CommitIsTheOnlyWriter: a sub-step that counts nothing, and one that commits a store, in memory of
canonical form. -/
theorem witness_CommitIsTheOnlyWriter : goesOn (boot [.sw 1 7 0, .j 1]) = true ∧
    (subbed (boot [.sw 1 7 0, .j 1])).executed = (boot [.sw 1 7 0, .j 1]).executed ∧
      goesOn (atFifth (.sw 1 7 0)) = true ∧
        (subbed (atFifth (.sw 1 7 0))).executed ≠ (atFifth (.sw 1 7 0)).executed ∧ (atFifth (.sw 1 7 0)).mem.wf := by
  decide

/-- The outcome is a next state. -/
def isNext (o : Host.Outcome State Fault Refusal) : Bool :=
  match o with
  | .next _ => true
  | .fault _ | .refused _ => false

/-- An outcome that is a next state is some next state. -/
theorem next_of_isNext {o : Host.Outcome State Fault Refusal} (h : isNext o = true) : ∃ t, o = .next t := by
  cases o with
  | next t => exact ⟨t, rfl⟩
  | fault _ | refused _ => cases h

/-- A cycle from reset, of a program that halts and of one that ends in a fatal error. -/
theorem witness_CyclesCountAllButTheFatal : (boot [.addi 31 0 1]).status = .running ∧
    (boot [.addi 31 0 1]).configured = true ∧ (∃ t, cycle (boot [.addi 31 0 1]) = .next t) ∧
      (stepped (boot [.addi 31 0 1])).isFatal = false ∧ (∃ t, cycle (boot []) = .next t) ∧
        (stepped (boot [])).isFatal = true :=
  ⟨by decide, by decide, next_of_isNext (by decide), by decide, next_of_isNext (by decide), by decide⟩

/-- A step of each engine. -/
theorem witness_ProgramAndConfigurationAreFixed : (∃ t, step (boot [.addi 31 0 1]) = .next t) ∧
    ∃ t, step (bootReference [.addi 31 0 1]) = .next t :=
  ⟨next_of_isNext (by decide), next_of_isNext (by decide)⟩

/-- For StepKeepsMemoryCanonical, StepNeverWritesOutsideMemory and StepKeepsRunningNotHalted: their premises hold of a
state with a store in flight, which steps on. -/
theorem witness_memory_invariants : (atFifth (.sw 0 7 0)).mem.wf ∧ memInside (atFifth (.sw 0 7 0)) ∧
    runningNotHalted (atFifth (.sw 0 7 0)) ∧ (∃ t, step (atFifth (.sw 0 7 0)) = .next t) ∧
      (subbed (atFifth (.sw 0 7 0))).mem.read 7 = 0 := by
  refine ⟨by decide, ?_, ?_, next_of_isNext (by decide), by decide⟩
  · unfold memInside; decide
  · unfold runningNotHalted; decide

/-- For StepKeepsStructuresSound, StepKeepsAliasTableSound and StepKeepsNotTakenTable: their premises hold of a state
with one instruction in flight, whose destination is mapped, and it steps on. -/
theorem witness_structure_invariants : structuresSound (mapped robEntry) ∧ ratSound (mapped robEntry) ∧
    btbBetsOnNext (mapped robEntry) ∧ ∃ t, step (mapped robEntry) = .next t := by
  refine ⟨⟨?_, rfl, ?_, ?_⟩, ?_, ?_, next_of_isNext (by decide)⟩
  · unfold robShape; decide
  · unfold lsqShape; decide
  · refine ⟨?_, ?_, ?_, ?_, ?_⟩ <;> exact fun c _ => Nat.zero_le c
  · intro r slot h
    by_cases hr : r = 4
    · subst hr
      obtain rfl : 2 = slot := Option.some.inj h
      refine ⟨0, by decide, by decide, ⟨robEntry, by decide, rfl⟩, fun j e h0 h1 => ?_⟩
      exact absurd (Nat.lt_of_lt_of_le h1 (by decide : (mapped robEntry).rob.count ≤ 1)) (by omega)
    · have : ∀ q : RegId, q ≠ 4 → (mapped robEntry).alias? q = none := by decide
      rw [this r hr] at h
      cases h
  · intro _ pc t h
    cases (show (none : Option Word) = some t from h)

/-- For `ResetEstablishesTheInvariants` and `NoAssertionFailsInAnyRun`. -/
theorem witness_capacities : (inputs .scheduled .notTaken []).params.wellFormed = true := by decide

/-- A drained core with a program of which nothing has run. -/
theorem witness_DrainedCoreCommitsAsTheMeaning : let s := boot [.sw 0 7 0, .j 1]
    s.drained = true ∧ s.params.wellFormed = true ∧ s.status = .running ∧ s.reg 31 ≠ 1 ∧
      s.imem? s.pc = some (.word (encode (.sw 0 7 0))) ∧
        decode s.symtab (.word (encode (.sw 0 7 0))) = .ok (.sw 0 7 0) ∧
          exec (.sw 0 7 0) s.recordPrediction = .next (after (.sw 0 7 0) s.recordPrediction) ∧
            subLoop 4 s = .cont (atFifth (.sw 0 7 0)) := by
  exact ⟨by decide, by decide, by decide, by decide, by decide, by decide, rfl, rfl⟩

/-- A program that halts on the reference machine. -/
theorem witness_ScheduledCoreEqualsTheReference : let i := inputs .scheduled .oneBit [.addi 31 0 1]
    i.wellFormed = true ∧ i.linesDecode ∧
      Sys2Proof.core.run 1 (State.boot (i.withEngine .reference)) =
        .next (stepped (State.boot (i.withEngine .reference))) ∧
        (stepped (State.boot (i.withEngine .reference))).status ≠ .running := by
  refine ⟨by decide, ?_, rfl, by decide⟩
  intro c hc
  have : c = .word (encode (.addi 31 0 1)) := by simpa [inputs] using hc
  exact ⟨.addi 31 0 1, by subst this; decide⟩

end Sys2Proof.Tests
end

section
/-! The state family: what every step keeps of the registers, the structures, the alias table and the configuration, and
what reset leaves.  First the inversion lemmas the invariants go through, then one part per invariant.  A `.congr` lemma
carries a property to a state that agrees on the fields it looks at; `simp` sees that agreement where none is given. -/

namespace Sys2Proof.Machine

/-! ### Fields after the updates the stages share -/

/-- Two states with the same alias table map every register alike. -/
theorem State.alias?_congr {s t : State} (h : t.rat = s.rat) (r : RegId) : t.alias? r = s.alias? r := by
  rw [State.alias?, h, State.alias?]

@[simp] theorem State.raise_params (s : State) (e : FatalError) : (s.raise e).params = s.params := rfl
@[simp] theorem State.raise_rob (s : State) (e : FatalError) : (s.raise e).rob = s.rob := rfl
@[simp] theorem State.raise_rs (s : State) (e : FatalError) : (s.raise e).rs = s.rs := rfl
@[simp] theorem State.raise_lsq (s : State) (e : FatalError) : (s.raise e).lsq = s.lsq := rfl
@[simp] theorem State.raise_rat (s : State) (e : FatalError) : (s.raise e).rat = s.rat := rfl
@[simp] theorem State.raise_queues (s : State) (e : FatalError) : (s.raise e).queues = s.queues := rfl
@[simp] theorem State.pushWrite_params (s : State) (w : WriteItem) : (s.pushWrite w).params = s.params := rfl
@[simp] theorem State.pushWrite_rob (s : State) (w : WriteItem) : (s.pushWrite w).rob = s.rob := rfl
@[simp] theorem State.pushWrite_rs (s : State) (w : WriteItem) : (s.pushWrite w).rs = s.rs := rfl
@[simp] theorem State.pushWrite_lsq (s : State) (w : WriteItem) : (s.pushWrite w).lsq = s.lsq := rfl
@[simp] theorem State.pushPoisoned_params (s : State) (tag : Nat) (f : SlotFault) :
    (s.pushPoisoned tag f).params = s.params := rfl
@[simp] theorem State.pushPoisoned_rob (s : State) (tag : Nat) (f : SlotFault) :
    (s.pushPoisoned tag f).rob = s.rob := rfl
@[simp] theorem State.pushPoisoned_rs (s : State) (tag : Nat) (f : SlotFault) :
    (s.pushPoisoned tag f).rs = s.rs := rfl
@[simp] theorem State.pushPoisoned_lsq (s : State) (tag : Nat) (f : SlotFault) :
    (s.pushPoisoned tag f).lsq = s.lsq := rfl
@[simp] theorem State.flush_params (s : State) (c : Word) : (s.flush c).params = s.params := by
  simp [State.flush_eq]
@[simp] theorem State.flush_rob (s : State) (c : Word) : (s.flush c).rob = s.rob.clearOnFlush s.params.robSize := by
  simp [State.flush_eq]
@[simp] theorem State.flush_rs (s : State) (c : Word) : (s.flush c).rs = Stations.clear s.rs := by
  simp [State.flush_eq]
@[simp] theorem State.flush_lsq (s : State) (c : Word) : (s.flush c).lsq = s.lsq.clear := by
  simp [State.flush_eq]
@[simp] theorem State.flush_rat (s : State) (c : Word) : (s.flush c).rat = emptyRat := by
  simp [State.flush_eq]
@[simp] theorem State.flush_queues (s : State) (c : Word) : (s.flush c).queues = Queues.empty := by
  simp [State.flush_eq]

/-! ### What a stage or an instruction can change -/

/-- The register part of commit changes nothing but registers and mappings (R106). -/
theorem State.commitReg_eq (s : State) (dest : Option RegId) (v : Word) (slot : Nat) :
    ∃ regs rat, s.commitReg dest v slot = (s.withRegs regs).withRat rat := by
  rcases s.commitReg_cases dest v slot with ⟨-, h⟩ | ⟨r, -, ⟨-, h⟩ | ⟨-, h⟩⟩
  · exact ⟨s.regs, s.rat, h⟩
  · exact ⟨s.regs.set r v, s.rat.set r none, h⟩
  · exact ⟨s.regs.set r v, s.rat, h⟩

/-- After the register part of commit a mapping is gone exactly if it is the destination's and named the committing
slot (R106). -/
theorem State.commitReg_alias (s : State) (dest : Option RegId) (v : Word) (slot : Nat) (q : RegId) :
    (s.commitReg dest v slot).alias? q = if dest = some q ∧ s.alias? q = some slot then none else s.alias? q := by
  rcases s.commitReg_cases dest v slot with ⟨rfl, h⟩ | ⟨r, rfl, ⟨hr, h⟩ | ⟨hr, h⟩⟩
  · simp [h]
  · rw [h]
    by_cases hq : q = r
    · subst hq
      rw [if_pos ⟨rfl, hr⟩]
      simp [State.alias?]
    · have hne : r.val ≠ q.val := fun e => hq (Fin.ext e.symm)
      rw [if_neg fun hc => hq (Option.some.inj hc.1).symm]
      simp [State.alias?, Vector.getElem_set_ne _ _ hne]
  · have hkept : ¬ (some r = some q ∧ s.alias? q = some slot) := by
      rintro ⟨hrq, hq⟩
      exact hr (Option.some.inj hrq ▸ hq)
    rw [h, if_neg hkept]
    rfl

/-- An instruction changes at most registers, memory, `PC`, the status, the predictor and the count (R178). -/
theorem exec_changes {i : Instr} {s t : State} (h : exec i s = .next t) :
    ∃ regs mem pc status pred n,
      t = { s with regs := regs, mem := mem, pc := pc, status := status, pred := pred, executed := n } := by
  have retired (u : State) (next : Word) : u.retire next =
      { u with
        pc := next
        status := if u.reg Config.haltReg = 1 then .halted else u.status
        executed := u.executed + 1 } := u.retire_eq next
  rcases exec_cases h with ⟨r, v, -, rfl⟩ | ⟨e, rfl⟩ | ⟨a, v, k, -, rfl⟩ | ⟨target, result, rfl⟩
  · exact ⟨_, _, _, _, _, _, retired (s.setReg r v) _⟩
  · exact ⟨_, _, _, _, _, _, rfl⟩
  · exact ⟨_, _, _, _, _, _, retired (s.withMem (s.mem.write k v)) _⟩
  · exact ⟨_, _, _, _, _, _, retired (s.withPred _) _⟩

/-- An instruction raises an error, or its status is the one the halt rule gives (R20, R170). -/
theorem exec_raises_or_haltRule {i : Instr} {s t : State} (h : exec i s = .next t) :
    (∃ e, t = s.raise e) ∨ haltRule s t := by
  have retired (u : State) (next : Word) (hu : u.status = s.status) : haltRule s (u.retire next) := by
    rw [State.retire_eq, haltRule, ← hu]
    rfl
  rcases exec_cases h with ⟨r, v, -, rfl⟩ | he | ⟨a, v, k, -, rfl⟩ | ⟨target, result, rfl⟩
  · exact .inr (retired _ _ rfl)
  · exact .inl he
  · exact .inr (retired _ _ rfl)
  · exact .inr (retired _ _ rfl)

/-- Issue appends to the LSQ only for a load or store, and leaves it alone otherwise (R163). -/
theorem State.issue_lsq (s : State) (i : Instr) (pc : Word) :
    (s.issue i pc).lsq = s.lsq ∨
      (i.cls = .load ∨ i.cls = .store) ∧ ∃ e, (s.issue i pc).lsq = s.lsq.add s.params.lsqSize e := by
  cases i with
  | lw rt imm rs => exact .inr ⟨.inl rfl, _, rfl⟩
  | sw rt imm rs => exact .inr ⟨.inr rfl, _, rfl⟩
  | add | sub | mul | div | idiv | mod | addi | beq | j => exact .inl rfl

/-- What is not blocked finds a free ROB slot (R163). -/
theorem State.issueBlocked_rob {s : State} {c : OpClass} (h : s.issueBlocked c = false) :
    s.rob.count ≠ s.params.robSize := by
  intro hc
  simp [State.issueBlocked, Rob.full, hc] at h

/-- A load or store that is not blocked finds a free LSQ slot (R130, R163). -/
theorem State.issueBlocked_lsq {s : State} {c : OpClass} (h : s.issueBlocked c = false) (hc : c = .load ∨ c = .store) :
    s.lsq.entries.length ≠ s.params.lsqSize := by
  intro hl
  rcases hc with rfl | rfl <;> simp [State.issueBlocked, Lsq.full, Lsq.count, hl] at h

/-- Decode waits while `IQ` is full (R162). -/
theorem stageDecode_stall {s : State} (h : s.queues.iq.hasRoom s.params.qCap = false) : stageDecode s = .cont s := by
  unfold stageDecode
  rw [h]
  split <;> simp_all

/-- Execute waits while `WQ` is full (R165). -/
theorem stageExecute_stall {s : State} (h : s.queues.wq.hasRoom s.params.qCap = false) : stageExecute s = .cont s := by
  unfold stageExecute
  rw [h]
  split <;> simp_all

/-- Memory waits while `WQ` is full (R166). -/
theorem stageMemory_stall {s : State} (h : s.queues.wq.hasRoom s.params.qCap = false) : stageMemory s = s := by
  unfold stageMemory
  rw [h]
  split <;> simp_all

/-- The common part of commit, for a property that the halted status does not break. -/
theorem State.finishCommit_all {P : State → Prop} {s : State} {e : RobEntry} {v : Word}
    (halt : ∀ t, P t → P (t.withStatus .halted))
    (done : P (((s.commitReg e.dest v s.rob.head).withRob (s.rob.free s.params.robSize)).withExecuted
      (s.executed + 1))) : (s.finishCommit e v).all P := by
  rcases s.finishCommit_cases e v with ⟨-, h⟩ | ⟨-, h⟩ <;> rw [h]
  · exact halt _ done
  · exact done

/-- All that the commit stage can do (R168): nothing, raise an error, flush, or finish the head entry, a load after
it freed the LSQ head and a store after it wrote one cell, forwarded and freed the LSQ head. -/
theorem stageCommit_all {P : State → Prop} {s : State} (idle : P s) (raised : ∀ e, P (s.raise e))
    (flushed : ∀ p c, P (((s.withPred p).flush c).withExecuted (s.executed + 1)))
    (plain : ∀ e v p, s.rob.count ≠ 0 → s.rob.entry? s.rob.head = some e → ((s.withPred p).finishCommit e v).all P)
    (load : ∀ e v, s.rob.count ≠ 0 → s.rob.entry? s.rob.head = some e → s.lsq.entries ≠ [] →
      ((s.withLsq (s.lsq.free s.params.lsqSize)).finishCommit e v).all P)
    (store : ∀ e a v k, s.rob.count ≠ 0 → s.rob.entry? s.rob.head = some e → s.lsq.entries ≠ [] →
      cellOf s.params.memSize a = some k →
        (((s.withMem (s.mem.write k v)).withLsq ((s.lsq.forwardStore a v).free s.params.lsqSize)).finishCommit e
          v).all P) :
    (stageCommit s).all P := by
  rcases stageCommit_cases s with ⟨e, hc, he, -, h⟩ | h | h
  · have lsqHead (op : MemOp) (hl : s.lsq.entries = []) : s.lsq.headFor s.rob.head op = none := by
      simp [Lsq.headFor, hl]
    rw [h]
    rcases s.commitEntry_cases e with ⟨f, -, h⟩ | ⟨-, -, h⟩ | ⟨v, -, -, ⟨-, h⟩ | ⟨-, h⟩ | ⟨-, h⟩ | ⟨-, h⟩⟩ <;> rw [h]
    · exact raised _
    · trivial
    · rcases s.commitBranch_cases e v with ⟨-, h⟩ | ⟨-, h⟩ <;> rw [h]
      · exact plain e v _ hc he
      · exact flushed _ _
    · by_cases hl : s.lsq.entries = []
      · simp [State.commitStore, lsqHead _ hl]
      · rcases s.commitStore_cases e v with ⟨a, k, hk, h⟩ | ⟨a, -, h⟩ | h <;> rw [h]
        · exact store e a v k hc he hl hk
        · exact raised _
        · trivial
    · by_cases hl : s.lsq.entries = []
      · simp [State.commitLoad, lsqHead _ hl]
      · rcases s.commitLoad_cases e v with ⟨l, -, h⟩ | h <;> rw [h]
        · exact load e v hc he hl
        · trivial
    · exact plain e v s.pred hc he
  · rw [h]
    exact idle
  · rw [h]
    trivial

/-! ### Properties that do not look at what is in flight -/

/-- A property that no change of `PC`, the stations, the LSQ, the queues, the predictor or the poison counter breaks,
and no raised error: what the stages but issue, writeback and commit keep. -/
structure IgnoresFlow (P : State → Prop) : Prop where
  withPc : ∀ s v, P s → P (s.withPc v)
  withRs : ∀ s v, P s → P (s.withRs v)
  withLsq : ∀ s v, P s → P (s.withLsq v)
  withQueues : ∀ s v, P s → P (s.withQueues v)
  withPred : ∀ s v, P s → P (s.withPred v)
  withPoisonSeq : ∀ s v, P s → P (s.withPoisonSeq v)
  raise : ∀ s e, P s → P (s.raise e)

namespace IgnoresFlow

variable {P : State → Prop} (hP : IgnoresFlow P) {s : State} (hs : P s)
include hP hs

theorem stageFetch : P (stageFetch s) := by
  rcases stageFetch_cases s with ⟨code, -, -, h⟩ | h <;> rw [h]
  · exact hP.withPc _ _ (hP.withQueues _ _ (hP.withPred _ _ hs))
  · exact hs

theorem stageDecode : (stageDecode s).all P := by
  rcases stageDecode_cases s with ⟨item, rest, i, -, -, h⟩ | ⟨item, rest, e, -, -, h⟩ | h <;> rw [h]
  · exact hP.withQueues _ _ hs
  · exact hP.raise _ _ (hP.withQueues _ _ hs)
  · exact hs

theorem stageDispatch : P (stageDispatch s) := by
  have station : P (dispatchStation s) := by
    rcases dispatchStation_cases s with ⟨item, rs', -, -, h⟩ | h <;> rw [h]
    · exact hP.withQueues _ _ (hP.withRs _ _ hs)
    · exact hs
  rw [Machine.stageDispatch]
  rcases dispatchMemory_cases (dispatchStation s) with ⟨item, lsq', -, -, h⟩ | h <;> rw [h]
  · exact hP.withQueues _ _ (hP.withLsq _ _ station)
  · exact hP.withLsq _ _ station

theorem pushWrite (w : WriteItem) : P (s.pushWrite w) := hP.withQueues _ _ hs

theorem pushPoisoned (tag : Nat) (f : SlotFault) : P (s.pushPoisoned tag f) :=
  hP.withPoisonSeq _ _ (hP.pushWrite hs _)

theorem stageExecute : (stageExecute s).all P := by
  rcases stageExecute_cases s with ⟨item, rest, -, ⟨v, -, h⟩ | ⟨-, h⟩ | ⟨-, h⟩⟩ | h <;> rw [h]
  · exact hP.pushWrite (hP.withQueues _ _ hs) _
  · exact hP.pushPoisoned (hP.withQueues _ _ hs) _ _
  · exact hP.raise _ _ (hP.withQueues _ _ hs)
  · exact hs

theorem stageMemory : P (stageMemory s) := by
  rcases stageMemory_cases s with ⟨item, rest, -, h⟩ | h <;> rw [h]
  · have popped := hP.withQueues s { s.queues with mq := s.queues.mq.pop } hs
    rcases State.evalMemory_cases (s.withQueues { s.queues with mq := s.queues.mq.pop }) item
      with ⟨tag, v, h⟩ | ⟨tag, a, -, h⟩ <;> rw [h]
    · exact hP.pushWrite popped _
    · exact hP.pushPoisoned popped _ _
  · exact hs

theorem endOfSubstep : (endOfSubstep s).all P := by
  rcases endOfSubstep_cases s with h | ⟨-, -, h⟩ <;> rw [h]
  · exact hP.withQueues _ _ hs
  · exact hP.raise _ _ (hP.withQueues _ _ hs)

omit hs in
/-- A sub-step keeps such a property if issue, writeback and commit do. -/
theorem substep (issue : ∀ s, P s → P (stageIssue s)) (writeback : ∀ s, P s → P (stageWriteback s))
    (commit : ∀ s, P s → (stageCommit s).all P) (s : State) (hs : P s) : (substep s).all P :=
  substep_keeps (P := P) (fun _ => hP.stageFetch) (fun _ => hP.stageDecode) issue (fun _ => hP.stageDispatch)
    (fun _ => hP.stageExecute) (fun _ => hP.stageMemory) writeback commit (fun _ => hP.endOfSubstep) hs

end IgnoresFlow

/-- A property that looks neither at the flow of instructions nor at the alias table or the ROB: it is about committed
state, and only commit can break it (R50). -/
structure IgnoresSpeculation (P : State → Prop) : Prop extends IgnoresFlow P where
  withRat : ∀ s v, P s → P (s.withRat v)
  withRob : ∀ s v, P s → P (s.withRob v)

namespace IgnoresSpeculation

variable {P : State → Prop} (hP : IgnoresSpeculation P) {s : State} (hs : P s)
include hP hs

theorem stageIssue : P (stageIssue s) := by
  rcases stageIssue_cases s with ⟨item, rest, -, -, h⟩ | h <;> rw [h]
  · obtain ⟨lsq', rs', rat', hi, -, -⟩ :=
      State.issue_cases (s.withQueues { s.queues with iq := s.queues.iq.pop }) item.instr item.pc
    rw [hi]
    exact hP.withRat _ _ (hP.withRs _ _ (hP.withLsq _ _ (hP.withRob _ _ (hP.withQueues _ _ hs))))
  · exact hs

theorem stageWriteback : P (stageWriteback s) := by
  rcases stageWriteback_cases s with ⟨item, rest, -, h⟩ | h <;> rw [h]
  · exact hP.withRob _ _ (hP.withLsq _ _ (hP.withRs _ _ (hP.withQueues _ _ hs)))
  · exact hs

theorem flush (c : Word) : P (s.flush c) :=
  hP.withPc _ _ (hP.withRob _ _ (hP.withLsq _ _ (hP.withRs _ _ (hP.withQueues _ _ (hP.withRat _ _ hs)))))

omit hs in
/-- A sub-step keeps such a property if the count, the common part of commit and a write to a cell in memory do. -/
theorem substep (counted : ∀ s n, P s → P (s.withExecuted n))
    (finished : ∀ s e v, P s → (s.finishCommit e v).all P)
    (written : ∀ s a k v, cellOf s.params.memSize a = some k → P s → P (s.withMem (s.mem.write k v))) (s : State)
    (hs : P s) : (substep s).all P :=
  hP.toIgnoresFlow.substep (fun _ => hP.stageIssue) (fun _ => hP.stageWriteback)
    (fun s hs => stageCommit_all hs (fun e => hP.raise _ e hs)
      (fun _ c => counted _ _ (hP.flush (hP.withPred _ _ hs) c))
      (fun e v _ _ _ => finished _ e v (hP.withPred _ _ hs))
      (fun e v _ _ _ => finished _ e v (hP.withLsq _ _ hs))
      fun e a v k _ _ _ hk => finished _ e v (hP.withLsq _ _ (written s a k v hk hs)))
    s hs

end IgnoresSpeculation

/-! ### The halt register -/

theorem runningNotHalted_of_not_running {s : State} (h : s.status ≠ .running) : runningNotHalted s :=
  fun hr => absurd hr h

theorem runningNotHalted_of_haltRule {s t : State} (h : haltRule s t) : runningNotHalted t := by
  intro hr h1
  rw [haltRule, if_pos h1, hr] at h
  cases h

theorem runningNotHalted_ignoresSpeculation : IgnoresSpeculation runningNotHalted where
  withPc _ _ h := h
  withRs _ _ h := h
  withLsq _ _ h := h
  withQueues _ _ h := h
  withPred _ _ h := h
  withPoisonSeq _ _ h := h
  withRat _ _ h := h
  withRob _ _ h := h
  raise _ _ _ := runningNotHalted_of_not_running nofun

/-- Whatever commit writes, the halt test after it decides (R170). -/
theorem finishCommit_runningNotHalted (s : State) (e : RobEntry) (v : Word) :
    (s.finishCommit e v).all runningNotHalted := by
  rcases s.finishCommit_cases e v with ⟨-, h⟩ | ⟨hne, h⟩ <;> rw [h]
  · exact runningNotHalted_of_not_running nofun
  · exact fun _ => hne

theorem substep_runningNotHalted (s : State) (h : runningNotHalted s) : (substep s).all runningNotHalted :=
  runningNotHalted_ignoresSpeculation.substep (fun _ _ h => h) (fun s e v _ => finishCommit_runningNotHalted s e v)
    (fun _ _ _ _ _ h => h) s h

theorem haltTest_runningNotHalted (s : State) : runningNotHalted s.haltTest :=
  runningNotHalted_of_haltRule (s := s) (by rw [haltRule, s.haltTest_eq]; rfl)

theorem exec_runningNotHalted {i : Instr} {s t : State} (h : exec i s = .next t) : runningNotHalted t := by
  rcases exec_raises_or_haltRule h with ⟨e, rfl⟩ | hr
  · exact runningNotHalted_of_not_running nofun
  · exact runningNotHalted_of_haltRule hr

/-- Settles O53: only the common part of commit and the reference machine write a register, and both test it. -/
theorem stepKeepsRunningNotHalted : Obligations.StepKeepsRunningNotHalted := fun _ _ =>
  step_keeps substep_runningNotHalted (fun _ _ h => h) runningNotHalted_ignoresSpeculation.raise
    (fun s _ => haltTest_runningNotHalted s) (fun _ _ _ _ => exec_runningNotHalted)

/-- Settles O18, by the halt rule of the instructions that raise nothing. -/
theorem onlyTheValueOneHalts : Obligations.OnlyTheValueOneHalts := by
  intro i s t hs h
  rcases exec_raises_or_haltRule h with ⟨e, rfl⟩ | hr
  · exact ⟨nofun, nofun⟩
  · rw [haltRule, hs] at hr
    by_cases h1 : t.reg 31 = 1
    · exact ⟨fun _ => h1, fun _ _ => by rw [hr, if_pos h1]⟩
    · rw [if_neg h1] at hr
      exact ⟨fun hh => (nomatch hr.symm.trans hh), fun _ hh => absurd hh h1⟩

/-- Settles O17: the sum written to register 31 is 1, and the halt test reads it. -/
theorem haltIdiomHalts : Obligations.HaltIdiomHalts := by
  intro s h0
  have hsum : aluAdd (s.reg 0) 1 = 1 := by rw [h0]; decide
  refine ⟨_, rfl, ?_, ?_⟩ <;> rw [hsum, State.retireReg_eq]
  · exact s.setReg_reg_self 31 1
  · exact if_pos (s.setReg_reg_self 31 1)

/-! ### The program and the configuration -/

/-- What no run changes: the program, the symbol table, the parameters and the sampled configuration (R39, R57). -/
def State.fixed (s : State) : List Code × SymTab × Params × Policy × Int :=
  (s.prog, s.symtab, s.params, s.cfgPolicy, s.cfgWidth)

theorem fixed_ignoresSpeculation (c : List Code × SymTab × Params × Policy × Int) :
    IgnoresSpeculation fun s => s.fixed = c where
  withPc _ _ h := h
  withRs _ _ h := h
  withLsq _ _ h := h
  withQueues _ _ h := h
  withPred _ _ h := h
  withPoisonSeq _ _ h := h
  withRat _ _ h := h
  withRob _ _ h := h
  raise _ _ h := h

theorem finishCommit_fixed {c : List Code × SymTab × Params × Policy × Int} {s : State} (e : RobEntry) (v : Word)
    (h : s.fixed = c) : (s.finishCommit e v).all fun t => t.fixed = c := by
  refine State.finishCommit_all (fun _ h => h) ?_
  obtain ⟨regs, rat, hr⟩ := s.commitReg_eq e.dest v s.rob.head
  rw [hr]
  exact h

theorem exec_fixed {i : Instr} {s t : State} (h : exec i s = .next t) : t.fixed = s.fixed := by
  obtain ⟨_, _, _, _, _, _, rfl⟩ := exec_changes h
  rfl

theorem step_fixed {s t : State} (h : step s = .next t) : t.fixed = s.fixed :=
  step_keeps (P := fun u => u.fixed = s.fixed)
    ((fixed_ignoresSpeculation _).substep (fun _ _ h => h) (fun _ e v h => finishCommit_fixed e v h)
      fun _ _ _ _ _ h => h)
    (fun _ _ h => h) (fun _ _ h => h) (fun u h => by rw [u.haltTest_eq]; exact h)
    (fun _ _ _ h he => (exec_fixed he).trans h) rfl h

/-- Settles O50: the five fields are those of `State.fixed`. -/
theorem programAndConfigurationAreFixed : Obligations.ProgramAndConfigurationAreFixed := by
  intro s t h
  simpa only [State.fixed, Prod.mk.injEq] using step_fixed h

/-! ### The reorder buffer -/

/-- The slots at two offsets below the size are the same only if the offsets are (R29). -/
theorem slot_inj {n head j k : Nat} (hj : j < n) (hk : k < n) (h : (head + j) % n = (head + k) % n) : j = k := by
  have : j ≡ k [MOD n] := Nat.ModEq.add_left_cancel' head h
  exact this.eq_of_lt_of_lt hj hk

/-- Offsets from the next head are one less than offsets from the head. -/
theorem slot_succ (n head k : Nat) : ((head + 1) % n + k) % n = (head + (k + 1)) % n := by
  rw [Nat.mod_add_mod, Nat.add_assoc, Nat.add_comm 1 k]

@[simp] theorem Rob.add_head (n : Nat) (b : Rob) (i : Instr) (pc : Word) : (b.add n i pc).head = b.head := rfl
@[simp] theorem Rob.add_tail (n : Nat) (b : Rob) (i : Instr) (pc : Word) :
    (b.add n i pc).tail = (b.tail + 1) % n := rfl
@[simp] theorem Rob.add_count (n : Nat) (b : Rob) (i : Instr) (pc : Word) : (b.add n i pc).count = b.count + 1 := rfl
@[simp] theorem Rob.free_head (n : Nat) (b : Rob) : (b.free n).head = (b.head + 1) % n := rfl
@[simp] theorem Rob.free_tail (n : Nat) (b : Rob) : (b.free n).tail = b.tail := rfl
@[simp] theorem Rob.free_count (n : Nat) (b : Rob) : (b.free n).count = b.count - 1 := rfl
@[simp] theorem Rob.clearOnFlush_count (n : Nat) (b : Rob) : (b.clearOnFlush n).count = 0 := rfl

/-- Adding fills the tail slot (R110). -/
theorem Rob.add_entry? (n : Nat) (b : Rob) (i : Instr) (pc : Word) (j : Nat) (h : b.tail < b.slots.length) :
    (b.add n i pc).entry? j = if j = b.tail then some (robEntryOf i pc) else b.entry? j := by
  refine (Rob.entry?_set ..).trans ?_
  simp only [h, and_true]
  rfl

/-- Freeing empties the head slot (R115). -/
theorem Rob.free_entry? (n : Nat) (b : Rob) (j : Nat) :
    (b.free n).entry? j = if j = b.head then none else b.entry? j := by
  refine (Rob.entry?_set ..).trans ?_
  by_cases hj : j = b.head
  · by_cases hl : b.head < b.slots.length
    · simp [hj, hl]
    · simp [hj, hl, Rob.entry?]
  · simp only [hj, false_and, if_false]
    rfl

/-- Completing changes only the result, the fault and the completion flag of one slot's entry (R113). -/
theorem Rob.complete_entry? (b : Rob) (slot : Nat) (v : Word) (f : Option SlotFault) (j : Nat) :
    (b.complete slot v f).entry? j =
      (b.entry? j).map fun e => if j = slot then { e with result := some v, fault := f, done := true } else e := by
  rcases b.complete_cases slot v f with ⟨e, he, h⟩ | ⟨hn, h⟩ <;> rw [h]
  · refine (Rob.entry?_set ..).trans ?_
    have hl : slot < b.slots.length := by
      by_contra hl
      simp [Rob.entry?, hl] at he
    by_cases hj : j = slot
    · simp [hj, hl, he]
    · simp only [hj, false_and, if_false, Option.map_id']
  · by_cases hj : j = slot <;> simp [hj, hn]

/-- A flush empties every slot (R116). -/
theorem Rob.clearOnFlush_entry? (n : Nat) (b : Rob) (j : Nat) : (b.clearOnFlush n).entry? j = none := by
  simp only [Rob.entry?, Rob.clearOnFlush, List.getElem?_map]
  cases b.slots[j]? <;> rfl

/-- The ROB's shape depends on the ROB and its size only. -/
theorem robShape.congr {s t : State} (h : robShape s) (hp : t.params = s.params := by simp)
    (hb : t.rob = s.rob := by simp) : robShape t := by
  unfold robShape
  rw [hp, hb]
  exact h

/-- The tail of a ROB in shape is one of its slots. -/
theorem robShape.tail_lt {s : State} (h : robShape s) : s.rob.tail < s.rob.slots.length := by
  obtain ⟨hlen, hhead, -, htail, -⟩ := h
  rw [hlen, htail]
  exact Nat.mod_lt _ (by omega)

theorem robShape_add {s : State} (h : robShape s) (hroom : s.rob.count ≠ s.params.robSize) (i : Instr) (pc : Word) :
    robShape (s.withRob (s.rob.add s.params.robSize i pc)) := by
  have htl := h.tail_lt
  obtain ⟨hlen, hhead, hcount, htail, hlive⟩ := h
  simp only [robShape, State.withRob_rob, State.withRob_params, Rob.add_length, Rob.add_head, Rob.add_tail,
    Rob.add_count, Rob.add_entry? _ _ _ _ _ htl]
  refine ⟨hlen, hhead, by omega, ?_, fun k hk => ?_⟩
  · rw [htail, Nat.mod_add_mod, Nat.add_assoc]
  · split
    · rename_i hs
      have := slot_inj hk (by omega) (hs.trans htail)
      simp [this]
    · rename_i hs
      have : k ≠ s.rob.count := fun e => hs (by rw [htail, e])
      rw [hlive k hk]
      omega

theorem robShape_complete {s : State} (h : robShape s) (slot : Nat) (v : Word) (f : Option SlotFault) :
    robShape (s.withRob (s.rob.complete slot v f)) := by
  simpa [robShape, Rob.complete_entry?] using h

theorem robShape_free {s : State} (h : robShape s) (hc : s.rob.count ≠ 0) :
    robShape (s.withRob (s.rob.free s.params.robSize)) := by
  obtain ⟨hlen, hhead, hcount, htail, hlive⟩ := h
  simp only [robShape, State.withRob_rob, State.withRob_params, Rob.free_length, Rob.free_head, Rob.free_tail,
    Rob.free_count, Rob.free_entry?, slot_succ]
  refine ⟨hlen, Nat.mod_lt _ (by omega), by omega, ?_, fun k hk => ?_⟩
  · rw [htail, Nat.sub_add_cancel (by omega)]
  · by_cases hlast : k + 1 < s.params.robSize
    · have hne : (s.rob.head + (k + 1)) % s.params.robSize ≠ s.rob.head := fun e => by
        have := slot_inj (j := k + 1) (k := 0) hlast (by omega) (e.trans (Nat.mod_eq_of_lt hhead).symm)
        omega
      rw [if_neg hne, hlive _ hlast]
      omega
    · have hk1 : k + 1 = s.params.robSize := by omega
      rw [hk1, Nat.add_mod_right, Nat.mod_eq_of_lt hhead, if_pos rfl]
      simp only [Option.isSome_none, Bool.false_eq_true, false_iff]
      omega

theorem robShape_clearOnFlush {s : State} (h : robShape s) :
    robShape (s.withRob (s.rob.clearOnFlush s.params.robSize)) := by
  obtain ⟨hlen, hhead, -, -, -⟩ := h
  have hlt : (s.rob.head + 1) % s.params.robSize < s.params.robSize := Nat.mod_lt _ (by omega)
  refine ⟨(Rob.clearOnFlush_length ..).trans hlen, hlt, Nat.zero_le _, (Nat.mod_eq_of_lt hlt).symm, fun k _ => ?_⟩
  simp only [State.withRob_rob, Rob.clearOnFlush_entry?, Rob.clearOnFlush_count]
  exact iff_of_false nofun (Nat.not_lt_zero k)

/-! ### The load-store queue and the stations -/

/-- The pool's shape depends on the number of stations, configured and present, only. -/
theorem stationsShape.congr {s t : State} (h : stationsShape s) (hl : t.rs.length = s.rs.length := by simp)
    (hp : t.params = s.params := by simp) : stationsShape t := by
  rw [stationsShape, hp, hl]
  exact h

/-- The LSQ's shape depends on the number of entries and the two pointers only. -/
theorem lsqShape.congr {s t : State} (h : lsqShape s)
    (hl : t.lsq.entries.length = s.lsq.entries.length := by simp) (hh : t.lsq.head = s.lsq.head := by simp)
    (ht : t.lsq.tail = s.lsq.tail := by simp) (hp : t.params = s.params := by simp) : lsqShape t := by
  unfold lsqShape
  rw [hp, hl, hh, ht]
  exact h

theorem lsqShape_add {s : State} (h : lsqShape s) (hroom : s.lsq.entries.length ≠ s.params.lsqSize) (e : LsqEntry) :
    lsqShape (s.withLsq (s.lsq.add s.params.lsqSize e)) := by
  obtain ⟨hcount, hhead, htail⟩ := h
  refine ⟨?_, hhead, ?_⟩
  · simp only [State.withLsq_lsq, Lsq.add, List.length_append, List.length_singleton, State.withLsq_params]
    omega
  · simp only [State.withLsq_lsq, Lsq.add, List.length_append, List.length_singleton, State.withLsq_params]
    rw [htail, Nat.mod_add_mod, Nat.add_assoc]

theorem lsqShape_free {s : State} (h : lsqShape s) (hne : s.lsq.entries ≠ []) :
    lsqShape (s.withLsq (s.lsq.free s.params.lsqSize)) := by
  obtain ⟨hcount, hhead, htail⟩ := h
  have hpos : 0 < s.lsq.entries.length := List.length_pos_of_ne_nil hne
  refine ⟨?_, Nat.mod_lt _ (by omega), ?_⟩
  · simp only [State.withLsq_lsq, Lsq.free, List.length_tail, State.withLsq_params]
    omega
  · simp only [State.withLsq_lsq, Lsq.free, List.length_tail, State.withLsq_params]
    rw [htail, slot_succ, Nat.sub_add_cancel hpos]

theorem lsqShape_clear {s : State} (h : lsqShape s) : lsqShape (s.withLsq s.lsq.clear) :=
  ⟨Nat.zero_le _, h.2.1, (Nat.mod_eq_of_lt h.2.1).symm⟩

theorem stageIssue_lsqShape {s : State} (h : lsqShape s) : lsqShape (stageIssue s) := by
  rcases stageIssue_cases s with ⟨item, rest, -, hb, he⟩ | he <;> rw [he]
  · obtain ⟨lsq', rs', rat', hi, -, -⟩ :=
      State.issue_cases (s.withQueues { s.queues with iq := s.queues.iq.pop }) item.instr item.pc
    rcases State.issue_lsq (s.withQueues { s.queues with iq := s.queues.iq.pop }) item.instr item.pc
      with hl | ⟨hc, e, hl⟩ <;> rw [hi] at hl ⊢
    · obtain rfl : lsq' = s.lsq := hl
      exact h.congr
    · obtain rfl : lsq' = s.lsq.add s.params.lsqSize e := hl
      exact (lsqShape_add h (State.issueBlocked_lsq hb hc) e).congr
  · exact h

/-! ### The queues -/

section
variable {α : Type} {s t : State} {q : Fifo α}

theorem queueFits.congr (h : queueFits s q) (hp : t.params = s.params) : queueFits t q := by
  unfold queueFits
  rw [hp]
  exact h

theorem queueFits_push (i : α) (hroom : q.hasRoom s.params.qCap = true) : queueFits s (q.push i) := by
  intro c hc
  rw [Fifo.size_push]
  exact (Fifo.hasRoom_iff _ _).mp hroom c hc

theorem queueFits_pop (h : queueFits s q) : queueFits s q.pop := fun c hc => q.size_pop_le.trans (h c hc)

theorem queueFits_settle (h : queueFits s q) : queueFits s q.settle := fun c hc => q.size_settle.le.trans (h c hc)

theorem queueFits_empty : queueFits s (Fifo.empty : Fifo α) := fun c _ => Nat.zero_le c

end

theorem queuesShape_of_empty {s : State} (h : s.queues = Queues.empty) : queuesShape s := by
  rw [queuesShape, h]
  exact ⟨queueFits_empty, queueFits_empty, queueFits_empty, queueFits_empty, queueFits_empty⟩

/-- The queues' shape from that of each queue, in terms of a state with the same capacity. -/
theorem queuesShape_of {s t : State} (hfq : queueFits s t.queues.fq) (hiq : queueFits s t.queues.iq)
    (heq : queueFits s t.queues.eq) (hmq : queueFits s t.queues.mq) (hwq : queueFits s t.queues.wq)
    (hp : t.params = s.params := by simp) : queuesShape t :=
  ⟨hfq.congr hp, hiq.congr hp, heq.congr hp, hmq.congr hp, hwq.congr hp⟩

/-- The queues' shape depends on the queues and their capacity only. -/
theorem queuesShape.congr {s t : State} (h : queuesShape s) (hp : t.params = s.params := by simp)
    (hq : t.queues = s.queues := by simp) : queuesShape t := by
  obtain ⟨hfq, hiq, heq, hmq, hwq⟩ := h
  rw [← hq] at hfq hiq heq hmq hwq
  exact queuesShape_of hfq hiq heq hmq hwq hp

/-! ### The structures together -/

/-- What moves items between queues, and touches no other structure, keeps the shapes if the queues fit. -/
theorem structuresSound.congr_queues {s t : State} (h : structuresSound s) (hq : queuesShape t)
    (hp : t.params = s.params := by simp) (hb : t.rob = s.rob := by simp) (hr : t.rs = s.rs := by simp)
    (hl : t.lsq = s.lsq := by simp) : structuresSound t := by
  obtain ⟨hrob, hrs, hlsq, -⟩ := h
  exact ⟨hrob.congr hp hb, hrs.congr (by rw [hr]) hp, hlsq.congr (by rw [hl]) (by rw [hl]) (by rw [hl]) hp, hq⟩

/-- The structures' shapes depend on the structures and their sizes only. -/
theorem structuresSound.congr {s t : State} (h : structuresSound s) (hp : t.params = s.params := by simp)
    (hb : t.rob = s.rob := by simp) (hr : t.rs = s.rs := by simp) (hl : t.lsq = s.lsq := by simp)
    (hq : t.queues = s.queues := by simp) : structuresSound t :=
  h.congr_queues (h.2.2.2.congr hp hq) hp hb hr hl

theorem stageFetch_structuresSound {s : State} (h : structuresSound s) : structuresSound (stageFetch s) := by
  rcases stageFetch_cases s with ⟨code, -, hroom, he⟩ | he <;> rw [he]
  · obtain ⟨-, -, -, -, hiq, heq, hmq, hwq⟩ := id h
    exact h.congr_queues (queuesShape_of (s := s) (queueFits_push _ hroom) hiq heq hmq hwq)
  · exact h

theorem stageDecode_structuresSound {s : State} (h : structuresSound s) : (stageDecode s).all structuresSound := by
  cases hroom : s.queues.iq.hasRoom s.params.qCap with
  | false =>
    rw [stageDecode_stall hroom]
    exact h
  | true =>
    obtain ⟨-, -, -, hfq, hiq, heq, hmq, hwq⟩ := id h
    rcases stageDecode_cases s with ⟨item, rest, i, -, -, he⟩ | ⟨item, rest, e, -, -, he⟩ | he <;> rw [he]
    · exact h.congr_queues (queuesShape_of (s := s) (queueFits_pop hfq) (queueFits_push _ hroom) heq hmq hwq)
    · exact h.congr_queues (queuesShape_of (s := s) (queueFits_pop hfq) hiq heq hmq hwq)
    · exact h

theorem stageIssue_structuresSound {s : State} (h : structuresSound s) : structuresSound (stageIssue s) := by
  have hlsq := stageIssue_lsqShape h.2.2.1
  rcases stageIssue_cases s with ⟨item, rest, -, hb, he⟩ | he <;> rw [he] at hlsq ⊢
  · obtain ⟨hrob, hrs, -, hfq, hiq, heq, hmq, hwq⟩ := h
    obtain ⟨lsq', rs', rat', hi, hadd, -⟩ :=
      State.issue_cases (s.withQueues { s.queues with iq := s.queues.iq.pop }) item.instr item.pc
    have hlen : rs'.length = s.rs.length := by
      rcases hadd with ⟨e, -, rfl⟩ | ⟨e, -, rfl⟩
      · rfl
      · exact Stations.add_length _ e
    rw [hi] at hlsq ⊢
    exact ⟨(robShape_add hrob (State.issueBlocked_rob hb) item.instr item.pc).congr, hrs.congr hlen, hlsq,
      queuesShape_of (s := s) hfq (queueFits_pop hiq) heq hmq hwq⟩
  · exact h

theorem dispatchStation_structuresSound {s : State} (h : structuresSound s) : structuresSound (dispatchStation s) := by
  rcases dispatchStation_cases s with ⟨item, rs', hn, hroom, he⟩ | he <;> rw [he]
  · obtain ⟨hrob, hrs, hlsq, hfq, hiq, -, hmq, hwq⟩ := h
    exact ⟨hrob.congr, hrs.congr (Stations.nextReady_length hn), hlsq.congr,
      queuesShape_of (s := s) hfq hiq (queueFits_push _ hroom) hmq hwq⟩
  · exact h

theorem dispatchMemory_structuresSound {s : State} (h : structuresSound s) : structuresSound (dispatchMemory s) := by
  obtain ⟨hrob, hrs, hlsq, hfq, hiq, heq, hmq, hwq⟩ := h
  have hscan : lsqShape (s.withLsq s.lsq.forwardScan) := hlsq.congr (Lsq.forwardScan_length _)
  rcases dispatchMemory_cases s with ⟨item, lsq', hn, hroom, he⟩ | he <;> rw [he]
  · obtain ⟨hlen, hhead, htail, -⟩ := Lsq.nextReady_shape hn
    exact ⟨hrob.congr, hrs.congr, hscan.congr hlen hhead htail,
      queuesShape_of (s := s) hfq hiq heq (queueFits_push _ hroom) hwq⟩
  · exact ⟨hrob.congr, hrs.congr, hscan, queuesShape_of (s := s) hfq hiq heq hmq hwq⟩

theorem stageExecute_structuresSound {s : State} (h : structuresSound s) : (stageExecute s).all structuresSound := by
  cases hroom : s.queues.wq.hasRoom s.params.qCap with
  | false =>
    rw [stageExecute_stall hroom]
    exact h
  | true =>
    obtain ⟨-, -, -, hfq, hiq, heq, hmq, hwq⟩ := id h
    rcases stageExecute_cases s with ⟨item, rest, -, ⟨v, -, he⟩ | ⟨-, he⟩ | ⟨-, he⟩⟩ | he <;> rw [he]
    · exact h.congr_queues (queuesShape_of (s := s) hfq hiq (queueFits_pop heq) hmq (queueFits_push _ hroom))
    · exact h.congr_queues (queuesShape_of (s := s) hfq hiq (queueFits_pop heq) hmq (queueFits_push _ hroom))
    · exact h.congr_queues (queuesShape_of (s := s) hfq hiq (queueFits_pop heq) hmq hwq)
    · exact h

theorem stageMemory_structuresSound {s : State} (h : structuresSound s) : structuresSound (stageMemory s) := by
  cases hroom : s.queues.wq.hasRoom s.params.qCap with
  | false =>
    rw [stageMemory_stall hroom]
    exact h
  | true =>
    rcases stageMemory_cases s with ⟨item, rest, -, he⟩ | he <;> rw [he]
    · obtain ⟨-, -, -, hfq, hiq, heq, hmq, -⟩ := id h
      rcases State.evalMemory_cases (s.withQueues { s.queues with mq := s.queues.mq.pop }) item
        with ⟨tag, v, he⟩ | ⟨tag, a, -, he⟩ <;> rw [he]
      · exact h.congr_queues (queuesShape_of (s := s) hfq hiq heq (queueFits_pop hmq) (queueFits_push _ hroom))
      · exact h.congr_queues (queuesShape_of (s := s) hfq hiq heq (queueFits_pop hmq) (queueFits_push _ hroom))
    · exact h

theorem stageWriteback_structuresSound {s : State} (h : structuresSound s) : structuresSound (stageWriteback s) := by
  rcases stageWriteback_cases s with ⟨item, rest, -, he⟩ | he <;> rw [he]
  · obtain ⟨hrob, hrs, hlsq, hfq, hiq, heq, hmq, hwq⟩ := h
    exact ⟨(robShape_complete hrob item.tag item.value item.fault).congr,
      hrs.congr (Stations.capture_length ..), hlsq.congr (Lsq.capture_length ..),
      queuesShape_of (s := s) hfq hiq heq hmq (queueFits_pop hwq)⟩
  · exact h

theorem flush_structuresSound {s : State} (h : structuresSound s) (c : Word) : structuresSound (s.flush c) := by
  obtain ⟨hrob, hrs, hlsq, -⟩ := h
  exact ⟨(robShape_clearOnFlush hrob).congr, hrs.congr (by simp), (lsqShape_clear hlsq).congr,
    queuesShape_of_empty (s.flush_queues c)⟩

/-- The common part of commit frees the ROB head and touches no other structure, whatever the class did before it. -/
theorem finishCommit_structuresSound {s u : State} (h : structuresSound s) (hc : s.rob.count ≠ 0) (hl : lsqShape u)
    (e : RobEntry) (v : Word) (hp : u.params = s.params := by simp) (hb : u.rob = s.rob := by simp)
    (hr : u.rs = s.rs := by simp) (hq : u.queues = s.queues := by simp) : (u.finishCommit e v).all structuresSound := by
  obtain ⟨hrob, hrs, -, hqueues⟩ := h
  have hfree := robShape_free (hrob.congr hp hb) (hb ▸ hc)
  obtain ⟨regs, rat, hreg⟩ := u.commitReg_eq e.dest v u.rob.head
  refine State.finishCommit_all (fun t h => h.congr) ?_
  rw [hreg]
  exact ⟨hfree.congr, hrs.congr (congrArg _ hr) hp, hl.congr, hqueues.congr hp hq⟩

theorem stageCommit_structuresSound {s : State} (h : structuresSound s) : (stageCommit s).all structuresSound := by
  obtain ⟨-, -, hlsq, -⟩ := id h
  refine stageCommit_all h (fun e => h.congr) (fun p c => ?_) (fun e v p hc _ => ?_)
    (fun e v hc _ hne => ?_) fun e a v k hc _ hne _ => ?_
  · exact (flush_structuresSound (h.congr (t := s.withPred p)) c).congr
  · exact finishCommit_structuresSound h hc hlsq.congr e v
  · exact finishCommit_structuresSound h hc (lsqShape_free hlsq hne) e v
  · have hfwd : lsqShape (s.withLsq (s.lsq.forwardStore a v)) :=
      hlsq.congr (Lsq.forwardStore_length ..) (Lsq.forwardStore_head ..) (Lsq.forwardStore_tail ..)
    have hne' : (s.lsq.forwardStore a v).entries ≠ [] :=
      List.ne_nil_of_length_pos (by simpa using List.length_pos_of_ne_nil hne)
    exact finishCommit_structuresSound h hc (lsqShape_free hfwd hne').congr e v

theorem endOfSubstep_structuresSound {s : State} (h : structuresSound s) : (endOfSubstep s).all structuresSound := by
  obtain ⟨-, -, -, hfq, hiq, heq, hmq, hwq⟩ := id h
  have settled : structuresSound (s.withQueues s.queues.settle) := h.congr_queues
    (queuesShape_of (s := s) (queueFits_settle hfq) (queueFits_settle hiq) (queueFits_settle heq)
      (queueFits_settle hmq) (queueFits_settle hwq))
  rcases endOfSubstep_cases s with he | ⟨-, -, he⟩ <;> rw [he]
  · exact settled
  · exact settled.congr

theorem substep_structuresSound (s : State) (h : structuresSound s) : (substep s).all structuresSound :=
  substep_keeps (P := structuresSound) (fun _ => stageFetch_structuresSound) (fun _ => stageDecode_structuresSound)
    (fun _ => stageIssue_structuresSound)
    (fun _ h => dispatchMemory_structuresSound (dispatchStation_structuresSound h))
    (fun _ => stageExecute_structuresSound) (fun _ => stageMemory_structuresSound)
    (fun _ => stageWriteback_structuresSound) (fun _ => stageCommit_structuresSound)
    (fun _ => endOfSubstep_structuresSound) h

theorem exec_structuresSound {i : Instr} {s t : State} (h : structuresSound s) (he : exec i s = .next t) :
    structuresSound t := by
  obtain ⟨_, _, _, _, _, _, rfl⟩ := exec_changes he
  exact h.congr

theorem haltTest_structuresSound {s : State} (h : structuresSound s) : structuresSound s.haltTest := by
  rw [s.haltTest_eq]
  exact h.congr

/-- Settles O54, stage by stage; the reference machine touches none of the structures. -/
theorem stepKeepsStructuresSound : Obligations.StepKeepsStructuresSound := fun _ _ =>
  step_keeps substep_structuresSound (fun _ _ h => h.congr) (fun _ _ h => h.congr) (fun _ => haltTest_structuresSound)
    (fun s _ _ h he => exec_structuresSound (s := s.withPred _) h.congr he)

/-! ### The alias table -/

/-- The alias table is sound over a ROB in shape: what the stages keep together. -/
def renameSound (s : State) : Prop := robShape s ∧ ratSound s

/-- The soundness of the alias table depends on the table, the ROB and its size only. -/
theorem renameSound.congr {s t : State} (h : renameSound s) (hp : t.params = s.params := by simp)
    (hb : t.rob = s.rob := by simp) (hr : t.rat = s.rat := by simp) : renameSound t := by
  obtain ⟨hrob, hrat⟩ := h
  refine ⟨hrob.congr hp hb, ?_⟩
  unfold ratSound State.alias?
  rw [hp, hb, hr]
  exact hrat

theorem renameSound_ignoresFlow : IgnoresFlow renameSound where
  withPc _ _ h := h.congr
  withRs _ _ h := h.congr
  withLsq _ _ h := h.congr
  withQueues _ _ h := h.congr
  withPred _ _ h := h.congr
  withPoisonSeq _ _ h := h.congr
  raise _ _ h := h.congr

/-- Issue adds a slot younger than all others, which only its own destination is mapped to (R105, R110). -/
theorem ratSound_add {s t : State} (hrob : robShape s) (hrat : ratSound s)
    (hroom : s.rob.count ≠ s.params.robSize) (i : Instr) (pc : Word) (hp : t.params = s.params)
    (ht : t.rob = s.rob.add s.params.robSize i pc)
    (halias : ∀ r, t.alias? r = if i.dest = some r then some s.rob.tail else s.alias? r) : ratSound t := by
  have htl := hrob.tail_lt
  obtain ⟨-, -, hcount, htail, -⟩ := hrob
  intro r slot hr
  simp only [ht, hp, Rob.add_head, Rob.add_count, Rob.add_entry? _ _ _ _ _ htl]
  rw [halias] at hr
  split at hr
  · rename_i hd
    obtain rfl : s.rob.tail = slot := Option.some.inj hr
    exact ⟨s.rob.count, Nat.lt_succ_self _, htail, ⟨robEntryOf i pc, if_pos rfl, hd⟩, fun j e _ _ => by omega⟩
  · rename_i hd
    obtain ⟨k, hk, rfl, ⟨e, he, hed⟩, hyoung⟩ := hrat r slot hr
    have old (j : Nat) (hj : j < s.rob.count) : (s.rob.head + j) % s.params.robSize ≠ s.rob.tail := fun h => by
      have := slot_inj (by omega) (by omega) (h.trans htail)
      omega
    refine ⟨k, by omega, rfl, ⟨e, by rw [if_neg (old k hk), he], hed⟩, fun j e' hkj hj he' => ?_⟩
    by_cases hlast : j = s.rob.count
    · subst hlast
      rw [if_pos htail.symm] at he'
      exact Option.some.inj he' ▸ hd
    · have hj' : j < s.rob.count := by omega
      rw [if_neg (old j hj')] at he'
      exact hyoung j e' hkj hj' he'

/-- Completing a slot changes no destination (R113). -/
theorem renameSound_complete {s : State} (h : renameSound s) (slot : Nat) (v : Word) (f : Option SlotFault) :
    renameSound (s.withRob (s.rob.complete slot v f)) := by
  obtain ⟨hrob, hrat⟩ := h
  have dest (j : Nat) (e : RobEntry) (he : (s.rob.complete slot v f).entry? j = some e) :
      ∃ e', s.rob.entry? j = some e' ∧ e'.dest = e.dest := by
    rw [Rob.complete_entry?, Option.map_eq_some_iff] at he
    obtain ⟨e', he', rfl⟩ := he
    exact ⟨e', he', by split <;> rfl⟩
  refine ⟨robShape_complete hrob slot v f, fun r named hr => ?_⟩
  obtain ⟨k, hk, hslot, ⟨e, he, hd⟩, hyoung⟩ := hrat r named hr
  simp only [State.withRob_rob, State.withRob_params, Rob.complete_count, Rob.complete_head]
  refine ⟨k, hk, hslot, ⟨_, by rw [Rob.complete_entry?, he]; rfl, by split <;> exact hd⟩, fun j e' hkj hj he' => ?_⟩
  obtain ⟨e'', he'', hd''⟩ := dest _ e' he'
  exact hd'' ▸ hyoung j e'' hkj hj he''

/-- Commit of the head clears the one mapping that can name it, and every other slot is one offset nearer to the head
(R106, R115). -/
theorem ratSound_free {s t : State} {e : RobEntry} (hrob : robShape s) (hrat : ratSound s)
    (he : s.rob.entry? s.rob.head = some e) (hp : t.params = s.params) (ht : t.rob = s.rob.free s.params.robSize)
    (halias : ∀ r, t.alias? r = if e.dest = some r ∧ s.alias? r = some s.rob.head then none else s.alias? r) :
    ratSound t := by
  obtain ⟨-, hhead, hcount, -, -⟩ := hrob
  intro r slot hr
  rw [halias] at hr
  split at hr
  · cases hr
  · rename_i hkept
    obtain ⟨k, hk, rfl, ⟨e0, he0, hd0⟩, hyoung⟩ := hrat r slot hr
    have hzero : (s.rob.head + 0) % s.params.robSize = s.rob.head := Nat.mod_eq_of_lt hhead
    obtain _ | k := k
    · -- A mapping to the head is the destination's own, which commit clears.
      rw [hzero] at he0 hr
      obtain rfl : e = e0 := Option.some.inj (he.symm.trans he0)
      exact absurd ⟨hd0, hr⟩ hkept
    · have notHead (j : Nat) (hj : j + 1 < s.rob.count) : (s.rob.head + (j + 1)) % s.params.robSize ≠ s.rob.head :=
        fun h => by
          have := slot_inj (by omega) (by omega) (h.trans hzero.symm)
          omega
      simp only [ht, hp, Rob.free_head, Rob.free_count, Rob.free_entry?, slot_succ]
      refine ⟨k, by omega, rfl, ⟨e0, by rw [if_neg (notHead k hk), he0], hd0⟩, fun j e' hkj hj he' => ?_⟩
      rw [if_neg (notHead j (by omega))] at he'
      exact hyoung (j + 1) e' (by omega) (by omega) he'

theorem stageIssue_renameSound {s : State} (h : renameSound s) : renameSound (stageIssue s) := by
  rcases stageIssue_cases s with ⟨item, rest, -, hb, he⟩ | he <;> rw [he]
  · obtain ⟨hrob, hrat⟩ := h
    have hroom := State.issueBlocked_rob hb
    obtain ⟨lsq', rs', rat', hi, -, hmap⟩ :=
      State.issue_cases (s.withQueues { s.queues with iq := s.queues.iq.pop }) item.instr item.pc
    rw [hi]
    refine ⟨(robShape_add hrob hroom item.instr item.pc).congr,
      ratSound_add hrob hrat hroom item.instr item.pc (by simp) (by simp) fun r => ?_⟩
    rcases hmap with ⟨hd, rfl⟩ | ⟨d, hd, rfl⟩
    · rw [hd, if_neg nofun]
      exact State.alias?_congr (by simp) r
    · rw [hd, State.alias?_congr (s := s.remap d s.rob.tail) (by simp [State.remap]), State.remap_alias]
      simp only [Option.some.injEq, eq_comm]
  · exact h

theorem stageWriteback_renameSound {s : State} (h : renameSound s) : renameSound (stageWriteback s) := by
  rcases stageWriteback_cases s with ⟨item, rest, -, he⟩ | he <;> rw [he]
  · exact (renameSound_complete h item.tag item.value item.fault).congr
  · exact h

theorem flush_renameSound {s : State} (h : robShape s) (c : Word) : renameSound (s.flush c) := by
  refine ⟨(robShape_clearOnFlush h).congr, fun r slot hr => ?_⟩
  have : (s.flush c).alias? r = none := by simp [State.alias?, emptyRat]
  rw [this] at hr
  cases hr

/-- The common part of commit keeps the alias table sound, whatever the class did before it. -/
theorem finishCommit_renameSound {s u : State} {e : RobEntry} (h : renameSound s) (hc : s.rob.count ≠ 0)
    (he : s.rob.entry? s.rob.head = some e) (v : Word) (hp : u.params = s.params := by simp)
    (hb : u.rob = s.rob := by simp) (hr : u.rat = s.rat := by simp) : (u.finishCommit e v).all renameSound := by
  obtain ⟨hrob, hrat⟩ := h.congr hp hb hr
  rw [← hb] at hc he
  have hfree := robShape_free hrob hc
  have halias := u.commitReg_alias e.dest v u.rob.head
  obtain ⟨regs, rat, hreg⟩ := u.commitReg_eq e.dest v u.rob.head
  refine State.finishCommit_all (fun t h => h.congr) ?_
  rw [hreg] at halias ⊢
  exact ⟨hfree.congr, ratSound_free hrob hrat he (by simp) (by simp) halias⟩

theorem stageCommit_renameSound {s : State} (h : renameSound s) : (stageCommit s).all renameSound := by
  refine stageCommit_all h (fun _ => h.congr) (fun p c => ?_) (fun _ v _ hc he => ?_)
    (fun _ v hc he _ => ?_) fun _ _ v _ hc he _ _ => ?_
  · exact (flush_renameSound (h.1.congr (t := s.withPred p)) c).congr
  all_goals exact finishCommit_renameSound h hc he v

theorem exec_renameSound {i : Instr} {s t : State} (h : renameSound s) (he : exec i s = .next t) : renameSound t := by
  obtain ⟨_, _, _, _, _, _, rfl⟩ := exec_changes he
  exact h.congr

theorem haltTest_renameSound {s : State} (h : renameSound s) : renameSound s.haltTest := by
  rw [s.haltTest_eq]
  exact h.congr

theorem step_renameSound {s t : State} (h : renameSound s) (hst : step s = .next t) : renameSound t :=
  step_keeps
    (renameSound_ignoresFlow.substep (fun _ => stageIssue_renameSound) (fun _ => stageWriteback_renameSound)
      fun _ => stageCommit_renameSound)
    (fun _ _ h => h.congr) renameSound_ignoresFlow.raise (fun _ => haltTest_renameSound)
    (fun s _ _ h he => exec_renameSound (s := s.withPred _) h.congr he) h hst

/-- Settles O55: of the sound structures only the shape of the ROB is needed. -/
theorem stepKeepsAliasTableSound : Obligations.StepKeepsAliasTableSound := by
  intro s t hstructures hrat h
  exact (step_renameSound ⟨hstructures.1, hrat⟩ h).2

/-! ### Memory after reset -/

/-- The loader leaves a cell the image does not name (R204). -/
theorem Memory.read_load_of_not_named {memSize a : Nat} {image : List Cell} (h : ∀ c ∈ image, c.1 ≠ a) (m : Memory) :
    (Memory.load memSize image m).read a = m.read a := by
  induction image generalizing m with
  | nil => rfl
  | cons c rest ih =>
    rw [Memory.load, ih fun d hd => h d (List.mem_cons_of_mem _ hd)]
    split
    · exact Memory.read_write_ne m c.2 (h c List.mem_cons_self).symm
    · rfl

/-- The loader sets a cell inside memory that the image names once (R204). -/
theorem Memory.read_load_of_named {memSize a : Nat} {v : Word} {image : List Cell} {m : Memory} (hm : m.wf)
    (hnodup : (image.map Prod.fst).Nodup) (hmem : (a, v) ∈ image) (ha : a < memSize) :
    (Memory.load memSize image m).read a = v := by
  induction image generalizing m with
  | nil => cases hmem
  | cons c rest ih =>
    rw [List.map_cons, List.nodup_cons] at hnodup
    obtain ⟨hfresh, hnodup⟩ := hnodup
    rw [Memory.load]
    rcases List.mem_cons.mp hmem with rfl | hmem
    · have hrest : ∀ d ∈ rest, d.1 ≠ a := fun d hd e => hfresh (List.mem_map.mpr ⟨d, hd, e⟩)
      rw [Memory.read_load_of_not_named hrest, if_pos ha]
      exact Memory.read_write_self hm a v
    · refine ih ?_ hnodup hmem
      split
      · exact Memory.write_wf hm _ _
      · exact hm

/-- Settles O27. -/
theorem resetLoadsTheMemoryImage : Obligations.ResetLoadsTheMemoryImage := fun _ =>
  ⟨fun _ h => Memory.read_load_of_not_named h [],
    fun hnodup _ _ hmem ha => Memory.read_load_of_named Memory.wf_nil hnodup hmem ha⟩

/-- A write lists no cell but its own and those listed before. -/
theorem Memory.mem_write {m : Memory} {a : Nat} {v : Word} {c : Cell} (h : c ∈ m.write a v) : c = (a, v) ∨ c ∈ m := by
  unfold Memory.write at h
  split at h
  · exact .inr (mem_sparseErase h)
  · exact mem_sparseInsert h

/-- The loader lists no cell outside memory. -/
theorem Memory.load_inside {memSize : Nat} (image : List Cell) {m : Memory} (h : ∀ c ∈ m, c.1 < memSize) :
    ∀ c ∈ Memory.load memSize image m, c.1 < memSize := by
  induction image generalizing m with
  | nil => exact h
  | cons d rest ih =>
    rw [Memory.load]
    split
    · rename_i hd
      refine ih fun c hc => ?_
      rcases Memory.mem_write hc with rfl | hc
      · exact hd
      · exact h c hc
    · exact ih h

/-! ### Reset -/

/-- A core that is not running steps to itself under both engines (R158, R178). -/
theorem step_of_not_running {s : State} (h : s.running = false) : step s = .next s := by
  unfold step cycle referenceStep
  split <;> simp [h]

/-- Settles O25. -/
theorem stoppedCoreStaysAsItIs : Obligations.StoppedCoreStaysAsItIs := fun _ h =>
  step_of_not_running (beq_eq_false_iff_ne.mpr h)

theorem boot_reg (inp : Inputs) (r : RegId) : (State.boot inp).reg r = 0 := by
  simp [State.boot, State.reg]

theorem boot_alias (inp : Inputs) (r : RegId) : (State.boot inp).alias? r = none := by
  simp [State.boot, State.alias?]

theorem boot_target (inp : Inputs) (pc : Word) : (State.boot inp).pred.target? pc = none := rfl

/-- No slot of the ROB is live after reset (R40). -/
theorem boot_entry (inp : Inputs) (k : Nat) : (State.boot inp).rob.entry? k = none := by
  simp only [State.boot, Rob.entry?, List.getElem?_replicate]
  split <;> rfl

theorem boot_structuresSound {inp : Inputs} (h : inp.params.wellFormed = true) :
    structuresSound (State.boot inp) := by
  simp only [Params.wellFormed, Bool.and_eq_true, decide_eq_true_eq] at h
  obtain ⟨⟨⟨⟨-, hrob⟩, hlsq⟩, -⟩, -⟩ := h
  refine ⟨⟨List.length_replicate, hrob, Nat.zero_le _, (Nat.zero_mod _).symm, fun k _ => ?_⟩, List.length_replicate,
    ⟨Nat.zero_le _, hlsq, (Nat.zero_mod _).symm⟩, queuesShape_of_empty rfl⟩
  rw [boot_entry]
  exact iff_of_false nofun (Nat.not_lt_zero k)

/-- Settles O26. -/
theorem resetLeavesTheTableValues : Obligations.ResetLeavesTheTableValues := by
  intro inp hconfig
  have hrs (k : Nat) (hk : k < inp.params.rsSize) : (State.boot inp).rs[k]? = some none :=
    List.getElem?_replicate_of_lt hk
  exact ⟨boot_reg inp, rfl, rfl, if_pos hconfig, boot_alias inp, rfl, rfl, rfl, hrs, rfl, rfl, rfl, rfl, rfl,
    boot_target inp, rfl, rfl, rfl, rfl, rfl, rfl, rfl⟩

/-- Settles O57: the canonical form and the bounds come from the loader, the rest from empty structures. -/
theorem resetEstablishesTheInvariants : Obligations.ResetEstablishesTheInvariants := by
  intro inp h
  refine ⟨Memory.load_wf _ _ Memory.wf_nil, Memory.load_inside _ nofun, fun _ h1 => ?_, boot_structuresSound h,
    fun r slot hr => ?_, fun _ pc t ht => ?_⟩
  · rw [boot_reg] at h1
    exact absurd h1 (by decide)
  · rw [boot_alias] at hr
    cases hr
  · rw [boot_target] at ht
    cases ht

end Sys2Proof.Machine
end

section
/-! The memory family: what every step keeps of data memory, which instruction of the scheduled core writes registers
and memory, and the accesses outside memory (20_memory). -/

namespace Sys2Proof.Machine

/-! ### The cells of memory -/

/-- The cell an address names lies inside memory (R45). -/
theorem cellOf_lt {memSize : Nat} {a : Word} {k : Nat} (h : cellOf memSize a = some k) : k < memSize := by
  obtain ⟨hnonneg, hlt, rfl⟩ := cellOf_eq_some.mp h
  have hnat := a.toInt_eq_toNat_cond
  have := a.isLt
  split at hnat <;> omega

/-- A load at an address that names no cell raises the address fault (R96, R188). -/
theorem execLw_of_no_cell {s : State} {imm : Word} {rs : RegId} (rt : RegId)
    (h : cellOf s.params.memSize (effAddr (s.reg rs) imm) = none) :
    execLw rt imm rs s = .next (s.raise (.memoryAddressFault (effAddr (s.reg rs) imm))) := by
  rw [execLw, s.loadCell_eq_none.mpr h]

/-- A store at an address that names no cell raises the address fault (R97, R188). -/
theorem execSw_of_no_cell {s : State} {imm : Word} {rs : RegId} (rt : RegId)
    (h : cellOf s.params.memSize (effAddr (s.reg rs) imm) = none) :
    execSw rt imm rs s = .next (s.raise (.memoryAddressFault (effAddr (s.reg rs) imm))) := by
  rw [execSw, s.storeCell_eq_none.mpr h]

/-! ### What every step keeps of memory -/

section

variable {Q : Nat → Memory → Prop}

/-- A property of `MEM_SIZE` and of data memory looks at committed state only (R50). -/
theorem memory_ignoresSpeculation : IgnoresSpeculation fun s => Q s.params.memSize s.mem where
  withPc _ _ h := h
  withRs _ _ h := h
  withLsq _ _ h := h
  withQueues _ _ h := h
  withPred _ _ h := h
  withPoisonSeq _ _ h := h
  withRat _ _ h := h
  withRob _ _ h := h
  raise _ _ h := h

theorem finishCommit_memory {s : State} (e : RobEntry) (v : Word) (h : Q s.params.memSize s.mem) :
    (s.finishCommit e v).all fun t => Q t.params.memSize t.mem := by
  refine State.finishCommit_all (fun _ h => h) ?_
  obtain ⟨regs, rat, hr⟩ := s.commitReg_eq e.dest v s.rob.head
  rw [hr]
  exact h

variable (write : ∀ n m k v, k < n → Q n m → Q n (m.write k v))
include write

/-- An instruction writes at most the one cell its address names, which lies inside memory (R45, R178). -/
theorem exec_memory {i : Instr} {s t : State} (hs : Q s.params.memSize s.mem) (h : exec i s = .next t) :
    Q t.params.memSize t.mem := by
  rcases exec_cases h with ⟨r, v, -, rfl⟩ | ⟨e, rfl⟩ | ⟨a, v, k, hk, rfl⟩ | ⟨target, result, rfl⟩
  · rw [State.retireReg_eq]
    exact hs
  · exact hs
  · rw [State.retire_eq]
    exact write _ _ k v (cellOf_lt hk) hs
  · rw [State.retireBranch, State.retire_eq]
    exact hs

/-- A property that writes to cells inside memory keep is kept by every step of either machine (R45, R50). -/
theorem step_memory {s t : State} (hs : Q s.params.memSize s.mem) (h : step s = .next t) : Q t.params.memSize t.mem :=
  step_keeps (P := fun u => Q u.params.memSize u.mem)
    (memory_ignoresSpeculation.substep (fun _ _ h => h) (fun _ e v h => finishCommit_memory e v h)
      fun _ _ k v hk h => write _ _ k v (cellOf_lt hk) h)
    (fun _ _ h => h) (fun _ _ h => h) (fun u h => by rw [u.haltTest_eq]; exact h)
    (fun u _ _ h he => exec_memory (s := u.recordPrediction) write h he) hs h

end

/-- Settles O51: a write keeps the canonical form. -/
theorem stepKeepsMemoryCanonical : Obligations.StepKeepsMemoryCanonical := fun _ _ =>
  step_memory (Q := fun _ m => m.wf) fun _ _ k v _ h => Memory.write_wf h k v

/-- Settles O52: a write lists no cell but its own, which lies inside memory. -/
theorem stepNeverWritesOutsideMemory : Obligations.StepNeverWritesOutsideMemory := fun _ _ =>
  step_memory (Q := fun n m => ∀ c ∈ m, c.1 < n) fun _ _ _ _ hk h _ hc => by
    rcases Memory.mem_write hc with rfl | hc
    · exact hk
    · exact h _ hc

/-! ### Accesses outside memory -/

/-- Settles O21: such an address names no cell, so nothing is read or written. -/
theorem badAddressRaisesAndTouchesNothing : Obligations.BadAddressRaisesAndTouchesNothing := by
  rintro rt rs imm a s rfl houtside
  have hcell : cellOf s.params.memSize (effAddr (s.reg rs) imm) = none := if_neg houtside
  exact ⟨execLw_of_no_cell rt hcell, execSw_of_no_cell rt hcell⟩

/-! ### Registers and stages -/

theorem State.reg_congr {s t : State} (h : t.regs = s.regs) (r : RegId) : t.reg r = s.reg r := by
  rw [State.reg, h, State.reg]

theorem State.setReg_reg (s : State) (r q : RegId) (v : Word) :
    (s.setReg r v).reg q = if r = q then v else s.reg q := by
  split
  · rename_i h
    exact h ▸ s.setReg_reg_self r v
  · rename_i h
    exact s.setReg_reg_ne v (Ne.symm h)

/-- The register part of commit writes the result to the destination and to no other register (R106). -/
theorem State.commitReg_reg (s : State) (dest : Option RegId) (v : Word) (slot : Nat) (q : RegId) :
    (s.commitReg dest v slot).reg q = if dest = some q then v else s.reg q := by
  rcases s.commitReg_cases dest v slot with ⟨rfl, h⟩ | ⟨r, rfl, ⟨-, h⟩ | ⟨-, h⟩⟩ <;> rw [h]
  · rfl
  all_goals simp [State.setReg_reg]

/-- A store's commit, with the address it takes from the LSQ head (R141, R145): it writes the cell that address names and
goes on, or raises the address fault, or fails its assertion. -/
theorem State.commitStore_head_cases (s : State) (e : RobEntry) (v : Word) :
    (∃ a k, (s.lsq.headFor s.rob.head .sw).bind LsqEntry.addr = some a ∧ cellOf s.params.memSize a = some k ∧
      s.commitStore e v =
        ((s.withMem (s.mem.write k v)).withLsq ((s.lsq.forwardStore a v).free s.params.lsqSize)).finishCommit e v) ∨
      (∃ a, s.commitStore e v = .fatal (s.raise (.memoryAddressFault a))) ∨
      s.commitStore e v = .broken .lsqHeadMismatch := by
  unfold State.commitStore
  split
  · exact .inr (.inr rfl)
  · rename_i a ha
    split
    · exact .inr (.inl ⟨a, rfl⟩)
    · rename_i s1 hs
      obtain ⟨k, hk, rfl⟩ := s.storeCell_eq_some.mp hs
      exact .inl ⟨a, k, ha, hk, rfl⟩

/-- What follows from a property of the state a sub-step ends in holds of it too. -/
theorem SubResult.all.mono {P Q : State → Prop} {r : SubResult} (hr : r.all P) (h : ∀ s, P s → Q s) : r.all Q := by
  cases r with
  | cont s | flush s | halt s | fatal s => exact h s hr
  | broken f => trivial

/-! ### The one writer of registers and memory -/

/-- What the statement on the one writer compares of a state: registers, memory and its size, and the count. -/
def State.committed (s : State) : Vector Word 32 × Memory × Nat × Nat :=
  (s.regs, s.mem, s.params.memSize, s.executed)

theorem State.committed_eq_iff {s t : State} : t.committed = s.committed ↔
    t.regs = s.regs ∧ t.mem = s.mem ∧ t.params.memSize = s.params.memSize ∧ t.executed = s.executed := by
  simp only [State.committed, Prod.mk.injEq]

theorem committed_ignoresSpeculation (c : Vector Word 32 × Memory × Nat × Nat) :
    IgnoresSpeculation fun s => s.committed = c where
  withPc _ _ h := h
  withRs _ _ h := h
  withLsq _ _ h := h
  withQueues _ _ h := h
  withPred _ _ h := h
  withPoisonSeq _ _ h := h
  withRat _ _ h := h
  withRob _ _ h := h
  raise _ _ h := h

/-- A flush leaves registers, memory and the count (R169). -/
theorem flush_committed (s : State) (correct : Word) : (s.flush correct).committed = s.committed :=
  (committed_ignoresSpeculation s.committed).flush rfl correct

/-- The commit stage sees the registers, the memory and the count the sub-step began with (R50, R177). -/
theorem beforeCommit_committed (s : State) : (beforeCommit s).all fun u => u.committed = s.committed :=
  have hP := committed_ignoresSpeculation s.committed
  have hF := hP.toIgnoresFlow
  beforeCommit_keeps (P := fun u => u.committed = s.committed) (fun _ => hF.stageFetch) (fun _ => hF.stageDecode)
    (fun _ => hP.stageIssue) (fun _ => hF.stageDispatch) (fun _ => hF.stageExecute) (fun _ => hF.stageMemory)
    (fun _ => hP.stageWriteback) rfl

/-- Memory `m` is that of `u` but for the cell the address of the LSQ head names, which lies inside memory and holds the
result of the committing store (R141, R145). -/
def headCellWritten (u : State) (result : Option Word) (m : Memory) : Prop :=
  ∃ a k, (u.lsq.headFor u.rob.head .sw).bind LsqEntry.addr = some a ∧ cellOf u.params.memSize a = some k ∧
    (∀ j, j ≠ k → m.read j = u.mem.read j) ∧ (u.mem.wf → result = some (m.read k))

/-- `t` is what the commit of `e` in `u` leaves of registers, memory and the count (R106, R141, R168). -/
structure CommitWrites (u : State) (e : RobEntry) (t : State) : Prop where
  executed : t.executed = u.executed + 1
  otherReg : ∀ r, e.dest ≠ some r → t.reg r = u.reg r
  destReg : ∀ r, e.dest = some r → e.op.cls ∉ [OpClass.branch, OpClass.jump] → e.result = some (t.reg r)
  mem : e.op.cls ≠ .store → t.mem = u.mem
  cell : e.op.cls = .store → headCellWritten u e.result t.mem

/-- What the commit stage can make of `u`: nothing is written and counted, or the entry at the ROB head, complete and
without fault, commits (R114, R168). -/
def writesByCommit (u t : State) : Prop :=
  t.committed = u.committed ∨
    ∃ e, u.rob.entry? u.rob.head = some e ∧ e.done = true ∧ e.fault = none ∧ CommitWrites u e t

theorem CommitWrites.congr {u t t' : State} {e : RobEntry} (h : CommitWrites u e t) (ht : t'.committed = t.committed) :
    CommitWrites u e t' := by
  obtain ⟨hregs, hmem, -, hexecuted⟩ := State.committed_eq_iff.mp ht
  constructor
  · exact hexecuted.trans h.executed
  · exact fun r hr => (State.reg_congr hregs r).trans (h.otherReg r hr)
  · exact fun r hr hc => State.reg_congr hregs r ▸ h.destReg r hr hc
  · exact fun hc => hmem.trans (h.mem hc)
  · exact hmem ▸ h.cell

theorem writesByCommit.congr {u t t' : State} (h : writesByCommit u t) (ht : t'.committed = t.committed) :
    writesByCommit u t' := by
  rcases h with h | ⟨e, he, hd, hf, h⟩
  · exact .inl (ht.trans h)
  · exact .inr ⟨e, he, hd, hf, h.congr ht⟩

/-- The common part of commit, after a class's own part that left registers and the count and wrote memory as
`CommitWrites` says. -/
theorem finishCommit_writes {u w : State} {e : RobEntry} {v : Word} (hv : e.result = some v) (hregs : w.regs = u.regs)
    (hexecuted : w.executed = u.executed) (hmem : e.op.cls ≠ .store → w.mem = u.mem)
    (hcell : e.op.cls = .store → headCellWritten u e.result w.mem) : (w.finishCommit e v).all (CommitWrites u e) := by
  refine State.finishCommit_all (fun t h => h.congr rfl) ?_
  have hreg := w.commitReg_reg e.dest v w.rob.head
  have hkept : (w.commitReg e.dest v w.rob.head).mem = w.mem := by
    obtain ⟨regs, rat, h⟩ := w.commitReg_eq e.dest v w.rob.head
    rw [h]
    rfl
  constructor
  · exact congrArg (· + 1) hexecuted
  · exact fun r hr => (hreg r).trans ((if_neg hr).trans (State.reg_congr hregs r))
  · exact fun r hr _ => hv.trans (congrArg some ((hreg r).trans (if_pos hr)).symm)
  · exact fun hc => hkept.trans (hmem hc)
  · exact hkept ▸ hcell

/-- A class that writes no memory before the common part of commit. -/
theorem finishCommit_writes_of_not_store {u w : State} {e : RobEntry} {v : Word} (hv : e.result = some v)
    (hc : e.op.cls ≠ .store) (hw : w.committed = u.committed) : (w.finishCommit e v).all (CommitWrites u e) := by
  obtain ⟨hregs, hmem, -, hexecuted⟩ := State.committed_eq_iff.mp hw
  exact finishCommit_writes hv hregs hexecuted (fun _ => hmem) fun h => absurd h hc

/-- The flush of a mispredicted branch or jump counts it and writes nothing (R169, R174). -/
theorem flush_writes {u : State} {e : RobEntry} (p : Predictor) (correct : Word)
    (hc : e.op.cls = .branch ∨ e.op.cls = .jump) :
    CommitWrites u e (((u.withPred p).flush correct).withExecuted (u.executed + 1)) := by
  obtain ⟨hregs, hmem, -, -⟩ := State.committed_eq_iff.mp (flush_committed (u.withPred p) correct)
  constructor
  · rfl
  · exact fun r _ => State.reg_congr (s := u.withPred p) hregs r
  · exact fun _ _ hn => absurd (by simpa using hc) hn
  · exact fun _ => hmem
  · exact fun h => by simp [h] at hc

/-- A branch or jump writes no memory, and no register if it is mispredicted (R168, R169). -/
theorem commitBranch_writes {u : State} {e : RobEntry} {v : Word} (hv : e.result = some v)
    (hc : e.op.cls = .branch ∨ e.op.cls = .jump) : (u.commitBranch e v).all (CommitWrites u e) := by
  rcases u.commitBranch_cases e v with ⟨-, h⟩ | ⟨-, h⟩ <;> rw [h]
  · exact finishCommit_writes_of_not_store hv (fun h => by simp [h] at hc) rfl
  · exact flush_writes _ _ hc

theorem commitLoad_writes {u : State} {e : RobEntry} {v : Word} (hv : e.result = some v) (hc : e.op.cls = .load) :
    (u.commitLoad e v).all (CommitWrites u e) := by
  rcases u.commitLoad_cases e v with ⟨l, -, h⟩ | h <;> rw [h]
  · exact finishCommit_writes_of_not_store hv (by simp [hc]) rfl
  · trivial

/-- A store writes its result to the cell the LSQ head names, or raises the address fault and writes nothing (R141). -/
theorem commitStore_writes {u : State} {e : RobEntry} {v : Word} (hv : e.result = some v) (hc : e.op.cls = .store) :
    (u.commitStore e v).all fun t => t.committed = u.committed ∨ CommitWrites u e t := by
  rcases u.commitStore_head_cases e v with ⟨a, k, ha, hk, h⟩ | ⟨a, h⟩ | h <;> rw [h]
  · refine SubResult.all.mono (P := CommitWrites u e) ?_ fun _ => .inr
    refine finishCommit_writes hv rfl rfl (fun hn => absurd hc hn) fun _ => ⟨a, k, ha, hk, ?_, ?_⟩
    · exact fun _ hj => Memory.read_write_ne u.mem v hj
    · exact fun hwf => hv.trans (congrArg some (Memory.read_write_self hwf k v).symm)
  · exact .inl rfl
  · trivial

theorem stageCommit_writesByCommit (u : State) : (stageCommit u).all (writesByCommit u) := by
  rcases stageCommit_cases u with ⟨e, -, he, hd, h⟩ | h | h <;> rw [h]
  · rcases u.commitEntry_cases e with ⟨f, -, h⟩ | ⟨-, -, h⟩ | ⟨v, hf, hv, hcls⟩
    · rw [h]
      exact .inl rfl
    · rw [h]
      trivial
    · have committing (t : State) (ht : CommitWrites u e t) : writesByCommit u t := .inr ⟨e, he, hd, hf, ht⟩
      rcases hcls with ⟨hc, h⟩ | ⟨hc, h⟩ | ⟨hc, h⟩ | ⟨hc, h⟩ <;> rw [h]
      · exact (commitBranch_writes hv hc).mono committing
      · exact (commitStore_writes hv hc).mono fun t ht => ht.elim .inl (committing t)
      · exact (commitLoad_writes hv hc).mono committing
      · exact (finishCommit_writes_of_not_store hv (fun h => by simp [h] at hc) rfl).mono committing
  · exact .inl rfl
  · trivial

/-- A sub-step leaves registers, memory and the count, or its commit stage makes of them what it makes of the state it
sees, in which they are as the sub-step began with them (R50, R160, R177). -/
theorem substep_writesByCommit (s : State) : (substep s).all fun t =>
    t.committed = s.committed ∨
      ∃ u e, beforeCommit s = .cont u ∧ u.committed = s.committed ∧ u.rob.entry? u.rob.head = some e ∧
        e.done = true ∧ e.fault = none ∧ CommitWrites u e t := by
  have hseen := beforeCommit_committed s
  rw [substep]
  cases hb : beforeCommit s with
  | cont u =>
    rw [hb] at hseen
    have ended : ((stageCommit u).andThen endOfSubstep).all (writesByCommit u) := by
      refine SubResult.all_andThen (stageCommit_writesByCommit u) (fun w hw => ?_) fun _ => id
      rcases endOfSubstep_cases w with h | ⟨-, -, h⟩ <;> rw [h] <;> exact hw.congr rfl
    refine ended.mono fun t ht => ?_
    rcases ht with h | ⟨e, he, hd, hf, h⟩
    · exact .inl (h.trans hseen)
    · exact .inr ⟨u, e, rfl, hseen, he, hd, hf, h⟩
  | flush t | halt t | fatal t =>
    rw [hb] at hseen
    exact .inl hseen
  | broken f => trivial

/-- Settles O47: registers and memory are changed by no stage but commit, which counts what it commits. -/
theorem commitIsTheOnlyWriter : Obligations.CommitIsTheOnlyWriter := by
  refine fun s => (substep_writesByCommit s).mono fun t ht => ?_
  rcases ht with h | ⟨u, e, hb, hu, he, hd, hf, h⟩
  · obtain ⟨hregs, hmem, -, hexecuted⟩ := State.committed_eq_iff.mp h
    exact ⟨fun _ => ⟨hregs, hmem⟩, fun hn => absurd hexecuted hn⟩
  · obtain ⟨hregs, hmem, hsize, hexecuted⟩ := State.committed_eq_iff.mp hu
    have hcounted : t.executed ≠ s.executed := by
      rw [h.executed, hexecuted]
      exact Nat.succ_ne_self _
    refine ⟨fun hn => absurd hn hcounted, fun _ => ⟨u, e, hb, he, hd, hf, ?_, h.destReg, ?_, ?_⟩⟩
    · exact fun r hr => (h.otherReg r hr).trans (State.reg_congr hregs r)
    · exact fun hc => (h.mem hc).trans hmem
    · rw [← hmem, ← hsize]
      exact h.cell

end Sys2Proof.Machine
end

section
/-! The encoding family: decoding inverts encoding in both external forms, the decoder accepts exactly the rows of the
opcode table, and what it refuses is an error that ends the sub-step (30_encoding).  First the fields of a word, then
the two decoders, then the engine. -/

namespace Sys2Proof

/-! ### The fields of a word -/

/-- A field above the last part of a word is a field of what stands before that part. -/
theorem extractLsb'_append_add {n m start len : Nat} {a : BitVec n} {b : BitVec m} {c : BitVec len}
    (h : a.extractLsb' start len = c) : (a ++ b).extractLsb' (start + m) len = c := by
  rw [BitVec.extractLsb'_append_eq_of_le (Nat.le_add_left m start), Nat.add_sub_cancel, h]

section
variable (opc : BitVec 8) (fa fb fc : BitVec 5) (imm : Word) (w v : BitVec 64)

@[simp] theorem wordImm_packWord : wordImm (packWord opc fa fb fc imm) = imm := BitVec.extractLsb'_append_eq_right
@[simp] theorem wordZero_packWord : wordZero (packWord opc fa fb fc imm) = 0 :=
  extractLsb'_append_add BitVec.extractLsb'_append_eq_right
@[simp] theorem wordFc_packWord : wordFc (packWord opc fa fb fc imm) = fc :=
  extractLsb'_append_add (extractLsb'_append_add BitVec.extractLsb'_append_eq_right)
@[simp] theorem wordFb_packWord : wordFb (packWord opc fa fb fc imm) = fb :=
  extractLsb'_append_add (extractLsb'_append_add (extractLsb'_append_add BitVec.extractLsb'_append_eq_right))
@[simp] theorem wordFa_packWord : wordFa (packWord opc fa fb fc imm) = fa :=
  extractLsb'_append_add (extractLsb'_append_add (extractLsb'_append_add
    (extractLsb'_append_add BitVec.extractLsb'_append_eq_right)))
@[simp] theorem wordOpc_packWord : wordOpc (packWord opc fa fb fc imm) = opc :=
  extractLsb'_append_add (extractLsb'_append_add (extractLsb'_append_add
    (extractLsb'_append_add (extractLsb'_append_add BitVec.extractLsb'_eq_self))))

@[simp] theorem wordOpc_and : wordOpc (w &&& v) = wordOpc w &&& wordOpc v := BitVec.extractLsb'_and
@[simp] theorem wordFa_and : wordFa (w &&& v) = wordFa w &&& wordFa v := BitVec.extractLsb'_and
@[simp] theorem wordFb_and : wordFb (w &&& v) = wordFb w &&& wordFb v := BitVec.extractLsb'_and
@[simp] theorem wordFc_and : wordFc (w &&& v) = wordFc w &&& wordFc v := BitVec.extractLsb'_and
@[simp] theorem wordZero_and : wordZero (w &&& v) = wordZero w &&& wordZero v := BitVec.extractLsb'_and
@[simp] theorem wordImm_and : wordImm (w &&& v) = wordImm w &&& wordImm v := BitVec.extractLsb'_and

/-- The six fields of R73 are all of a word. -/
theorem fields_append : wordOpc w ++ wordFa w ++ wordFb w ++ wordFc w ++ wordZero w ++ wordImm w = w := by
  have joined {hi lo : Nat} (n : Nat) {m : Nat} (h : hi = lo + m) :
      w.extractLsb' hi n ++ w.extractLsb' lo m = w.extractLsb' lo (n + m) :=
    BitVec.extractLsb'_append_extractLsb'_eq_extractLsb' h
  rw [wordOpc, wordFa, wordFb, wordFc, wordZero, wordImm, joined 8 (show 56 = 51 + 5 from rfl),
    joined _ (show 51 = 46 + 5 from rfl), joined _ (show 46 = 41 + 5 from rfl), joined _ (show 41 = 32 + 9 from rfl),
    joined _ (show 32 = 0 + 32 from rfl)]
  exact BitVec.extractLsb'_eq_self

/-- Two words are equal exactly when their fields are. -/
theorem word_eq_iff : w = v ↔ wordOpc w = wordOpc v ∧ wordFa w = wordFa v ∧ wordFb w = wordFb v ∧
    wordFc w = wordFc v ∧ wordZero w = wordZero v ∧ wordImm w = wordImm v := by
  refine ⟨fun h => by simp [h], fun ⟨hopc, hfa, hfb, hfc, hzero, himm⟩ => ?_⟩
  rw [← fields_append w, hopc, hfa, hfb, hfc, hzero, himm, fields_append v]

end

@[simp] theorem regOfBits_bitsOfReg (r : RegId) : regOfBits (bitsOfReg r) = r := by
  simp [regOfBits, bitsOfReg]

@[simp] theorem bitsOfReg_regOfBits (b : BitVec 5) : bitsOfReg (regOfBits b) = b := by
  simp [regOfBits, bitsOfReg]

@[simp] theorem bitsOfReg_zero : bitsOfReg 0 = 0 := rfl

/-- The fields that the layout of a class leaves unused are zero (R75, R77). -/
def unusedClear (c : OpClass) (fa fb fc : BitVec 5) (imm : Word) : Prop :=
  match c with
  | .arith => imm = 0
  | .imm | .load | .store | .branch => fc = 0
  | .jump => fa = 0 ∧ fb = 0 ∧ fc = 0

/-- The must-be-zero bits of a class are the reserved field and the fields it leaves unused. -/
theorem reservedClear_iff (c : OpClass) (w : BitVec 64) :
    reservedClear c w = true ↔ wordZero w = 0 ∧ unusedClear c (wordFa w) (wordFb w) (wordFc w) (wordImm w) := by
  cases c <;> simp [reservedClear, unusedClear, and_assoc]

/-! ### Binary form -/

/-- A number selects the opcode it is the number of, and no other (R74). -/
theorem opOfNumber_eq_some {n : BitVec 8} {o : Op} : opOfNumber n = some o ↔ n = opNumber o := by
  refine ⟨fun h => ?_, fun h => ?_⟩
  · have hfound := List.find?_some h
    exact (beq_iff_eq.mp hfound).symm
  · subst h
    cases o <;> rfl

/-- A number that is none of the eleven selects no opcode (R74). -/
theorem opOfNumber_eq_none {n : BitVec 8} : opOfNumber n = none ↔ ∀ o, n ≠ opNumber o := by
  simp only [Option.eq_none_iff_forall_ne_some, ne_eq, opOfNumber_eq_some]

/-- What the decoder answers for a word with an opcode's number (R71, R75). -/
theorem decodeWord_of_opcode {w : BitVec 64} {o : Op} (h : wordOpc w = opNumber o) :
    decodeWord w =
      if reservedClear o.cls w then
        .ok (instrOfFields o (regOfBits (wordFa w)) (regOfBits (wordFb w)) (regOfBits (wordFc w)) (wordImm w))
      else .error .malformed := by
  rw [decodeWord, opOfNumber_eq_some.mpr h]

/-- The words that decode: those of an opcode with its must-be-zero bits clear (R74, R75, R77). -/
theorem decodeWord_eq_ok {w : BitVec 64} {i : Instr} : decodeWord w = .ok i ↔ ∃ o,
    wordOpc w = opNumber o ∧ reservedClear o.cls w = true ∧
      i = instrOfFields o (regOfBits (wordFa w)) (regOfBits (wordFb w)) (regOfBits (wordFc w)) (wordImm w) := by
  constructor
  · intro h
    cases ho : opOfNumber (wordOpc w) with
    | none => simp [decodeWord, ho] at h
    | some o =>
      have hopc := opOfNumber_eq_some.mp ho
      rw [decodeWord_of_opcode hopc] at h
      split at h
      · rename_i hclear
        exact ⟨o, hopc, hclear, (Except.ok.inj h).symm⟩
      · cases h
  · rintro ⟨o, hopc, hclear, rfl⟩
    rw [decodeWord_of_opcode hopc, if_pos hclear]

@[simp] theorem instrOfFields_op (o : Op) (fa fb fc : RegId) (imm : Word) : (instrOfFields o fa fb fc imm).op = o := by
  cases o <;> rfl

/-- Every instruction is made of fields, with those its class leaves unused zero (R75, R76). -/
theorem Instr.exists_fields (i : Instr) : ∃ fa fb fc imm, unusedClear i.op.cls fa fb fc imm ∧
    i = instrOfFields i.op (regOfBits fa) (regOfBits fb) (regOfBits fc) imm := by
  cases i with
  | add rd rs rt | sub rd rs rt | mul rd rs rt | div rd rs rt | idiv rd rs rt | mod rd rs rt =>
    exact ⟨bitsOfReg rd, bitsOfReg rs, bitsOfReg rt, 0, rfl, by simp [instrOfFields, Instr.op]⟩
  | addi r1 r2 imm | beq r1 r2 imm | lw r1 imm r2 | sw r1 imm r2 =>
    exact ⟨bitsOfReg r1, bitsOfReg r2, 0, imm, rfl, by simp [instrOfFields, Instr.op]⟩
  | j target => exact ⟨0, 0, 0, target, ⟨rfl, rfl, rfl⟩, rfl⟩

/-- The encoding of an instruction packs the fields it is made of (R73 to R76). -/
theorem encode_instrOfFields {o : Op} {fa fb fc : BitVec 5} {imm : Word} (h : unusedClear o.cls fa fb fc imm) :
    encode (instrOfFields o (regOfBits fa) (regOfBits fb) (regOfBits fc) imm) = packWord (opNumber o) fa fb fc imm := by
  cases o with
  | add | sub | mul | div | idiv | mod =>
    obtain rfl : imm = 0 := h
    simp [instrOfFields, encode, Instr.op]
  | addi | lw | sw | beq =>
    obtain rfl : fc = 0 := h
    simp [instrOfFields, encode]
  | j =>
    obtain ⟨rfl, rfl, rfl⟩ := h
    rfl

/-- Settles O1: packing the fields of an instruction loses none of them. -/
theorem decodeOfEncodeIsTheInstruction : Obligations.DecodeOfEncodeIsTheInstruction := by
  intro i
  obtain ⟨fa, fb, fc, imm, hclear, hi⟩ := i.exists_fields
  rw [hi, encode_instrOfFields hclear, decodeWord_eq_ok]
  refine ⟨i.op, wordOpc_packWord .., (reservedClear_iff ..).mpr ?_, ?_⟩
  · simpa using hclear
  · simp

/-- Settles O2: the fields the decoder reads and the bits it demands to be zero are all of the word. -/
theorem decodedWordIsItsEncoding : Obligations.DecodedWordIsItsEncoding := by
  intro w i h
  obtain ⟨o, hopc, hclear, rfl⟩ := decodeWord_eq_ok.mp h
  obtain ⟨hzero, hunused⟩ := (reservedClear_iff ..).mp hclear
  rw [encode_instrOfFields hunused, word_eq_iff]
  simp [hopc, hzero]

/-! ### The opcode table -/

/-- A field under a mask of all ones or none: what is kept is zero. -/
theorem and_ite_allOnes_eq_zero {n : Nat} (p : Prop) [Decidable p] (x : BitVec n) :
    x &&& (if p then BitVec.allOnes n else 0) = 0 ↔ (p → x = 0) := by
  by_cases hp : p <;> simp [hp]

/-- The mask of a row keeps the opcode number and the fields that must be zero, whole (R74, R75, R77). -/
theorem and_tableMask_eq_iff (w : BitVec 64) (c : OpClass) (opc : BitVec 8) :
    w &&& tableMask c = packWord opc 0 0 0 0 ↔
      wordOpc w = opc ∧ wordZero w = 0 ∧ unusedClear c (wordFa w) (wordFb w) (wordFc w) (wordImm w) := by
  have hopc : wordOpc (tableMask c) = BitVec.allOnes 8 := by cases c <;> rfl
  have hzero : wordZero (tableMask c) = BitVec.allOnes 9 := by cases c <;> rfl
  have hfa : wordFa (tableMask c) = if c = .jump then BitVec.allOnes 5 else 0 := by cases c <;> rfl
  have hfb : wordFb (tableMask c) = if c = .jump then BitVec.allOnes 5 else 0 := by cases c <;> rfl
  have hfc : wordFc (tableMask c) = if c ≠ .arith then BitVec.allOnes 5 else 0 := by cases c <;> rfl
  have himm : wordImm (tableMask c) = if c = .arith then BitVec.allOnes 32 else 0 := by cases c <;> rfl
  simp only [word_eq_iff, wordOpc_and, wordFa_and, wordFb_and, wordFc_and, wordZero_and, wordImm_and, wordOpc_packWord,
    wordFa_packWord, wordFb_packWord, wordFc_packWord, wordZero_packWord, wordImm_packWord, hopc, hfa, hfb, hfc, hzero,
    himm, BitVec.and_allOnes, and_ite_allOnes_eq_zero]
  cases c with
  | arith => simp [unusedClear]
  | imm | load | store | branch => simp [unusedClear, and_comm]
  | jump => simp [unusedClear, and_assoc, and_comm, and_left_comm]

/-- A word meets the row of an opcode exactly when it has its number and clear must-be-zero bits. -/
theorem meetsRow_iff (w : BitVec 64) (o : Op) :
    w &&& tableMask o.cls = tableMatch o ↔ wordOpc w = opNumber o ∧ reservedClear o.cls w = true := by
  have hmatch : tableMatch o = packWord (opNumber o) 0 0 0 0 := by cases o <;> rfl
  rw [hmatch, and_tableMask_eq_iff, reservedClear_iff]

/-- Settles O6: the decoder's two tests are the row's mask and match. -/
theorem decoderAcceptsExactlyTheTableRows : Obligations.DecoderAcceptsExactlyTheTableRows := by
  intro w o
  rw [meetsRow_iff]
  constructor
  · rintro ⟨i, hi, rfl⟩
    obtain ⟨o, hopc, hclear, rfl⟩ := decodeWord_eq_ok.mp hi
    rw [instrOfFields_op]
    exact ⟨hopc, hclear⟩
  · rintro ⟨hopc, hclear⟩
    exact ⟨_, decodeWord_eq_ok.mpr ⟨o, hopc, hclear, rfl⟩, instrOfFields_op ..⟩

/-- Settles O7: the number of a row without the row's mask and match is a must-be-zero bit that is set. -/
theorem reservedBitsAreMalformed : Obligations.ReservedBitsAreMalformed := by
  intro w o hopc hrow
  have hclear : ¬ reservedClear o.cls w = true := fun h => hrow ((meetsRow_iff w o).mpr ⟨hopc, h⟩)
  rw [decodeWord_of_opcode hopc, if_neg hclear]

/-- Settles O4: six closed words, which the decoder is evaluated on. -/
theorem specWordsDecode : Obligations.SpecWordsDecode :=
  ⟨rfl, rfl, rfl, rfl, rfl, rfl⟩

/-! ### Text form: numbers -/

/-- The digits of a number are read one after the other (R63, R64). -/
theorem digitsFrom_append (acc : Nat) (l m : Line) :
    digitsFrom acc (l ++ m) = (digitsFrom acc l).bind fun n => digitsFrom n m := by
  induction l generalizing acc with
  | nil => rfl
  | cons c cs ih =>
    rw [List.cons_append, digitsFrom, digitsFrom]
    cases digitValue c with
    | none => rfl
    | some d => exact ih _

theorem digitValue_ofNat {d : Nat} (h : d < 10) : digitValue (Char.ofNat (48 + d)) = some d := by
  revert d
  decide

/-- A printed digit reads as one more digit of the number before it. -/
theorem digitsFrom_digit (acc : Nat) {d : Nat} (h : d < 10) :
    digitsFrom acc [Char.ofNat (48 + d)] = some (acc * 10 + d) := by
  simp [digitsFrom, digitValue_ofNat h]

/-- The printed digits of a number read as the number. -/
theorem digitsFrom_digitsText {fuel n : Nat} (h : n < 10 ^ fuel) : digitsFrom 0 (digitsText fuel n) = some n := by
  induction fuel generalizing n with
  | zero =>
    obtain rfl : n = 0 := by simpa using h
    rfl
  | succ fuel ih =>
    rw [digitsText]
    split
    · rename_i hn
      rw [digitsFrom_digit 0 hn]
      simp
    · rw [digitsFrom_append, ih (by omega), Option.bind_some, digitsFrom_digit _ (Nat.mod_lt n (by decide))]
      congr 1
      omega

/-- Printed numbers consist of digits. -/
theorem isDigit_of_mem_digitsText {fuel n : Nat} {c : Char} (h : c ∈ digitsText fuel n) :
    ∃ d < 10, c = Char.ofNat (48 + d) := by
  induction fuel generalizing n with
  | zero => cases h
  | succ fuel ih =>
    rw [digitsText] at h
    split at h
    · rename_i hn
      exact ⟨n, hn, List.mem_singleton.mp h⟩
    · rcases List.mem_append.mp h with h | h
      · exact ih h
      · exact ⟨n % 10, Nat.mod_lt n (by decide), List.mem_singleton.mp h⟩

/-- A character that is no digit does not stand in a printed number. -/
theorem not_mem_natText {n : Nat} {c : Char} (h : digitValue c = none) : c ∉ natText n := by
  intro hc
  obtain ⟨d, hd, rfl⟩ := isDigit_of_mem_digitsText hc
  rw [digitValue_ofNat hd] at h
  cases h

theorem natText_ne_nil (n : Nat) : natText n ≠ [] := by
  rw [natText, digitsText]
  split <;> simp

/-- A printed number reads as itself. -/
theorem parseNat_natText {n : Nat} (h : n < 10 ^ 10) : parseNat (natText n) = some n := by
  rw [parseNat, if_neg (by simpa using natText_ne_nil n)]
  exact digitsFrom_digitsText h

/-! ### Text form: tokens -/

/-- A printed register reads as itself (R63). -/
theorem parseReg_regText (r : RegId) : parseReg (regText r) = some r := by
  have hr := r.isLt
  simp [parseReg, regText, parseNat_natText (show r.val < 10 ^ 10 by omega)]

/-- A number without a sign is a literal (R64). -/
theorem parseLiteral_of_unsigned {t : Line} {n : Nat} (hsign : '-' ∉ t) (h : parseNat t = some n) :
    parseLiteral t = some (n : Int) := by
  unfold parseLiteral
  split
  · simp at hsign
  · simp [h]

/-- A number after a minus sign is a literal (R64). -/
theorem parseLiteral_minus {t : Line} {n : Nat} (h : parseNat t = some n) :
    parseLiteral ('-' :: t) = some (-(n : Int)) := by
  simp [parseLiteral, h]

/-- A printed immediate reads as its signed value (R64). -/
theorem parseLiteral_immText (v : Word) : parseLiteral (immText v) = some v.toInt := by
  have hlow := BitVec.le_toInt v
  have hhigh := BitVec.toInt_lt (x := v)
  have hread : parseNat (natText v.toInt.natAbs) = some v.toInt.natAbs := parseNat_natText (by omega)
  rw [immText]
  split
  · rw [parseLiteral_minus hread, Option.some.injEq]
    omega
  · rw [parseLiteral_of_unsigned (not_mem_natText (by decide)) hread, Option.some.injEq]
    omega

theorem immOfInt_toInt (v : Word) : immOfInt v.toInt = some v := by
  have hrange : immInRange (some v.toInt) = true := immInRange_map_toInt (some v)
  rw [immOfInt, if_pos hrange, wrap, BitVec.ofInt_toInt]

/-- A printed immediate reads as itself, whatever labels there are (R64; log 12). -/
theorem parseImm_immText (sym : SymTab) (v : Word) : parseImm sym (immText v) = some v := by
  rw [parseImm, parseLiteral_immText]
  exact immOfInt_toInt v

/-- A character that is neither a digit nor `$` does not stand in a printed register. -/
theorem not_mem_regText {r : RegId} {c : Char} (hd : digitValue c = none) (hc : c ≠ '$') : c ∉ regText r :=
  List.not_mem_cons_of_ne_of_not_mem hc (not_mem_natText hd)

/-- A character that is neither a digit nor `-` does not stand in a printed immediate. -/
theorem not_mem_immText {v : Word} {c : Char} (hd : digitValue c = none) (hc : c ≠ '-') : c ∉ immText v := by
  rw [immText]
  split
  · exact List.not_mem_cons_of_ne_of_not_mem hc (not_mem_natText hd)
  · exact not_mem_natText hd

/-- The two parts of a text at the first `x` of it. -/
theorem span_append_cons {x : Char} {l : Line} (h : x ∉ l) (m : Line) :
    (l ++ x :: m).takeWhile (· != x) = l ∧ (l ++ x :: m).dropWhile (· != x) = x :: m := by
  have hl : ∀ c ∈ l, (c != x) = true := fun c hc => bne_iff_ne.mpr fun e => h (e ▸ hc)
  rw [List.takeWhile_append_of_pos hl, List.dropWhile_append_of_pos hl]
  simp

/-- A printed memory operand reads as its offset and its register (R67). -/
theorem parseMemOperand_memText (sym : SymTab) (imm : Word) (rs : RegId) :
    parseMemOperand sym (memText imm rs) = some (imm, rs) := by
  have hopen : '(' ∉ (regText rs).reverse := by
    simpa using not_mem_regText (r := rs) (c := '(') (by decide) (by decide)
  have hreverse : (memText imm rs).reverse = ')' :: ((regText rs).reverse ++ '(' :: (immText imm).reverse) := by
    simp [memText]
  obtain ⟨htake, hdrop⟩ := span_append_cons hopen (immText imm).reverse
  simp [parseMemOperand, hreverse, htake, hdrop, parseImm_immText, parseReg_regText]

/-! ### Text form: lines -/

/-- Text that can stand as one token of a line: not empty and without a space (R62). -/
def isToken (t : Line) : Prop := t ≠ [] ∧ ' ' ∉ t

/-- The tokens of a line with single spaces between them are those it was made of (R62). -/
theorem tokens_intercalate {ts : List Line} (hne : ts ≠ []) (h : ∀ t ∈ ts, isToken t) :
    tokens ([' '].intercalate ts) = ts := by
  rw [tokens, List.splitOn_intercalate ' ' (fun t ht => (h t ht).2) hne, List.filter_eq_self]
  exact fun t ht => by simpa using (h t ht).1

theorem isToken_opText (o : Op) : isToken (opText o) := by
  cases o <;> exact ⟨by decide, by decide⟩

theorem isToken_regText (r : RegId) : isToken (regText r) :=
  ⟨List.cons_ne_nil _ _, not_mem_regText (by decide) (by decide)⟩

theorem isToken_immText (v : Word) : isToken (immText v) := by
  refine ⟨?_, not_mem_immText (by decide) (by decide)⟩
  rw [immText]
  split
  · exact List.cons_ne_nil _ _
  · exact natText_ne_nil _

theorem isToken_memText (imm : Word) (rs : RegId) : isToken (memText imm rs) := by
  refine ⟨by simp [memText], ?_⟩
  have himm := (isToken_immText imm).2
  have hrs := (isToken_regText rs).2
  simp [memText, himm, hrs]

theorem isToken_of_mem_operandTexts {i : Instr} {t : Line} (h : t ∈ operandTexts i) : isToken t := by
  revert t
  cases i <;> simp [operandTexts, isToken_regText, isToken_immText, isToken_memText]

/-- The tokens of a printed line are its mnemonic and its operands (R62). -/
theorem tokens_printLine (i : Instr) : tokens (printLine i) = opText i.op :: operandTexts i := by
  refine tokens_intercalate (List.cons_ne_nil _ _) fun t ht => ?_
  rcases List.mem_cons.mp ht with rfl | ht
  · exact isToken_opText _
  · exact isToken_of_mem_operandTexts ht

theorem opOfText_opText (o : Op) : opOfText (opText o) = some o := by
  cases o <;> rfl

/-- A token that is none of the eleven mnemonics names no opcode (R72). -/
theorem opOfText_eq_none {t : Line} (h : ∀ o, opText o ≠ t) : opOfText t = none :=
  List.find?_eq_none.mpr fun o _ => by simpa using h o

/-- The printed operands of an instruction match the grammar of its class (R65 to R69). -/
theorem bindOperands_operandTexts (sym : SymTab) (i : Instr) :
    bindOperands sym i.op (operandTexts i) = some i := by
  cases i with
  | add | sub | mul | div | idiv | mod | addi | beq =>
    simp [bindOperands, operandTexts, Instr.op, Op.cls, instrOfFields, parseReg_regText, parseImm_immText]
  | lw | sw =>
    simp [bindOperands, operandTexts, Instr.op, Op.cls, instrOfFields, parseReg_regText, parseMemOperand_memText]
  | j => simp [bindOperands, operandTexts, Instr.op, Op.cls, instrOfFields, parseImm_immText]

/-- Settles O3: a printed line splits into its own tokens, and each token reads as what was printed. -/
theorem decodeOfPrintedLineIsTheInstruction : Obligations.DecodeOfPrintedLineIsTheInstruction := by
  intro sym i
  simp only [decodeText, tokens_printLine, opOfText_opText, bindOperands_operandTexts]

/-! ### Unknown opcodes -/

/-- Settles O5: the opcode selects nothing, so no form looks at the rest. -/
theorem unknownOpcodeIsUnsupported : Obligations.UnknownOpcodeIsUnsupported := by
  refine ⟨fun w hw => ?_, fun sym l t rest hl ht => ?_⟩
  · have hnone : opOfNumber (wordOpc w) = none := by
      refine opOfNumber_eq_none.mpr fun o ho => hw ?_
      rw [show w.extractLsb' 56 8 = opNumber o from ho]
      cases o <;> decide
    rw [decodeWord, hnone]
  · simp only [decodeText, hl, opOfText_eq_none ht]

end Sys2Proof

namespace Sys2Proof.Machine

/-! ### Decode errors in the engine -/

/-- Fetch leaves alone what decode reads, the registers, memory, the ROB and the count: what it fetches is pending
until the end of the sub-step (R161, R171). -/
theorem stageFetch_unchanged (s : State) :
    (stageFetch s).queues.fq.visible = s.queues.fq.visible ∧ (stageFetch s).queues.iq = s.queues.iq ∧
      (stageFetch s).params = s.params ∧ (stageFetch s).symtab = s.symtab ∧ (stageFetch s).regs = s.regs ∧
        (stageFetch s).mem = s.mem ∧ (stageFetch s).executed = s.executed ∧ (stageFetch s).rob = s.rob := by
  rcases stageFetch_cases s with ⟨code, -, -, h⟩ | h <;> rw [h] <;>
    exact ⟨rfl, rfl, rfl, rfl, rfl, rfl, rfl, rfl⟩

/-- A line at the front of `FQ` that does not decode ends the decode stage, if `IQ` has room (R162). -/
theorem stageDecode_of_error {s : State} {item : FetchItem} {rest : List FetchItem} {e : DecodeFailure}
    (hfront : s.queues.fq.visible = item :: rest) (hroom : s.queues.iq.hasRoom s.params.qCap = true)
    (herr : decode s.symtab item.code = .error e) :
    stageDecode s = .fatal ((s.withQueues { s.queues with fq := s.queues.fq.pop }).raise (decodeErrorOf e)) := by
  simp only [stageDecode, hfront, hroom, herr]

/-- A sub-step whose decode stage is fatal ends there (R160, R191). -/
theorem substep_of_stageDecode_fatal {s t : State} (h : stageDecode (stageFetch s) = .fatal t) :
    substep s = .fatal t := by
  rw [substep, beforeCommit, h, SubResult.fatal_andThen, SubResult.fatal_andThen]

/-- Settles O46: decode raises the error before a stage that could commit, and fetch before it touched nothing that
counts. -/
theorem decodeErrorIsFatalAtOnce : Obligations.DecodeErrorIsFatalAtOnce := by
  intro s item rest err hfront hroom herr
  obtain ⟨hfq, hiq, hparams, hsymtab, hregs, hmem, hexecuted, hrob⟩ := stageFetch_unchanged s
  have hdecode := stageDecode_of_error (s := stageFetch s) (hfq.trans hfront) (by rw [hiq, hparams, hroom])
    (by rw [hsymtab, herr])
  refine ⟨_, substep_of_stageDecode_fatal hdecode, ?_, hregs, hmem, hexecuted, hrob⟩
  cases err <;> rfl

end Sys2Proof.Machine
end

section
/-! The arithmetic family: what the six operations of the arithmetic class write, the zero divisor, and the remainder as
an integer (40_arithmetic).  First the end of an instruction that writes a register, then the unit, then the
instructions. -/

namespace Sys2Proof.Machine

/-! ### The end of an instruction -/

/-- The end of an instruction in program order counts it, moves `PC`, tests the halt register and changes nothing else
(R170, R174). -/
theorem State.retire_completes (s : State) (next : Word) : completes next s (s.retire next) := by
  rw [s.retire_eq]
  exact ⟨rfl, rfl, rfl, rfl, rfl, rfl, rfl, rfl, rfl, rfl, rfl, rfl, rfl, rfl, rfl⟩

/-- The end of an instruction that writes a register is that write and the completion of the instruction (R84, R91). -/
theorem State.retireReg_writesRegister (s : State) (r : RegId) (v : Word) :
    writesRegister r v s (s.retireReg r v) := by
  have hself : (s.setReg r v).reg r = v := s.setReg_reg_self r v
  have hothers : sameRegsBut r s (s.setReg r v) := fun _ hq => s.setReg_reg_ne v hq
  have hdone : completes (s.pc + 1) s (s.retireReg r v) := (s.setReg r v).retire_completes (s.pc + 1)
  rw [s.retireReg_eq] at hdone ⊢
  exact ⟨hself, hothers, fun _ => rfl, rfl, hdone⟩

/-- A division that has a result ends by writing it. -/
theorem State.retireDivision_writesRegister (s : State) (r : RegId) {q : Option Word} {v : Word} (h : q = some v) :
    writesRegister r v s (s.retireDivision r q) := by
  rw [h]
  exact s.retireReg_writesRegister r v

/-- A division without a result changes the status only (R92, R192). -/
theorem State.retireDivision_none (s : State) (r : RegId) :
    s.retireDivision r none = { s with status := .fatal .arithmeticFault } := rfl

/-! ### The divisions of the unit -/

theorem toInt_ne_zero {b : Word} (hb : b ≠ 0) : b.toInt ≠ 0 :=
  BitVec.toInt_ne.mpr hb

/-- For an exact quotient it does not matter which way a division rounds (R88). -/
theorem aluDiv_of_ne_zero {b : Word} (a : Word) (hb : b ≠ 0) :
    aluDiv a b =
      some (if b.toInt ∣ a.toInt then wrap (a.toInt / b.toInt) else Config.divInexact a.toInt b.toInt) := by
  rw [aluDiv, if_neg (toInt_ne_zero hb)]
  split
  · next hdvd => rw [Int.tdiv_eq_ediv_of_dvd hdvd]
  · rfl

theorem aluIdiv_of_ne_zero {b : Word} (a : Word) (hb : b ≠ 0) :
    aluIdiv a b = some (wrap (a.toInt.tdiv b.toInt)) :=
  if_neg (toInt_ne_zero hb)

theorem aluMod_of_ne_zero {b : Word} (a : Word) (hb : b ≠ 0) :
    aluMod a b = some (wrap (a.toInt - b.toInt * a.toInt.tdiv b.toInt)) :=
  if_neg (toInt_ne_zero hb)

/-- The truncated remainder of two words needs no reduction: it is their signed remainder (R90, R91). -/
theorem wrap_remainder (a b : Word) : wrap (a.toInt - b.toInt * a.toInt.tdiv b.toInt) = a.srem b := by
  rw [← Int.tmod_def, ← BitVec.toInt_srem, wrap, BitVec.ofInt_toInt]

theorem alu_mod_of_ne_zero {b : Word} (a : Word) (hb : b ≠ 0) : alu .mod a b = .value (a.srem b) := by
  rw [alu, aluMod_of_ne_zero a hb, wrap_remainder]
  rfl

/-- The remainder of the truncating division is zero or has the sign of the dividend. -/
theorem tmod_eq_zero_or_neg_iff (a b : Int) : a.tmod b = 0 ∨ (a.tmod b < 0 ↔ a < 0) := by
  have hsign := Int.sign_tmod a b
  by_cases hdvd : b ∣ a
  · rw [if_pos hdvd] at hsign
    exact .inl (Int.sign_eq_zero_iff_zero.mp hsign)
  · rw [if_neg hdvd] at hsign
    exact .inr (by rw [← Int.sign_eq_neg_one_iff_neg, hsign, Int.sign_eq_neg_one_iff_neg])

/-- Settles O15: the unit's remainder read as an integer is the truncated remainder of the two operands. -/
theorem modIsZeroOrHasTheSignOfTheDividend : Obligations.ModIsZeroOrHasTheSignOfTheDividend := by
  intro a b hb
  refine ⟨a.srem b, alu_mod_of_ne_zero a hb, ?_⟩
  rw [BitVec.toInt_srem]
  refine ⟨?_, tmod_eq_zero_or_neg_iff _ _, (Int.mul_tdiv_add_tmod _ _).symm⟩
  rw [Int.natAbs_tmod]
  exact Nat.mod_lt _ (Int.natAbs_pos.mpr (toInt_ne_zero hb))

/-! ### The instructions -/

theorem exec_div (rd rs rt : RegId) (s : State) :
    exec (.div rd rs rt) s = .next (s.retireDivision rd (aluDiv (s.reg rs) (s.reg rt))) := rfl

theorem exec_idiv (rd rs rt : RegId) (s : State) :
    exec (.idiv rd rs rt) s = .next (s.retireDivision rd (aluIdiv (s.reg rs) (s.reg rt))) := rfl

theorem exec_mod (rd rs rt : RegId) (s : State) :
    exec (.mod rd rs rt) s = .next (s.retireDivision rd (aluMod (s.reg rs) (s.reg rt))) := rfl

/-- Settles O8: `add` ends by writing the unit's sum. -/
theorem addWritesWrappedSum : Obligations.AddWritesWrappedSum := fun rd rs rt s =>
  ⟨_, rfl, s.retireReg_writesRegister rd (aluAdd (s.reg rs) (s.reg rt))⟩

/-- Settles O9: `sub` ends by writing the unit's difference. -/
theorem subWritesWrappedDifference : Obligations.SubWritesWrappedDifference := fun rd rs rt s =>
  ⟨_, rfl, s.retireReg_writesRegister rd (aluSub (s.reg rs) (s.reg rt))⟩

/-- Settles O10: `mul` ends by writing the unit's product. -/
theorem mulWritesWrappedProduct : Obligations.MulWritesWrappedProduct := fun rd rs rt s =>
  ⟨_, rfl, s.retireReg_writesRegister rd (aluMul (s.reg rs) (s.reg rt))⟩

/-- Settles O11: for a divisor that is not zero the unit has the quotient or the open value. -/
theorem divWritesExactQuotientOrOpenValue : Obligations.DivWritesExactQuotientOrOpenValue := fun rd rs rt s hb =>
  ⟨_, exec_div rd rs rt s, s.retireDivision_writesRegister rd (aluDiv_of_ne_zero (s.reg rs) hb)⟩

/-- Settles O12: for a divisor that is not zero the unit has the truncated quotient. -/
theorem idivWritesTruncatedQuotient : Obligations.IdivWritesTruncatedQuotient := fun rd rs rt s hb =>
  ⟨_, exec_idiv rd rs rt s, s.retireDivision_writesRegister rd (aluIdiv_of_ne_zero (s.reg rs) hb)⟩

/-- Settles O13: for a divisor that is not zero the unit has the remainder. -/
theorem modWritesTruncatedRemainder : Obligations.ModWritesTruncatedRemainder := fun rd rs rt s hb =>
  ⟨_, exec_mod rd rs rt s, s.retireDivision_writesRegister rd (aluMod_of_ne_zero (s.reg rs) hb)⟩

/-- Settles O14: for a zero divisor the unit has no quotient and no remainder. -/
theorem divisionByZeroRaisesAndWritesNothing : Obligations.DivisionByZeroRaisesAndWritesNothing := by
  intro rd rs rt s h0
  have hb : (s.reg rt).toInt = 0 := by rw [h0]; rfl
  rw [exec_div, exec_idiv, exec_mod, aluDiv_eq_none.mpr hb, aluIdiv_eq_none.mpr hb, aluMod_eq_none.mpr hb,
    s.retireDivision_none]
  exact ⟨rfl, rfl, rfl⟩

end Sys2Proof.Machine
end

section
/-! The immediate-arithmetic family: what `addi` writes (41_immediate). -/

namespace Sys2Proof.Machine

/-- `addi` is the unit's `add` of the source and the immediate, written to the destination (R93, R126). -/
theorem exec_addi (rt rs : RegId) (imm : Word) (s : State) :
    exec (.addi rt rs imm) s = .next (s.retireReg rt (aluAdd (s.reg rs) imm)) := rfl

/-- Settles O16: `addi` ends by writing the unit's sum of the source and the immediate as decoded. -/
theorem addiWritesWrappedSum : Obligations.AddiWritesWrappedSum := fun rt rs imm s =>
  ⟨_, exec_addi rt rs imm s, s.retireReg_writesRegister rt (aluAdd (s.reg rs) imm)⟩

end Sys2Proof.Machine
end

section
/-! The load-store family: what `lw` and `sw` do at an address inside memory (42_loadstore). -/

namespace Sys2Proof.Machine

/-! ### The effective address and the end of a store -/

/-- An effective address inside memory names the cell of its own number (R44, R45, R95). -/
theorem cellOf_effAddr {memSize : Nat} {base imm : Word} (hnonneg : 0 ≤ (wrap (base.toInt + imm.toInt)).toInt)
    (hlt : (wrap (base.toInt + imm.toInt)).toInt < memSize) :
    cellOf memSize (effAddr base imm) = some (effAddr base imm).toNat :=
  cellOf_eq_some.mpr ⟨hnonneg, hlt, rfl⟩

/-- The end of an instruction that writes a cell is that write and the completion of the instruction. -/
theorem State.retire_withMem_writesCell {s : State} (hwf : s.mem.wf) (k : Nat) (v : Word) :
    writesCell k v s ((s.withMem (s.mem.write k v)).retire (s.pc + 1)) := by
  have hself : (s.mem.write k v).read k = v := Memory.read_write_self hwf k v
  have hothers : sameCellsBut k s (s.withMem (s.mem.write k v)) := fun _ ha => Memory.read_write_ne s.mem v ha
  have hdone : completes (s.pc + 1) s ((s.withMem (s.mem.write k v)).retire (s.pc + 1)) :=
    (s.withMem (s.mem.write k v)).retire_completes (s.pc + 1)
  rw [State.retire_eq] at hdone ⊢
  exact ⟨hself, hothers, fun _ => rfl, rfl, hdone⟩

/-! ### The instructions -/

/-- A load at an address that names a cell ends by writing what the cell reads to the destination (R96). -/
theorem exec_lw_of_cell {s : State} {imm : Word} {rs : RegId} {k : Nat} (rt : RegId)
    (h : cellOf s.params.memSize (effAddr (s.reg rs) imm) = some k) :
    exec (.lw rt imm rs) s = .next (s.retireReg rt (s.mem.read k)) := by
  rw [exec, execLw, s.loadCell_eq_some.mpr ⟨k, h, rfl⟩]

/-- A store at an address that names a cell ends with the register written to the cell (R97). -/
theorem exec_sw_of_cell {s : State} {imm : Word} {rs : RegId} {k : Nat} (rt : RegId)
    (h : cellOf s.params.memSize (effAddr (s.reg rs) imm) = some k) :
    exec (.sw rt imm rs) s = .next ((s.withMem (s.mem.write k (s.reg rt))).retire (s.pc + 1)) := by
  rw [exec, execSw, s.storeCell_eq_some.mpr ⟨k, h, rfl⟩]

/-- Settles O19: the address names a cell, and `lw` ends by writing what that cell reads. -/
theorem lwLoadsTheCell : Obligations.LwLoadsTheCell := fun rt _ _ s hnonneg hlt =>
  ⟨_, exec_lw_of_cell rt (cellOf_effAddr hnonneg hlt), s.retireReg_writesRegister rt _, rfl⟩

/-- Settles O20: the address names a cell, and `sw` ends with the register written to that cell of a canonical
memory. -/
theorem swStoresTheRegister : Obligations.SwStoresTheRegister := fun rt _ _ s hwf hnonneg hlt =>
  ⟨_, exec_sw_of_cell rt (cellOf_effAddr hnonneg hlt), State.retire_withMem_writesCell hwf _ (s.reg rt), rfl⟩

end Sys2Proof.Machine
end

section
/-! The control family: where `beq` and `j` go on, and what the predictor makes of it (43_control). -/

namespace Sys2Proof.Machine

/-! ### The outcome of a branch or jump -/

/-- The correct next pc of a result that is the numeric form of a boolean (R126, R154). -/
theorem correctNext_truthWord (pc rpc : Word) (taken : Bool) :
    correctNext pc rpc (truthWord taken) = if taken then rpc else pc + 1 := by
  rw [correctNext, takenOf_truthWord]

/-- The condition of `beq` is the equality of its operands (R100). -/
theorem beqTaken_iff {a b : Word} : beqTaken a b = true ↔ a = b := beq_iff_eq

/-- The end of a branch or jump writes no register and no cell, leaves the predictor as its check does, and completes
the instruction at the correct next pc (R102, R154). -/
theorem State.retireBranch_completes (s : State) (target result : Word) :
    completes (correctNext s.pc target result) s (s.retireBranch target result) ∧
      sameRegs s (s.retireBranch target result) ∧ sameCells s (s.retireBranch target result) ∧
        (s.retireBranch target result).pred = (s.pred.check s.cfgPolicy s.pc target result).pred := by
  have hdone : completes (correctNext s.pc target result) s (s.retireBranch target result) := by
    rw [State.retireBranch, Predictor.check_correct]
    exact (s.withPred (s.pred.check s.cfgPolicy s.pc target result).pred).retire_completes _
  rw [State.retireBranch, State.retire_eq] at hdone ⊢
  exact ⟨hdone, fun _ => rfl, fun _ => rfl, rfl⟩

/-! ### The instructions -/

/-- `beq` ends as a branch whose result is the numeric form of its condition (R100, R126). -/
theorem exec_beq (rs rt : RegId) (target : Word) (s : State) :
    exec (.beq rs rt target) s = .next (s.retireBranch target (truthWord (beqTaken (s.reg rs) (s.reg rt)))) := rfl

/-- `j` ends as a branch that is always taken (R101). -/
theorem exec_j (target : Word) (s : State) : exec (.j target) s = .next (s.retireBranch target (truthWord true)) := rfl

/-- Settles O22: `beq` ends as a branch, and its condition says both where that branch goes on and which result the
predictor checks. -/
theorem beqContinuesAtTargetOrNext : Obligations.BeqContinuesAtTargetOrNext := by
  intro rs rt target s
  have hnext : correctNext s.pc target (truthWord (beqTaken (s.reg rs) (s.reg rt))) =
      if s.reg rs = s.reg rt then target else s.pc + 1 := by
    simp only [correctNext_truthWord, beqTaken_iff]
  have hresult : truthWord (beqTaken (s.reg rs) (s.reg rt)) = if s.reg rs = s.reg rt then 1 else 0 := by
    simp only [truthWord, beqTaken_iff]
  refine ⟨_, exec_beq rs rt target s, ?_⟩
  rw [← hnext, ← hresult]
  exact s.retireBranch_completes target _

/-- Settles O23: `j` ends as a branch whose result is taken. -/
theorem jumpContinuesAtTarget : Obligations.JumpContinuesAtTarget := fun target s =>
  ⟨_, exec_j target s, s.retireBranch_completes target (truthWord true)⟩

end Sys2Proof.Machine
end

section
/-! The renaming family: the operand read, the register part of commit, issue and its stalls, the flush, and the order in
which slots are consumed (50_rename_rob). -/

namespace Sys2Proof.Machine

/-! ### The operand read -/

/-- An unmapped register reads its committed value (R104). -/
theorem State.readOperand_of_unmapped {s : State} {r : RegId} (h : s.alias? r = none) :
    s.readOperand r = .val (s.reg r) := by
  rw [State.readOperand, h]

/-- A mapped register reads the value of its slot, and the slot as a tag while there is none (R104). -/
theorem State.readOperand_of_mapped {s : State} {r : RegId} {slot : Nat} (h : s.alias? r = some slot) :
    s.readOperand r = ((s.rob.doneValue? slot).map .val).getD (.tag slot) := by
  simp only [State.readOperand, h]
  cases s.rob.doneValue? slot <;> rfl

/-- A slot has a value once its entry is complete (R104, R113). -/
theorem Rob.doneValue?_of_entry {b : Rob} {slot : Nat} {e : RobEntry} (h : b.entry? slot = some e) :
    b.doneValue? slot = if e.done then e.result else none := by
  rw [Rob.doneValue?, h]

/-- Settles O29: the mapping decides between the register and the slot, and the slot's completion between its result
and its tag. -/
theorem operandReadGoesThroughTheRat : Obligations.OperandReadGoesThroughTheRat := by
  refine fun s r => ⟨State.readOperand_of_unmapped, fun slot e hmap he => ⟨fun v hdone hv => ?_, fun hdone => ?_⟩⟩
  all_goals rw [State.readOperand_of_mapped hmap, Rob.doneValue?_of_entry he, hdone]
  · rw [if_pos rfl, hv]
    rfl
  · rfl

/-! ### The register part of commit -/

/-- Settles O30: what the register part of commit leaves in each register and each mapping. -/
theorem commitClearsOnlyItsOwnMapping : Obligations.CommitClearsOnlyItsOwnMapping := by
  intro s r v slot
  have hreg := s.commitReg_reg (some r) v slot
  have hmap := s.commitReg_alias (some r) v slot
  refine ⟨?_, fun q hq => ?_, fun h => ?_, fun h => ?_, fun q hq => ?_, rfl⟩
  · rw [hreg, if_pos rfl]
  · rw [hreg, if_neg fun h => hq (Option.some.inj h).symm]
  · rw [hmap, if_pos ⟨rfl, h⟩]
  · rw [hmap, if_neg fun hc => h hc.2]
  · rw [hmap, if_neg fun hc => hq (Option.some.inj hc.1).symm]

/-! ### Stalls of issue -/

/-- A blocked instruction at the front of `IQ` stays there (R163, R185). -/
theorem stageIssue_of_blocked {s : State} {item : IssueItem} {rest : List IssueItem}
    (hfront : s.queues.iq.visible = item :: rest) (h : s.issueBlocked item.instr.cls = true) : stageIssue s = s := by
  simp only [stageIssue, hfront, h, if_true]

/-- What blocks an instruction of a class: a full ROB, and the structure its class needs (R109, R119, R130, R163). -/
theorem State.issueBlocked_iff (s : State) (c : OpClass) : s.issueBlocked c = true ↔
    s.rob.count = s.params.robSize ∨
      (c ∈ [OpClass.load, OpClass.store] ∧ s.lsq.entries.length = s.params.lsqSize) ∨
        (c ∉ [OpClass.load, OpClass.store] ∧ ∀ x ∈ s.rs, x ≠ none) := by
  cases c <;>
    simp [State.issueBlocked, Rob.full, Lsq.full, Lsq.count, Stations.full, Option.isSome_iff_ne_none]

/-- Settles O32: each of the three full structures blocks the classes that need it. -/
theorem fullStructureStallsIssue : Obligations.FullStructureStallsIssue := by
  intro s item rest hfront hfull
  refine stageIssue_of_blocked hfront ((s.issueBlocked_iff _).mpr ?_)
  rcases hfull with hrob | hlsq | ⟨hc, hrs⟩
  · exact .inl hrob
  · exact .inr (.inl hlsq)
  · refine .inr (.inr ⟨fun hmem => ?_, hrs⟩)
    cases hk : item.instr.cls <;> simp [hk] at hc hmem

/-! ### Issue -/

theorem addrOfBase_eq_issueAddress (base : Operand) (imm : Word) : addrOfBase base imm = issueAddress base imm := by
  cases base <;> rfl

/-- The entry issue appends to the LSQ is the one of R131 and R132. -/
theorem State.lsqEntryOf_eq_queuedEntry (s : State) (i : Instr) (slot : Nat) :
    s.lsqEntryOf i slot = queuedEntry s.readOperand slot s.lsq.nextSeq i := by
  cases i with
  | lw | sw => simp only [State.lsqEntryOf, queuedEntry, addrOfBase_eq_issueAddress]
  | add | sub | mul | div | idiv | mod | addi | beq | j => rfl

/-- The entry issue puts into a station has the operands of the table of R120. -/
theorem State.rsEntryOf_of_stationOperands {s : State} {i : Instr} {o1 o2 : Operand}
    (h : stationOperands s.readOperand i = some (o1, o2)) (slot : Nat) : s.rsEntryOf i slot = ⟨slot, i.op, o1, o2⟩ := by
  cases i with
  | lw | sw => cases h
  | add | sub | mul | div | idiv | mod | addi | beq | j =>
    cases h
    rfl

/-- The LSQ opcode of an instruction that has an LSQ entry (R33, R163). -/
def memOpOf : Op → Option MemOp
  | .lw => some .lw
  | .sw => some .sw
  | .add | .sub | .mul | .div | .idiv | .mod | .addi | .beq | .j => none

/-- A load or store is queued in the LSQ, unsent, for its slot and with its opcode; an instruction of any other class
waits in a station (R131, R132, R163). -/
theorem stationOperands_or_queuedEntry (read : RegId → Operand) (slot seq : Nat) (i : Instr) :
    (i.cls ∉ [OpClass.load, OpClass.store] ∧ memOpOf i.op = none ∧
      ∃ o1 o2, stationOperands read i = some (o1, o2)) ∨
      (stationOperands read i = none ∧
        ∃ e, queuedEntry read slot seq i = some e ∧ memOpOf i.op = some e.op ∧ e.tag = slot ∧ e.disp = false) := by
  cases i with
  | lw | sw => exact .inr ⟨rfl, _, rfl, rfl, rfl, rfl⟩
  | add | sub | mul | div | idiv | mod | addi | beq | j =>
    exact .inl ⟨by simp [Instr.cls, Instr.op, Op.cls], rfl, _, _, rfl⟩

/-- The lowest free station takes the entry (R121). -/
theorem Stations.add_eq_set {p : Stations} (h : ∃ x ∈ p, x = none) (e : RsEntry) :
    ∃ k, p[k]? = some none ∧ (∀ j, j < k → p[j]? ≠ some none) ∧ Stations.add p e = p.set k (some e) := by
  induction p with
  | nil => simp at h
  | cons x rest ih =>
    cases x with
    | none => exact ⟨0, rfl, nofun, rfl⟩
    | some o =>
      obtain ⟨k, hk, hlow, hset⟩ := ih (by simpa using h)
      refine ⟨k + 1, hk, fun j hj => ?_, by rw [Stations.add, hset, List.set_cons_succ]⟩
      cases j with
      | zero => simp
      | succ j => exact hlow j (by omega)

section
variable {s : State} {i : Instr} {pc : Word}

/-- An instruction with an RS entry takes a station and leaves the LSQ (R163). -/
theorem State.issue_of_station {o1 o2 : Operand}
    (h : stationOperands (s.withRob (s.rob.add s.params.robSize i pc)).readOperand i = some (o1, o2)) :
    (s.issue i pc).lsq = s.lsq ∧ (s.issue i pc).rs = Stations.add s.rs ⟨s.rob.tail, i.op, o1, o2⟩ := by
  have hnone : (s.withRob (s.rob.add s.params.robSize i pc)).lsqEntryOf i s.rob.tail = none := by
    cases i with
    | lw | sw => cases h
    | add | sub | mul | div | idiv | mod | addi | beq | j => rfl
  simp only [State.issue, hnone, State.rsEntryOf_of_stationOperands h]
  cases i.dest <;> exact ⟨rfl, rfl⟩

/-- A load or store is appended to the LSQ and leaves the stations (R163). -/
theorem State.issue_of_queued {e : LsqEntry}
    (h : queuedEntry (s.withRob (s.rob.add s.params.robSize i pc)).readOperand s.rob.tail s.lsq.nextSeq i = some e) :
    (s.issue i pc).rs = s.rs ∧ (s.issue i pc).lsq = s.lsq.add s.params.lsqSize e := by
  have hsome := ((s.withRob (s.rob.add s.params.robSize i pc)).lsqEntryOf_eq_queuedEntry i s.rob.tail).trans h
  simp only [State.issue, hsome]
  cases i.dest <;> exact ⟨rfl, rfl⟩

/-- Issue maps the destination, if any, to the slot allocated, and no other register (R105). -/
theorem State.issue_alias (s : State) (i : Instr) (pc : Word) (r : RegId) :
    (s.issue i pc).alias? r = if i.dest = some r then some s.rob.tail else s.alias? r := by
  obtain ⟨lsq', rs', rat', hi, -, ⟨hd, rfl⟩ | ⟨d, hd, rfl⟩⟩ := s.issue_cases i pc
  · rw [hi, hd, if_neg nofun]
    rfl
  · have hmap := s.remap_alias d r s.rob.tail
    rw [hi, hd]
    refine (State.alias?_congr rfl r).trans (hmap.trans ?_)
    simp only [Option.some.injEq, eq_comm]

/-- Issue changes the ROB as `ROB.add` does, at most the LSQ, the stations and the alias table, and nothing else
(R163). -/
theorem State.issue_frame (s : State) (i : Instr) (pc : Word) :
    let t := s.issue i pc
    t.rob = s.rob.add s.params.robSize i pc ∧ t.queues = s.queues ∧ t.regs = s.regs ∧ t.mem = s.mem ∧ t.pc = s.pc ∧
      t.status = s.status ∧ t.pred = s.pred ∧ t.executed = s.executed ∧ t.cycles = s.cycles ∧ t.params = s.params ∧
        t.prog = s.prog ∧ t.symtab = s.symtab ∧ t.cfgPolicy = s.cfgPolicy ∧ t.cfgWidth = s.cfgWidth ∧
          t.poisonSeq = s.poisonSeq := by
  obtain ⟨lsq', rs', rat', hi, -, -⟩ := s.issue_cases i pc
  simp [hi]

end

/-- A ROB entry has a destination for the classes that write a register, and the target of a branch or jump as its
recovery pc (R111, R112). -/
theorem robEntryOf_fields (i : Instr) (pc : Word) :
    (robEntryOf i pc).dest = (if i.cls ∈ [OpClass.arith, OpClass.imm, OpClass.load] then i.dest else none) ∧
      (i.cls ∈ [OpClass.branch, OpClass.jump] → i.imm = some (robEntryOf i pc).rpc) ∧
        (i.cls ∉ [OpClass.branch, OpClass.jump] → (robEntryOf i pc).rpc = pc + 1) := by
  cases i <;> simp [robEntryOf, recoveryPc, Instr.cls, Instr.op, Op.cls, Instr.dest, Instr.imm]

/-- Issue takes the front of `IQ` if nothing blocks it (R163). -/
theorem stageIssue_of_not_blocked {s : State} {item : IssueItem} {rest : List IssueItem}
    (hfront : s.queues.iq.visible = item :: rest) (h : s.issueBlocked item.instr.cls = false) :
    stageIssue s =
      (s.withQueues { s.queues with iq := { s.queues.iq with visible := rest } }).issue item.instr item.pc := by
  have hpop : s.queues.iq.pop = { s.queues.iq with visible := rest } := by rw [Fifo.pop, hfront, List.tail_cons]
  simp only [stageIssue, hfront, h, hpop]
  rfl

/-- Settles O31: the stage is the issue of the front of `IQ`, whose frame, mapping and two structures are described one
by one. -/
theorem issueAllocatesTheTailSlot : Obligations.IssueAllocatesTheTailSlot := by
  intro s item rest hfront htail hrob hlsq hrs i slot t read
  have hfree : s.issueBlocked i.cls = false := by
    rw [Bool.eq_false_iff, ne_eq, s.issueBlocked_iff]
    rintro (h | ⟨hc, h⟩ | ⟨hc, h⟩)
    · exact hrob h
    · exact hlsq hc h
    · obtain ⟨x, hx, hnone⟩ := hrs hc
      exact h x hx hnone
  have ht : t = _ := stageIssue_of_not_blocked hfront hfree
  generalize ({ s.queues with iq := { s.queues.iq with visible := rest } } : Queues) = q at ht
  have hstation (o1 o2 : Operand) (h : stationOperands read i = some (o1, o2)) : t.lsq = s.lsq ∧
      ∃ k, s.rs[k]? = some none ∧ (∀ j, j < k → s.rs[j]? ≠ some none) ∧
        t.rs = s.rs.set k (some ⟨slot, i.op, o1, o2⟩) := by
    obtain ⟨hkept, hadded⟩ := State.issue_of_station (s := s.withQueues q) (pc := item.pc) h
    rcases stationOperands_or_queuedEntry read slot 0 i with ⟨hc, -, -⟩ | ⟨hnone, -⟩
    · obtain ⟨k, hk, hlow, hset⟩ := Stations.add_eq_set (hrs hc) ⟨slot, i.op, o1, o2⟩
      rw [ht]
      exact ⟨hkept, k, hk, hlow, hadded.trans hset⟩
    · cases hnone.symm.trans h
  have hqueued (e : LsqEntry) (h : queuedEntry read slot s.lsq.nextSeq i = some e) :
      t.rs = s.rs ∧ t.lsq = s.lsq.add s.params.lsqSize e := by
    rw [ht]
    exact State.issue_of_queued (s := s.withQueues q) (pc := item.pc) h
  have halias (r : RegId) : t.alias? r = if i.dest = some r then some slot else s.alias? r := by
    rw [ht]
    exact (s.withQueues q).issue_alias i item.pc r
  obtain ⟨hrobAdded, hqueues, hframe⟩ := (s.withQueues q).issue_frame i item.pc
  rw [← ht] at hrobAdded hqueues hframe
  obtain ⟨hregs, hmem, hpc, hstatus, hpred, hexecuted, hcycles, hparams, hprog, hsymtab, hpolicy, hwidth, hpoison⟩ :=
    hframe
  have hentry (k : Nat) : t.rob.entry? k = if k = slot then some (robEntryOf i item.pc) else s.rob.entry? k := by
    rw [hrobAdded]
    exact Rob.add_entry? _ s.rob i item.pc k htail
  obtain ⟨hdest, htarget, hnext⟩ := robEntryOf_fields i item.pc
  refine ⟨hqueues, ⟨robEntryOf i item.pc, ?_, rfl, hdest, rfl, htarget, hnext, rfl, rfl, rfl⟩, ?_,
    by rw [hrobAdded]; rfl, by rw [hrobAdded]; rfl, by rw [hrobAdded]; rfl, hstation, ?_, halias, hregs, hmem,
    hpc, hstatus, hpred, hexecuted, hcycles, hparams, hprog, hsymtab, hpolicy, hwidth, hpoison⟩
  · rw [hentry, if_pos rfl]
  · exact fun k hk => by rw [hentry, if_neg hk]
  · intro e he
    obtain ⟨hkept, hadded⟩ := hqueued e he
    rw [hadded]
    exact ⟨hkept, rfl, rfl, rfl, rfl⟩

/-! ### The flush -/

/-- A flush leaves the committed state, the predictor and the counters (R169). -/
theorem State.flush_kept (s : State) (correct : Word) :
    (s.flush correct).pc = correct ∧ (s.flush correct).regs = s.regs ∧ (s.flush correct).mem = s.mem ∧
      (s.flush correct).pred = s.pred ∧ (s.flush correct).executed = s.executed ∧
        (s.flush correct).cycles = s.cycles ∧ (s.flush correct).status = s.status := by
  simp [s.flush_eq]

/-- Settles O44: each structure is emptied by its own clearing operation, and the committed state is not touched. -/
theorem flushDiscardsAllSpeculation : Obligations.FlushDiscardsAllSpeculation := by
  intro s correct t
  have hmap (r : RegId) : t.alias? r = none := by simp [t, State.alias?, emptyRat]
  have hrs : ∀ x ∈ t.rs, x = none := by simp [t, Stations.clear]
  have hrob : t.rob = s.rob.clearOnFlush s.params.robSize := s.flush_rob correct
  have hlsq : t.lsq = s.lsq.clear := s.flush_lsq correct
  obtain ⟨hpc, hregs, hmem, hpred, hexecuted, hcycles, hstatus⟩ := s.flush_kept correct
  rw [hrob, hlsq]
  exact ⟨hmap, s.flush_queues correct, hrs, rfl, rfl, Rob.clearOnFlush_entry? _ s.rob, rfl, rfl, hpc, hregs, hmem,
    hpred, hexecuted, hcycles, rfl, rfl, rfl, hstatus⟩

/-! ### Consumption of slots -/

/-- What the consumption of a slot is told by: the ROB's head and size, and the count (R117, R174). -/
def State.consumption (s : State) : Params × Nat × Nat := (s.params, s.executed, s.rob.head)

theorem State.consumption_eq_iff {s t : State} : t.consumption = s.consumption ↔
    t.params = s.params ∧ t.executed = s.executed ∧ t.rob.head = s.rob.head := by
  simp only [State.consumption, Prod.mk.injEq]

theorem consumption_ignoresFlow (c : Params × Nat × Nat) : IgnoresFlow fun s => s.consumption = c where
  withPc _ _ h := h
  withRs _ _ h := h
  withLsq _ _ h := h
  withQueues _ _ h := h
  withPred _ _ h := h
  withPoisonSeq _ _ h := h
  raise _ _ h := h

/-- Issue allocates at the tail (R110). -/
theorem stageIssue_consumption (s : State) : (stageIssue s).consumption = s.consumption := by
  rcases stageIssue_cases s with ⟨item, rest, -, -, h⟩ | h <;> rw [h]
  obtain ⟨lsq', rs', rat', hi, -, -⟩ :=
    State.issue_cases (s.withQueues { s.queues with iq := s.queues.iq.pop }) item.instr item.pc
  rw [hi]
  rfl

/-- Writeback completes a slot in place (R113). -/
theorem stageWriteback_consumption (s : State) : (stageWriteback s).consumption = s.consumption := by
  rcases stageWriteback_cases s with ⟨item, rest, -, h⟩ | h <;> rw [h]
  simp [State.consumption]

/-- The commit stage sees the head and the count the sub-step began with (R160). -/
theorem beforeCommit_consumption (s : State) : (beforeCommit s).all fun u => u.consumption = s.consumption :=
  have hF := consumption_ignoresFlow s.consumption
  beforeCommit_keeps (P := fun u => u.consumption = s.consumption) (fun _ => hF.stageFetch) (fun _ => hF.stageDecode)
    (fun u h => (stageIssue_consumption u).trans h) (fun _ => hF.stageDispatch) (fun _ => hF.stageExecute)
    (fun _ => hF.stageMemory) (fun u h => (stageWriteback_consumption u).trans h) rfl

/-- `t` is where `s` was, or one slot and one instruction further (R117, R174). -/
def consumesInSequence (s t : State) : Prop :=
  (t.executed = s.executed ∧ t.rob.head = s.rob.head) ∨
    (t.executed = s.executed + 1 ∧ t.rob.head = (s.rob.head + 1) % s.params.robSize)

theorem consumesInSequence.congr {s t u : State} (h : consumesInSequence u t) (hu : u.consumption = s.consumption) :
    consumesInSequence s t := by
  obtain ⟨hparams, hexecuted, hhead⟩ := State.consumption_eq_iff.mp hu
  rwa [consumesInSequence, hparams, hexecuted, hhead] at h

/-- The common part of commit frees the head slot and counts (R115, R174). -/
theorem finishCommit_consumesInSequence {s u : State} (e : RobEntry) (v : Word) (hu : u.consumption = s.consumption) :
    (u.finishCommit e v).all (consumesInSequence s) :=
  State.finishCommit_all (fun _ h => h) (consumesInSequence.congr (.inr ⟨rfl, rfl⟩) hu)

theorem stageCommit_consumesInSequence (s : State) : (stageCommit s).all (consumesInSequence s) :=
  stageCommit_all (.inl ⟨rfl, rfl⟩) (fun _ => .inl ⟨rfl, rfl⟩) (fun _ _ => .inr ⟨rfl, rfl⟩)
    (fun e v _ _ _ => finishCommit_consumesInSequence e v rfl)
    (fun e v _ _ _ => finishCommit_consumesInSequence e v rfl)
    fun e _ v _ _ _ _ _ => finishCommit_consumesInSequence e v rfl

/-- Settles O33: only the commit stage moves the head or counts, and it does both or neither. -/
theorem slotsAreConsumedInSequence : Obligations.SlotsAreConsumedInSequence := by
  intro s
  have ended (u : State) (hu : consumesInSequence s u) : (endOfSubstep u).all (consumesInSequence s) := by
    rcases endOfSubstep_cases u with h | ⟨-, -, h⟩ <;> rw [h] <;> exact hu
  refine SubResult.all_andThen (beforeCommit_consumption s) (fun u hu => ?_) fun u hu => ?_
  · exact SubResult.all_andThen ((stageCommit_consumesInSequence u).mono fun _ h => h.congr hu) ended fun _ => id
  · exact consumesInSequence.congr (.inl ⟨rfl, rfl⟩) hu

end Sys2Proof.Machine
end

section
/-! The assertions of the model (50_rename_rob, 52_lsq): no run fails one.  The invariant behind it ties what is in
flight to the ROB: the LSQ holds the memory instructions of the live slots in their order, and each slot that is not
complete is carried by at most one station, queue item or unsent LSQ entry, which is what will complete it.  First what
the operations do to the parts of the invariant, then the stages, then runs. -/

namespace Sys2Proof.Machine

/-! ### Reorder buffer: slots that wait for a result, and the memory instructions in order -/

/-- The slot holds an entry that is not complete (R30, R113). -/
def Rob.awaits (b : Rob) (slot : Nat) : Bool := (b.entry? slot).any fun e => !e.done

theorem Rob.awaits_of_done {b : Rob} {slot : Nat} {e : RobEntry} (he : b.entry? slot = some e) (hd : e.done = true) :
    b.awaits slot = false := by
  simp [Rob.awaits, he, hd]

/-- An allocated slot waits for its result (R110). -/
theorem Rob.awaits_add {n : Nat} {b : Rob} (i : Instr) (pc : Word) (h : b.tail < b.slots.length) (slot : Nat) :
    (b.add n i pc).awaits slot = if slot = b.tail then true else b.awaits slot := by
  rw [Rob.awaits, Rob.add_entry? n b i pc slot h]
  split <;> rfl

/-- A completed slot waits no longer (R113). -/
theorem Rob.awaits_complete (b : Rob) (t : Nat) (v : Word) (f : Option SlotFault) (slot : Nat) :
    (b.complete t v f).awaits slot = if slot = t then false else b.awaits slot := by
  rw [Rob.awaits, Rob.awaits, Rob.complete_entry?]
  by_cases h : slot = t <;> cases b.entry? slot <;> simp [h]

/-- Freeing a complete head leaves the slots that wait (R115). -/
theorem Rob.awaits_free {b : Rob} (h : b.awaits b.head = false) (n slot : Nat) :
    (b.free n).awaits slot = b.awaits slot := by
  rw [Rob.awaits, Rob.free_entry?]
  split
  · rename_i hslot
    rw [hslot, h]
    rfl
  · rfl

/-- Every complete slot has a result (R113). -/
def Rob.resultsPresent (b : Rob) : Prop := ∀ slot e, b.entry? slot = some e → e.done = true → e.result ≠ none

theorem Rob.resultsPresent.add {n : Nat} {b : Rob} (h : b.resultsPresent) (i : Instr) (pc : Word)
    (htail : b.tail < b.slots.length) : (b.add n i pc).resultsPresent := by
  intro slot e he hd
  rw [Rob.add_entry? n b i pc slot htail] at he
  split at he
  · cases he
    cases hd
  · exact h slot e he hd

theorem Rob.resultsPresent.complete {b : Rob} (h : b.resultsPresent) (t : Nat) (v : Word) (f : Option SlotFault) :
    (b.complete t v f).resultsPresent := by
  intro slot e he hd
  rw [Rob.complete_entry?, Option.map_eq_some_iff] at he
  obtain ⟨e', he', rfl⟩ := he
  by_cases hslot : slot = t
  · simp [hslot]
  · simp only [hslot, if_false] at hd ⊢
    exact h slot e' he' hd

theorem Rob.resultsPresent.free {b : Rob} (h : b.resultsPresent) (n : Nat) : (b.free n).resultsPresent := by
  intro slot e he hd
  rw [Rob.free_entry?] at he
  split at he
  · cases he
  · exact h slot e he hd

/-- The slot and the opcode of the memory instruction in a slot, if it holds one. -/
def Rob.memoryKey? (b : Rob) (slot : Nat) : Option (Nat × MemOp) :=
  (b.entry? slot).bind fun e => (memOpOf e.op).map fun op => (slot, op)

/-- The memory instructions of the live slots from the head on, oldest first. -/
def Rob.memoryKeys (n : Nat) (b : Rob) : List (Nat × MemOp) :=
  (List.range b.count).filterMap fun k => b.memoryKey? ((b.head + k) % n)

theorem Rob.memoryKey?_of_entry {b : Rob} {slot : Nat} {e : RobEntry} (h : b.entry? slot = some e) :
    b.memoryKey? slot = (memOpOf e.op).map fun op => (slot, op) := by
  rw [Rob.memoryKey?, h, Option.bind_some]

/-- An allocated memory instruction is the youngest (R110). -/
theorem Rob.memoryKeys_add {s : State} (h : robShape s) (hroom : s.rob.count ≠ s.params.robSize) (i : Instr)
    (pc : Word) : (s.rob.add s.params.robSize i pc).memoryKeys s.params.robSize =
      s.rob.memoryKeys s.params.robSize ++ ((memOpOf i.op).map fun op => (s.rob.tail, op)).toList := by
  have htl := h.tail_lt
  obtain ⟨-, -, hcount, htail, -⟩ := h
  have hkey (slot : Nat) : (s.rob.add s.params.robSize i pc).memoryKey? slot =
      if slot = s.rob.tail then (memOpOf i.op).map fun op => (slot, op) else s.rob.memoryKey? slot := by
    rw [Rob.memoryKey?, Rob.add_entry? _ _ _ _ _ htl]
    split <;> rfl
  have old (k : Nat) (hk : k ∈ List.range s.rob.count) : (s.rob.head + k) % s.params.robSize ≠ s.rob.tail := by
    intro he
    have hlt := List.mem_range.mp hk
    have := slot_inj (by omega) (by omega) (he.trans htail)
    omega
  rw [Rob.memoryKeys, Rob.add_count, Rob.add_head, List.range_succ, List.filterMap_append]
  congr 1
  · exact List.filterMap_congr fun k hk => by rw [hkey, if_neg (old k hk)]
  · rw [List.filterMap_cons, hkey, ← htail, if_pos rfl]
    cases memOpOf i.op <;> rfl

/-- Completing a slot changes no opcode (R113). -/
theorem Rob.memoryKeys_complete (n : Nat) (b : Rob) (t : Nat) (v : Word) (f : Option SlotFault) :
    (b.complete t v f).memoryKeys n = b.memoryKeys n := by
  rw [Rob.memoryKeys, Rob.complete_count, Rob.complete_head]
  refine List.filterMap_congr fun k _ => ?_
  rw [Rob.memoryKey?, Rob.memoryKey?, Rob.complete_entry?]
  cases b.entry? ((b.head + k) % n) with
  | none => rfl
  | some e => by_cases h : (b.head + k) % n = t <;> simp [h]

/-- What the head slot holds comes first, then what is left when it is freed (R115). -/
theorem Rob.memoryKeys_free {s : State} (h : robShape s) (hc : s.rob.count ≠ 0) :
    s.rob.memoryKeys s.params.robSize =
      (s.rob.memoryKey? s.rob.head).toList ++ (s.rob.free s.params.robSize).memoryKeys s.params.robSize := by
  obtain ⟨-, hhead, hcount, -, -⟩ := h
  have hzero : (s.rob.head + 0) % s.params.robSize = s.rob.head := Nat.mod_eq_of_lt hhead
  obtain ⟨m, hm⟩ := Nat.exists_eq_succ_of_ne_zero hc
  have notHead (k : Nat) (hk : k ∈ List.range m) : (s.rob.head + (k + 1)) % s.params.robSize ≠ s.rob.head := by
    intro he
    have hlt := List.mem_range.mp hk
    have := slot_inj (by omega) (by omega) (he.trans hzero.symm)
    omega
  have hrest : (List.range m).filterMap (fun k => s.rob.memoryKey? ((s.rob.head + (k + 1)) % s.params.robSize)) =
      (s.rob.free s.params.robSize).memoryKeys s.params.robSize := by
    rw [Rob.memoryKeys, Rob.free_count, hm, Nat.succ_sub_one]
    refine List.filterMap_congr fun k hk => ?_
    rw [Rob.free_head, slot_succ, Rob.memoryKey?, Rob.memoryKey?, Rob.free_entry?, if_neg (notHead k hk)]
  rw [← hrest, Rob.memoryKeys, hm, List.range_succ_eq_map, List.filterMap_cons, hzero, List.filterMap_map]
  cases s.rob.memoryKey? s.rob.head <;> rfl

/-! ### Load-store queue: slots, unsent entries, addresses of what was sent -/

/-- The slot and the opcode of an entry (R33). -/
def LsqEntry.key (e : LsqEntry) : Nat × MemOp := (e.tag, e.op)

/-- The slots of the entries that have not been dispatched (R138). -/
def unsentTags (l : List LsqEntry) : List Nat := l.filterMap fun e => if e.disp then none else some e.tag

theorem unsentTags_cons (e : LsqEntry) (l : List LsqEntry) :
    unsentTags (e :: l) = if e.disp then unsentTags l else e.tag :: unsentTags l := by
  cases h : e.disp <;> simp [unsentTags, h]

/-- Every dispatched entry has its address (R135, R136). -/
def sentAddressed (l : List LsqEntry) : Prop := ∀ e ∈ l, e.disp = true → e.addr ≠ none

/-- The entry without its forwarded value. -/
def LsqEntry.unforwarded (e : LsqEntry) : LsqEntry := { e with fwd := none }

/-- Lists that differ in forwarded values only agree in all that the invariant looks at. -/
theorem keys_eq_of_unforwarded {l m : List LsqEntry} (h : l.map LsqEntry.unforwarded = m.map LsqEntry.unforwarded) :
    l.map LsqEntry.key = m.map LsqEntry.key := by
  have := congrArg (List.map LsqEntry.key) h
  rwa [List.map_map, List.map_map] at this

theorem unsentTags_eq_of_unforwarded {l m : List LsqEntry}
    (h : l.map LsqEntry.unforwarded = m.map LsqEntry.unforwarded) : unsentTags l = unsentTags m := by
  have := congrArg unsentTags h
  rwa [unsentTags, unsentTags, List.filterMap_map, List.filterMap_map] at this

theorem sentAddressed.of_unforwarded {l m : List LsqEntry} (hm : sentAddressed m)
    (h : l.map LsqEntry.unforwarded = m.map LsqEntry.unforwarded) : sentAddressed l := by
  have hmap : ∀ e ∈ l.map LsqEntry.unforwarded, e.disp = true → e.addr ≠ none := by
    rw [h]
    exact List.forall_mem_map.mpr hm
  exact List.forall_mem_map.mp hmap

/-- The forward scan changes forwarded values only (R137). -/
theorem scanEntries_unforwarded (older l : List LsqEntry) :
    (scanEntries older l).map LsqEntry.unforwarded = l.map LsqEntry.unforwarded := by
  induction l generalizing older with
  | nil => rfl
  | cons e rest ih =>
    obtain ⟨w, hw⟩ := LsqEntry.scan_eq older e
    rw [scanEntries, List.map_cons, List.map_cons, ih, hw]
    rfl

/-- Forwarding a committed store changes forwarded values only (R142). -/
theorem forwardStoreTo_unforwarded (a w : Word) (l : List LsqEntry) :
    (forwardStoreTo a w l).map LsqEntry.unforwarded = l.map LsqEntry.unforwarded := by
  induction l with
  | nil => rfl
  | cons e rest ih =>
    rw [forwardStoreTo]
    split
    · rfl
    · split <;> rw [List.map_cons, List.map_cons, ih]
      rfl

theorem Lsq.forwardStore_unforwarded (q : Lsq) (a w : Word) :
    (q.forwardStore a w).entries.map LsqEntry.unforwarded = q.entries.map LsqEntry.unforwarded := by
  unfold Lsq.forwardStore
  split
  · rfl
  · rename_i e rest h
    simp only [h, List.map_cons, forwardStoreTo_unforwarded]

/-- A broadcast resolves addresses and keeps the rest of what the invariant looks at (R134). -/
theorem keys_capture (l : List LsqEntry) (t : Nat) (v : Word) :
    (l.map (LsqEntry.capture t v)).map LsqEntry.key = l.map LsqEntry.key :=
  List.map_map

theorem unsentTags_capture (l : List LsqEntry) (t : Nat) (v : Word) :
    unsentTags (l.map (LsqEntry.capture t v)) = unsentTags l :=
  List.filterMap_map

theorem sentAddressed_capture {l : List LsqEntry} (h : sentAddressed l) (t : Nat) (v : Word) :
    sentAddressed (l.map (LsqEntry.capture t v)) := by
  refine List.forall_mem_map.mpr fun e he hd => ?_
  have := h e he hd
  rw [LsqEntry.capture]
  split <;> simp_all

theorem sentAddressed_tail {l : List LsqEntry} (h : sentAddressed l) : sentAddressed l.tail :=
  fun e he => h e (List.mem_of_mem_tail he)

theorem unsentTags_tail_count (l : List LsqEntry) (slot : Nat) :
    (unsentTags l.tail).count slot ≤ (unsentTags l).count slot :=
  ((List.tail_sublist l).filterMap _).count_le slot

/-- The slot whose result an item of `MQ` will give (R138). -/
def MemItem.tag : MemItem → Nat
  | .load tag _ _ | .store tag _ _ => tag

/-- What is dispatched of an entry is for its slot, once, and has the address of the entry (R135, R136, R138). -/
theorem LsqEntry.of_ready {older : List LsqEntry} {e : LsqEntry} {item : MemItem} (h : e.ready? older = some item) :
    item.tag = e.tag ∧ e.disp = false ∧ e.addr ≠ none := by
  unfold LsqEntry.ready? at h
  split at h
  · cases h
  · rename_i a ha
    split at h
    · unfold LsqEntry.storeItem? at h
      split at h
      · cases h
      · rename_i hd
        obtain ⟨w, -, rfl⟩ := Option.map_eq_some_iff.mp h
        exact ⟨rfl, by simpa using hd, by simp [ha]⟩
    · split at h
      · rename_i hr
        cases h
        simp only [LsqEntry.loadReady, Bool.and_eq_true, Bool.not_eq_true'] at hr
        exact ⟨rfl, hr.1.1, by simp [ha]⟩
      · cases h

/-- Dispatch sends one unsent entry that has its address, and changes no slot or opcode (R138). -/
theorem dispatchEntries_sends {older l l' : List LsqEntry} {item : MemItem}
    (h : dispatchEntries older l = some (item, l')) :
    l'.map LsqEntry.key = l.map LsqEntry.key ∧ (sentAddressed l → sentAddressed l') ∧
      ∀ slot, (unsentTags l).count slot = (unsentTags l').count slot + [item.tag].count slot := by
  induction l generalizing older l' with
  | nil => cases h
  | cons e rest ih =>
    rw [dispatchEntries] at h
    split at h
    · rename_i item' hready
      cases h
      obtain ⟨htag, hd, haddr⟩ := LsqEntry.of_ready hready
      refine ⟨rfl, fun hs => ?_, fun slot => ?_⟩
      · exact List.forall_mem_cons.mpr ⟨fun _ => haddr, (List.forall_mem_cons.mp hs).2⟩
      · rw [unsentTags_cons, unsentTags_cons, hd, htag, ← List.count_append]
        exact (List.perm_append_singleton ..).symm.count_eq slot
    · obtain ⟨⟨item', rest'⟩, hr, he⟩ := Option.map_eq_some_iff.mp h
      cases he
      obtain ⟨hkeys, haddr, hcount⟩ := ih hr
      refine ⟨by rw [List.map_cons, List.map_cons, hkeys], fun hs => ?_, fun slot => ?_⟩
      · obtain ⟨hfirst, hrest⟩ := List.forall_mem_cons.mp hs
        exact List.forall_mem_cons.mpr ⟨hfirst, haddr hrest⟩
      · rw [unsentTags_cons, unsentTags_cons]
        split
        · exact hcount slot
        · rw [List.count_cons, List.count_cons, hcount slot, Nat.add_right_comm]

/-! ### Stations and queues: the slots of what they hold -/

/-- The slots of the entries in the stations (R32). -/
def Stations.tags (p : Stations) : List Nat := p.filterMap (Option.map RsEntry.tag)

theorem Stations.tags_cons_some (e : RsEntry) (p : Stations) :
    Stations.tags (some e :: p) = e.tag :: Stations.tags p := rfl

theorem Stations.tags_cons_none (p : Stations) : Stations.tags (none :: p) = Stations.tags p := rfl

theorem Stations.tags_add {p : Stations} (h : ∃ x ∈ p, x = none) (e : RsEntry) (slot : Nat) :
    (Stations.tags (Stations.add p e)).count slot = (Stations.tags p).count slot + [e.tag].count slot := by
  induction p with
  | nil => simp at h
  | cons x rest ih =>
    cases x with
    | none =>
      rw [Stations.add, tags_cons_some, tags_cons_none, ← List.count_append]
      exact (List.perm_append_singleton ..).symm.count_eq slot
    | some o =>
      rw [Stations.add, tags_cons_some, tags_cons_some, List.count_cons, List.count_cons, ih (by simpa using h),
        Nat.add_right_comm]

theorem Stations.tags_capture (p : Stations) (t : Nat) (v : Word) :
    Stations.tags (Stations.capture p t v) = Stations.tags p := by
  rw [Stations.tags, Stations.capture, List.filterMap_map]
  exact List.filterMap_congr fun x _ => by cases x <;> rfl

theorem Stations.tags_clear (p : Stations) : Stations.tags (Stations.clear p) = [] := by
  simp [Stations.tags, Stations.clear]

/-- What is dispatched of an entry is for its slot (R124). -/
theorem RsEntry.tag_of_ready {e : RsEntry} {item : ExecItem} (h : e.ready? = some item) : item.tag = e.tag := by
  unfold RsEntry.ready? at h
  split at h <;> cases h
  rfl

/-- Dispatch takes one entry out of its station (R124). -/
theorem Stations.tags_nextReady {p p' : Stations} {item : ExecItem} (h : Stations.nextReady p = some (item, p'))
    (slot : Nat) : (Stations.tags p).count slot = (Stations.tags p').count slot + [item.tag].count slot := by
  induction p generalizing p' with
  | nil => cases h
  | cons x rest ih =>
    cases x with
    | none =>
      obtain ⟨⟨item', q⟩, hr, he⟩ := Option.map_eq_some_iff.mp h
      cases he
      have := ih hr
      exact this
    | some e =>
      rw [Stations.nextReady] at h
      split at h
      · rename_i item' hready
        cases h
        rw [tags_cons_some, tags_cons_none, RsEntry.tag_of_ready hready, ← List.count_append]
        exact (List.perm_append_singleton ..).symm.count_eq slot
      · obtain ⟨⟨item', q⟩, hr, he⟩ := Option.map_eq_some_iff.mp h
        cases he
        rw [tags_cons_some, tags_cons_some, List.count_cons, List.count_cons, ih hr, Nat.add_right_comm]

section
variable {α : Type} (tag : α → Nat) (q : Fifo α) (slot : Nat)

/-- The slots of the items in a queue, with `tag` the slot of an item (R35). -/
def Fifo.tags : List Nat := (q.visible ++ q.pending).map tag

theorem Fifo.tags_push (i : α) : ((q.push i).tags tag).count slot = (q.tags tag).count slot + [tag i].count slot := by
  simp [Fifo.tags, Fifo.push, Nat.add_assoc]

theorem Fifo.tags_pop {i : α} {rest : List α} (h : q.visible = i :: rest) :
    (q.tags tag).count slot = (q.pop.tags tag).count slot + [tag i].count slot := by
  simp [Fifo.tags, Fifo.pop, h, List.count_cons]

theorem Fifo.tags_settle : q.settle.tags tag = q.tags tag := by
  simp [Fifo.tags, Fifo.settle]

end

/-! ### The invariant -/

/-- The slots carried by what is in flight: stations, `EQ`, `MQ`, `WQ` and the unsent LSQ entries. -/
def State.inFlight (s : State) : List Nat :=
  Stations.tags s.rs ++ s.queues.eq.tags ExecItem.tag ++ s.queues.mq.tags MemItem.tag ++
    s.queues.wq.tags WriteItem.tag ++ unsentTags s.lsq.entries

theorem State.count_inFlight (s : State) (slot : Nat) : s.inFlight.count slot =
    (Stations.tags s.rs).count slot + (s.queues.eq.tags ExecItem.tag).count slot +
      (s.queues.mq.tags MemItem.tag).count slot + (s.queues.wq.tags WriteItem.tag).count slot +
        (unsentTags s.lsq.entries).count slot := by
  simp only [State.inFlight, List.count_append]

section
variable {s : State} (slot : Nat)

/-- A result pushed for writeback carries its slot. -/
theorem State.count_pushWrite (w : WriteItem) :
    (s.pushWrite w).inFlight.count slot = s.inFlight.count slot + [w.tag].count slot := by
  have hpushed := s.queues.wq.tags_push WriteItem.tag slot w
  simp only [State.count_inFlight, State.pushWrite, State.withQueues_rs, State.withQueues_queues, State.withQueues_lsq]
  omega

theorem State.count_pushPoisoned (tag : Nat) (f : SlotFault) :
    (s.pushPoisoned tag f).inFlight.count slot = s.inFlight.count slot + [tag].count slot :=
  s.count_pushWrite slot _

/-- An item popped carries its slot no longer. -/
theorem State.count_popEq {item : ExecItem} {rest : List ExecItem} (h : s.queues.eq.visible = item :: rest) :
    s.inFlight.count slot =
      (s.withQueues { s.queues with eq := s.queues.eq.pop }).inFlight.count slot + [item.tag].count slot := by
  have hpopped := s.queues.eq.tags_pop ExecItem.tag slot h
  simp only [State.count_inFlight, State.withQueues_rs, State.withQueues_queues, State.withQueues_lsq]
  omega

theorem State.count_popMq {item : MemItem} {rest : List MemItem} (h : s.queues.mq.visible = item :: rest) :
    s.inFlight.count slot =
      (s.withQueues { s.queues with mq := s.queues.mq.pop }).inFlight.count slot + [item.tag].count slot := by
  have hpopped := s.queues.mq.tags_pop MemItem.tag slot h
  simp only [State.count_inFlight, State.withQueues_rs, State.withQueues_queues, State.withQueues_lsq]
  omega

theorem State.count_popWq {item : WriteItem} {rest : List WriteItem} (h : s.queues.wq.visible = item :: rest) :
    s.inFlight.count slot =
      (s.withQueues { s.queues with wq := s.queues.wq.pop }).inFlight.count slot + [item.tag].count slot := by
  have hpopped := s.queues.wq.tags_pop WriteItem.tag slot h
  simp only [State.count_inFlight, State.withQueues_rs, State.withQueues_queues, State.withQueues_lsq]
  omega

/-- Settling moves items within their queues (R171). -/
theorem State.inFlight_settle : (s.withQueues s.queues.settle).inFlight = s.inFlight := by
  simp only [State.inFlight, State.withQueues_rs, State.withQueues_queues, State.withQueues_lsq, Queues.settle,
    Fifo.tags_settle]

end

/-- The memory stage pushes one result, for the slot of the item it evaluates (R139, R140). -/
theorem State.evalMemory_eq (s : State) (m : MemItem) :
    ∃ w n, w.tag = m.tag ∧ s.evalMemory m = (s.pushWrite w).withPoisonSeq n := by
  cases m with
  | store tag a v => exact ⟨⟨tag, v, none⟩, s.poisonSeq, rfl, rfl⟩
  | load tag a fwd =>
    cases fwd with
    | some v => exact ⟨⟨tag, v, none⟩, s.poisonSeq, rfl, rfl⟩
    | none =>
      cases h : s.loadCell a with
      | some v => exact ⟨⟨tag, v, none⟩, s.poisonSeq, rfl, by simp only [State.evalMemory, h]; rfl⟩
      | none =>
        exact ⟨⟨tag, Config.poison s.poisonSeq, some (.memoryAddress a)⟩, s.poisonSeq + 1, rfl, by
          simp only [State.evalMemory, h]; rfl⟩

/-- What is in flight belongs to the live slots: complete slots have results, the LSQ holds the memory instructions of
the ROB in order, what was sent to memory has its address, and a slot is carried by at most one item, and only while it
waits for its result (R29, R113, R145). -/
structure Tracked (s : State) : Prop where
  results : s.rob.resultsPresent
  order : s.lsq.entries.map LsqEntry.key = s.rob.memoryKeys s.params.robSize
  addressed : sentAddressed s.lsq.entries
  carried : ∀ slot, s.inFlight.count slot ≤ (s.rob.awaits slot).toNat

/-- What leaves the ROB and the LSQ alone and adds nothing in flight keeps the invariant. -/
theorem Tracked.moved {s t : State} (h : Tracked s) (hflight : ∀ slot, t.inFlight.count slot ≤ s.inFlight.count slot)
    (hp : t.params = s.params := by simp) (hb : t.rob = s.rob := by simp) (hl : t.lsq = s.lsq := by simp) :
    Tracked t := by
  obtain ⟨hresults, horder, haddressed, hcarried⟩ := h
  rw [← hb] at hresults horder hcarried
  rw [← hl] at horder haddressed
  rw [← hp] at horder
  exact ⟨hresults, horder, haddressed, fun slot => (hflight slot).trans (hcarried slot)⟩

/-- The invariant depends on the ROB, the LSQ, the stations and the queues only. -/
theorem Tracked.congr {s t : State} (h : Tracked s) (hp : t.params = s.params := by simp)
    (hb : t.rob = s.rob := by simp) (hl : t.lsq = s.lsq := by simp) (hr : t.rs = s.rs := by simp)
    (hq : t.queues = s.queues := by simp) : Tracked t :=
  h.moved (fun slot => by rw [State.inFlight, hr, hq, hl, State.inFlight]) hp hb hl

/-! ### The stages keep it -/

theorem stageFetch_tracked {s : State} (h : Tracked s) : Tracked (stageFetch s) := by
  rcases stageFetch_cases s with ⟨code, -, -, he⟩ | he <;> rw [he]
  · exact h.moved fun _ => le_rfl
  · exact h

theorem stageDecode_tracked {s : State} (h : Tracked s) : (stageDecode s).all Tracked := by
  rcases stageDecode_cases s with ⟨item, rest, i, -, -, he⟩ | ⟨item, rest, e, -, -, he⟩ | he <;> rw [he]
  · exact h.moved fun _ => le_rfl
  · exact h.moved fun _ => le_rfl
  · exact h

theorem dispatchStation_tracked {s : State} (h : Tracked s) : Tracked (dispatchStation s) := by
  rcases dispatchStation_cases s with ⟨item, rs', hn, -, he⟩ | he <;> rw [he]
  · refine h.moved fun slot => ?_
    have htaken := Stations.tags_nextReady hn slot
    have hpushed := s.queues.eq.tags_push ExecItem.tag slot item
    simp only [State.count_inFlight, State.withQueues_rs, State.withQueues_queues, State.withQueues_lsq,
      State.withRs_rs, State.withRs_lsq]
    omega
  · exact h

/-- A change of forwarded values keeps the invariant. -/
theorem Tracked.withLsq_of_unforwarded {s : State} (h : Tracked s) {q : Lsq}
    (hq : q.entries.map LsqEntry.unforwarded = s.lsq.entries.map LsqEntry.unforwarded) : Tracked (s.withLsq q) := by
  refine ⟨h.results, (keys_eq_of_unforwarded hq).trans h.order, h.addressed.of_unforwarded hq, fun slot => ?_⟩
  have := h.carried slot
  rw [State.count_inFlight] at this ⊢
  rwa [State.withLsq_lsq, unsentTags_eq_of_unforwarded hq]

/-- Dispatch of an LSQ entry moves its slot from the unsent entries to `MQ` (R138, R164). -/
theorem Tracked.dispatched {s : State} (h : Tracked s) {q : Lsq} {item : MemItem}
    (hn : s.lsq.nextReady = some (item, q)) :
    Tracked ((s.withLsq q).withQueues { s.queues with mq := s.queues.mq.push item }) := by
  obtain ⟨⟨sent, l⟩, hd, he⟩ := Option.map_eq_some_iff.mp hn
  cases he
  obtain ⟨hkeys, haddressed, hcount⟩ := dispatchEntries_sends hd
  refine ⟨h.results, hkeys.trans h.order, haddressed h.addressed, fun slot => ?_⟩
  have hcarried := h.carried slot
  have hsent := hcount slot
  have hpushed := s.queues.mq.tags_push MemItem.tag slot sent
  simp only [State.count_inFlight, State.withQueues_rs, State.withQueues_queues, State.withQueues_lsq,
    State.withQueues_rob, State.withLsq_rs, State.withLsq_lsq, State.withLsq_rob] at hcarried ⊢
  omega

theorem dispatchMemory_tracked {s : State} (h : Tracked s) : Tracked (dispatchMemory s) := by
  have scanned : Tracked (s.withLsq s.lsq.forwardScan) := h.withLsq_of_unforwarded (scanEntries_unforwarded [] _)
  rcases dispatchMemory_cases s with ⟨item, lsq', hn, -, he⟩ | he <;> rw [he]
  · exact scanned.dispatched hn
  · exact scanned

theorem stageExecute_tracked {s : State} (h : Tracked s) : (stageExecute s).all Tracked := by
  rcases stageExecute_cases s with ⟨item, rest, hfront, he⟩ | he
  · have popped (slot : Nat) := State.count_popEq slot hfront
    rcases he with ⟨v, -, he⟩ | ⟨-, he⟩ | ⟨-, he⟩ <;> rw [he]
    · exact h.moved fun slot => by rw [State.count_pushWrite, popped slot]
    · exact h.moved fun slot => by rw [State.count_pushPoisoned, popped slot]
    · exact h.moved fun slot => by rw [popped slot]; exact Nat.le_add_right _ _
  · rw [he]
    exact h

theorem stageMemory_tracked {s : State} (h : Tracked s) : Tracked (stageMemory s) := by
  rcases stageMemory_cases s with ⟨item, rest, hfront, he⟩ | he <;> rw [he]
  · obtain ⟨w, n, hw, he⟩ := (s.withQueues { s.queues with mq := s.queues.mq.pop }).evalMemory_eq item
    rw [he]
    refine h.moved fun slot => ?_
    have pushed := (s.withQueues { s.queues with mq := s.queues.mq.pop }).count_pushWrite slot w
    rw [State.count_popMq slot hfront, ← hw]
    exact pushed.le
  · exact h

/-- A broadcast leaves what is in flight (R122, R134). -/
theorem State.inFlight_broadcast (s : State) (t : Nat) (v : Word) (b : Rob) :
    (((s.withRs (Stations.capture s.rs t v)).withLsq (s.lsq.capture t v)).withRob b).inFlight = s.inFlight := by
  simp only [State.inFlight, State.withRob_rs, State.withRob_queues, State.withRob_lsq, State.withLsq_rs,
    State.withLsq_queues, State.withLsq_lsq, State.withRs_rs, State.withRs_queues, Stations.tags_capture, Lsq.capture,
    unsentTags_capture]

/-- A slot taken out of `WQ` is completed; nothing else in flight carries it (R113, R167). -/
theorem Tracked.broadcast {s : State} {q : Queues} {t : Nat} (h : Tracked s) (v : Word) (f : Option SlotFault)
    (hpop : ∀ slot, s.inFlight.count slot = (s.withQueues q).inFlight.count slot + [t].count slot) :
    Tracked ((((s.withQueues q).withRs (Stations.capture s.rs t v)).withLsq (s.lsq.capture t v)).withRob
      (s.rob.complete t v f)) := by
  obtain ⟨hresults, horder, haddressed, hcarried⟩ := h
  refine ⟨hresults.complete t v f, ?_, sentAddressed_capture haddressed t v, fun slot => ?_⟩
  · exact (keys_capture ..).trans (horder.trans (Rob.memoryKeys_complete ..).symm)
  · have hpopped := hpop slot
    have hbefore := hcarried slot
    refine (congrArg (List.count slot) ((s.withQueues q).inFlight_broadcast t v _)).trans_le ?_
    rw [State.withRob_rob, Rob.awaits_complete]
    split
    · rename_i hslot
      have hone := (s.rob.awaits slot).toNat_le
      rw [hslot] at hpopped hbefore hone ⊢
      rw [List.count_singleton_self] at hpopped
      rw [Bool.toNat_false]
      omega
    · omega

theorem stageWriteback_tracked {s : State} (h : Tracked s) : Tracked (stageWriteback s) := by
  rcases stageWriteback_cases s with ⟨item, rest, hfront, he⟩ | he <;> rw [he]
  · exact h.broadcast item.value item.fault fun slot => State.count_popWq slot hfront
  · exact h

/-- An LSQ entry whose slot is complete has been sent: an unsent one would still be in flight. -/
theorem Tracked.sent_of_done {s : State} (h : Tracked s) {l : LsqEntry} (hl : l ∈ s.lsq.entries)
    (hdone : s.rob.awaits l.tag = false) : l.disp = true := by
  by_contra hd
  have hunsent : l.tag ∈ unsentTags s.lsq.entries := List.mem_filterMap.mpr ⟨l, hl, by simp [hd]⟩
  have hpos := List.count_pos_iff.mpr hunsent
  have hnone := h.carried l.tag
  rw [State.count_inFlight, hdone, Bool.toNat_false] at hnone
  omega

/-! ### Issue -/

/-- No entry is behind the tail of a ROB with room (R29, R109). -/
theorem robShape.awaits_tail {s : State} (h : robShape s) (hroom : s.rob.count ≠ s.params.robSize) :
    s.rob.awaits s.rob.tail = false := by
  obtain ⟨-, -, hcount, htail, hlive⟩ := h
  have hnone := hlive s.rob.count (by omega)
  rw [← htail] at hnone
  have : s.rob.entry? s.rob.tail = none := by simpa using hnone
  rw [Rob.awaits, this]
  rfl

/-- An instruction that waits in a station finds one free when nothing blocks it (R119, R163). -/
theorem State.exists_free_station {s : State} {c : OpClass} (h : s.issueBlocked c = false)
    (hc : c ∉ [OpClass.load, OpClass.store]) : ∃ x ∈ s.rs, x = none := by
  by_contra hfull
  push Not at hfull
  rw [(s.issueBlocked_iff c).mpr (.inr (.inr ⟨hc, hfull⟩))] at h
  cases h

theorem issue_tracked {s : State} {i : Instr} (hrob : robShape s) (h : Tracked s)
    (hfree : s.issueBlocked i.cls = false) (pc : Word) : Tracked (s.issue i pc) := by
  have hroom := State.issueBlocked_rob hfree
  have htail := hrob.tail_lt
  have hkeys := Rob.memoryKeys_add hrob hroom i pc
  obtain ⟨hadded, hqueues, -, -, -, -, -, -, -, hparams, -⟩ := s.issue_frame i pc
  obtain ⟨hresults, horder, haddressed, hcarried⟩ := h
  -- One item more is in flight, and it carries the slot allocated, which was not live before.
  have carried (hcount : ∀ slot, (s.issue i pc).inFlight.count slot =
      s.inFlight.count slot + [s.rob.tail].count slot) (slot : Nat) :
      (s.issue i pc).inFlight.count slot ≤ ((s.issue i pc).rob.awaits slot).toNat := by
    have hbefore := hcarried slot
    rw [hcount, hadded, Rob.awaits_add i pc htail]
    split
    · rename_i hslot
      rw [hslot, hrob.awaits_tail hroom, Bool.toNat_false] at hbefore
      rw [hslot, List.count_singleton_self, Bool.toNat_true]
      omega
    · rename_i hslot
      rw [List.count_singleton, if_neg (by simpa using Ne.symm hslot)]
      exact hbefore
  have hresults' : (s.issue i pc).rob.resultsPresent := hadded ▸ hresults.add i pc htail
  rw [← horder, ← hadded, ← hparams] at hkeys
  rcases stationOperands_or_queuedEntry (s.withRob (s.rob.add s.params.robSize i pc)).readOperand s.rob.tail
    s.lsq.nextSeq i with ⟨hc, hop, o1, o2, ho⟩ | ⟨-, e, he, hop, htag, hunsent⟩
  · obtain ⟨hlsq, hrs⟩ := State.issue_of_station (pc := pc) ho
    refine ⟨hresults', ?_, hlsq ▸ haddressed, carried fun slot => ?_⟩
    · rw [hkeys, hlsq, hop]
      exact (List.append_nil _).symm
    · have hstation : (Stations.tags (Stations.add s.rs ⟨s.rob.tail, i.op, o1, o2⟩)).count slot =
          (Stations.tags s.rs).count slot + [s.rob.tail].count slot :=
        Stations.tags_add (State.exists_free_station hfree hc) _ slot
      rw [State.count_inFlight, State.count_inFlight, hqueues, hlsq, hrs]
      omega
  · obtain ⟨hrs, hlsq⟩ := State.issue_of_queued he
    have hentries : (s.issue i pc).lsq.entries = s.lsq.entries ++ [e] := congrArg Lsq.entries hlsq
    refine ⟨hresults', ?_, fun l hl hd => ?_, carried fun slot => ?_⟩
    · rw [hkeys, hentries, hop, List.map_append, ← htag]
      rfl
    · rw [hentries, List.mem_append, List.mem_singleton] at hl
      rcases hl with hl | rfl
      · exact haddressed l hl hd
      · cases hunsent.symm.trans hd
    · have hadd : unsentTags (s.lsq.entries ++ [e]) = unsentTags s.lsq.entries ++ [s.rob.tail] := by
        rw [unsentTags, List.filterMap_append, ← htag]
        simp [unsentTags, hunsent]
      rw [State.count_inFlight, State.count_inFlight, hqueues, hentries, hrs, hadd, List.count_append]
      omega

theorem stageIssue_tracked {s : State} (hrob : robShape s) (h : Tracked s) : Tracked (stageIssue s) := by
  rcases stageIssue_cases s with ⟨item, rest, -, hfree, he⟩ | he <;> rw [he]
  · exact issue_tracked (s := s.withQueues { s.queues with iq := s.queues.iq.pop }) hrob.congr
      (h.moved fun _ => le_rfl) hfree item.pc
  · exact h

/-! ### Commit -/

/-- The common part of commit frees a complete head, which nothing in flight carries, after the class's own part made
the LSQ hold the memory instructions behind it (R115, R168). -/
theorem finishCommit_tracked {s u : State} {e : RobEntry} (h : Tracked s) (he : s.rob.entry? s.rob.head = some e)
    (hd : e.done = true) (v : Word)
    (horder : u.lsq.entries.map LsqEntry.key = (s.rob.free s.params.robSize).memoryKeys s.params.robSize)
    (haddressed : sentAddressed u.lsq.entries)
    (hunsent : ∀ slot, (unsentTags u.lsq.entries).count slot ≤ (unsentTags s.lsq.entries).count slot)
    (hp : u.params = s.params := by simp) (hb : u.rob = s.rob := by simp) (hr : u.rs = s.rs := by simp)
    (hq : u.queues = s.queues := by simp) : (u.finishCommit e v).all Tracked := by
  refine State.finishCommit_all (fun t h => h.congr) ?_
  obtain ⟨regs, rat, hreg⟩ := u.commitReg_eq e.dest v u.rob.head
  rw [hreg, hb, hp]
  refine ⟨h.results.free _, horder.trans (by simp [hp]), haddressed, fun slot => ?_⟩
  have hbefore := h.carried slot
  have hless := hunsent slot
  rw [State.withExecuted_rob, State.withRob_rob, Rob.awaits_free (Rob.awaits_of_done he hd)]
  simp only [State.count_inFlight, State.withExecuted_rs, State.withExecuted_queues, State.withExecuted_lsq,
    State.withRob_rs, State.withRob_queues, State.withRob_lsq, State.withRat_rs, State.withRat_queues,
    State.withRat_lsq, State.withRegs_rs, State.withRegs_queues, State.withRegs_lsq, hr, hq] at hbefore ⊢
  omega

/-- A flush leaves nothing in flight and nothing live (R169). -/
theorem flush_tracked (s : State) (correct : Word) : Tracked (s.flush correct) := by
  have hnone (slot : Nat) : (s.flush correct).rob.entry? slot = none := by
    rw [s.flush_rob]
    exact Rob.clearOnFlush_entry? _ _ slot
  have hlsq : (s.flush correct).lsq.entries = [] := by rw [s.flush_lsq]; rfl
  refine ⟨fun slot e he => ?_, ?_, ?_, fun slot => ?_⟩
  · rw [hnone] at he
    cases he
  · rw [hlsq, Rob.memoryKeys, s.flush_rob]
    rfl
  · rw [hlsq]
    nofun
  · rw [State.count_inFlight, hlsq, s.flush_rs, s.flush_queues, Stations.tags_clear]
    exact Nat.zero_le _

/-- The head of a ROB in order: for a memory instruction the LSQ head is its entry, for any other the LSQ holds only
what is behind it. -/
theorem Tracked.order_head {s : State} (hrob : robShape s) (h : Tracked s) (hc : s.rob.count ≠ 0) {e : RobEntry}
    (he : s.rob.entry? s.rob.head = some e) :
    (memOpOf e.op = none ∧
      s.lsq.entries.map LsqEntry.key = (s.rob.free s.params.robSize).memoryKeys s.params.robSize) ∨
      ∃ l rest, s.lsq.entries = l :: rest ∧ l.tag = s.rob.head ∧ memOpOf e.op = some l.op ∧
        rest.map LsqEntry.key = (s.rob.free s.params.robSize).memoryKeys s.params.robSize := by
  have horder := h.order
  rw [Rob.memoryKeys_free hrob hc, Rob.memoryKey?_of_entry he] at horder
  cases hop : memOpOf e.op with
  | none => exact .inl ⟨rfl, by simpa [hop] using horder⟩
  | some op =>
    rw [hop] at horder
    obtain ⟨l, rest, hentries, hkey, hrest⟩ := List.map_eq_cons_iff.mp horder
    obtain ⟨htag, hlop⟩ := Prod.mk.inj hkey
    exact .inr ⟨l, rest, hentries, htag, by rw [hlop], hrest⟩

/-- The class of an opcode says whether it has an LSQ entry, and with which opcode (R61, R163). -/
theorem memOpOf_of_load {o : Op} (h : o.cls = .load) : memOpOf o = some .lw := by
  cases o with
  | lw => rfl
  | add | sub | mul | div | idiv | mod | addi | sw | beq | j => cases h

theorem memOpOf_of_store {o : Op} (h : o.cls = .store) : memOpOf o = some .sw := by
  cases o with
  | sw => rfl
  | add | sub | mul | div | idiv | mod | addi | lw | beq | j => cases h

theorem memOpOf_of_not_memory {o : Op} (h : o.cls ∉ [OpClass.load, OpClass.store]) : memOpOf o = none := by
  cases o with
  | lw | sw => simp [Op.cls] at h
  | add | sub | mul | div | idiv | mod | addi | beq | j => rfl

/-- A memory instruction commits and frees the LSQ head, after at most forwarded values changed in the LSQ (R141,
R143). -/
theorem finishCommit_memory_tracked {s u : State} {e : RobEntry} {q : Lsq} (hrob : robShape s) (h : Tracked s)
    (hc : s.rob.count ≠ 0) (he : s.rob.entry? s.rob.head = some e) (hd : e.done = true) (v : Word)
    (hmem : memOpOf e.op ≠ none) (hfwd : q.entries.map LsqEntry.unforwarded = s.lsq.entries.map LsqEntry.unforwarded)
    (hl : u.lsq.entries = q.entries.tail) (hp : u.params = s.params := by simp) (hb : u.rob = s.rob := by simp)
    (hr : u.rs = s.rs := by simp) (hq : u.queues = s.queues := by simp) : (u.finishCommit e v).all Tracked := by
  refine finishCommit_tracked h he hd v ?_ ?_ (fun slot => ?_) hp hb hr hq <;> rw [hl]
  · rcases h.order_head hrob hc he with ⟨hnone, -⟩ | ⟨l, rest, hentries, -, -, hrest⟩
    · exact absurd hnone hmem
    · have hkeys := keys_eq_of_unforwarded hfwd
      rw [List.map_tail, hkeys, hentries]
      exact hrest
  · exact sentAddressed_tail (h.addressed.of_unforwarded hfwd)
  · rw [← unsentTags_eq_of_unforwarded hfwd]
    exact unsentTags_tail_count _ slot

/-- An instruction of another class commits and leaves the LSQ (R168). -/
theorem finishCommit_plain_tracked {s u : State} {e : RobEntry} (hrob : robShape s) (h : Tracked s)
    (hc : s.rob.count ≠ 0) (he : s.rob.entry? s.rob.head = some e) (hd : e.done = true) (v : Word)
    (hmem : memOpOf e.op = none) (hl : u.lsq = s.lsq := by simp) (hp : u.params = s.params := by simp)
    (hb : u.rob = s.rob := by simp) (hr : u.rs = s.rs := by simp) (hq : u.queues = s.queues := by simp) :
    (u.finishCommit e v).all Tracked := by
  refine finishCommit_tracked h he hd v ?_ ?_ (fun slot => ?_) hp hb hr hq <;> rw [hl]
  · rcases h.order_head hrob hc he with ⟨-, horder⟩ | ⟨l, rest, -, -, hsome, -⟩
    · exact horder
    · cases hmem.symm.trans hsome
  · exact h.addressed

theorem stageCommit_tracked {s : State} (hrob : robShape s) (h : Tracked s) : (stageCommit s).all Tracked := by
  rcases stageCommit_cases s with ⟨e, hc, he, hd, hcommit⟩ | hidle | hbroken
  · rw [hcommit]
    rcases s.commitEntry_cases e with
      ⟨f, -, hf⟩ | ⟨-, -, hn⟩ | ⟨v, -, -, ⟨hcls, hv⟩ | ⟨hcls, hv⟩ | ⟨hcls, hv⟩ | ⟨hcls, hv⟩⟩
    · rw [hf]
      exact h.congr
    · rw [hn]
      trivial
    · have hmem : memOpOf e.op = none := memOpOf_of_not_memory (by rcases hcls with hk | hk <;> simp [hk])
      rw [hv]
      rcases s.commitBranch_cases e v with ⟨-, hb⟩ | ⟨-, hb⟩ <;> rw [hb]
      · exact finishCommit_plain_tracked hrob h hc he hd v hmem
      · have flushed := flush_tracked (s.withPred (s.pred.check s.cfgPolicy e.pc e.rpc v).pred)
          (s.pred.check s.cfgPolicy e.pc e.rpc v).correct
        exact flushed.congr
    · have hmem : memOpOf e.op ≠ none := by simp [memOpOf_of_store hcls]
      rw [hv]
      rcases s.commitStore_cases e v with ⟨a, k, -, hs⟩ | ⟨a, -, hs⟩ | hs <;> rw [hs]
      · exact finishCommit_memory_tracked hrob h hc he hd v hmem (s.lsq.forwardStore_unforwarded a v) rfl
      · exact h.congr
      · trivial
    · have hmem : memOpOf e.op ≠ none := by simp [memOpOf_of_load hcls]
      rw [hv]
      rcases s.commitLoad_cases e v with ⟨l, -, hs⟩ | hs <;> rw [hs]
      · exact finishCommit_memory_tracked hrob h hc he hd v hmem rfl rfl
      · trivial
    · have hmem : memOpOf e.op = none := memOpOf_of_not_memory (by rcases hcls with hk | hk <;> simp [hk])
      rw [hv]
      exact finishCommit_plain_tracked hrob h hc he hd v hmem
  · rw [hidle]
    exact h
  · rw [hbroken]
    trivial

theorem endOfSubstep_tracked {s : State} (h : Tracked s) : (endOfSubstep s).all Tracked := by
  have settled : Tracked (s.withQueues s.queues.settle) := h.moved fun _ => by rw [s.inFlight_settle]
  rcases endOfSubstep_cases s with he | ⟨-, -, he⟩ <;> rw [he]
  · exact settled
  · exact settled.congr

/-! ### No assertion fails -/

/-- A stage or a sub-step in which no assertion fails. -/
def SubResult.unbroken (r : SubResult) : Prop := ∀ f, r ≠ .broken f

/-- A sequence of stages fails no assertion if its parts fail none. -/
theorem SubResult.unbroken_andThen {P : State → Prop} {r : SubResult} {k : State → SubResult} (hr : r.unbroken)
    (hP : r.all P) (hk : ∀ s, P s → (k s).unbroken) : (r.andThen k).unbroken := by
  cases r with
  | cont s => exact hk s hP
  | flush s | halt s | fatal s => exact nofun
  | broken f => exact absurd rfl (hr f)

/-- The first seven stages make no assertion. -/
theorem beforeCommit_unbroken (s : State) : (beforeCommit s).unbroken := by
  have decoded (u : State) : (stageDecode u).unbroken := by
    rcases stageDecode_cases u with ⟨_, _, _, -, -, h⟩ | ⟨_, _, _, -, -, h⟩ | h <;> rw [h] <;> exact nofun
  have executed (u : State) : (stageExecute u).unbroken := by
    rcases stageExecute_cases u with ⟨_, _, -, ⟨_, -, h⟩ | ⟨-, h⟩ | ⟨-, h⟩⟩ | h <;> rw [h] <;> exact nofun
  have anything (r : SubResult) : r.all fun _ => True := by cases r <;> trivial
  refine SubResult.unbroken_andThen (decoded _) (anything _) fun u _ => ?_
  exact SubResult.unbroken_andThen (executed _) (anything _) fun _ _ => nofun

theorem finishCommit_unbroken (s : State) (e : RobEntry) (v : Word) : (s.finishCommit e v).unbroken := by
  rcases s.finishCommit_cases e v with ⟨-, h⟩ | ⟨-, h⟩ <;> rw [h] <;> exact nofun

/-- The commit of a complete memory instruction finds its entry at the LSQ head, sent and so with its address (R145). -/
theorem Tracked.headFor {s : State} (hrob : robShape s) (h : Tracked s) (hc : s.rob.count ≠ 0) {e : RobEntry}
    (he : s.rob.entry? s.rob.head = some e) (hd : e.done = true) {op : MemOp} (hop : memOpOf e.op = some op) :
    ∃ l a, s.lsq.headFor s.rob.head op = some l ∧ l.addr = some a := by
  rcases h.order_head hrob hc he with ⟨hnone, -⟩ | ⟨l, rest, hentries, htag, hlop, -⟩
  · cases hnone.symm.trans hop
  · have hmem : l ∈ s.lsq.entries := hentries ▸ List.mem_cons_self
    have hsent := h.sent_of_done hmem (htag ▸ Rob.awaits_of_done he hd)
    obtain ⟨a, ha⟩ := Option.ne_none_iff_exists'.mp (h.addressed l hmem hsent)
    exact ⟨l, a, Lsq.headFor_eq_some.mpr ⟨⟨rest, hentries⟩, htag, Option.some.inj (hlop.symm.trans hop)⟩, ha⟩

/-- A ROB that is not empty has an entry at its head (R29). -/
theorem robShape.head_entry {s : State} (h : robShape s) (hc : s.rob.count ≠ 0) :
    ∃ e, s.rob.entry? s.rob.head = some e := by
  obtain ⟨-, hhead, -, -, hlive⟩ := h
  have hsome := (hlive 0 (by omega)).mpr (by omega)
  rw [Nat.add_zero, Nat.mod_eq_of_lt hhead] at hsome
  exact Option.isSome_iff_exists.mp hsome

/-- The three assertions hold: the head of a ROB that is not empty has an entry (R29), a complete one has a result
(R113), and a memory instruction's is the LSQ head's (R145). -/
theorem stageCommit_unbroken {s : State} (hrob : robShape s) (h : Tracked s) : (stageCommit s).unbroken := by
  by_cases hc : s.rob.count = 0
  · rw [stageCommit, if_pos hc]
    exact nofun
  obtain ⟨e, he⟩ := hrob.head_entry hc
  cases hd : e.done with
  | false =>
    simp only [stageCommit, hc, he, hd, if_false]
    exact nofun
  | true =>
    have hcommit : stageCommit s = s.commitEntry e := by simp only [stageCommit, hc, he, hd, if_false, if_true]
    rw [hcommit]
    rcases s.commitEntry_cases e with
      ⟨f, -, hf⟩ | ⟨-, hresult, -⟩ | ⟨v, -, -, ⟨-, hv⟩ | ⟨hcls, hv⟩ | ⟨hcls, hv⟩ | ⟨-, hv⟩⟩
    · rw [hf]
      exact nofun
    · exact absurd hresult (h.results _ e he hd)
    · rw [hv]
      rcases s.commitBranch_cases e v with ⟨-, hb⟩ | ⟨-, hb⟩ <;> rw [hb]
      · exact finishCommit_unbroken _ e v
      · exact nofun
    · obtain ⟨l, a, hl, ha⟩ := h.headFor hrob hc he hd (memOpOf_of_store hcls)
      rw [hv, State.commitStore, hl, Option.bind_some, ha]
      dsimp only
      split
      · exact nofun
      · exact finishCommit_unbroken _ e v
    · obtain ⟨l, a, hl, -⟩ := h.headFor hrob hc he hd (memOpOf_of_load hcls)
      rw [hv, State.commitLoad, hl]
      exact finishCommit_unbroken _ e v
    · rw [hv]
      exact finishCommit_unbroken _ e v

/-! ### Runs -/

/-- The invariant of a run: the structures have their shapes, and what is in flight is tracked. -/
def pipelineSound (s : State) : Prop := structuresSound s ∧ Tracked s

theorem pipelineSound.congr {s t : State} (h : pipelineSound s) (hp : t.params = s.params := by simp)
    (hb : t.rob = s.rob := by simp) (hl : t.lsq = s.lsq := by simp) (hr : t.rs = s.rs := by simp)
    (hq : t.queues = s.queues := by simp) : pipelineSound t :=
  ⟨h.1.congr hp hb hr hl hq, h.2.congr hp hb hl hr hq⟩

theorem SubResult.all.and {P Q : State → Prop} {r : SubResult} (hP : r.all P) (hQ : r.all Q) :
    r.all fun s => P s ∧ Q s := by
  cases r with
  | cont s | flush s | halt s | fatal s => exact ⟨hP, hQ⟩
  | broken f => trivial

theorem stageDispatch_pipelineSound {s : State} (h : pipelineSound s) : pipelineSound (stageDispatch s) :=
  ⟨dispatchMemory_structuresSound (dispatchStation_structuresSound h.1),
    dispatchMemory_tracked (dispatchStation_tracked h.2)⟩

theorem beforeCommit_pipelineSound {s : State} (h : pipelineSound s) : (beforeCommit s).all pipelineSound :=
  beforeCommit_keeps (P := pipelineSound) (fun _ h => ⟨stageFetch_structuresSound h.1, stageFetch_tracked h.2⟩)
    (fun _ h => (stageDecode_structuresSound h.1).and (stageDecode_tracked h.2))
    (fun _ h => ⟨stageIssue_structuresSound h.1, stageIssue_tracked h.1.1 h.2⟩) (fun _ => stageDispatch_pipelineSound)
    (fun _ h => (stageExecute_structuresSound h.1).and (stageExecute_tracked h.2))
    (fun _ h => ⟨stageMemory_structuresSound h.1, stageMemory_tracked h.2⟩)
    (fun _ h => ⟨stageWriteback_structuresSound h.1, stageWriteback_tracked h.2⟩) h

theorem stageCommit_pipelineSound {s : State} (h : pipelineSound s) : (stageCommit s).all pipelineSound :=
  (stageCommit_structuresSound h.1).and (stageCommit_tracked h.1.1 h.2)

theorem endOfSubstep_pipelineSound {s : State} (h : pipelineSound s) : (endOfSubstep s).all pipelineSound :=
  (endOfSubstep_structuresSound h.1).and (endOfSubstep_tracked h.2)

theorem substep_pipelineSound (s : State) (h : pipelineSound s) : (substep s).all pipelineSound :=
  SubResult.all_andThen (beforeCommit_pipelineSound h)
    (fun _ hu => SubResult.all_andThen (stageCommit_pipelineSound hu) (fun _ => endOfSubstep_pipelineSound) fun _ => id)
    fun _ => id

/-- No assertion fails in a sub-step (R160). -/
theorem substep_unbroken {s : State} (h : pipelineSound s) : (substep s).unbroken := by
  have ended (u : State) : (endOfSubstep u).unbroken := by
    rcases endOfSubstep_cases u with he | ⟨-, -, he⟩ <;> rw [he] <;> exact nofun
  exact SubResult.unbroken_andThen (beforeCommit_unbroken s) (beforeCommit_pipelineSound h) fun u hu =>
    SubResult.unbroken_andThen (stageCommit_unbroken hu.1.1 hu.2) (stageCommit_pipelineSound hu) fun w _ => ended w

/-- No assertion fails in any number of sub-steps (R159). -/
theorem subLoop_unbroken (n : Nat) {s : State} (h : pipelineSound s) : (subLoop n s).unbroken := by
  induction n generalizing s with
  | zero => exact nofun
  | succ n ih =>
    exact SubResult.unbroken_andThen (substep_unbroken h) (substep_pipelineSound s h) fun _ ht => ih ht

/-- An outer cycle ends in a next state (R158, R159). -/
theorem cycle_next {s : State} (h : pipelineSound s) : ∃ t, cycle s = .next t := by
  unfold cycle runCycle
  split
  · exact ⟨_, rfl⟩
  · split
    · exact ⟨_, rfl⟩
    · have hloop := subLoop_unbroken s.cfgWidth.toNat h
      cases hr : subLoop s.cfgWidth.toNat s with
      | cont t | flush t | halt t | fatal t => exact ⟨_, rfl⟩
      | broken f => exact absurd hr (hloop f)

/-- Every instruction has a meaning that ends in a next state. -/
theorem exec_next (i : Instr) (s : State) : ∃ t, exec i s = .next t := by
  cases i with
  | lw rt imm rs =>
    rw [exec, execLw]
    split <;> exact ⟨_, rfl⟩
  | sw rt imm rs =>
    rw [exec, execSw]
    split <;> exact ⟨_, rfl⟩
  | add | sub | mul | div | idiv | mod | addi | beq | j => exact ⟨_, rfl⟩

/-- A step of the reference machine ends in a next state (R178). -/
theorem referenceStep_next (s : State) : ∃ t, referenceStep s = .next t := by
  unfold referenceStep fetchAndExec
  split
  · exact ⟨_, rfl⟩
  · split
    · exact ⟨_, rfl⟩
    · split
      · exact ⟨_, rfl⟩
      · split
        · exact ⟨_, rfl⟩
        · split
          · exact ⟨_, rfl⟩
          · exact exec_next _ _

theorem step_next {s : State} (h : pipelineSound s) : ∃ t, step s = .next t := by
  unfold step
  split
  · exact cycle_next h
  · exact referenceStep_next s

theorem exec_pipelineSound {i : Instr} {s t : State} (h : pipelineSound s) (he : exec i s = .next t) :
    pipelineSound t := by
  obtain ⟨_, _, _, _, _, _, rfl⟩ := exec_changes he
  exact h.congr

/-- Every step of either machine keeps the invariant; the reference machine touches none of the structures. -/
theorem step_pipelineSound {s t : State} (h : pipelineSound s) (hst : step s = .next t) : pipelineSound t := by
  refine step_keeps substep_pipelineSound (fun _ _ h => h.congr) (fun _ _ h => h.congr) (fun u h => ?_)
    (fun u _ _ h he => exec_pipelineSound (s := u.withPred _) h.congr he) h hst
  rw [u.haltTest_eq]
  exact h.congr

/-- After reset nothing is in flight and no slot is live (R40). -/
theorem boot_tracked (inp : Inputs) : Tracked (State.boot inp) := by
  refine ⟨fun slot e he => ?_, rfl, nofun, fun slot => ?_⟩
  · rw [boot_entry] at he
    cases he
  · have hrs : Stations.tags (State.boot inp).rs = [] := by simp [Stations.tags, State.boot]
    rw [State.count_inFlight, hrs]
    exact Nat.zero_le _

/-- A run goes on with the state its first step ends in. -/
theorem run_succ (M : Host.Core) (n : Nat) {s t : M.State} (h : M.step s = .next t) :
    M.run (n + 1) s = M.run n t := by
  rw [Host.Core.run, h]

/-- A run of the machine from a sound state ends in a next state. -/
theorem run_next (n : Nat) {s : State} (h : pipelineSound s) : ∃ t, Sys2Proof.core.run n s = .next t := by
  induction n generalizing s with
  | zero => exact ⟨s, rfl⟩
  | succ n ih =>
    obtain ⟨t, ht⟩ := step_next h
    obtain ⟨u, hu⟩ := ih (step_pipelineSound h ht)
    exact ⟨u, (run_succ Sys2Proof.core n ht).trans hu⟩

/-- Settles O58: reset establishes the invariant of a run. -/
theorem noAssertionFailsInAnyRun : Obligations.NoAssertionFailsInAnyRun := fun inp n hparams =>
  run_next n ⟨boot_structuresSound hparams, boot_tracked inp⟩

end Sys2Proof.Machine
end

section

/-! The reservation stations: what a broadcast makes of a station (R122) and which entry is dispatched (R123, R124). -/

namespace Sys2Proof.Machine

/-! ### Capture -/

/-- An operand that waits for the broadcast slot takes its value; any other stays (R122). -/
theorem Operand.capture_eq (t : Nat) (v : Word) (o : Operand) :
    o.capture t v = if o = .tag t then .val v else o := by
  cases o with
  | val w => rfl
  | tag u => simp only [Operand.capture, Operand.tag.injEq]

theorem RsEntry.capture_eq (t : Nat) (v : Word) (e : RsEntry) :
    e.capture t v =
      { e with o1 := if e.o1 = .tag t then .val v else e.o1, o2 := if e.o2 = .tag t then .val v else e.o2 } := by
  rw [RsEntry.capture, Operand.capture_eq, Operand.capture_eq]

theorem Stations.getElem?_capture (p : Stations) (t : Nat) (v : Word) (k : Nat) :
    (Stations.capture p t v)[k]? = p[k]?.map (Option.map (RsEntry.capture t v)) := List.getElem?_map

/-- Settles O34: capture maps every station, and of an occupied one it changes the waiting operands. -/
theorem captureResolvesEveryStation : Obligations.CaptureResolvesEveryStation := by
  intro p t v k
  rw [Stations.getElem?_capture, funext (RsEntry.capture_eq t v)]

/-! ### Readiness of an entry -/

/-- An entry is ready when both operands are values, and those values are dispatched (R123). -/
theorem RsEntry.ready?_eq_some_iff {e : RsEntry} {item : ExecItem} :
    e.ready? = some item ↔ ∃ a b, e.o1 = .val a ∧ e.o2 = .val b ∧ item = ⟨e.tag, e.op, a, b⟩ := by
  obtain ⟨tag, op, o1, o2⟩ := e
  cases o1 with
  | tag u => simp [RsEntry.ready?]
  | val a =>
    cases o2 with
    | tag u => simp [RsEntry.ready?]
    | val b => simp [RsEntry.ready?, eq_comm]

theorem RsEntry.ready?_eq_none_iff {e : RsEntry} :
    e.ready? = none ↔ ¬ ∃ a b, e.o1 = .val a ∧ e.o2 = .val b := by
  simp only [Option.eq_none_iff_forall_ne_some, ne_eq, RsEntry.ready?_eq_some_iff]
  exact ⟨fun h ⟨a, b, ha, hb⟩ => h _ ⟨a, b, ha, hb, rfl⟩, fun h _ ⟨a, b, ha, hb, _⟩ => h ⟨a, b, ha, hb⟩⟩

/-! ### Dispatch from the pool -/

/-- A first station that holds a ready entry is the one taken and freed. -/
theorem Stations.nextReady_cons_of_ready {x : Option RsEntry} {item : ExecItem}
    (h : x.bind RsEntry.ready? = some item) (rest : Stations) :
    Stations.nextReady (x :: rest) = some (item, none :: rest) := by
  cases x with
  | none => cases h
  | some e =>
    have hready : e.ready? = some item := h
    simp only [Stations.nextReady, hready]

/-- A first station that holds no ready entry, free or occupied, is passed over and kept. -/
theorem Stations.nextReady_cons_of_not_ready {x : Option RsEntry} (h : x.bind RsEntry.ready? = none)
    (rest : Stations) :
    Stations.nextReady (x :: rest) = (Stations.nextReady rest).map fun r => (r.1, x :: r.2) := by
  cases x with
  | none => rfl
  | some e =>
    have hwaits : e.ready? = none := h
    simp only [Stations.nextReady, hwaits]

theorem Stations.nextReady_eq_none_iff {p : Stations} :
    Stations.nextReady p = none ↔ ∀ x ∈ p, x.bind RsEntry.ready? = none := by
  induction p with
  | nil => simp [Stations.nextReady]
  | cons x rest ih =>
    cases hx : x.bind RsEntry.ready? with
    | some item => simp only [Stations.nextReady_cons_of_ready hx, List.forall_mem_cons, hx, reduceCtorEq, false_and]
    | none =>
      simp only [Stations.nextReady_cons_of_not_ready hx, Option.map_eq_none_iff, List.forall_mem_cons, hx, ih,
        true_and]

/-- What is dispatched is the lowest ready entry's item, and the pool changes in that station only (R124). -/
theorem Stations.nextReady_eq_some {p p' : Stations} {item : ExecItem}
    (h : Stations.nextReady p = some (item, p')) :
    ∃ k e, p[k]? = some (some e) ∧ e.ready? = some item ∧ p' = p.set k none ∧
      ∀ j x, j < k → p[j]? = some x → x.bind RsEntry.ready? = none := by
  induction p generalizing p' with
  | nil => cases h
  | cons x rest ih =>
    cases hx : x.bind RsEntry.ready? with
    | some found =>
      obtain ⟨e, rfl, hready⟩ := Option.bind_eq_some_iff.mp hx
      rw [Stations.nextReady_cons_of_ready hx] at h
      cases h
      exact ⟨0, e, rfl, hready, rfl, nofun⟩
    | none =>
      rw [Stations.nextReady_cons_of_not_ready hx] at h
      obtain ⟨⟨_, rest'⟩, hrest, heq⟩ := Option.map_eq_some_iff.mp h
      cases heq
      obtain ⟨k, e, hk, hready, rfl, hlower⟩ := ih hrest
      refine ⟨k + 1, e, hk, hready, rfl, fun j y hj hy => ?_⟩
      cases j with
      | zero =>
        cases hy
        exact hx
      | succ j => exact hlower j y (Nat.lt_of_succ_lt_succ hj) hy

/-- Settles O35: a scan that answers stops at the lowest ready station, and one that does not found none. -/
theorem lowestReadyStationIsDispatched : Obligations.LowestReadyStationIsDispatched := by
  refine fun p => ⟨fun item p' h => ?_, fun h j e hj => ?_, fun h => ?_⟩
  · obtain ⟨k, e, hk, hready, hset, hlower⟩ := Stations.nextReady_eq_some h
    obtain ⟨a, b, ha, hb, hitem⟩ := RsEntry.ready?_eq_some_iff.mp hready
    exact ⟨k, e, a, b, hk, ha, hb, hitem, hset, fun j e' hj he' => RsEntry.ready?_eq_none_iff.mp (hlower j _ hj he')⟩
  · exact RsEntry.ready?_eq_none_iff.mp (Stations.nextReady_eq_none_iff.mp h _ (List.mem_of_getElem? hj))
  · refine Stations.nextReady_eq_none_iff.mpr fun x hx => ?_
    obtain ⟨j, hj⟩ := List.mem_iff_getElem?.mp hx
    cases x with
    | none => rfl
    | some e => exact RsEntry.ready?_eq_none_iff.mpr (h j e hj)

end Sys2Proof.Machine
end

section

/-! The load-store queue: the youngest older store, when an entry is ready and which one is dispatched (R135, R136, R138),
the forward scan (R137), the forwarding of a committed store (R142), and what a broadcast makes of an entry (R134). -/

namespace Sys2Proof.Machine

/-! ### Stores to an address -/

/-- A store whose address is `a` (R136 (4), R142). -/
def LsqEntry.storesTo (a : Word) (e : LsqEntry) : Prop := e.op = .sw ∧ e.addr = some a

theorem LsqEntry.not_storesTo_of_load {e : LsqEntry} (h : e.op = .lw) (a : Word) : ¬ e.storesTo a :=
  fun hs => nomatch h.symm.trans hs.1

/-- The `youngestStore` of a list is its first store to the address: the older entries stand youngest first. -/
theorem youngestStore_eq_some_iff {older : List LsqEntry} {a : Word} {st : LsqEntry} :
    youngestStore older a = some st ↔
      st.storesTo a ∧ ∃ pre post, older = pre ++ st :: post ∧ ∀ o ∈ pre, ¬ o.storesTo a := by
  simp [youngestStore, List.find?_eq_some_iff_append, LsqEntry.storesTo, imp_iff_not_or]

theorem youngestStore_eq_none_iff {older : List LsqEntry} {a : Word} :
    youngestStore older a = none ↔ ∀ o ∈ older, ¬ o.storesTo a := by
  simp [youngestStore, LsqEntry.storesTo]

/-- No store to `a` stands before position `k`. -/
def NoStoreBefore (a : Word) (l : List LsqEntry) (k : Nat) : Prop :=
  ∀ j o, j < k → l[j]? = some o → ¬ o.storesTo a

theorem noStoreBefore_zero (a : Word) (l : List LsqEntry) : NoStoreBefore a l 0 :=
  fun _ _ hj => absurd hj (Nat.not_lt_zero _)

theorem noStoreBefore_succ {a : Word} {e : LsqEntry} {rest : List LsqEntry} {k : Nat} :
    NoStoreBefore a (e :: rest) (k + 1) ↔ ¬ e.storesTo a ∧ NoStoreBefore a rest k := by
  constructor
  · exact fun h => ⟨h 0 e k.succ_pos rfl, fun j o hj ho => h (j + 1) o (Nat.succ_lt_succ hj) ho⟩
  · rintro ⟨hfirst, hrest⟩ j o hj ho
    cases j with
    | zero =>
      cases ho
      exact hfirst
    | succ j => exact hrest j o (Nat.lt_of_succ_lt_succ hj) ho

/-- Among the entries older than position `k`, youngest first, there is no store to `a`. -/
theorem youngestStore_older_eq_none {a : Word} {l : List LsqEntry} {k : Nat} (h : NoStoreBefore a l k) :
    youngestStore (l.take k).reverse a = none := by
  refine youngestStore_eq_none_iff.mpr fun o ho => ?_
  obtain ⟨j, hj⟩ := List.mem_iff_getElem?.mp (List.mem_reverse.mp ho)
  rw [List.getElem?_take, Option.ite_none_right_eq_some] at hj
  obtain ⟨hjk, hl⟩ := hj
  exact h j o hjk hl

/-- The entries before a position behind `j`, youngest first, with the one at `j` singled out. -/
theorem reverse_take_eq_append_cons {l : List LsqEntry} {j : Nat} {st : LsqEntry} (hj : l[j]? = some st) (n : Nat) :
    (l.take (j + 1 + n)).reverse = ((l.drop (j + 1)).take n).reverse ++ st :: (l.take j).reverse := by
  rw [List.take_add, List.take_add_one, hj]
  simp

/-- The store at `j` is the youngest to `a` before position `k`, if none stands between. -/
theorem youngestStore_older_eq_some {a : Word} {l : List LsqEntry} {j k : Nat} {st : LsqEntry} (hjk : j < k)
    (hj : l[j]? = some st) (hst : st.storesTo a)
    (hbetween : ∀ i o, j < i → i < k → l[i]? = some o → ¬ o.storesTo a) :
    youngestStore (l.take k).reverse a = some st := by
  obtain ⟨n, rfl⟩ := Nat.exists_eq_add_of_le (Nat.succ_le_of_lt hjk)
  refine youngestStore_eq_some_iff.mpr ⟨hst, _, _, reverse_take_eq_append_cons hj n, fun o ho => ?_⟩
  obtain ⟨i, hi⟩ := List.mem_iff_getElem?.mp (List.mem_reverse.mp ho)
  rw [List.getElem?_take, Option.ite_none_right_eq_some, List.getElem?_drop] at hi
  obtain ⟨hin, hl⟩ := hi
  exact hbetween (j + 1 + i) o (by omega) (by omega) hl

/-! ### Readiness -/

theorem LsqEntry.storeValue?_eq_some_iff {e : LsqEntry} {w : Word} :
    e.storeValue? = some w ↔ e.val = some (.val w) := by
  rw [LsqEntry.storeValue?]
  cases e.val with
  | none => simp
  | some o => cases o <;> simp [Operand.value?]

theorem LsqEntry.storeValue?_of_pending {e : LsqEntry} {u : Nat} (h : e.val = some (.tag u)) :
    e.storeValue? = none := by
  rw [LsqEntry.storeValue?, h]
  rfl

/-- The four conditions of R136 for a load with address `a`. -/
theorem LsqEntry.loadReady_iff {older : List LsqEntry} {e : LsqEntry} {a : Word} :
    e.loadReady older a = true ↔
      e.disp = false ∧ (∀ o ∈ older, o.op = .sw → o.addr ≠ none) ∧
        ∀ st, youngestStore older a = some st → ∃ w, st.val = some (.val w) ∧ e.fwd = some w := by
  simp only [LsqEntry.loadReady, Bool.and_eq_true, and_assoc]
  refine and_congr (by simp) (and_congr ?_ ?_)
  · have hop (o : LsqEntry) : (o.op == .lw || o.addr.isSome) = true ↔ (o.op = .sw → o.addr ≠ none) := by
      cases h : o.op <;> simp [Option.isSome_iff_ne_none]
    simp only [List.all_eq_true, hop]
  · cases youngestStore older a with
    | none => simp
    | some st =>
      simp only [Option.some.injEq, forall_eq', ← LsqEntry.storeValue?_eq_some_iff]
      cases st.storeValue? <;> simp

/-- What is dispatched of a load is its slot, its address and its forwarded value (R138). -/
theorem LsqEntry.ready?_load_iff {older : List LsqEntry} {e : LsqEntry} {item : MemItem} (h : e.op = .lw) :
    e.ready? older = some item ↔
      ∃ a, e.addr = some a ∧ e.loadReady older a = true ∧ item = .load e.tag a e.fwd := by
  rw [LsqEntry.ready?, h]
  cases e.addr with
  | none => simp
  | some a => simp [eq_comm (b := item)]

/-- A store is ready whatever is older, and what is dispatched of it is its slot, its address and its value (R135,
R138). -/
theorem LsqEntry.ready?_store_iff {older : List LsqEntry} {e : LsqEntry} {item : MemItem} (h : e.op = .sw) :
    e.ready? older = some item ↔
      e.disp = false ∧ ∃ a w, e.addr = some a ∧ e.val = some (.val w) ∧ item = .store e.tag a w := by
  rw [LsqEntry.ready?, h]
  cases e.addr with
  | none => simp
  | some a => simp [LsqEntry.storeItem?, LsqEntry.storeValue?_eq_some_iff, eq_comm (b := item)]

/-- Settles O36: the store of R136 (4) is the first of the older entries that stores to the address. -/
theorem loadIsReadyExactlyWhenSafe : Obligations.LoadIsReadyExactlyWhenSafe := by
  intro older e item hop
  simp only [LsqEntry.ready?_load_iff hop, LsqEntry.loadReady_iff, youngestStore_eq_some_iff]
  constructor
  · rintro ⟨a, ha, ⟨hdisp, haddr, hyoungest⟩, hitem⟩
    refine ⟨hdisp, ⟨a, ha, hitem⟩, haddr, fun pre st post hsplit hsw hsame hpre => ?_⟩
    rw [ha] at hsame hpre
    exact hyoungest st ⟨⟨hsw, hsame⟩, pre, post, hsplit, hpre⟩
  · rintro ⟨hdisp, ⟨a, ha, hitem⟩, haddr, hyoungest⟩
    refine ⟨a, ha, ⟨hdisp, haddr, ?_⟩, hitem⟩
    rintro st ⟨⟨hsw, hsame⟩, pre, post, hsplit, hpre⟩
    rw [ha] at hyoungest
    exact hyoungest pre st post hsplit hsw hsame hpre

/-! ### Dispatch from the queue -/

theorem dispatchEntries_cons_of_ready {older : List LsqEntry} {e : LsqEntry} {item : MemItem}
    (h : e.ready? older = some item) (rest : List LsqEntry) :
    dispatchEntries older (e :: rest) = some (item, { e with disp := true } :: rest) := by
  rw [dispatchEntries, h]

theorem dispatchEntries_cons_of_not_ready {older : List LsqEntry} {e : LsqEntry} (h : e.ready? older = none)
    (rest : List LsqEntry) :
    dispatchEntries older (e :: rest) = (dispatchEntries (e :: older) rest).map fun r => (r.1, e :: r.2) := by
  rw [dispatchEntries, h]

/-- Passing over one entry moves it to the older ones. -/
theorem reverse_take_succ_cons (e : LsqEntry) (rest older : List LsqEntry) (k : Nat) :
    ((e :: rest).take (k + 1)).reverse ++ older = (rest.take k).reverse ++ e :: older := by
  rw [List.take_succ_cons, List.reverse_cons, List.append_assoc, List.singleton_append]

theorem dispatchEntries_eq_none_iff {older l : List LsqEntry} :
    dispatchEntries older l = none ↔
      ∀ (k : Nat) (e : LsqEntry), l[k]? = some e → e.ready? ((l.take k).reverse ++ older) = none := by
  induction l generalizing older with
  | nil => simp [dispatchEntries]
  | cons x rest ih =>
    rw [← Nat.and_forall_add_one]
    simp only [reverse_take_succ_cons]
    cases hx : x.ready? older with
    | some item => simp [dispatchEntries_cons_of_ready hx, hx]
    | none => simp [dispatchEntries_cons_of_not_ready hx, hx, ih]

/-- What is dispatched is the item of the oldest ready entry, and the list changes in that entry's mark only (R138). -/
theorem dispatchEntries_eq_some {older l l' : List LsqEntry} {item : MemItem}
    (h : dispatchEntries older l = some (item, l')) :
    ∃ k e, l[k]? = some e ∧ e.ready? ((l.take k).reverse ++ older) = some item ∧
      (∀ (j : Nat) (e' : LsqEntry), j < k → l[j]? = some e' → e'.ready? ((l.take j).reverse ++ older) = none) ∧
        l' = l.set k { e with disp := true } := by
  induction l generalizing older l' with
  | nil => cases h
  | cons x rest ih =>
    cases hx : x.ready? older with
    | some found =>
      rw [dispatchEntries_cons_of_ready hx] at h
      cases h
      exact ⟨0, x, rfl, hx, nofun, rfl⟩
    | none =>
      rw [dispatchEntries_cons_of_not_ready hx] at h
      obtain ⟨⟨_, rest'⟩, hrest, heq⟩ := Option.map_eq_some_iff.mp h
      cases heq
      obtain ⟨k, e, hk, hready, holder, rfl⟩ := ih hrest
      refine ⟨k + 1, e, hk, (reverse_take_succ_cons x rest older k).symm ▸ hready, fun j y hj hy => ?_, rfl⟩
      cases j with
      | zero =>
        cases hy
        exact hx
      | succ j =>
        rw [reverse_take_succ_cons]
        exact holder j y (Nat.lt_of_succ_lt_succ hj) hy

theorem Lsq.nextReady_eq_some {q q' : Lsq} {item : MemItem} (h : q.nextReady = some (item, q')) :
    ∃ k e, q.entries[k]? = some e ∧ e.ready? (q.entries.take k).reverse = some item ∧
      (∀ (j : Nat) (e' : LsqEntry), j < k → q.entries[j]? = some e' →
        e'.ready? (q.entries.take j).reverse = none) ∧
        q'.entries = q.entries.set k { e with disp := true } := by
  obtain ⟨⟨_, l'⟩, hl, heq⟩ := Option.map_eq_some_iff.mp h
  cases heq
  simpa using dispatchEntries_eq_some hl

theorem Lsq.nextReady_eq_none_iff {q : Lsq} :
    q.nextReady = none ↔
      ∀ (k : Nat) (e : LsqEntry), q.entries[k]? = some e → e.ready? (q.entries.take k).reverse = none := by
  simp [Lsq.nextReady, dispatchEntries_eq_none_iff]

/-- Settles O37: a scan that answers stops at the oldest ready entry, and one that does not found none. -/
theorem oldestReadyMemoryEntryIsDispatched : Obligations.OldestReadyMemoryEntryIsDispatched := by
  refine ⟨fun q q' item h => ?_, fun q => Lsq.nextReady_eq_none_iff, fun older e item => LsqEntry.ready?_store_iff⟩
  obtain ⟨k, e, hk, hready, holder, hset⟩ := Lsq.nextReady_eq_some h
  exact ⟨k, e, hk, hready, holder, hset, (Lsq.nextReady_shape h).2⟩

/-! ### The forward scan -/

theorem LsqEntry.scan_of_no_store {older : List LsqEntry} {e : LsqEntry} {a : Word} (hop : e.op = .lw)
    (ha : e.addr = some a) (h : youngestStore older a = none) : e.scan older = e := by
  rw [LsqEntry.scan, hop, ha]
  simp only [h]

theorem LsqEntry.scan_of_store {older : List LsqEntry} {e st : LsqEntry} {a : Word} (hop : e.op = .lw)
    (ha : e.addr = some a) (h : youngestStore older a = some st) :
    e.scan older = { e with fwd := st.storeValue? } := by
  rw [LsqEntry.scan, hop, ha]
  simp only [h]

/-- The scan sees at each position the entries before it. -/
theorem getElem?_scanEntries (older l : List LsqEntry) (k : Nat) :
    (scanEntries older l)[k]? = l[k]?.map (LsqEntry.scan ((l.take k).reverse ++ older)) := by
  induction l generalizing older k with
  | nil => rfl
  | cons e rest ih =>
    cases k with
    | zero => rfl
    | succ k =>
      rw [reverse_take_succ_cons]
      exact ih (e :: older) k

theorem Lsq.getElem?_forwardScan (q : Lsq) (k : Nat) :
    q.forwardScan.entries[k]? = q.entries[k]?.map (LsqEntry.scan (q.entries.take k).reverse) := by
  rw [Lsq.forwardScan, getElem?_scanEntries, List.append_nil]

/-- Settles O38: the scan at a load looks up the youngest store among the entries before it. -/
theorem forwardScanTakesTheYoungestOlderStore : Obligations.ForwardScanTakesTheYoungestOlderStore := by
  intro q k l a hk hop ha
  rw [Lsq.getElem?_forwardScan, hk, Option.map_some]
  refine ⟨fun hnone => ?_, fun j st hjk hj hsw hsame hbetween => ?_⟩
  · rw [LsqEntry.scan_of_no_store hop ha (youngestStore_older_eq_none hnone)]
  · rw [LsqEntry.scan_of_store hop ha (youngestStore_older_eq_some hjk hj ⟨hsw, hsame⟩ hbetween)]
    exact ⟨fun w hw => by rw [LsqEntry.storeValue?_eq_some_iff.mpr hw],
      fun u hu => by rw [LsqEntry.storeValue?_of_pending hu]⟩

/-! ### Forwarding of a committed store -/

/-- A load to `a` that has not been dispatched (R142). -/
def LsqEntry.awaits (a : Word) (e : LsqEntry) : Prop := e.op = .lw ∧ e.addr = some a ∧ e.disp = false

theorem forwardStoreTo_cons_of_store {a : Word} {e : LsqEntry} (h : e.storesTo a) (w : Word) (rest : List LsqEntry) :
    forwardStoreTo a w (e :: rest) = e :: rest := if_pos h

theorem forwardStoreTo_cons_of_awaits {a : Word} {e : LsqEntry} (h : e.awaits a) (w : Word) (rest : List LsqEntry) :
    forwardStoreTo a w (e :: rest) = { e with fwd := some w } :: forwardStoreTo a w rest :=
  (if_neg (LsqEntry.not_storesTo_of_load h.1 a)).trans (if_pos h)

theorem forwardStoreTo_cons_of_other {a : Word} {e : LsqEntry} (hs : ¬ e.storesTo a) (hl : ¬ e.awaits a) (w : Word)
    (rest : List LsqEntry) : forwardStoreTo a w (e :: rest) = e :: forwardStoreTo a w rest :=
  (if_neg hs).trans (if_neg hl)

theorem forwardStoreTo_reaches {a : Word} (w : Word) {l : List LsqEntry} {k : Nat} {e : LsqEntry}
    (hk : l[k]? = some e) (hload : e.awaits a) (hbefore : NoStoreBefore a l k) :
    (forwardStoreTo a w l)[k]? = some { e with fwd := some w } := by
  induction l generalizing k with
  | nil => cases hk
  | cons x rest ih =>
    cases k with
    | zero =>
      cases hk
      rw [forwardStoreTo_cons_of_awaits hload]
      rfl
    | succ k =>
      obtain ⟨hx, hrest⟩ := noStoreBefore_succ.mp hbefore
      by_cases hl : x.awaits a
      · rw [forwardStoreTo_cons_of_awaits hl]
        exact ih hk hrest
      · rw [forwardStoreTo_cons_of_other hx hl]
        exact ih hk hrest

theorem forwardStoreTo_keeps {a : Word} (w : Word) {l : List LsqEntry} {k : Nat} {e : LsqEntry}
    (hk : l[k]? = some e) (h : ¬ (e.awaits a ∧ NoStoreBefore a l k)) : (forwardStoreTo a w l)[k]? = some e := by
  induction l generalizing k with
  | nil => cases hk
  | cons x rest ih =>
    by_cases hx : x.storesTo a
    · rwa [forwardStoreTo_cons_of_store hx]
    · cases k with
      | zero =>
        cases hk
        rw [forwardStoreTo_cons_of_other hx fun hl => h ⟨hl, noStoreBefore_zero a _⟩]
        rfl
      | succ k =>
        have hrest : ¬ (e.awaits a ∧ NoStoreBefore a rest k) :=
          fun ⟨hl, hn⟩ => h ⟨hl, noStoreBefore_succ.mpr ⟨hx, hn⟩⟩
        by_cases hl : x.awaits a
        · rw [forwardStoreTo_cons_of_awaits hl]
          exact ih hk hrest
        · rw [forwardStoreTo_cons_of_other hx hl]
          exact ih hk hrest

/-- Settles O39: the walk reaches a waiting load exactly when no store to the address stands before it. -/
theorem storeForwardingStopsAtAYoungerStore : Obligations.StoreForwardingStopsAtAYoungerStore := by
  refine fun a w younger k e hk => ⟨fun ⟨hop, ha, hdisp, hbefore⟩ => ?_, fun h => ?_⟩
  · exact forwardStoreTo_reaches w hk ⟨hop, ha, hdisp⟩ hbefore
  · exact forwardStoreTo_keeps w hk fun ⟨⟨hop, ha, hdisp⟩, hbefore⟩ => h ⟨hop, ha, hdisp, hbefore⟩

/-! ### Capture -/

theorem Lsq.getElem?_capture (q : Lsq) (t : Nat) (v : Word) (k : Nat) :
    (q.capture t v).entries[k]? = q.entries[k]?.map (LsqEntry.capture t v) := List.getElem?_map

theorem LsqEntry.capture_base (t : Nat) (v : Word) (e : LsqEntry) :
    (e.capture t v).base = if e.base = .tag t then .val v else e.base := Operand.capture_eq t v e.base

theorem LsqEntry.capture_addr (t : Nat) (v : Word) (e : LsqEntry) :
    (e.capture t v).addr = if e.base = .tag t then some (effAddr v e.imm) else e.addr := rfl

/-- Of the value, only that of a store that waits for the slot changes (R134). -/
theorem LsqEntry.capture_val (t : Nat) (v : Word) (e : LsqEntry) :
    (e.capture t v).val = if e.op = .sw ∧ e.val = some (.tag t) then some (.val v) else e.val := by
  rw [LsqEntry.capture]
  cases e.op with
  | lw => simp
  | sw =>
    cases e.val with
    | none => simp
    | some o => simp [Operand.capture_eq, apply_ite some]

/-- Settles O40: the captured entry, field by field. -/
theorem lsqCaptureResolvesBaseAndValue : Obligations.LsqCaptureResolvesBaseAndValue := by
  intro q t v k e hk
  refine ⟨e.capture t v, by rw [Lsq.getElem?_capture, hk, Option.map_some], ?_, ?_, ?_, ?_, rfl⟩
  · exact fun h => ⟨(e.capture_base t v).trans (if_pos h), (e.capture_addr t v).trans (if_pos h)⟩
  · exact fun h => ⟨(e.capture_base t v).trans (if_neg h), (e.capture_addr t v).trans (if_neg h)⟩
  · exact fun hop hval => (e.capture_val t v).trans (if_pos ⟨hop, hval⟩)
  · exact fun h => (e.capture_val t v).trans (if_neg h)

end Sys2Proof.Machine
end

section
/-! The predictor family: what `predict` and `check` do to the table and the counters, what every step keeps of the
predictor, and the refusal of a policy that does not exist (53_predictor). -/

namespace Sys2Proof.Machine

/-! ### Prediction -/

/-- Under one-bit an entry of the table is the prediction, and nothing is recorded (R152). -/
theorem Predictor.predict_oneBit_of_entry {p : Predictor} {pc t : Word} (h : p.target? pc = some t) :
    p.predict .oneBit pc = (p, t) := by
  simp only [predict, h]

/-- Without an entry every policy predicts and records the next instruction (R151, R152). -/
theorem Predictor.predict_of_no_entry (policy : Policy) {p : Predictor} {pc : Word} (h : p.target? pc = none) :
    p.predict policy pc = (p.record pc (pc + 1), pc + 1) := by
  rcases p.predict_cases policy pc with ⟨t, -, ht, -⟩ | hp
  · rw [h] at ht
    cases ht
  · exact hp

/-- Every policy but one-bit predicts and records the next instruction, whatever the table holds (R151). -/
theorem Predictor.predict_of_ne_oneBit {policy : Policy} (h : policy ≠ .oneBit) (p : Predictor) (pc : Word) :
    p.predict policy pc = (p.record pc (pc + 1), pc + 1) := by
  rcases p.predict_cases policy pc with ⟨-, hpolicy, -, -⟩ | hp
  · exact absurd hpolicy h
  · exact hp

/-- Settles O41: what is recorded is what the table then holds. -/
theorem predictReturnsAndRecords : Obligations.PredictReturnsAndRecords := by
  intro p pc
  have hrecorded : (p.record pc (pc + 1)).target? pc = some (pc + 1) := p.record_target_self pc (pc + 1)
  rw [Predictor.predict_of_ne_oneBit (policy := .notTaken) nofun]
  refine ⟨rfl, hrecorded, fun hnone => ?_, fun t => Predictor.predict_oneBit_of_entry⟩
  rw [Predictor.predict_of_no_entry .oneBit hnone]
  exact ⟨rfl, hrecorded⟩

/-! ### Validation -/

/-- A branch or jump is taken exactly if its result is not 0 (R154). -/
theorem correctNext_eq (pc rpc result : Word) : correctNext pc rpc result = if result ≠ 0 then rpc else pc + 1 := by
  simp only [correctNext, takenOf, bne_iff_ne]

/-- A right prediction is counted (R154). -/
theorem Predictor.check_of_match (policy : Policy) {p : Predictor} {pc rpc result : Word}
    (h : p.target? pc = some (correctNext pc rpc result)) :
    p.check policy pc rpc result =
      ⟨p.counted pc (correctNext pc rpc result), true, correctNext pc rpc result⟩ := if_pos h

/-- A wrong prediction is counted, and counted as missed (R154). -/
theorem Predictor.check_of_mismatch (policy : Policy) {p : Predictor} {pc rpc result : Word}
    (h : p.target? pc ≠ some (correctNext pc rpc result)) :
    p.check policy pc rpc result =
      ⟨(p.counted pc (correctNext pc rpc result)).missed policy pc (correctNext pc rpc result), false,
        correctNext pc rpc result⟩ := if_neg h

/-- Under every policy but one-bit a validation leaves the table (R154, R157). -/
theorem Predictor.check_btb_of_ne_oneBit {policy : Policy} (h : policy ≠ .oneBit) (p : Predictor)
    (pc rpc result : Word) : (p.check policy pc rpc result).pred.btb = p.btb := by
  by_cases hmatch : p.target? pc = some (correctNext pc rpc result)
  · rw [check_of_match policy hmatch, counted_btb]
  · rw [check_of_mismatch policy hmatch]
    rcases (p.counted pc _).missed_cases policy pc (correctNext pc rpc result) with ⟨hpolicy, -⟩ | ⟨-, hmissed⟩
    · exact absurd hpolicy h
    · rw [hmissed, counted_btb]

/-- Settles O42: a validation counts, and on a mismatch it adds what a miss adds under its policy. -/
theorem checkValidatesAndCounts : Obligations.CheckValidatesAndCounts := by
  intro policy p pc rpc result correct hcorrect c
  obtain rfl : correctNext pc rpc result = correct := (correctNext_eq pc rpc result).trans hcorrect.symm
  by_cases hmatch : p.target? pc = some (correctNext pc rpc result)
  · have hc : c = _ := Predictor.check_of_match policy hmatch
    rw [hc]
    exact ⟨rfl, rfl, rfl, fun _ => ⟨rfl, rfl, rfl⟩, fun hne => absurd hmatch hne⟩
  · have hc : c = _ := Predictor.check_of_mismatch policy hmatch
    rcases (p.counted pc _).missed_cases policy pc (correctNext pc rpc result)
      with ⟨hpolicy, hmissed⟩ | ⟨hpolicy, hmissed⟩ <;> rw [hc, hmissed]
    · exact ⟨rfl, rfl, rfl, fun h => absurd h hmatch,
        fun _ => ⟨rfl, rfl, fun _ => p.record_target_self pc _, fun hne => absurd hpolicy hne⟩⟩
    · exact ⟨rfl, rfl, rfl, fun h => absurd h hmatch, fun _ => ⟨rfl, rfl, fun h => absurd h hpolicy, fun _ => rfl⟩⟩

/-- Settles O43: the two branches of the accuracy. -/
theorem accuracyIsOneWithoutBranches : Obligations.AccuracyIsOneWithoutBranches := fun _ =>
  ⟨fun hzero => if_pos hzero, fun hcounted => if_neg hcounted⟩

/-! ### What every step keeps of the predictor

Only fetch and the commit of a branch or jump touch the predictor, the one by `predict` and the other by `check` (R153,
R168), and no stage touches the policy. -/

section

variable {Q : Policy → Predictor → Prop} {s : State} (hs : Q s.cfgPolicy s.pred)
include hs

theorem stageDecode_predictor : (stageDecode s).all fun t => Q t.cfgPolicy t.pred := by
  rcases stageDecode_cases s with ⟨_, _, _, -, -, h⟩ | ⟨_, _, _, -, -, h⟩ | h <;> rw [h] <;> exact hs

theorem stageIssue_predictor : Q (stageIssue s).cfgPolicy (stageIssue s).pred := by
  rcases stageIssue_cases s with ⟨item, rest, -, -, h⟩ | h <;> rw [h]
  · obtain ⟨_, _, _, hissue, -, -⟩ :=
      State.issue_cases (s.withQueues { s.queues with iq := s.queues.iq.pop }) item.instr item.pc
    rw [hissue]
    exact hs
  · exact hs

theorem stageDispatch_predictor : Q (stageDispatch s).cfgPolicy (stageDispatch s).pred := by
  have station : Q (dispatchStation s).cfgPolicy (dispatchStation s).pred := by
    rcases dispatchStation_cases s with ⟨_, _, -, -, h⟩ | h <;> rw [h] <;> exact hs
  rw [stageDispatch]
  rcases dispatchMemory_cases (dispatchStation s) with ⟨_, _, -, -, h⟩ | h <;> rw [h] <;> exact station

theorem stageExecute_predictor : (stageExecute s).all fun t => Q t.cfgPolicy t.pred := by
  rcases stageExecute_cases s with ⟨_, _, -, ⟨_, -, h⟩ | ⟨-, h⟩ | ⟨-, h⟩⟩ | h <;> rw [h] <;> exact hs

theorem stageMemory_predictor : Q (stageMemory s).cfgPolicy (stageMemory s).pred := by
  rcases stageMemory_cases s with ⟨item, _, -, h⟩ | h <;> rw [h]
  · rcases State.evalMemory_cases (s.withQueues { s.queues with mq := s.queues.mq.pop }) item
      with ⟨_, _, h⟩ | ⟨_, _, -, h⟩ <;> rw [h] <;> exact hs
  · exact hs

theorem stageWriteback_predictor : Q (stageWriteback s).cfgPolicy (stageWriteback s).pred := by
  rcases stageWriteback_cases s with ⟨_, _, -, h⟩ | h <;> rw [h] <;> exact hs

theorem endOfSubstep_predictor : (endOfSubstep s).all fun t => Q t.cfgPolicy t.pred := by
  rcases endOfSubstep_cases s with h | ⟨-, -, h⟩ <;> rw [h] <;> exact hs

end

section

variable {Q : Policy → Predictor → Prop}

/-- The flush of a mispredicted branch or jump leaves the predictor its validation gave (R169). -/
theorem flush_predictor {s : State} {p : Predictor} (correct : Word) (n : Nat) (hs : Q s.cfgPolicy p) :
    (SubResult.flush (((s.withPred p).flush correct).withExecuted n)).all fun t => Q t.cfgPolicy t.pred := by
  simpa [State.flush_eq] using hs

theorem finishCommit_predictor {s : State} (e : RobEntry) (v : Word) (hs : Q s.cfgPolicy s.pred) :
    (s.finishCommit e v).all fun t => Q t.cfgPolicy t.pred := by
  refine State.finishCommit_all (fun _ h => h) ?_
  obtain ⟨regs, rat, h⟩ := s.commitReg_eq e.dest v s.rob.head
  rw [h]
  exact hs

theorem haltTest_predictor (s : State) (hs : Q s.cfgPolicy s.pred) : Q s.haltTest.cfgPolicy s.haltTest.pred := by
  rw [s.haltTest_eq]
  exact hs

theorem stageFetch_predictor (predicted : ∀ policy p pc, Q policy p → Q policy (p.predict policy pc).1) (s : State)
    (hs : Q s.cfgPolicy s.pred) : Q (stageFetch s).cfgPolicy (stageFetch s).pred := by
  rcases stageFetch_cases s with ⟨_, -, -, h⟩ | h <;> rw [h]
  · exact predicted _ _ s.pc hs
  · exact hs

variable (checked : ∀ policy p pc rpc result, Q policy p → Q policy (p.check policy pc rpc result).pred)
include checked

theorem commitBranch_predictor {s : State} (hs : Q s.cfgPolicy s.pred) (e : RobEntry) (v : Word) :
    (s.commitBranch e v).all fun t => Q t.cfgPolicy t.pred := by
  have validated := checked _ _ e.pc e.rpc v hs
  rcases s.commitBranch_cases e v with ⟨-, h⟩ | ⟨-, h⟩ <;> rw [h]
  · exact finishCommit_predictor e v validated
  · exact flush_predictor _ _ validated

theorem stageCommit_predictor (s : State) (hs : Q s.cfgPolicy s.pred) :
    (stageCommit s).all fun t => Q t.cfgPolicy t.pred := by
  rcases stageCommit_cases s with ⟨e, -, -, -, h⟩ | h | h <;> rw [h]
  · rcases s.commitEntry_cases e with ⟨_, -, h⟩ | ⟨-, -, h⟩ | ⟨v, -, -, ⟨-, h⟩ | ⟨-, h⟩ | ⟨-, h⟩ | ⟨-, h⟩⟩ <;> rw [h]
    · exact hs
    · trivial
    · exact commitBranch_predictor checked hs e v
    · rcases s.commitStore_cases e v with ⟨a, k, -, h⟩ | ⟨_, -, h⟩ | h <;> rw [h]
      · exact finishCommit_predictor e v hs
      · exact hs
      · trivial
    · rcases s.commitLoad_cases e v with ⟨_, -, h⟩ | h <;> rw [h]
      · exact finishCommit_predictor e v hs
      · trivial
    · exact finishCommit_predictor e v hs
  · exact hs
  · trivial

/-- An instruction in program order touches the predictor only to validate a branch or jump (R178). -/
theorem exec_predictor {i : Instr} {s t : State} (hs : Q s.cfgPolicy s.pred) (h : exec i s = .next t) :
    Q t.cfgPolicy t.pred := by
  rcases exec_cases h with ⟨_, _, -, rfl⟩ | ⟨_, rfl⟩ | ⟨_, _, _, -, rfl⟩ | ⟨target, result, rfl⟩
  · rw [State.retireReg_eq]
    exact hs
  · exact hs
  · rw [State.retire_eq]
    exact hs
  · rw [State.retireBranch, State.retire_eq]
    exact checked _ _ s.pc target result hs

/-- A property of the policy and the predictor that `predict` and `check` keep is kept by every step of either machine
(R153, R168). -/
theorem step_predictor (predicted : ∀ policy p pc, Q policy p → Q policy (p.predict policy pc).1) {s t : State}
    (hs : Q s.cfgPolicy s.pred) (h : step s = .next t) : Q t.cfgPolicy t.pred :=
  step_keeps (P := fun u => Q u.cfgPolicy u.pred)
    (fun _ => substep_keeps (stageFetch_predictor predicted) (fun _ => stageDecode_predictor)
      (fun _ => stageIssue_predictor) (fun _ => stageDispatch_predictor) (fun _ => stageExecute_predictor)
      (fun _ => stageMemory_predictor) (fun _ => stageWriteback_predictor) (stageCommit_predictor checked)
      (fun _ => endOfSubstep_predictor))
    (fun _ _ h => h) (fun _ _ h => h) haltTest_predictor
    (fun u _ _ hu he => exec_predictor checked (s := u.recordPrediction) (predicted _ _ u.pc hu) he) hs h

end

/-! ### The table under not-taken -/

/-- Every entry of the table is the next instruction (R157). -/
def Predictor.BetsOnNext (p : Predictor) : Prop := ∀ pc t, p.target? pc = some t → t = pc + 1

theorem btbBetsOnNext_iff (s : State) : btbBetsOnNext s ↔ (s.cfgPolicy = .notTaken → s.pred.BetsOnNext) := Iff.rfl

theorem Predictor.BetsOnNext.record_next {p : Predictor} (h : p.BetsOnNext) (pc : Word) :
    (p.record pc (pc + 1)).BetsOnNext := by
  intro q t ht
  by_cases hq : q = pc
  · subst hq
    rw [record_target_self] at ht
    exact (Option.some.inj ht).symm
  · rw [record_target_ne p _ hq] at ht
    exact h q t ht

theorem Predictor.BetsOnNext.of_btb_eq {p p' : Predictor} (h : p.BetsOnNext) (hbtb : p'.btb = p.btb) :
    p'.BetsOnNext := by
  intro pc t ht
  rw [target?, hbtb] at ht
  exact h pc t ht

/-- Settles O56: under not-taken `predict` records the next instruction, and `check` leaves the table. -/
theorem stepKeepsNotTakenTable : Obligations.StepKeepsNotTakenTable := by
  intro s t hs h
  rw [btbBetsOnNext_iff] at hs ⊢
  refine step_predictor (Q := fun policy p => policy = .notTaken → p.BetsOnNext) ?checked ?predicted hs h
  case checked =>
    rintro _ p pc rpc result hp rfl
    exact (hp rfl).of_btb_eq (Predictor.check_btb_of_ne_oneBit (policy := .notTaken) nofun p pc rpc result)
  case predicted =>
    rintro _ p pc hp rfl
    rw [Predictor.predict_of_ne_oneBit (policy := .notTaken) nofun]
    exact (hp rfl).record_next pc

/-! ### The refused configuration -/

/-- R150 and R189 accept the two policies that exist, with a positive width. -/
theorem configAccepted_iff {policy : Policy} {width : Int} :
    configAccepted policy width = true ↔ (policy = .notTaken ∨ policy = .oneBit) ∧ 0 < width := by
  cases policy <;> simp [configAccepted, Policy.implemented]

/-- A configuration that is not accepted is fatal at reset (R189). -/
theorem boot_status_of_refused {inp : Inputs} (h : ¬ configAccepted inp.policy inp.width = true) :
    (State.boot inp).status = .fatal .configError := if_neg h

/-- Settles O28: the refused core is fatal from reset, and a core that does not run steps to itself. -/
theorem refusedConfigurationIsFatalAtReset : Obligations.RefusedConfigurationIsFatalAtReset := by
  intro inp hrefused
  have hnot : ¬ configAccepted inp.policy inp.width = true := by
    rw [configAccepted_iff]
    rintro ⟨hpolicy, hwidth⟩
    rcases hrefused with ⟨hnotTaken, honeBit⟩ | hnonpos
    · exact hpolicy.elim hnotTaken honeBit
    · omega
  have hstatus := boot_status_of_refused hnot
  refine ⟨hstatus, rfl, stoppedCoreStaysAsItIs _ ?_⟩
  rw [hstatus]
  exact nofun

end Sys2Proof.Machine
end

section
/-! The cycle engine: what a sub-step's outcome says of the status, what a cycle counts, and the step of the reference
machine (54_cycle_engine). -/

namespace Sys2Proof.Machine

/-! ### A recorded fault -/

/-- Settles O45: the fault is the first thing the commit of an entry looks at. -/
theorem recordedFaultIsRaisedBeforeAnyEffect : Obligations.RecordedFaultIsRaisedBeforeAnyEffect := by
  intro s e f hcount hentry hdone hfault
  simp only [stageCommit, hcount, hentry, hdone, State.commitEntry, hfault, if_false, if_true]
  rfl

/-! ### The step of the reference machine -/

/-- The table holds what `predict` answered (R151 to R153). -/
theorem Predictor.predict_target_self (policy : Policy) (p : Predictor) (pc : Word) :
    (p.predict policy pc).1.target? pc = some (p.predict policy pc).2 := by
  rcases p.predict_cases policy pc with ⟨t, -, ht, h⟩ | h <;> rw [h]
  · exact ht
  · exact p.record_target_self pc (pc + 1)

/-- `predict` leaves the entries of the other pcs (R151, R152). -/
theorem Predictor.predict_target_ne (policy : Policy) (p : Predictor) {pc q : Word} (hq : q ≠ pc) :
    (p.predict policy pc).1.target? q = p.target? q := by
  rcases p.predict_cases policy pc with ⟨t, -, -, h⟩ | h <;> rw [h]
  exact p.record_target_ne (pc + 1) hq

/-- The counters of a predictor (R37). -/
def Predictor.counters (p : Predictor) : Nat × Nat × Nat := (p.nChecked, p.nMissed, p.distSum)

theorem Predictor.predict_counters (policy : Policy) (p : Predictor) (pc : Word) :
    (p.predict policy pc).1.counters = p.counters := by
  rcases p.predict_cases policy pc with ⟨t, -, -, h⟩ | h <;> rw [h]
  rfl

/-- A running, configured reference machine that does not hold 1 in its halt register runs the code at `PC` (R178). -/
theorem referenceStep_of_running {s : State} (hrun : s.status = .running) (hconf : s.configured = true)
    (hhalt : s.reg 31 ≠ 1) : referenceStep s = fetchAndExec s := by
  have hrunning : s.running = true := beq_iff_eq.mpr hrun
  simp only [referenceStep, hrunning, hconf, Bool.not_true, Bool.false_eq_true, if_false, haltReg_eq]
  exact if_neg hhalt

theorem fetchAndExec_of_decode {s : State} {code : Code} {i : Instr} (hcode : s.imem? s.pc = some code)
    (hi : decode s.symtab code = .ok i) : fetchAndExec s = exec i s.recordPrediction := by
  simp only [fetchAndExec, hcode, hi]

/-- Settles O24. -/
theorem stepRunsTheDecodedInstruction : Obligations.StepRunsTheDecodedInstruction := by
  intro s code i hengine hrun hconf hhalt hcode hi p
  have hstep : step s = exec i (s.withPred p.1) := by
    rw [step, hengine]
    exact (referenceStep_of_running hrun hconf hhalt).trans (fetchAndExec_of_decode hcode hi)
  have hcounters : p.1.counters = s.pred.counters := s.pred.predict_counters s.cfgPolicy s.pc
  simp only [Predictor.counters, Prod.mk.injEq] at hcounters
  exact ⟨hstep, s.pred.predict_target_self _ _, fun q hq => s.pred.predict_target_ne _ hq, hcounters⟩

/-! ### The outcome of a sub-step -/

/-- The outcome tells the status of the state a sub-step ends in, where `st` is the status it began with: a halt leaves
1 in register 31, a fatal end a fatal status, and nothing is in flight after a flush (R169, R170, R192). -/
def SubResult.reports (st : Status) : SubResult → Prop
  | .cont t => t.status = st
  | .flush t => t.status = st ∧ t.drained = true
  | .halt t => t.status = .halted ∧ t.reg 31 = 1
  | .fatal t => t.isFatal = true
  | .broken _ => True

/-- A sequence of stages reports what its parts report. -/
theorem SubResult.reports_andThen {st : Status} {r : SubResult} {k : State → SubResult} (hr : r.reports st)
    (hk : ∀ t, t.status = st → (k t).reports st) : (r.andThen k).reports st := by
  cases r with
  | cont t => exact hk t hr
  | flush t | halt t | fatal t | broken f => exact hr

/-! ### What only commit changes -/

/-- Committed state, the status, what no run changes, and the count of cycles. -/
def State.settled (s : State) : (Vector Word 32 × Memory × Nat) × Status × Nat ×
    (List Code × SymTab × Params × Policy × Int) :=
  ((s.regs, s.mem, s.executed), s.status, s.cycles, s.fixed)

theorem stageFetch_settled (s : State) : (stageFetch s).settled = s.settled := by
  rcases stageFetch_cases s with ⟨_, -, -, h⟩ | h <;> rw [h]
  rfl

theorem stageDecode_settled {s t : State} (ht : stageDecode s = .cont t) : t.settled = s.settled := by
  rcases stageDecode_cases s with ⟨_, _, _, -, -, h⟩ | ⟨_, _, _, -, -, h⟩ | h <;> cases h.symm.trans ht <;> rfl

theorem stageIssue_settled (s : State) : (stageIssue s).settled = s.settled := by
  rcases stageIssue_cases s with ⟨item, rest, -, -, h⟩ | h <;> rw [h]
  obtain ⟨_, _, _, hissue, -, -⟩ :=
    State.issue_cases (s.withQueues { s.queues with iq := s.queues.iq.pop }) item.instr item.pc
  simp [hissue, State.settled, State.fixed]

theorem dispatchStation_settled (s : State) : (dispatchStation s).settled = s.settled := by
  rcases dispatchStation_cases s with ⟨_, _, -, -, h⟩ | h <;> rw [h]
  rfl

theorem dispatchMemory_settled (s : State) : (dispatchMemory s).settled = s.settled := by
  rcases dispatchMemory_cases s with ⟨_, _, -, -, h⟩ | h <;> rw [h] <;> rfl

theorem stageDispatch_settled (s : State) : (stageDispatch s).settled = s.settled :=
  (dispatchMemory_settled _).trans (dispatchStation_settled s)

theorem stageExecute_settled {s t : State} (ht : stageExecute s = .cont t) : t.settled = s.settled := by
  rcases stageExecute_cases s with ⟨_, _, -, ⟨_, -, h⟩ | ⟨-, h⟩ | ⟨-, h⟩⟩ | h <;> cases h.symm.trans ht <;> rfl

theorem stageMemory_settled (s : State) : (stageMemory s).settled = s.settled := by
  rcases stageMemory_cases s with ⟨item, _, -, h⟩ | h <;> rw [h]
  obtain ⟨_, _, -, h⟩ := (s.withQueues { s.queues with mq := s.queues.mq.pop }).evalMemory_eq item
  rw [h]
  rfl

theorem stageWriteback_settled (s : State) : (stageWriteback s).settled = s.settled := by
  rcases stageWriteback_cases s with ⟨_, _, -, h⟩ | h <;> rw [h]
  rfl

/-- What the commit stage sees comes from the seven stages before it, none of which ended the sub-step (R160). -/
theorem beforeCommit_eq_cont {s u : State} (h : beforeCommit s = .cont u) :
    ∃ d x, stageDecode (stageFetch s) = .cont d ∧ stageExecute (stageDispatch (stageIssue d)) = .cont x ∧
      u = stageWriteback (stageMemory x) := by
  obtain ⟨d, hd, h⟩ := SubResult.andThen_eq_cont.mp h
  obtain ⟨x, hx, h⟩ := SubResult.andThen_eq_cont.mp h
  exact ⟨d, x, hd, hx, (SubResult.cont.inj h).symm⟩

/-- Only commit changes registers, memory, the count and the status of a sub-step that goes on (R50, R192). -/
theorem beforeCommit_settled {s u : State} (h : beforeCommit s = .cont u) : u.settled = s.settled := by
  obtain ⟨d, x, hd, hx, rfl⟩ := beforeCommit_eq_cont h
  calc (stageWriteback (stageMemory x)).settled
      _ = x.settled := (stageWriteback_settled _).trans (stageMemory_settled x)
      _ = d.settled := (stageExecute_settled hx).trans ((stageDispatch_settled _).trans (stageIssue_settled d))
      _ = s.settled := (stageDecode_settled hd).trans (stageFetch_settled s)

theorem State.settled_eq_iff {s t : State} : t.settled = s.settled ↔
    (t.regs = s.regs ∧ t.mem = s.mem ∧ t.executed = s.executed) ∧ t.status = s.status ∧ t.cycles = s.cycles ∧
      t.fixed = s.fixed := by
  simp only [State.settled, Prod.mk.injEq]

/-- The seven stages before commit end a sub-step only with a fatal error (R191). -/
theorem beforeCommit_cont_or_fatal (s : State) :
    (∃ u, beforeCommit s = .cont u) ∨ ∃ u e, beforeCommit s = .fatal u ∧ u.status = .fatal e := by
  have decoded (v : State) :
      (∃ t, stageDecode v = .cont t) ∨ ∃ t e, stageDecode v = .fatal t ∧ t.status = .fatal e := by
    rcases stageDecode_cases v with ⟨_, _, _, -, -, h⟩ | ⟨_, _, _, -, -, h⟩ | h
    · exact .inl ⟨_, h⟩
    · exact .inr ⟨_, _, h, rfl⟩
    · exact .inl ⟨_, h⟩
  have executed (v : State) :
      (∃ t, stageExecute v = .cont t) ∨ ∃ t e, stageExecute v = .fatal t ∧ t.status = .fatal e := by
    rcases stageExecute_cases v with ⟨_, _, -, ⟨_, -, h⟩ | ⟨-, h⟩ | ⟨-, h⟩⟩ | h
    · exact .inl ⟨_, h⟩
    · exact .inl ⟨_, h⟩
    · exact .inr ⟨_, _, h, rfl⟩
    · exact .inl ⟨_, h⟩
  rcases decoded (stageFetch s) with ⟨d, hd⟩ | ⟨t, e, ht, he⟩
  · rcases executed (stageDispatch (stageIssue d)) with ⟨x, hx⟩ | ⟨t, e, ht, he⟩
    · exact .inl ⟨_, by rw [beforeCommit, hd, SubResult.cont_andThen, hx, SubResult.cont_andThen]⟩
    · exact .inr ⟨t, e, by rw [beforeCommit, hd, SubResult.cont_andThen, ht, SubResult.fatal_andThen], he⟩
  · exact .inr ⟨t, e, by rw [beforeCommit, ht, SubResult.fatal_andThen], he⟩

theorem State.isFatal_of_status {s : State} {e : FatalError} (h : s.status = .fatal e) : s.isFatal = true := by
  rw [State.isFatal, h]

theorem beforeCommit_reports (s : State) : (beforeCommit s).reports s.status := by
  rcases beforeCommit_cont_or_fatal s with ⟨u, h⟩ | ⟨u, e, h, he⟩ <;> rw [h]
  · obtain ⟨-, hstatus, -⟩ := State.settled_eq_iff.mp (beforeCommit_settled h)
    exact hstatus
  · exact State.isFatal_of_status he

/-- A flushed core has nothing in flight (R169). -/
theorem flush_drained (s : State) (correct : Word) (n : Nat) : ((s.flush correct).withExecuted n).drained = true := by
  simp [State.drained, Rob.clearOnFlush, Stations.clear, Lsq.clear]

theorem finishCommit_reports (s : State) (e : RobEntry) (v : Word) : (s.finishCommit e v).reports s.status := by
  obtain ⟨regs, rat, hreg⟩ := s.commitReg_eq e.dest v s.rob.head
  rcases s.finishCommit_cases e v with ⟨h1, h⟩ | ⟨-, h⟩ <;> rw [h]
  · exact ⟨rfl, h1⟩
  · rw [hreg]
    rfl

theorem stageCommit_reports (s : State) : (stageCommit s).reports s.status := by
  rcases stageCommit_cases s with ⟨e, -, -, -, h⟩ | h | h <;> rw [h]
  · rcases s.commitEntry_cases e with ⟨_, -, h⟩ | ⟨-, -, h⟩ | ⟨v, -, -, ⟨-, h⟩ | ⟨-, h⟩ | ⟨-, h⟩ | ⟨-, h⟩⟩ <;> rw [h]
    · exact State.isFatal_of_status rfl
    · trivial
    · rcases s.commitBranch_cases e v with ⟨-, h⟩ | ⟨-, h⟩ <;> rw [h]
      · exact finishCommit_reports _ e v
      · obtain ⟨-, -, -, -, -, -, hstatus⟩ := (s.withPred (s.pred.check s.cfgPolicy e.pc e.rpc v).pred).flush_kept
          (s.pred.check s.cfgPolicy e.pc e.rpc v).correct
        exact ⟨hstatus, flush_drained _ _ _⟩
    · rcases s.commitStore_cases e v with ⟨_, _, -, h⟩ | ⟨_, -, h⟩ | h <;> rw [h]
      · exact finishCommit_reports _ e v
      · exact State.isFatal_of_status rfl
      · trivial
    · rcases s.commitLoad_cases e v with ⟨_, -, h⟩ | h <;> rw [h]
      · exact finishCommit_reports _ e v
      · trivial
    · exact finishCommit_reports s e v
  · rfl
  · trivial

theorem endOfSubstep_reports (s : State) : (endOfSubstep s).reports s.status := by
  rcases endOfSubstep_cases s with h | ⟨-, -, h⟩ <;> rw [h]
  · rfl
  · exact State.isFatal_of_status rfl

theorem substep_reports (s : State) : (substep s).reports s.status :=
  SubResult.reports_andThen (beforeCommit_reports s) fun u hu =>
    SubResult.reports_andThen (hu ▸ stageCommit_reports u) fun t ht => ht ▸ endOfSubstep_reports t

/-- Settles O48: each stage reports, and so does their sequence. -/
theorem substepOutcomeIsTheStatus : Obligations.SubstepOutcomeIsTheStatus := by
  intro s t
  have h := substep_reports s
  refine ⟨fun ht => ?_, fun ht => ?_, fun ht => ?_, fun ht => ?_⟩ <;> rw [ht] at h <;> exact h

/-! ### The count of cycles -/

theorem subLoop_reports (n : Nat) (s : State) : (subLoop n s).reports s.status := by
  induction n generalizing s with
  | zero => rfl
  | succ n ih => exact SubResult.reports_andThen (substep_reports s) fun t ht => ht ▸ ih t

theorem cycles_ignoresSpeculation (c : Nat) : IgnoresSpeculation fun s => s.cycles = c where
  withPc _ _ h := h
  withRs _ _ h := h
  withLsq _ _ h := h
  withQueues _ _ h := h
  withPred _ _ h := h
  withPoisonSeq _ _ h := h
  withRat _ _ h := h
  withRob _ _ h := h
  raise _ _ h := h

/-- No sub-step counts a cycle (R173). -/
theorem substep_cycles (c : Nat) (s : State) (h : s.cycles = c) : (substep s).all fun t => t.cycles = c := by
  refine (cycles_ignoresSpeculation c).substep (fun _ _ h => h) (fun s e v h => ?_) (fun _ _ _ _ _ h => h) s h
  obtain ⟨regs, rat, hreg⟩ := s.commitReg_eq e.dest v s.rob.head
  refine State.finishCommit_all (fun _ h => h) ?_
  rw [hreg]
  exact h

/-- A cycle of a running, configured core is its sub-steps (R158). -/
theorem cycle_of_running {s : State} (hrun : s.status = .running) (hconf : s.configured = true) :
    cycle s = runCycle s := by
  have hrunning : s.running = true := beq_iff_eq.mpr hrun
  simp [cycle, hrunning, hconf]

/-- Settles O49: the sub-steps count no cycle, and the outcome that ends them says whether the state is fatal. -/
theorem cyclesCountAllButTheFatal : Obligations.CyclesCountAllButTheFatal := by
  intro s t hrun hconf h
  have hreports := subLoop_reports s.cfgWidth.toNat s
  have hcycles := subLoop_keeps (substep_cycles s.cycles) s.cfgWidth.toNat rfl
  have counted (u : State) (hu : u.cycles = s.cycles) (hstatus : u.status = .running ∨ u.status = .halted) :
      (u.withCycles (u.cycles + 1)).cycles =
        if (u.withCycles (u.cycles + 1)).isFatal then s.cycles else s.cycles + 1 := by
    rcases hstatus with hs | hs <;> simp [State.isFatal, hs, hu]
  rw [cycle_of_running hrun hconf, runCycle] at h
  cases hr : subLoop s.cfgWidth.toNat s <;> rw [hr] at h hreports hcycles <;> cases h
  case cont u => exact counted u hcycles (.inl (hreports.trans hrun))
  case flush u => exact counted u hcycles (.inl (hreports.1.trans hrun))
  case halt u => exact counted u hcycles (.inr hreports.1)
  case fatal => exact hcycles.trans (if_pos hreports).symm

end Sys2Proof.Machine
end

section
/-! The instructions in flight, in program order: the live slots of the ROB with the pcs of their instructions. -/

namespace Sys2Proof.Machine

/-! ### The live slots in order -/

/-- A slot and the pc of the instruction it holds, if it holds one. -/
def Rob.pcOf? (b : Rob) (slot : Nat) : Option (Nat × Word) := (b.entry? slot).map fun e => (slot, e.pc)

/-- The live slots from the head on, oldest first, each with the pc of its instruction (R29, R30). -/
def Rob.line (n : Nat) (b : Rob) : List (Nat × Word) :=
  (List.range b.count).filterMap fun k => b.pcOf? ((b.head + k) % n)

theorem Rob.pcOf?_of_entry {b : Rob} {slot : Nat} {e : RobEntry} (h : b.entry? slot = some e) :
    b.pcOf? slot = some (slot, e.pc) := by
  rw [Rob.pcOf?, h, Option.map_some]

/-- What stands in the line is the pc of an entry. -/
theorem Rob.entry_of_mem_line {n : Nat} {b : Rob} {x : Nat × Word} (h : x ∈ b.line n) :
    ∃ e, b.entry? x.1 = some e ∧ e.pc = x.2 := by
  obtain ⟨k, -, hk⟩ := List.mem_filterMap.mp h
  obtain ⟨e, he, rfl⟩ := Option.map_eq_some_iff.mp hk
  exact ⟨e, he, rfl⟩

/-- Every slot of the ROB is at some offset from the head. -/
theorem exists_offset {n head slot : Nat} (hhead : head < n) (hslot : slot < n) :
    ∃ k, k < n ∧ (head + k) % n = slot := by
  rcases Nat.lt_or_ge slot head with h | h
  · refine ⟨n - head + slot, by omega, ?_⟩
    have : head + (n - head + slot) = slot + n := by omega
    rw [this, Nat.add_mod_right, Nat.mod_eq_of_lt hslot]
  · refine ⟨slot - head, by omega, ?_⟩
    rw [Nat.add_sub_cancel' h, Nat.mod_eq_of_lt hslot]

/-- Every entry of a ROB in shape stands in the line (R29). -/
theorem robShape.mem_line {s : State} (h : robShape s) {slot : Nat} {e : RobEntry}
    (he : s.rob.entry? slot = some e) : (slot, e.pc) ∈ s.rob.line s.params.robSize := by
  obtain ⟨hlen, hhead, -, -, hlive⟩ := h
  have hslot : slot < s.params.robSize := by
    by_contra hge
    rw [Rob.entry?, List.getElem?_eq_none (by omega)] at he
    cases he
  obtain ⟨k, hk, rfl⟩ := exists_offset hhead hslot
  have hcount := (hlive k hk).mp (by rw [he]; rfl)
  exact List.mem_filterMap.mpr ⟨k, List.mem_range.mpr hcount, Rob.pcOf?_of_entry he⟩

/-- No slot stands in the line twice. -/
theorem robShape.line_nodup {s : State} (h : robShape s) : ((s.rob.line s.params.robSize).map Prod.fst).Nodup := by
  obtain ⟨-, -, hcount, -, -⟩ := h
  rw [List.Nodup, List.pairwise_map, Rob.line, List.pairwise_filterMap]
  refine List.Pairwise.imp_of_mem ?_ List.pairwise_lt_range
  intro j k hj hk hjk x hx y hy heq
  obtain ⟨_, _, rfl⟩ := Option.map_eq_some_iff.mp hx
  obtain ⟨_, _, rfl⟩ := Option.map_eq_some_iff.mp hy
  have hjn := List.mem_range.mp hj
  have hkn := List.mem_range.mp hk
  have := slot_inj (by omega) (by omega) heq
  omega

/-- Allocation appends the tail slot to the line (R110). -/
theorem Rob.line_add {s : State} (h : robShape s) (hroom : s.rob.count ≠ s.params.robSize) (i : Instr) (pc : Word) :
    (s.rob.add s.params.robSize i pc).line s.params.robSize =
      s.rob.line s.params.robSize ++ [(s.rob.tail, pc)] := by
  have htl := h.tail_lt
  obtain ⟨-, -, hcount, htail, -⟩ := h
  have hslot (slot : Nat) : (s.rob.add s.params.robSize i pc).pcOf? slot =
      if slot = s.rob.tail then some (slot, pc) else s.rob.pcOf? slot := by
    rw [Rob.pcOf?, Rob.add_entry? _ _ _ _ _ htl]
    split <;> rfl
  have old (k : Nat) (hk : k ∈ List.range s.rob.count) : (s.rob.head + k) % s.params.robSize ≠ s.rob.tail := by
    intro he
    have hlt := List.mem_range.mp hk
    have := slot_inj (by omega) (by omega) (he.trans htail)
    omega
  rw [Rob.line, Rob.add_count, Rob.add_head, List.range_succ, List.filterMap_append]
  congr 1
  · exact List.filterMap_congr fun k hk => by rw [hslot, if_neg (old k hk)]
  · rw [List.filterMap_cons, hslot, ← htail, if_pos rfl]
    rfl

/-- Completing a slot moves no instruction (R113). -/
theorem Rob.line_complete (n : Nat) (b : Rob) (t : Nat) (v : Word) (f : Option SlotFault) :
    (b.complete t v f).line n = b.line n := by
  rw [Rob.line, Rob.complete_count, Rob.complete_head]
  refine List.filterMap_congr fun k _ => ?_
  rw [Rob.pcOf?, Rob.pcOf?, Rob.complete_entry?]
  cases b.entry? ((b.head + k) % n) with
  | none => rfl
  | some e => by_cases h : (b.head + k) % n = t <;> simp [h]

/-- The head slot stands first, and what is left when it is freed follows (R115). -/
theorem Rob.line_free {s : State} (h : robShape s) (hc : s.rob.count ≠ 0) {e : RobEntry}
    (he : s.rob.entry? s.rob.head = some e) :
    s.rob.line s.params.robSize =
      (s.rob.head, e.pc) :: (s.rob.free s.params.robSize).line s.params.robSize := by
  obtain ⟨-, hhead, hcount, -, -⟩ := h
  have hzero : (s.rob.head + 0) % s.params.robSize = s.rob.head := Nat.mod_eq_of_lt hhead
  obtain ⟨m, hm⟩ := Nat.exists_eq_succ_of_ne_zero hc
  have notHead (k : Nat) (hk : k ∈ List.range m) : (s.rob.head + (k + 1)) % s.params.robSize ≠ s.rob.head := by
    intro he
    have hlt := List.mem_range.mp hk
    have := slot_inj (by omega) (by omega) (he.trans hzero.symm)
    omega
  have hrest : (List.range m).filterMap (fun k => s.rob.pcOf? ((s.rob.head + (k + 1)) % s.params.robSize)) =
      (s.rob.free s.params.robSize).line s.params.robSize := by
    rw [Rob.line, Rob.free_count, hm, Nat.succ_sub_one]
    refine List.filterMap_congr fun k hk => ?_
    rw [Rob.free_head, slot_succ, Rob.pcOf?, Rob.pcOf?, Rob.free_entry?, if_neg (notHead k hk)]
  rw [← hrest, Rob.line, hm, List.range_succ_eq_map, List.filterMap_cons, hzero, Rob.pcOf?_of_entry he,
    List.filterMap_map]
  rfl

theorem Rob.line_of_count_zero {b : Rob} (h : b.count = 0) (n : Nat) : b.line n = [] := by
  rw [Rob.line, h]
  rfl

/-- A slot that waits for its result stands in the line. -/
theorem robShape.mem_line_of_awaits {s : State} (h : robShape s) {slot : Nat} (ha : s.rob.awaits slot = true) :
    slot ∈ (s.rob.line s.params.robSize).map Prod.fst := by
  rw [Rob.awaits, Option.any_eq_true] at ha
  obtain ⟨e, he, -⟩ := ha
  exact List.mem_map_of_mem (h.mem_line he)

/-- The tail of a ROB with room is in no line. -/
theorem robShape.tail_not_mem_line {s : State} (h : robShape s) (hroom : s.rob.count ≠ s.params.robSize) :
    s.rob.tail ∉ (s.rob.line s.params.robSize).map Prod.fst := by
  intro hmem
  obtain ⟨-, -, hcount, htail, -⟩ := h
  obtain ⟨x, hx, hslot⟩ := List.mem_map.mp hmem
  obtain ⟨k, hk, hpc⟩ := List.mem_filterMap.mp hx
  obtain ⟨_, _, rfl⟩ := Option.map_eq_some_iff.mp hpc
  have hlt := List.mem_range.mp hk
  have := slot_inj (by omega) (by omega) (hslot.trans htail)
  omega

end Sys2Proof.Machine
end

section
/-! What an instruction makes of registers and memory, as a function of both: its outcome, a result or a fault, and what
follows it.  `exec` is tied to it by `exec_of_ok` and `exec_of_error`. -/

namespace Sys2Proof.Machine

/-! ### Registers and memory in program order -/

/-- Registers and memory between two instructions in program order (R178). -/
structure Arch where
  regs : Vector Word 32
  mem : Memory

def State.arch (s : State) : Arch := ⟨s.regs, s.mem⟩

/-- The value of a register. -/
def Arch.reg (A : Arch) (r : RegId) : Word := A.regs[r]

/-- The first operand, which is the base of a memory instruction (R95, R120). -/
def Arch.left (A : Arch) : Instr → Word
  | .add _ rs _ | .sub _ rs _ | .mul _ rs _ | .div _ rs _ | .idiv _ rs _ | .mod _ rs _ => A.reg rs
  | .addi _ rs _ | .lw _ _ rs | .sw _ _ rs | .beq rs _ _ => A.reg rs
  | .j _ => 0

/-- The second operand, which is the value of a store (R120, R132). -/
def Arch.right (A : Arch) : Instr → Word
  | .add _ _ rt | .sub _ _ rt | .mul _ _ rt | .div _ _ rt | .idiv _ _ rt | .mod _ _ rt => A.reg rt
  | .addi _ _ imm => imm
  | .sw rt _ _ | .beq _ rt _ => A.reg rt
  | .lw .. | .j _ => 0

/-- The offset of a memory instruction (R95). -/
def offsetOf : Instr → Word
  | .lw _ imm _ | .sw _ imm _ => imm
  | .add .. | .sub .. | .mul .. | .div .. | .idiv .. | .mod .. | .addi .. | .beq .. | .j .. => 0

/-- The address of a memory instruction (R95). -/
def Arch.addr (A : Arch) (i : Instr) : Word := effAddr (A.left i) (offsetOf i)

/-- A unit's answer as an outcome (R126, R127). -/
def AluResult.outcome : AluResult → Except SlotFault Word
  | .value v => .ok v
  | .arithmeticFault | .unsupported => .error .arithmetic

/-- The outcome of a memory instruction of kind `op`: the cell read or the value stored, or the address fault (R96, R97,
R188). -/
def Arch.memoryOutcome (n : Nat) (A : Arch) (i : Instr) (op : MemOp) : Except SlotFault Word :=
  match cellOf n (A.addr i) with
  | none => .error (.memoryAddress (A.addr i))
  | some k => .ok (match op with
    | .lw => A.mem.read k
    | .sw => A.right i)

/-- The outcome of an instruction in a memory of `n` cells: its result, or the fault that stops it. -/
def Arch.outcome (n : Nat) (A : Arch) (i : Instr) : Except SlotFault Word :=
  match memOpOf i.op with
  | none => (alu i.op (A.left i) (A.right i)).outcome
  | some op => A.memoryOutcome n i op

/-- The register an instruction writes holds its result (R84, R93, R96). -/
def Arch.regsAfter (A : Arch) (i : Instr) (v : Word) : Vector Word 32 :=
  match i.dest with
  | some r => A.regs.set r v
  | none => A.regs

/-- The cell a store names holds its result (R97). -/
def Arch.memAfter (n : Nat) (A : Arch) (i : Instr) (v : Word) : Memory :=
  match memOpOf i.op, cellOf n (A.addr i) with
  | some .sw, some k => A.mem.write k v
  | _, _ => A.mem

/-- Registers and memory after an instruction with result `v`. -/
def Arch.advance (n : Nat) (A : Arch) (i : Instr) (v : Word) : Arch := ⟨A.regsAfter i v, A.memAfter n i v⟩

theorem Arch.outcome_of_memory {n : Nat} {A : Arch} {i : Instr} {op : MemOp} (h : memOpOf i.op = some op) :
    A.outcome n i = A.memoryOutcome n i op := by
  rw [Arch.outcome, h]

theorem Arch.outcome_of_not_memory {n : Nat} {A : Arch} {i : Instr} (h : memOpOf i.op = none) :
    A.outcome n i = (alu i.op (A.left i) (A.right i)).outcome := by
  rw [Arch.outcome, h]

/-- A load answers the cell its address names. -/
theorem Arch.load_ok_iff {n : Nat} {A : Arch} {i : Instr} {v : Word} (h : memOpOf i.op = some .lw) :
    A.outcome n i = .ok v ↔ ∃ k, cellOf n (A.addr i) = some k ∧ A.mem.read k = v := by
  rw [A.outcome_of_memory h, Arch.memoryOutcome]
  cases cellOf n (A.addr i) <;> simp

/-- A store answers its value, if its address names a cell. -/
theorem Arch.store_ok_iff {n : Nat} {A : Arch} {i : Instr} {v : Word} (h : memOpOf i.op = some .sw) :
    A.outcome n i = .ok v ↔ ∃ k, cellOf n (A.addr i) = some k ∧ A.right i = v := by
  rw [A.outcome_of_memory h, Arch.memoryOutcome]
  cases cellOf n (A.addr i) <;> simp

/-- The fault of a memory instruction is that of its address (R188). -/
theorem Arch.memory_error_iff {n : Nat} {A : Arch} {i : Instr} {op : MemOp} {f : SlotFault}
    (h : memOpOf i.op = some op) :
    A.outcome n i = .error f ↔ cellOf n (A.addr i) = none ∧ f = .memoryAddress (A.addr i) := by
  rw [A.outcome_of_memory h, Arch.memoryOutcome]
  cases cellOf n (A.addr i) <;> simp [eq_comm]

theorem Arch.memAfter_of_store {n : Nat} {A : Arch} {i : Instr} {k : Nat} (h : memOpOf i.op = some .sw)
    (hk : cellOf n (A.addr i) = some k) (v : Word) : A.memAfter n i v = A.mem.write k v := by
  rw [Arch.memAfter, h, hk]

/-- Only a store changes memory (R178). -/
theorem Arch.memAfter_of_not_store {n : Nat} {A : Arch} {i : Instr} (h : memOpOf i.op ≠ some .sw) (v : Word) :
    A.memAfter n i v = A.mem := by
  unfold Arch.memAfter
  split
  · rename_i hsw _
    exact absurd hsw h
  · rfl

/-- Memory stays in its canonical form (log 6). -/
theorem Arch.memAfter_wf {A : Arch} (h : A.mem.wf) (n : Nat) (i : Instr) (v : Word) : (A.memAfter n i v).wf := by
  unfold Arch.memAfter
  split
  · exact Memory.write_wf h _ _
  · exact h

/-- The destination holds the result, and every other register is as before. -/
theorem Arch.advance_reg (n : Nat) (A : Arch) (i : Instr) (v : Word) (q : RegId) :
    (A.advance n i v).reg q = if i.dest = some q then v else A.reg q := by
  cases hd : i.dest with
  | none => simp [Arch.advance, Arch.regsAfter, Arch.reg, hd]
  | some r =>
    by_cases hq : r = q
    · subst hq
      simp [Arch.advance, Arch.regsAfter, Arch.reg, hd]
    · have hne : r.val ≠ q.val := fun e => hq (Fin.ext e)
      simp [Arch.advance, Arch.regsAfter, Arch.reg, hd, hq, Vector.getElem_set_ne _ _ hne]

/-! ### The meaning of an instruction by its outcome -/

/-- A branch or jump, which the predictor validates (R102, R154). -/
def isControl : Op → Bool
  | .beq | .j => true
  | .add | .sub | .mul | .div | .idiv | .mod | .addi | .lw | .sw => false

/-- The predictor after an instruction with result `v`. -/
def State.predAfter (s : State) (i : Instr) (v : Word) : Predictor :=
  if isControl i.op then (s.pred.check s.cfgPolicy s.pc (recoveryPc i s.pc) v).pred else s.pred

/-- The state with other registers and memory. -/
def State.withArch (s : State) (A : Arch) : State := (s.withRegs A.regs).withMem A.mem

/-- Only a branch or jump goes on elsewhere than at the next instruction (R84, R99, R112). -/
theorem correctNext_of_not_control {i : Instr} (h : isControl i.op = false) (pc v : Word) :
    correctNext pc (recoveryPc i pc) v = pc + 1 := by
  have : recoveryPc i pc = pc + 1 := by
    cases i with
    | beq | j => cases h
    | add | sub | mul | div | idiv | mod | addi | lw | sw => rfl
  rw [this, correctNext, ite_self]

/-- An instruction whose outcome is a fault raises its error and changes nothing else (R187, R188). -/
theorem exec_of_error {i : Instr} {s : State} {f : SlotFault} (h : s.arch.outcome s.params.memSize i = .error f) :
    exec i s = .next (s.raise f.error) := by
  have division (q : Option Word) (r : RegId) (hq : (AluResult.ofDivision q).outcome = .error f) :
      s.retireDivision r q = s.raise f.error := by
    cases q <;> cases hq
    rfl
  cases i with
  | add | sub | mul | addi | beq | j => cases h
  | div rd rs rt | idiv rd rs rt | mod rd rs rt => exact congrArg _ (division _ rd h)
  | lw rt imm rs =>
    obtain ⟨hcell, rfl⟩ := (Arch.memory_error_iff rfl).mp h
    exact execLw_of_no_cell rt hcell
  | sw rt imm rs =>
    obtain ⟨hcell, rfl⟩ := (Arch.memory_error_iff rfl).mp h
    exact execSw_of_no_cell rt hcell

/-- An instruction with a result writes its register or its cell, is validated if it is a branch or jump, and goes on at
the correct next pc (R178). -/
theorem exec_of_ok {i : Instr} {s : State} {v : Word} (h : s.arch.outcome s.params.memSize i = .ok v) :
    exec i s = .next (((s.withArch (s.arch.advance s.params.memSize i v)).withPred (s.predAfter i v)).retire
      (correctNext s.pc (recoveryPc i s.pc) v)) := by
  have division (q : Option Word) (r : RegId) (hq : (AluResult.ofDivision q).outcome = .ok v) :
      s.retireDivision r q = s.retireReg r v := by
    cases q <;> cases hq
    rfl
  have next (hc : isControl i.op = false) := correctNext_of_not_control hc s.pc v
  cases i with
  | add | sub | mul | addi =>
    cases h
    rw [next rfl]
    rfl
  | div rd rs rt | idiv rd rs rt | mod rd rs rt =>
    rw [next rfl]
    exact congrArg _ (division _ rd h)
  | lw rt imm rs =>
    obtain ⟨k, hk, rfl⟩ := (Arch.load_ok_iff rfl).mp h
    rw [next rfl]
    exact exec_lw_of_cell rt hk
  | sw rt imm rs =>
    obtain ⟨k, hk, rfl⟩ := (Arch.store_ok_iff rfl).mp h
    rw [next rfl, Arch.advance, Arch.memAfter_of_store rfl hk]
    exact exec_sw_of_cell rt hk
  | beq | j =>
    cases h
    rw [State.predAfter, ← Predictor.check_correct s.cfgPolicy s.pred]
    rfl

end Sys2Proof.Machine
end

section
/-! What the values in flight are measured against: the registers and the memory each instruction in flight would see in
program order, as long as none before it faults. -/

namespace Sys2Proof.Machine

/-! ### A program in order -/

/-- What the lines of a program decode to, and the number of cells of memory. -/
structure Program where
  code : Word → Option Instr
  size : Nat

/-- Registers and memory after the instructions of some slots, from those before them; nothing once one faults. -/
def Program.after (P : Program) : List (Nat × Word) → Arch → Option Arch
  | [], A => some A
  | x :: rest, A => (P.code x.2).bind fun i => (A.outcome P.size i).toOption.bind fun v =>
      P.after rest (A.advance P.size i v)

variable {P : Program} {A B : Arch} {x : Nat × Word} {l older rest : List (Nat × Word)}

theorem toOption_eq_some_iff {ε α : Type} {r : Except ε α} {v : α} : r.toOption = some v ↔ r = .ok v := by
  cases r <;> simp [Except.toOption]

theorem Program.after_cons : P.after (x :: rest) A = some B ↔
    ∃ i v, P.code x.2 = some i ∧ A.outcome P.size i = .ok v ∧ P.after rest (A.advance P.size i v) = some B := by
  simp [Program.after, Option.bind_eq_some_iff, toOption_eq_some_iff]

theorem Program.after_append : P.after (l ++ rest) A = some B ↔
    ∃ C, P.after l A = some C ∧ P.after rest C = some B := by
  induction l generalizing A with
  | nil => simp [Program.after]
  | cons x l ih =>
    simp only [List.cons_append, Program.after_cons, ih]
    constructor
    · rintro ⟨i, v, hi, hv, C, hC, hB⟩
      exact ⟨C, ⟨i, v, hi, hv, hC⟩, hB⟩
    · rintro ⟨C, ⟨i, v, hi, hv, hC⟩, hB⟩
      exact ⟨i, v, hi, hv, C, hC, hB⟩

/-- Memory stays in its canonical form (log 6). -/
theorem Program.after_wf (hwf : A.mem.wf) (h : P.after l A = some B) : B.mem.wf := by
  induction l generalizing A with
  | nil => exact Option.some.inj h ▸ hwf
  | cons x l ih =>
    obtain ⟨i, v, -, -, hrest⟩ := Program.after_cons.mp h
    exact ih (A.memAfter_wf hwf P.size i v) hrest

/-- A register that no instruction writes is as before. -/
theorem Program.after_reg {r : RegId} (h : P.after l A = some B)
    (hnone : ∀ y ∈ l, ∀ i, P.code y.2 = some i → i.dest ≠ some r) : B.reg r = A.reg r := by
  induction l generalizing A with
  | nil => rw [Option.some.inj h]
  | cons x l ih =>
    obtain ⟨hx, hl⟩ := List.forall_mem_cons.mp hnone
    obtain ⟨i, v, hi, -, hrest⟩ := Program.after_cons.mp h
    rw [ih hrest hl, Arch.advance_reg, if_neg (hx i hi)]

/-- The instruction in slot `t` of `older` has the result `v`, from registers and memory `A` before all of `older`. -/
def Program.Provides (P : Program) (A : Arch) (older : List (Nat × Word)) (t : Nat) (v : Word) : Prop :=
  ∃ o1 pc o2 i B, older = o1 ++ (t, pc) :: o2 ∧ P.code pc = some i ∧ P.after o1 A = some B ∧ B.outcome P.size i = .ok v

/-- The youngest of the instructions that write a register provides its value. -/
theorem Program.provides_reg {o1 o2 : List (Nat × Word)} {t : Nat} {pc : Word} {i : Instr} {r : RegId}
    (h : P.after (o1 ++ (t, pc) :: o2) A = some B) (hi : P.code pc = some i) (hd : i.dest = some r)
    (hyoungest : ∀ y ∈ o2, ∀ j, P.code y.2 = some j → j.dest ≠ some r) :
    P.Provides A (o1 ++ (t, pc) :: o2) t (B.reg r) := by
  obtain ⟨C, hC, hB⟩ := Program.after_append.mp h
  obtain ⟨i', v, hi', hv, hrest⟩ := Program.after_cons.mp hB
  obtain rfl : i = i' := Option.some.inj (hi.symm.trans hi')
  rw [Program.after_reg hrest hyoungest, Arch.advance_reg, if_pos hd]
  exact ⟨o1, pc, o2, i, C, rfl, hi, hC, hv⟩

/-- No instruction of `older` stores to the address `a`, from registers and memory `A` before all of `older`. -/
def Program.NoStore (P : Program) (A : Arch) (older : List (Nat × Word)) (a : Word) : Prop :=
  ∀ o1 t pc o2 i B, older = o1 ++ (t, pc) :: o2 → P.code pc = some i → P.after o1 A = some B →
    memOpOf i.op = some .sw → B.addr i ≠ a

theorem Program.NoStore.head {a : Word} {i : Instr} (h : P.NoStore A (x :: rest) a) (hi : P.code x.2 = some i)
    (hop : memOpOf i.op = some .sw) : A.addr i ≠ a :=
  h [] x.1 x.2 rest i A rfl hi rfl hop

theorem Program.NoStore.tail {a v : Word} {i : Instr} (h : P.NoStore A (x :: rest) a) (hi : P.code x.2 = some i)
    (hv : A.outcome P.size i = .ok v) : P.NoStore (A.advance P.size i v) rest a := by
  rintro o1 t pc o2 j B rfl hj hB hop
  exact h (x :: o1) t pc o2 j B rfl hj (Program.after_cons.mpr ⟨i, v, hi, hv, hB⟩) hop

theorem Program.noStore_cons {a v : Word} {i : Instr} (hi : P.code x.2 = some i) (hv : A.outcome P.size i = .ok v)
    (hx : memOpOf i.op = some .sw → A.addr i ≠ a) (h : P.NoStore (A.advance P.size i v) rest a) :
    P.NoStore A (x :: rest) a := by
  intro o1 t pc o2 j B hsplit hj hB hop
  cases o1 with
  | nil =>
    obtain ⟨rfl, rfl⟩ := List.cons.inj hsplit
    obtain rfl : i = j := Option.some.inj (hi.symm.trans hj)
    obtain rfl : A = B := Option.some.inj hB
    exact hx hop
  | cons y o1 =>
    obtain ⟨rfl, hrest⟩ := List.cons.inj hsplit
    obtain ⟨i', v', hi', hv', hB'⟩ := Program.after_cons.mp hB
    obtain rfl : i = i' := Option.some.inj (hi.symm.trans hi')
    obtain rfl : v = v' := Except.ok.inj (hv.symm.trans hv')
    exact h o1 t pc o2 j B hrest hj hB' hop

/-- Two addresses that name the same cell are the same. -/
theorem cellOf_inj {n : Nat} {a b : Word} {k : Nat} (ha : cellOf n a = some k) (hb : cellOf n b = some k) : a = b := by
  obtain ⟨-, -, rfl⟩ := cellOf_eq_some.mp ha
  obtain ⟨-, -, h⟩ := cellOf_eq_some.mp hb
  exact BitVec.eq_of_toNat_eq h

/-- An instruction that does not store to an address leaves its cell. -/
theorem Arch.read_memAfter {n k : Nat} {A : Arch} {i : Instr} {a : Word} (hk : cellOf n a = some k)
    (h : memOpOf i.op = some .sw → A.addr i ≠ a) (v : Word) : (A.memAfter n i v).read k = A.mem.read k := by
  unfold Arch.memAfter
  split
  · rename_i k' hop hk'
    refine Memory.read_write_ne _ _ fun e => h hop ?_
    exact cellOf_inj hk' (e ▸ hk)
  · rfl

/-- A cell no instruction stores to is as before. -/
theorem Program.after_read {a : Word} {k : Nat} (h : P.after l A = some B) (hnone : P.NoStore A l a)
    (hk : cellOf P.size a = some k) : B.mem.read k = A.mem.read k := by
  induction l generalizing A with
  | nil => rw [Option.some.inj h]
  | cons x l ih =>
    obtain ⟨i, v, hi, hv, hrest⟩ := Program.after_cons.mp h
    exact (ih hrest (hnone.tail hi hv)).trans (Arch.read_memAfter hk (hnone.head hi) v)

/-- A cell holds the value of the last instruction that stores to it. -/
theorem Program.after_read_of_store {o1 o2 : List (Nat × Word)} {C : Arch} {i : Instr} {a v : Word}
    (hwf : A.mem.wf) (hC : P.after o1 A = some C) (hi : P.code x.2 = some i) (hop : memOpOf i.op = some .sw)
    (ha : C.addr i = a) (hv : C.outcome P.size i = .ok v) (h : P.after (o1 ++ x :: o2) A = some B)
    (hnone : P.NoStore (C.advance P.size i v) o2 a) : ∃ k, cellOf P.size a = some k ∧ B.mem.read k = v := by
  obtain ⟨k, hk, hright⟩ := (Arch.store_ok_iff hop).mp hv
  refine ⟨k, ha ▸ hk, ?_⟩
  obtain ⟨C', hC', hB⟩ := Program.after_append.mp h
  obtain rfl : C = C' := Option.some.inj (hC.symm.trans hC')
  obtain ⟨i', v', hi', hv', hrest⟩ := Program.after_cons.mp hB
  obtain rfl : i = i' := Option.some.inj (hi.symm.trans hi')
  obtain rfl : v = v' := Except.ok.inj (hv.symm.trans hv')
  rw [Program.after_read hrest hnone (ha ▸ hk), Arch.advance, Arch.memAfter_of_store hop hk]
  exact Memory.read_write_self (Program.after_wf hwf hC) k v

end Sys2Proof.Machine
end

section
/-! The values in flight are those of the sequential meaning: what each item carries, measured against the registers and
memory its instruction would see in program order.  A view is what these statements look at of a state; three operations
change it, an allocation, a completion and the commit of the oldest instruction. -/

namespace Sys2Proof.Machine

/-! ### Views -/

/-- The instruction a line of the program decodes to, if there is one. -/
def State.instrAt (s : State) (pc : Word) : Option Instr :=
  (s.imem? pc).bind fun code => (decode s.symtab code).toOption

/-- What the program means: its instructions, and the number of cells of memory. -/
def State.program (s : State) : Program := ⟨s.instrAt, s.params.memSize⟩

/-- What the values in flight are measured against: the program, committed registers and memory, the instructions in
flight in program order, and the slots that wait for a result. -/
structure View where
  prog : Program
  arch : Arch
  line : List (Nat × Word)
  awaits : Nat → Bool

def State.view (s : State) : View := ⟨s.program, s.arch, s.rob.line s.params.robSize, s.rob.awaits⟩

/-- The instruction `i` is in flight in a slot, behind those of `older`, none of which faults, and in program order it
sees the registers and memory `A`.  Behind another instruction memory must be in its canonical form (log 6). -/
structure View.At (V : View) (slot : Nat) (older : List (Nat × Word)) (i : Instr) (A : Arch) : Prop where
  split : ∃ pc younger, V.line = older ++ (slot, pc) :: younger ∧ V.prog.code pc = some i
  arch : V.prog.after older V.arch = some A
  wf : older ≠ [] → V.arch.mem.wf

/-- A statement about the instruction in a slot, `older` before it and the registers and memory it sees. -/
def View.Holds (V : View) (slot : Nat) (p : List (Nat × Word) → Instr → Arch → Prop) : Prop :=
  ∀ older i A, V.At slot older i A → p older i A

/-- An operand of an instruction behind `older` stands for the value `v`: it is `v`, or it waits for the slot of an
older instruction whose result is `v` (R28, R104). -/
def View.Denotes (V : View) (older : List (Nat × Word)) : Operand → Word → Prop
  | .val w, v => w = v
  | .tag t, v => V.awaits t = true ∧ V.prog.Provides V.arch older t v

/-- What is delivered for an instruction agrees with its outcome: a result without fault, or the fault.  The address
fault of a store is not delivered but raised at its commit (R140, R141, R190). -/
def delivered (i : Instr) (outcome : Except SlotFault Word) (value : Word) (fault : Option SlotFault) : Prop :=
  match outcome with
  | .ok v => value = v ∧ fault = none
  | .error f => fault = if memOpOf i.op = some .sw then none else some f

variable {V : View} {slot : Nat} {older : List (Nat × Word)} {i : Instr} {A : Arch}

theorem delivered_of_ok {outcome : Except SlotFault Word} {v : Word} (h : outcome = .ok v) :
    delivered i outcome v none := h ▸ ⟨rfl, rfl⟩

theorem delivered_of_error {outcome : Except SlotFault Word} {f : SlotFault} (h : outcome = .error f)
    (hop : memOpOf i.op ≠ some .sw) (value : Word) : delivered i outcome value (some f) := by
  rw [h]
  exact (if_neg hop).symm

/-- The slot a result comes from holds an instruction in flight. -/
theorem View.At.of_provides (h : V.At slot older i A) {t : Nat} {v : Word}
    (hp : V.prog.Provides V.arch older t v) : ∃ o1 j B, V.At t o1 j B ∧ B.outcome V.prog.size j = .ok v := by
  obtain ⟨o1, pc, o2, j, B, rfl, hj, hB, hv⟩ := hp
  obtain ⟨pc', younger, hline, -⟩ := h.split
  refine ⟨o1, j, B, ⟨⟨pc, o2 ++ (slot, pc') :: younger, by simp [hline], hj⟩, hB, fun _ => h.wf (by simp)⟩, hv⟩

/-- The oldest instruction in flight sees committed registers and memory. -/
theorem View.at_head {pc : Word} {rest : List (Nat × Word)} (hline : V.line = (slot, pc) :: rest)
    (hi : V.prog.code pc = some i) : V.At slot [] i V.arch :=
  ⟨⟨pc, rest, hline, hi⟩, rfl, fun h => absurd rfl h⟩

/-! ### What is said of each item in flight -/

/-- A complete ROB entry has what its instruction delivers (R113). -/
def View.entrySound (V : View) (slot : Nat) (e : RobEntry) : Prop :=
  e.done = true → V.Holds slot fun _ i A => ∃ v, e.result = some v ∧ delivered i (A.outcome V.prog.size i) v e.fault

/-- A station holds the opcode of its instruction and operands that stand for its sources (R120). -/
def View.stationSound (V : View) (e : RsEntry) : Prop :=
  V.Holds e.tag fun older i A => e.op = i.op ∧ V.Denotes older e.o1 (A.left i) ∧ V.Denotes older e.o2 (A.right i)

/-- An item of `EQ` holds the opcode and the sources of its instruction (R124). -/
def View.execSound (V : View) (x : ExecItem) : Prop :=
  V.Holds x.tag fun _ i A => x.op = i.op ∧ x.v1 = A.left i ∧ x.v2 = A.right i

/-- A load in `MQ` has its forwarded value for result, or no store before it is to its address; a store has its value
(R136, R138). -/
def View.memSound (V : View) : MemItem → Prop
  | .load tag a none =>
    V.Holds tag fun older i A => memOpOf i.op = some .lw ∧ a = A.addr i ∧ V.prog.NoStore V.arch older a
  | .load tag _ (some w) => V.Holds tag fun _ i A => memOpOf i.op = some .lw ∧ A.outcome V.prog.size i = .ok w
  | .store tag _ w => V.Holds tag fun _ i A => memOpOf i.op = some .sw ∧ w = A.right i

/-- An item of `WQ` holds what its instruction delivers (R167). -/
def View.writeSound (V : View) (x : WriteItem) : Prop :=
  V.Holds x.tag fun _ i A => delivered i (A.outcome V.prog.size i) x.value x.fault

/-- What is forwarded into a load that has not been sent is the content of the cell it names, unless a store in flight
before it is to the same address (R137, R142). -/
def View.forwardSound (V : View) (older : List (Nat × Word)) (l : LsqEntry) : Prop :=
  ∀ a w, l.disp = false → l.addr = some a → l.fwd = some w → V.prog.NoStore V.arch older a →
    ∃ k, cellOf V.prog.size a = some k ∧ V.arch.mem.read k = w

/-- An LSQ entry of the instruction `i` (R131, R132). -/
structure View.QueuedFor (V : View) (l : LsqEntry) (older : List (Nat × Word)) (i : Instr) (A : Arch) : Prop where
  op : memOpOf i.op = some l.op
  base : V.Denotes older l.base (A.left i)
  imm : l.imm = offsetOf i
  addr : l.addr = addrOfBase l.base l.imm
  val : l.op = .sw → ∃ o, l.val = some o ∧ V.Denotes older o (A.right i)
  fwd : l.op = .lw → V.forwardSound older l
  unaddressed : l.addr = none → l.fwd = none

def View.queuedSound (V : View) (l : LsqEntry) : Prop := V.Holds l.tag (V.QueuedFor l)

/-- A known address is that of the instruction (R95). -/
theorem View.QueuedFor.addr_eq {l : LsqEntry} (h : V.QueuedFor l older i A) {a : Word} (ha : l.addr = some a) :
    a = A.addr i := by
  have haddr := h.addr
  have hbase := h.base
  rw [ha] at haddr
  cases hb : l.base with
  | tag t =>
    rw [hb] at haddr
    cases haddr
  | val w =>
    rw [hb] at haddr hbase
    obtain rfl : w = A.left i := hbase
    rw [Arch.addr, ← h.imm]
    exact Option.some.inj haddr

/-! ### Allocation, completion and commit -/

/-- A slot is allocated behind the instructions in flight (R110). -/
def View.push (V : View) (t : Nat) (pc : Word) : View :=
  { V with line := V.line ++ [(t, pc)], awaits := fun slot => if slot = t then true else V.awaits slot }

/-- A slot is complete (R113). -/
def View.complete (V : View) (t : Nat) : View :=
  { V with awaits := fun slot => if slot = t then false else V.awaits slot }

/-- The oldest instruction has committed, which left registers and memory as in `A` (R168). -/
def View.pop (V : View) (A : Arch) : View := { V with line := V.line.tail, arch := A }

/-- The slots before a new one are as before. -/
theorem View.At.of_push {t : Nat} {pc : Word} (h : (V.push t pc).At slot older i A) (hne : slot ≠ t) :
    V.At slot older i A := by
  obtain ⟨pc', younger, hline, hi⟩ := h.split
  refine ⟨⟨pc', younger.dropLast, ?_, hi⟩, h.arch, h.wf⟩
  have hline : V.line ++ [(t, pc)] = older ++ (slot, pc') :: younger := hline
  have hyounger : younger ≠ [] := by
    rintro rfl
    have := (List.append_inj' hline rfl).2
    simp at this
    exact hne this.1.symm
  have := congrArg List.dropLast hline
  rwa [List.dropLast_concat, List.dropLast_append_of_ne_nil (List.cons_ne_nil _ _),
    List.dropLast_cons_of_ne_nil hyounger] at this

/-- The new slot stands behind all others. -/
theorem View.At.of_push_self {t : Nat} {pc : Word} (h : (V.push t pc).At t older i A)
    (hfresh : t ∉ V.line.map Prod.fst) :
    older = V.line ∧ V.prog.code pc = some i ∧ V.prog.after V.line V.arch = some A ∧ (V.line ≠ [] → V.arch.mem.wf) := by
  obtain ⟨pc', younger, hline, hi⟩ := h.split
  have hline : V.line ++ [(t, pc)] = older ++ (t, pc') :: younger := hline
  rcases List.eq_nil_or_concat younger with rfl | ⟨younger, y, rfl⟩
  · obtain ⟨rfl, hlast⟩ := List.append_inj' hline rfl
    cases hlast
    exact ⟨rfl, hi, h.arch, h.wf⟩
  · have := congrArg List.dropLast hline
    rw [List.dropLast_concat, List.dropLast_append_of_ne_nil (List.cons_ne_nil _ _), List.concat_eq_append,
      List.dropLast_cons_of_ne_nil (by simp), List.dropLast_concat] at this
    exact absurd (by simp [this]) hfresh

theorem View.Denotes.push {o : Operand} {v : Word} (h : V.Denotes older o v) (t : Nat) (pc : Word) :
    (V.push t pc).Denotes older o v := by
  cases o with
  | val w => exact h
  | tag u =>
    obtain ⟨ha, hp⟩ := h
    refine ⟨?_, hp⟩
    simp only [View.push]
    split
    · rfl
    · exact ha

/-- A broadcast of what a slot delivers keeps what an operand stands for (R122, R134). -/
theorem View.Denotes.capture {o : Operand} {v w : Word} {t : Nat} {f : Option SlotFault} (hat : V.At slot older i A)
    (h : V.Denotes older o v) (hw : V.writeSound ⟨t, w, f⟩) : (V.complete t).Denotes older (o.capture t w) v := by
  cases o with
  | val u => exact h
  | tag u =>
    obtain ⟨ha, hp⟩ := h
    by_cases hu : u = t
    · subst hu
      obtain ⟨o1, j, B, hB, hv⟩ := hat.of_provides hp
      have hd : delivered j (B.outcome V.prog.size j) w f := hw o1 j B hB
      rw [hv] at hd
      rw [Operand.capture, if_pos rfl]
      exact hd.1
    · rw [Operand.capture, if_neg hu]
      refine ⟨?_, hp⟩
      rw [View.complete]
      simp only [hu, if_false]
      exact ha

theorem View.At.of_complete {t : Nat} (h : (V.complete t).At slot older i A) : V.At slot older i A :=
  ⟨h.split, h.arch, h.wf⟩

section
variable {t : Nat} {pc v : Word} {rest : List (Nat × Word)} {j : Instr} (hline : V.line = (t, pc) :: rest)
  (hj : V.prog.code pc = some j) (hv : V.arch.outcome V.prog.size j = .ok v) (hwf : V.arch.mem.wf)
include hline hj hv hwf

/-- An instruction behind the committed one stands where it stood. -/
theorem View.At.of_pop (h : (V.pop (V.arch.advance V.prog.size j v)).At slot older i A) :
    V.At slot ((t, pc) :: older) i A := by
  obtain ⟨pc', younger, hsplit, hi⟩ := h.split
  have hsplit : V.line.tail = older ++ (slot, pc') :: younger := hsplit
  rw [hline, List.tail_cons] at hsplit
  exact ⟨⟨pc', younger, by rw [hline, hsplit, List.cons_append], hi⟩,
    Program.after_cons.mpr ⟨j, v, hj, hv, h.arch⟩, fun _ => hwf⟩

omit hline hwf in
/-- An operand does not wait for a committed instruction. -/
theorem View.Denotes.pop {o : Operand} {u : Word} (h : V.Denotes ((t, pc) :: older) o u) (ht : V.awaits t = false) :
    (V.pop (V.arch.advance V.prog.size j v)).Denotes older o u := by
  cases o with
  | val w => exact h
  | tag w =>
    obtain ⟨ha, o1, pc', o2, i, B, hsplit, hi, hB, hres⟩ := h
    refine ⟨ha, ?_⟩
    cases o1 with
    | nil =>
      cases hsplit
      exact nomatch ht.symm.trans ha
    | cons y o1 =>
      obtain ⟨rfl, rfl⟩ := List.cons.inj hsplit
      obtain ⟨j', v', hj', hv', hB'⟩ := Program.after_cons.mp hB
      obtain rfl : j = j' := Option.some.inj (hj.symm.trans hj')
      obtain rfl : v = v' := Except.ok.inj (hv.symm.trans hv')
      exact ⟨o1, pc', o2, i, B, rfl, hi, hB', hres⟩

end

end Sys2Proof.Machine
end

section
/-! The memory instructions in flight: the LSQ holds them in program order, and a load is sent only with the value it
would read in program order (R136 to R138). -/

namespace Sys2Proof.Machine

/-! ### The memory instructions in order -/

/-- The slot and the kind of the memory instruction at a place of the line, if it is one. -/
def Program.keyOf? (P : Program) (x : Nat × Word) : Option (Nat × MemOp) :=
  (P.code x.2).bind fun i => (memOpOf i.op).map fun op => (x.1, op)

/-- The memory instructions of some slots, in order. -/
def Program.keysOf (P : Program) (l : List (Nat × Word)) : List (Nat × MemOp) := l.filterMap P.keyOf?

theorem Program.keyOf?_eq_some {P : Program} {x : Nat × Word} {y : Nat × MemOp} :
    P.keyOf? x = some y ↔ ∃ i, P.code x.2 = some i ∧ memOpOf i.op = some y.2 ∧ x.1 = y.1 := by
  obtain ⟨t, op⟩ := y
  simp only [Program.keyOf?, Option.bind_eq_some_iff, Option.map_eq_some_iff, Prod.mk.injEq]
  constructor
  · rintro ⟨i, hi, _, hop, ht, rfl⟩
    exact ⟨i, hi, hop, ht⟩
  · rintro ⟨i, hi, hop, ht⟩
    exact ⟨i, hi, op, hop, ht, rfl⟩

theorem Program.mem_keysOf {P : Program} {l : List (Nat × Word)} {t : Nat} {op : MemOp} :
    (t, op) ∈ P.keysOf l ↔ ∃ pc i, (t, pc) ∈ l ∧ P.code pc = some i ∧ memOpOf i.op = some op := by
  simp only [Program.keysOf, List.mem_filterMap, Program.keyOf?_eq_some]
  constructor
  · rintro ⟨⟨t', pc⟩, hx, i, hi, hop, rfl⟩
    exact ⟨pc, i, hx, hi, hop⟩
  · rintro ⟨pc, i, hx, hi, hop⟩
    exact ⟨(t, pc), hx, i, hi, hop, rfl⟩

theorem Program.keysOf_nodup (P : Program) {l : List (Nat × Word)} (h : (l.map Prod.fst).Nodup) :
    (P.keysOf l).Nodup := by
  rw [List.Nodup, List.pairwise_map] at h
  rw [List.Nodup, Program.keysOf, List.pairwise_filterMap]
  refine h.imp fun hne y hy z hz heq => hne ?_
  obtain ⟨-, -, -, hy⟩ := Program.keyOf?_eq_some.mp hy
  obtain ⟨-, -, -, hz⟩ := Program.keyOf?_eq_some.mp hz
  rw [hy, hz, heq]

/-- The LSQ holds the memory instructions in flight, in order, each with what its instruction says (R33, R145). -/
structure View.QueueSound (V : View) (q : List LsqEntry) : Prop where
  nodup : (V.line.map Prod.fst).Nodup
  order : q.map LsqEntry.key = V.prog.keysOf V.line
  queued : ∀ l ∈ q, V.queuedSound l

variable {V : View} {q q1 q2 : List LsqEntry} {l : LsqEntry} {older : List (Nat × Word)} {i : Instr} {A : Arch}

/-- The entries before that of an instruction are those of the memory instructions before it. -/
theorem View.QueueSound.older_keys (h : V.QueueSound q) (hq : q = q1 ++ l :: q2) (hat : V.At l.tag older i A) :
    q1.map LsqEntry.key = V.prog.keysOf older := by
  obtain ⟨pc, younger, hline, hi⟩ := hat.split
  have hop := (h.queued l (by simp [hq]) older i A hat).op
  have hkey : V.prog.keyOf? (l.tag, pc) = some l.key := Program.keyOf?_eq_some.mpr ⟨i, hi, hop, rfl⟩
  have hsplit : V.prog.keysOf V.line = V.prog.keysOf older ++ l.key :: V.prog.keysOf younger := by
    rw [hline, Program.keysOf, List.filterMap_append, List.filterMap_cons_some hkey]
    rfl
  have hnodup := V.prog.keysOf_nodup h.nodup
  have horder := h.order
  rw [hsplit] at hnodup horder
  rw [hq, List.map_append, List.map_cons] at horder
  have hfresh := (List.nodup_middle.mp hnodup).notMem
  rw [List.mem_append, not_or] at hfresh
  exact ((List.append_cons_inj_of_notMem hfresh.1 hfresh.2).mp horder.symm).1.symm

/-- An entry before that of an instruction is that of an instruction before it. -/
theorem View.QueueSound.at_of_older (h : V.QueueSound q) (hq : q = q1 ++ l :: q2) (hat : V.At l.tag older i A)
    {p1 p2 : List LsqEntry} {o : LsqEntry} (hq1 : q1 = p1 ++ o :: p2) :
    ∃ o1 pc o2 j B, older = o1 ++ (o.tag, pc) :: o2 ∧ V.prog.code pc = some j ∧ V.At o.tag o1 j B ∧
      V.QueuedFor o o1 j B ∧ p1.map LsqEntry.key = V.prog.keysOf o1 ∧ p2.map LsqEntry.key = V.prog.keysOf o2 := by
  have hkeys := h.older_keys hq hat
  rw [hq1, List.map_append, List.map_cons] at hkeys
  obtain ⟨before, rest, rfl, hbefore, hrest⟩ := List.filterMap_eq_append_iff.mp hkeys.symm
  obtain ⟨skip, ⟨t, pc⟩, o2, rfl, hskip, hkey, ho2⟩ := List.filterMap_eq_cons_iff.mp hrest
  obtain ⟨j, hj, -, rfl⟩ := Program.keyOf?_eq_some.mp hkey
  obtain ⟨B, hB, -⟩ := (Program.after_append (l := before ++ skip) (rest := (o.tag, pc) :: o2)).mp
    (by simpa [LsqEntry.key] using hat.arch)
  obtain ⟨pc', younger, hline, -⟩ := hat.split
  have ho : V.At o.tag (before ++ skip) j B :=
    ⟨⟨pc, o2 ++ (l.tag, pc') :: younger, by simpa [LsqEntry.key] using hline, hj⟩, hB, fun _ => hat.wf (by simp)⟩
  refine ⟨before ++ skip, pc, o2, j, B, by simp [LsqEntry.key], hj, ho, h.queued o (by simp [hq, hq1]) _ _ _ ho,
    ?_, ho2.symm⟩
  rw [Program.keysOf, List.filterMap_append, hbefore, List.filterMap_eq_nil_iff.mpr hskip, List.append_nil]

/-- If every older store has an address, and none of them the address `a`, then no store before the load is to `a`. -/
theorem View.noStore_of_entries (h : V.QueueSound q) (hq : q = q1 ++ l :: q2) (hat : V.At l.tag older i A) {a : Word}
    {o1 o2 : List (Nat × Word)} {B : Arch} (holder : older = o1 ++ o2) (hB : V.prog.after o1 V.arch = some B)
    {p1 p2 : List LsqEntry} (hq1 : q1 = p1 ++ p2) (hp2 : p2.map LsqEntry.key = V.prog.keysOf o2)
    (haddr : ∀ o ∈ p2, o.op = .sw → o.addr ≠ none) (hnone : ∀ o ∈ p2, ¬ o.storesTo a) :
    V.prog.NoStore B o2 a := by
  rintro m1 t pc m2 j C rfl hj hC hop ha
  obtain ⟨pc', younger, hline, -⟩ := hat.split
  have hmem : (t, MemOp.sw) ∈ p2.map LsqEntry.key := by
    rw [hp2]
    exact Program.mem_keysOf.mpr ⟨pc, j, by simp, hj, hop⟩
  obtain ⟨o, ho, hkey⟩ := List.mem_map.mp hmem
  obtain ⟨rfl, hsw⟩ := Prod.mk.inj hkey
  have hato : V.At o.tag (o1 ++ m1) j C :=
    ⟨⟨pc, m2 ++ (l.tag, pc') :: younger, by simp [hline, holder], hj⟩,
      Program.after_append.mpr ⟨B, hB, hC⟩, fun _ => hat.wf (by simp [holder])⟩
  have hqueued := h.queued o (by simp [hq, hq1, ho]) _ _ _ hato
  obtain ⟨b, hb⟩ := Option.ne_none_iff_exists'.mp (haddr o ho hsw)
  refine hnone o ho ⟨hsw, ?_⟩
  rw [hb, hqueued.addr_eq hb, ha]

/-- What is forwarded into a load that is ready is its result, and a load that is ready with nothing forwarded is to an
address no older instruction stores to (R136, R137). -/
theorem View.QueueSound.load_ready (h : V.QueueSound q) (hq : q = q1 ++ l :: q2) (hop : l.op = .lw)
    {item : MemItem} (hready : l.ready? q1.reverse = some item) : V.memSound item := by
  obtain ⟨a, ha, hload, rfl⟩ := (LsqEntry.ready?_load_iff hop).mp hready
  obtain ⟨hdisp, haddr, hyoungest⟩ := LsqEntry.loadReady_iff.mp hload
  have haddr' : ∀ o ∈ q1, o.op = .sw → o.addr ≠ none := fun o ho => haddr o (List.mem_reverse.mpr ho)
  -- What there is to say of each place the load can have in program order.
  have key (older : List (Nat × Word)) (i : Instr) (A : Arch) (hat : V.At l.tag older i A) :
      (V.prog.NoStore V.arch older a ∨ ∃ w, l.fwd = some w ∧ A.outcome V.prog.size i = .ok w) ∧
        V.QueuedFor l older i A := by
    have hqueued := h.queued l (by simp [hq]) older i A hat
    refine ⟨?_, hqueued⟩
    cases hst : youngestStore q1.reverse a with
    | none =>
      exact .inl (View.noStore_of_entries h hq hat (o1 := []) rfl rfl (p1 := []) rfl (h.older_keys hq hat) haddr'
        fun o ho => youngestStore_eq_none_iff.mp hst o (List.mem_reverse.mpr ho))
    | some st =>
      right
      obtain ⟨w, hw, hfwd⟩ := hyoungest st hst
      obtain ⟨⟨hsw, hsta⟩, pre, post, hsplit, hpre⟩ := youngestStore_eq_some_iff.mp hst
      have hq1 : q1 = post.reverse ++ st :: pre.reverse := by
        have := congrArg List.reverse hsplit
        simpa using this
      obtain ⟨o1, pc, o2, j, B, hsplit, hj, hato, hstq, -, hkeys⟩ := h.at_of_older hq hat hq1
      have hstop : memOpOf j.op = some .sw := hsw ▸ hstq.op
      obtain ⟨o, ho, hden⟩ := hstq.val hsw
      obtain rfl : o = .val w := Option.some.inj (ho.symm.trans hw)
      obtain ⟨C, hC, hrest⟩ := Program.after_append.mp (hsplit ▸ hat.arch)
      obtain ⟨j', v, hj', hv, hrest⟩ := Program.after_cons.mp hrest
      obtain rfl : j = j' := Option.some.inj (hj.symm.trans hj')
      obtain rfl : B = C := Option.some.inj (hato.arch.symm.trans hC)
      have hnone : V.prog.NoStore (B.advance V.prog.size j v) o2 a :=
        View.noStore_of_entries h hq hat (o1 := o1 ++ [(st.tag, pc)]) (by simpa using hsplit)
          (Program.after_append.mpr ⟨B, hC, Program.after_cons.mpr ⟨j, v, hj, hv, rfl⟩⟩)
          (p1 := post.reverse ++ [st]) (by simpa using hq1) hkeys
          (fun o ho => haddr' o (by rw [hq1]; simp at ho ⊢; exact .inr (.inr ho)))
          fun o ho => hpre o (List.mem_reverse.mp ho)
      obtain ⟨k, hk, hread⟩ := Program.after_read_of_store (x := (st.tag, pc)) (hat.wf (by simp [hsplit])) hC hj hstop
        (hstq.addr_eq hsta).symm hv (hsplit ▸ hat.arch) hnone
      obtain ⟨-, -, hright⟩ := (Arch.store_ok_iff hstop).mp hv
      have hload : memOpOf i.op = some .lw := hop ▸ hqueued.op
      have hw : w = v := (show w = B.right j from hden).trans hright
      exact ⟨w, hfwd, (Arch.load_ok_iff hload).mpr ⟨k, by rw [← hqueued.addr_eq ha]; exact hk, hread.trans hw.symm⟩⟩
  cases hfwd : l.fwd with
  | none =>
    intro older i A hat
    obtain ⟨hcases, hqueued⟩ := key older i A hat
    refine ⟨hop ▸ hqueued.op, hqueued.addr_eq ha, ?_⟩
    rcases hcases with hnone | ⟨w, hw, -⟩
    · exact hnone
    · cases hfwd.symm.trans hw
  | some w =>
    intro older i A hat
    obtain ⟨hcases, hqueued⟩ := key older i A hat
    have hload : memOpOf i.op = some .lw := hop ▸ hqueued.op
    refine ⟨hload, ?_⟩
    rcases hcases with hnone | ⟨w', hw', hv⟩
    · obtain ⟨k, hk, hread⟩ := hqueued.fwd hop a w hdisp ha hfwd hnone
      refine (Arch.load_ok_iff hload).mpr ⟨k, by rw [← hqueued.addr_eq ha]; exact hk, ?_⟩
      rw [Program.after_read hat.arch hnone hk, hread]
    · obtain rfl : w = w' := Option.some.inj (hfwd.symm.trans hw')
      exact hv

/-- A store that is ready is sent with its value (R135, R138). -/
theorem View.QueueSound.store_ready (h : V.QueueSound q) (hl : l ∈ q) (hop : l.op = .sw) {older : List LsqEntry}
    {item : MemItem} (hready : l.ready? older = some item) : V.memSound item := by
  obtain ⟨-, a, w, -, hval, rfl⟩ := (LsqEntry.ready?_store_iff hop).mp hready
  intro older i A hat
  have hqueued := h.queued l hl older i A hat
  obtain ⟨o, ho, hden⟩ := hqueued.val hop
  obtain rfl : o = .val w := Option.some.inj (ho.symm.trans hval)
  exact ⟨hop ▸ hqueued.op, hden⟩

end Sys2Proof.Machine
end

section
/-! What an allocation, a completion and a commit make of the statements about the items in flight, and what the LSQ's
own operations make of those about its entries. -/

namespace Sys2Proof.Machine

variable {V : View} {slot t : Nat} {pc : Word} {older : List (Nat × Word)} {i : Instr} {A : Arch}

/-! ### Allocation -/

section
variable (hfresh : t ∉ V.line.map Prod.fst)
include hfresh

theorem View.Holds.push {p p' : List (Nat × Word) → Instr → Arch → Prop} (hmem : slot ∈ V.line.map Prod.fst)
    (h : V.Holds slot p) (hp : ∀ older i A, p older i A → p' older i A) : (V.push t pc).Holds slot p' :=
  fun older i A hat => hp older i A (h older i A (hat.of_push fun e => hfresh (e ▸ hmem)))

theorem View.entrySound.push {e : RobEntry} (hmem : slot ∈ V.line.map Prod.fst) (h : V.entrySound slot e) :
    (V.push t pc).entrySound slot e := fun hd => View.Holds.push hfresh hmem (h hd) fun _ _ _ => id

theorem View.stationSound.push {e : RsEntry} (hmem : e.tag ∈ V.line.map Prod.fst) (h : V.stationSound e) :
    (V.push t pc).stationSound e :=
  View.Holds.push hfresh hmem h fun _ _ _ ⟨hop, h1, h2⟩ => ⟨hop, h1.push t pc, h2.push t pc⟩

theorem View.execSound.push {x : ExecItem} (hmem : x.tag ∈ V.line.map Prod.fst) (h : V.execSound x) :
    (V.push t pc).execSound x := View.Holds.push hfresh hmem h fun _ _ _ => id

theorem View.memSound.push {x : MemItem} (hmem : x.tag ∈ V.line.map Prod.fst) (h : V.memSound x) :
    (V.push t pc).memSound x := by
  match x with
  | .load _ _ none | .load _ _ (some _) | .store _ _ _ => exact View.Holds.push hfresh hmem h fun _ _ _ => id

theorem View.writeSound.push {x : WriteItem} (hmem : x.tag ∈ V.line.map Prod.fst) (h : V.writeSound x) :
    (V.push t pc).writeSound x := View.Holds.push hfresh hmem h fun _ _ _ => id

theorem View.queuedSound.push {l : LsqEntry} (hmem : l.tag ∈ V.line.map Prod.fst) (h : V.queuedSound l) :
    (V.push t pc).queuedSound l :=
  View.Holds.push hfresh hmem h fun _ _ _ hq =>
    { hq with
      base := hq.base.push t pc
      val := fun hop => (hq.val hop).imp fun _ ho => ⟨ho.1, ho.2.push t pc⟩ }

end

/-! ### Completion -/

theorem View.Holds.complete {p p' : List (Nat × Word) → Instr → Arch → Prop} (h : V.Holds slot p)
    (hp : ∀ older i A, V.At slot older i A → p older i A → p' older i A) : (V.complete t).Holds slot p' :=
  fun older i A hat => hp older i A hat.of_complete (h older i A hat.of_complete)

theorem View.execSound.complete {x : ExecItem} (h : V.execSound x) : (V.complete t).execSound x :=
  View.Holds.complete h fun _ _ _ _ => id

theorem View.memSound.complete {x : MemItem} (h : V.memSound x) : (V.complete t).memSound x := by
  match x with
  | .load _ _ none | .load _ _ (some _) | .store _ _ _ => exact View.Holds.complete h fun _ _ _ _ => id

theorem View.writeSound.complete {x : WriteItem} (h : V.writeSound x) : (V.complete t).writeSound x :=
  View.Holds.complete h fun _ _ _ _ => id

theorem View.entrySound.complete {e : RobEntry} (h : V.entrySound slot e) : (V.complete t).entrySound slot e :=
  fun hd => View.Holds.complete (h hd) fun _ _ _ _ => id

section
variable {w : Word} {f : Option SlotFault} (hw : V.writeSound ⟨t, w, f⟩)
include hw

/-- The completed slot holds what was delivered (R113). -/
theorem View.entrySound.completed {e : RobEntry} (hr : e.result = some w) (hf : e.fault = f) :
    (V.complete t).entrySound t e := fun _ =>
  View.Holds.complete hw fun _ _ _ _ hd => ⟨w, hr, hf ▸ hd⟩

theorem View.stationSound.capture {e : RsEntry} (h : V.stationSound e) :
    (V.complete t).stationSound (e.capture t w) :=
  View.Holds.complete h fun _ _ _ hat ⟨hop, h1, h2⟩ => ⟨hop, h1.capture hat hw, h2.capture hat hw⟩

/-- A broadcast resolves the base with the address, and a store's value (R134). -/
theorem View.queuedSound.capture {l : LsqEntry} (h : V.queuedSound l) :
    (V.complete t).queuedSound (l.capture t w) := by
  refine View.Holds.complete h fun older i A hat hq => ?_
  have haddr : (l.capture t w).addr = addrOfBase (l.capture t w).base (l.capture t w).imm := by
    rw [LsqEntry.capture_addr, LsqEntry.capture_base]
    split
    · rfl
    · exact hq.addr
  -- An address that the broadcast resolves was not known, so nothing was forwarded.
  have hkept (a u : Word) (ha : (l.capture t w).addr = some a) (hu : l.fwd = some u) : l.addr = some a := by
    rw [LsqEntry.capture_addr] at ha
    split at ha
    · rename_i hb
      have hnone : l.addr = none := by rw [hq.addr, hb]; rfl
      exact nomatch (hq.unaddressed hnone).symm.trans hu
    · exact ha
  refine ⟨hq.op, hq.base.capture hat hw, hq.imm, haddr, fun hop => ?_, fun hop a u hd ha hu => ?_, fun hn => ?_⟩
  · obtain ⟨o, ho, hden⟩ := hq.val hop
    refine ⟨o.capture t w, ?_, hden.capture hat hw⟩
    rw [LsqEntry.capture, if_pos (show l.op = .sw from hop), ho, Option.map_some]
  · exact hq.fwd hop a u hd (hkept a u ha hu) hu
  · rw [LsqEntry.capture_addr] at hn
    split at hn
    · cases hn
    · exact hq.unaddressed hn

end

/-! ### Commit -/

section
variable {v : Word} {rest : List (Nat × Word)} {j : Instr} (hline : V.line = (t, pc) :: rest)
  (hj : V.prog.code pc = some j) (hv : V.arch.outcome V.prog.size j = .ok v) (hwf : V.arch.mem.wf)
include hline hj hv hwf

theorem View.Holds.pop {p p' : List (Nat × Word) → Instr → Arch → Prop} (h : V.Holds slot p)
    (hp : ∀ older i A, p ((t, pc) :: older) i A → p' older i A) :
    (V.pop (V.arch.advance V.prog.size j v)).Holds slot p' :=
  fun older i A hat => hp older i A (h _ i A (hat.of_pop hline hj hv hwf))

theorem View.entrySound.pop {e : RobEntry} (h : V.entrySound slot e) :
    (V.pop (V.arch.advance V.prog.size j v)).entrySound slot e :=
  fun hd => View.Holds.pop hline hj hv hwf (h hd) fun _ _ _ => id

theorem View.stationSound.pop {e : RsEntry} (ht : V.awaits t = false) (h : V.stationSound e) :
    (V.pop (V.arch.advance V.prog.size j v)).stationSound e :=
  View.Holds.pop hline hj hv hwf h fun _ _ _ ⟨hop, h1, h2⟩ => ⟨hop, h1.pop hj hv ht, h2.pop hj hv ht⟩

theorem View.execSound.pop {x : ExecItem} (h : V.execSound x) :
    (V.pop (V.arch.advance V.prog.size j v)).execSound x := View.Holds.pop hline hj hv hwf h fun _ _ _ => id

theorem View.memSound.pop {x : MemItem} (h : V.memSound x) :
    (V.pop (V.arch.advance V.prog.size j v)).memSound x := by
  match x with
  | .load _ _ none =>
    exact View.Holds.pop hline hj hv hwf h fun _ _ _ ⟨hop, ha, hn⟩ => ⟨hop, ha, hn.tail hj hv⟩
  | .load _ _ (some _) | .store _ _ _ => exact View.Holds.pop hline hj hv hwf h fun _ _ _ => id

theorem View.writeSound.pop {x : WriteItem} (h : V.writeSound x) :
    (V.pop (V.arch.advance V.prog.size j v)).writeSound x := View.Holds.pop hline hj hv hwf h fun _ _ _ => id

end

/-! ### The operations of the LSQ -/

variable {q q' : List LsqEntry}

/-- The entry at a place of a list, with those before and after it. -/
theorem split_of_getElem? {α : Type} {l : List α} {k : Nat} {x : α} (h : l[k]? = some x) :
    l = l.take k ++ x :: l.drop (k + 1) := by
  obtain ⟨hk, rfl⟩ := List.getElem?_eq_some_iff.mp h
  rw [List.getElem_cons_drop hk, List.take_append_drop]

/-- An entry stands for an instruction in flight. -/
theorem View.QueueSound.mem_line (h : V.QueueSound q) {l : LsqEntry} (hl : l ∈ q) : l.tag ∈ V.line.map Prod.fst := by
  have hkey : (l.tag, l.op) ∈ V.prog.keysOf V.line := h.order ▸ List.mem_map_of_mem (f := LsqEntry.key) hl
  obtain ⟨pc, -, hmem, -⟩ := Program.mem_keysOf.mp hkey
  exact List.mem_map_of_mem (f := Prod.fst) hmem

/-- The forward scan keeps what is said of the entries: it forwards only from a store in flight (R137). -/
theorem View.QueueSound.scan (h : V.QueueSound q) : V.QueueSound (scanEntries [] q) := by
  refine ⟨h.nodup, (keys_eq_of_unforwarded (scanEntries_unforwarded [] q)).trans h.order, fun l' hl' => ?_⟩
  obtain ⟨k, hk⟩ := List.mem_iff_getElem?.mp hl'
  rw [getElem?_scanEntries, List.append_nil, Option.map_eq_some_iff] at hk
  obtain ⟨l, hk, rfl⟩ := hk
  have hsplit := split_of_getElem? hk
  have hsound := h.queued l (List.mem_of_getElem? hk)
  obtain ⟨w, hscan⟩ := LsqEntry.scan_eq (q.take k).reverse l
  intro older i A hat
  have hat' : V.At l.tag older i A := by rwa [hscan] at hat
  have hq := hsound older i A hat'
  cases ha : l.addr with
  | none =>
    have : l.scan (q.take k).reverse = l := by rw [LsqEntry.scan, ha]; cases l.op <;> rfl
    rwa [this]
  | some a =>
    have hforward : l.op = .lw → V.forwardSound older (l.scan (q.take k).reverse) := by
      intro hop
      cases hst : youngestStore (q.take k).reverse a with
      | none =>
        rw [LsqEntry.scan_of_no_store hop ha hst]
        exact hq.fwd hop
      | some st =>
        rw [LsqEntry.scan_of_store hop ha hst]
        intro b u _ hb _ hnone
        obtain rfl : a = b := Option.some.inj (ha.symm.trans hb)
        obtain ⟨⟨hsw, hsta⟩, pre, post, hpre, -⟩ := youngestStore_eq_some_iff.mp hst
        have hbefore : q.take k = post.reverse ++ st :: pre.reverse := by
          have := congrArg List.reverse hpre
          simpa using this
        obtain ⟨o1, pc, o2, j, B, holder, hj, hato, hstq, -⟩ := h.at_of_older hsplit hat' hbefore
        exact absurd (hstq.addr_eq hsta).symm (hnone o1 st.tag pc o2 j B holder hj hato.arch (hsw ▸ hstq.op))
    rw [hscan] at hforward ⊢
    exact { hq with fwd := hforward, unaddressed := fun hn => nomatch ha.symm.trans hn }

/-- Dispatch marks an entry, and keeps what is said of it (R138). -/
theorem View.QueueSound.dispatch (h : V.QueueSound q) {k : Nat} {l : LsqEntry} (hk : q[k]? = some l) :
    V.QueueSound (q.set k { l with disp := true }) := by
  have hsplit := split_of_getElem? hk
  refine ⟨h.nodup, ?_, fun l' hl' => ?_⟩
  · rw [List.map_set, ← h.order]
    have hkey : (q.map LsqEntry.key)[k]? = some l.key := by rw [List.getElem?_map, hk]; rfl
    obtain ⟨hlt, hget⟩ := List.getElem?_eq_some_iff.mp hkey
    exact (congrArg _ hget.symm).trans (List.set_getElem_self hlt)
  · rcases List.mem_or_eq_of_mem_set hl' with hl' | rfl
    · exact h.queued l' hl'
    · intro older i A hat
      have hq := h.queued l (List.mem_of_getElem? hk) older i A hat
      exact { hq with fwd := fun _ _ _ hd => nomatch hd }

/-- The entry of a new memory instruction is appended (R131, R132). -/
theorem View.QueueSound.push_memory (h : V.QueueSound q) (hfresh : t ∉ V.line.map Prod.fst) {l : LsqEntry}
    (hi : V.prog.code pc = some i) (hop : memOpOf i.op = some l.op) (ht : l.tag = t)
    (hl : (V.push t pc).queuedSound l) : (V.push t pc).QueueSound (q ++ [l]) := by
  refine ⟨?_, ?_, fun l' hl' => ?_⟩
  · simpa [View.push, List.nodup_append] using ⟨h.nodup, fun a b hab e => hfresh (List.mem_map.mpr ⟨(a, b), hab, e⟩)⟩
  · have hkey : V.prog.keyOf? (t, pc) = some l.key := Program.keyOf?_eq_some.mpr ⟨i, hi, hop, ht.symm⟩
    rw [List.map_append, h.order]
    show _ = V.prog.keysOf (V.line ++ [(t, pc)])
    rw [Program.keysOf, Program.keysOf, List.filterMap_append, List.filterMap_cons_some hkey]
    rfl
  · rcases List.mem_append.mp hl' with hl' | hl'
    · exact (h.queued l' hl').push hfresh (h.mem_line hl')
    · exact List.mem_singleton.mp hl' ▸ hl

/-- A new instruction of another kind leaves the entries (R163). -/
theorem View.QueueSound.push_other (h : V.QueueSound q) (hfresh : t ∉ V.line.map Prod.fst)
    (hi : V.prog.code pc = some i) (hop : memOpOf i.op = none) : (V.push t pc).QueueSound q := by
  refine ⟨?_, ?_, fun l hl => (h.queued l hl).push hfresh (h.mem_line hl)⟩
  · simpa [View.push, List.nodup_append] using ⟨h.nodup, fun a b hab e => hfresh (List.mem_map.mpr ⟨(a, b), hab, e⟩)⟩
  · have hkey : V.prog.keyOf? (t, pc) = none := by simp [Program.keyOf?, hi, hop]
    rw [h.order]
    show _ = V.prog.keysOf (V.line ++ [(t, pc)])
    rw [Program.keysOf, Program.keysOf, List.filterMap_append, List.filterMap_cons_none hkey]
    simp

/-- A broadcast of what a slot delivers keeps what is said of the entries (R134). -/
theorem View.QueueSound.capture (h : V.QueueSound q) {w : Word} {f : Option SlotFault}
    (hw : V.writeSound ⟨t, w, f⟩) : (V.complete t).QueueSound (q.map (LsqEntry.capture t w)) := by
  refine ⟨h.nodup, (keys_capture q t w).trans h.order, fun l' hl' => ?_⟩
  obtain ⟨l, hl, rfl⟩ := List.mem_map.mp hl'
  exact (h.queued l hl).capture hw

end Sys2Proof.Machine
end

section
/-! The commit of the oldest instruction and the LSQ: what is behind it stays sound, and a committed store is forwarded
to the loads that wait for it (R141 to R143). -/

namespace Sys2Proof.Machine

section
variable {V : View} {t : Nat} {pc v : Word} {rest older : List (Nat × Word)} {i j : Instr} {A : Arch}
  {q l' : List LsqEntry} {l : LsqEntry}
  (hline : V.line = (t, pc) :: rest) (hj : V.prog.code pc = some j)
  (hv : V.arch.outcome V.prog.size j = .ok v) (hwf : V.arch.mem.wf) (ht : V.awaits t = false)
include hline hj hv

omit hv in
/-- The memory instructions behind the oldest instruction. -/
theorem View.QueueSound.keys_pop (h : V.QueueSound q) :
    q.map LsqEntry.key = ((memOpOf j.op).map fun op => (t, op)).toList ++ V.prog.keysOf rest := by
  have hkey : V.prog.keyOf? (t, pc) = (memOpOf j.op).map fun op => (t, op) := by simp [Program.keyOf?, hj]
  rw [h.order, hline, Program.keysOf, List.filterMap_cons, hkey]
  cases memOpOf j.op <;> rfl

omit hline in
/-- What is said of an entry behind the committed instruction, but for its forwarded value. -/
theorem View.QueuedFor.pop (h : V.QueuedFor l ((t, pc) :: older) i A)
    (ht : V.awaits t = false) {w : Option Word} (hw : l.addr = none → w = none)
    (hfwd : l.op = .lw → (V.pop (V.arch.advance V.prog.size j v)).forwardSound older { l with fwd := w }) :
    (V.pop (V.arch.advance V.prog.size j v)).QueuedFor { l with fwd := w } older i A :=
  { op := h.op
    base := h.base.pop hj hv ht
    imm := h.imm
    addr := h.addr
    val := fun hop => (h.val hop).imp fun _ ho => ⟨ho.1, ho.2.pop hj hv ht⟩
    fwd := hfwd
    unaddressed := hw }

omit hline in
/-- The commit of an instruction that stores nowhere near the address of a load leaves what is said of its forwarded
value. -/
theorem View.forwardSound.pop {w : Option Word} (h : V.forwardSound ((t, pc) :: older) l) (hw : w = l.fwd)
    (hother : ∀ a, l.addr = some a → l.disp = false → w ≠ none →
      (V.pop (V.arch.advance V.prog.size j v)).prog.NoStore (V.arch.advance V.prog.size j v) older a →
        memOpOf j.op = some .sw → V.arch.addr j ≠ a) :
    (V.pop (V.arch.advance V.prog.size j v)).forwardSound older { l with fwd := w } := by
  intro a u hd ha hu hnone
  have hne := hother a ha hd (fun hn => nomatch hn.symm.trans hu) hnone
  obtain ⟨k, hk, hread⟩ := h a u hd ha (hw ▸ hu) (Program.noStore_cons hj hv hne hnone)
  exact ⟨k, hk, (Arch.read_memAfter hk hne v).trans hread⟩

include hwf ht

/-- The commit of an instruction that is no store leaves the entries behind it sound (R143, R168). -/
theorem View.QueueSound.pop {restq : List LsqEntry} (h : V.QueueSound q) (hsub : ∀ l ∈ restq, l ∈ q)
    (hkeys : restq.map LsqEntry.key = V.prog.keysOf rest) (hop : memOpOf j.op ≠ some .sw) :
    (V.pop (V.arch.advance V.prog.size j v)).QueueSound restq := by
  have htail : V.line.tail = rest := by rw [hline, List.tail_cons]
  refine ⟨?_, ?_, fun l hl older i A hat => ?_⟩
  · have := h.nodup
    rw [hline, List.map_cons, List.nodup_cons] at this
    show (V.line.tail.map Prod.fst).Nodup
    exact htail ▸ this.2
  · show _ = V.prog.keysOf V.line.tail
    rw [htail, hkeys]
  · have hq := h.queued l (hsub l hl) _ i A (hat.of_pop hline hj hv hwf)
    exact hq.pop (w := l.fwd) hj hv ht hq.unaddressed fun hlw =>
      (hq.fwd hlw).pop hj hv rfl fun _ _ _ _ _ hsw => absurd hsw hop

/-- The commit of a store forwards its value to the loads behind it that wait for the address, up to the next store to
it (R141, R142). -/
theorem View.QueueSound.pop_store {l0 : LsqEntry} {restq : List LsqEntry} (h : V.QueueSound (l0 :: restq))
    (hop : memOpOf j.op = some .sw) :
    (V.pop (V.arch.advance V.prog.size j v)).QueueSound (forwardStoreTo (V.arch.addr j) v restq) := by
  have htail : V.line.tail = rest := by rw [hline, List.tail_cons]
  have hkeys := h.keys_pop hline hj
  rw [hop, List.map_cons] at hkeys
  have hrest : restq.map LsqEntry.key = V.prog.keysOf rest := (List.cons.inj hkeys).2
  obtain ⟨k, hk, hright⟩ := (Arch.store_ok_iff hop).mp hv
  refine ⟨?_, ?_, fun l' hl' => ?_⟩
  · have := h.nodup
    rw [hline, List.map_cons, List.nodup_cons] at this
    show (V.line.tail.map Prod.fst).Nodup
    exact htail ▸ this.2
  · show _ = V.prog.keysOf V.line.tail
    rw [htail, ← hrest, keys_eq_of_unforwarded (forwardStoreTo_unforwarded _ v restq)]
  · obtain ⟨m, hm⟩ := List.mem_iff_getElem?.mp hl'
    have hlt : m < restq.length := by
      have := (List.getElem?_eq_some_iff.mp hm).1
      rwa [forwardStoreTo_length] at this
    have hl := List.getElem?_eq_getElem hlt
    generalize restq[m] = l at hl
    by_cases hreach : l.awaits (V.arch.addr j) ∧ NoStoreBefore (V.arch.addr j) restq m
    · -- The load takes the value, which is now in the cell.
      obtain ⟨⟨hlw, ha, hd⟩, hbefore⟩ := hreach
      obtain rfl := Option.some.inj (hm.symm.trans (forwardStoreTo_reaches v hl ⟨hlw, ha, hd⟩ hbefore))
      intro older i A hat
      have hat' : (V.pop (V.arch.advance V.prog.size j v)).At l.tag older i A := hat
      have hq := h.queued l (List.mem_cons_of_mem _ (List.mem_of_getElem? hl)) _ i A (hat'.of_pop hline hj hv hwf)
      refine hq.pop hj hv ht (fun hn => nomatch ha.symm.trans hn) fun _ b u _ hb hu _ => ?_
      obtain rfl := Option.some.inj (ha.symm.trans hb)
      obtain rfl := Option.some.inj hu
      refine ⟨k, hk, ?_⟩
      show (V.arch.memAfter V.prog.size j v).read k = v
      rw [Arch.memAfter_of_store hop hk]
      exact Memory.read_write_self hwf k v
    · -- The entry is as before; a store to the same address before it is still in flight.
      obtain rfl := Option.some.inj (hm.symm.trans (forwardStoreTo_keeps v hl hreach))
      intro older i A hat
      have hat' := hat.of_pop hline hj hv hwf
      have hq := h.queued l' (List.mem_cons_of_mem _ (List.mem_of_getElem? hl)) _ i A hat'
      refine hq.pop (w := l'.fwd) hj hv ht hq.unaddressed fun hlw => (hq.fwd hlw).pop hj hv rfl ?_
      rintro a ha hd - hnone - rfl
      refine hreach ⟨⟨hlw, ha, hd⟩, fun n o hn ho hst => ?_⟩
      have hsplit : l0 :: restq = (l0 :: restq.take m) ++ l' :: restq.drop (m + 1) := by
        rw [List.cons_append, ← split_of_getElem? hl]
      have hbefore : l0 :: restq.take m = (l0 :: (restq.take m).take n) ++ o :: (restq.take m).drop (n + 1) := by
        rw [List.cons_append, ← split_of_getElem?]
        rw [List.getElem?_take, if_pos hn, ho]
      obtain ⟨o1, pc', o2, j', B, holder, hj', hato, hoq, hkeys1, -⟩ := h.at_of_older hsplit hat' hbefore
      cases o1 with
      | nil => cases hkeys1
      | cons y o1 =>
        obtain ⟨rfl, rfl⟩ := List.cons.inj holder
        obtain ⟨j'', v'', hj'', hv'', hB⟩ := Program.after_cons.mp hato.arch
        obtain rfl : j = j'' := Option.some.inj (hj.symm.trans hj'')
        obtain rfl : v = v'' := Except.ok.inj (hv.symm.trans hv'')
        exact hnone o1 o.tag pc' o2 j' B rfl hj' hB (hst.1 ▸ hoq.op) (hoq.addr_eq hst.2).symm

end

end Sys2Proof.Machine
end

section
/-! The invariant of the scheduled core over its state: the entries in flight are those of the program's instructions,
the alias table names the youngest writers, what is carried agrees with the sequential meaning, and every slot that
waits is carried.  First what the stages but commit do to it. -/

namespace Sys2Proof.Machine

/-! ### Items of a queue -/

section
variable {α : Type} {q : Fifo α} {i : α}

/-- The items of a queue, visible and pending (R35). -/
def Fifo.items (q : Fifo α) : List α := q.visible ++ q.pending

theorem Fifo.items_push (q : Fifo α) (i : α) : (q.push i).items = q.items ++ [i] := by simp [Fifo.items, Fifo.push]

theorem Fifo.items_settle (q : Fifo α) : q.settle.items = q.items := by simp [Fifo.items, Fifo.settle]

theorem Fifo.items_of_visible {rest : List α} (h : q.visible = i :: rest) : q.items = i :: q.pop.items := by
  simp [Fifo.items, Fifo.pop, h]

theorem Fifo.mem_items_of_visible {rest : List α} (h : q.visible = i :: rest) : i ∈ q.items := by
  rw [Fifo.items_of_visible h]
  exact List.mem_cons_self

theorem Fifo.mem_items_of_pop {x : α} (h : x ∈ q.pop.items) : x ∈ q.items := by
  rw [Fifo.items, List.mem_append] at h ⊢
  exact h.imp_left List.mem_of_mem_tail

theorem Fifo.mem_items_push {x : α} (h : x ∈ (q.push i).items) : x ∈ q.items ∨ x = i := by
  simpa [Fifo.items_push] using h

end

/-! ### The invariant -/

/-- The program's instruction in front of each stage: what was fetched and decoded, and the fields of ROB entries that
are fixed at issue (R110 to R112). -/
structure Decoded (s : State) : Prop where
  fetched : ∀ x ∈ s.queues.fq.items, s.imem? x.pc = some x.code
  decoded : ∀ x ∈ s.queues.iq.items, s.instrAt x.pc = some x.instr
  held : ∀ slot e, s.rob.entry? slot = some e →
    ∃ i, s.instrAt e.pc = some i ∧ e.op = i.op ∧ e.dest = i.dest ∧ e.rpc = recoveryPc i e.pc

/-- Some instruction of `l` writes the register. -/
def Program.writes (P : Program) (l : List (Nat × Word)) (r : RegId) : Prop :=
  ∃ x ∈ l, ∃ i, P.code x.2 = some i ∧ i.dest = some r

/-- A register that no instruction in flight writes is unmapped, and another is mapped to the youngest that writes it
(R42, R104). -/
def View.mapped (V : View) (r : RegId) : Option Nat → Prop
  | none => ¬ V.prog.writes V.line r
  | some slot => ∃ o1 pc o2 i, V.line = o1 ++ (slot, pc) :: o2 ∧ V.prog.code pc = some i ∧ i.dest = some r ∧
      ¬ V.prog.writes o2 r

/-- The stations and `EQ` hold nothing for the memory stage (R119, R130). -/
structure Computes (s : State) : Prop where
  stations : ∀ e, some e ∈ s.rs → memOpOf e.op = none
  execs : ∀ x ∈ s.queues.eq.items, memOpOf x.op = none

/-- What is in flight carries the values of the sequential meaning. -/
structure ValuesSound (s : State) : Prop where
  entries : ∀ slot e, s.rob.entry? slot = some e → s.view.entrySound slot e
  stations : ∀ e, some e ∈ s.rs → s.view.stationSound e
  execs : ∀ x ∈ s.queues.eq.items, s.view.execSound x
  mems : ∀ x ∈ s.queues.mq.items, s.view.memSound x
  writes : ∀ x ∈ s.queues.wq.items, s.view.writeSound x
  queue : s.view.QueueSound s.lsq.entries

/-- The invariant of the scheduled core. -/
structure CoreSound (s : State) : Prop where
  pipeline : pipelineSound s
  decoded : Decoded s
  mapped : ∀ r, s.view.mapped r (s.alias? r)
  computes : Computes s
  values : ValuesSound s
  carried : ∀ slot, s.rob.awaits slot = true → slot ∈ s.inFlight

/-- A change that leaves the ROB, the alias table, the stations, the LSQ, the program and committed state. -/
structure SameCore (s t : State) : Prop where
  view : t.view = s.view
  imem : t.imem? = s.imem?
  rob : t.rob = s.rob
  rat : t.rat = s.rat

/-- What moves items between queues, and leaves the rest of the core, keeps the invariant if what it adds is sound. -/
theorem CoreSound.moved {s t : State} (h : CoreSound s) (hp : pipelineSound t) (same : SameCore s t)
    (hflight : ∀ slot, s.inFlight.count slot ≤ t.inFlight.count slot)
    (hfq : ∀ x ∈ t.queues.fq.items, x ∈ s.queues.fq.items ∨ s.imem? x.pc = some x.code := by exact fun _ => .inl)
    (hiq : ∀ x ∈ t.queues.iq.items, x ∈ s.queues.iq.items ∨ s.instrAt x.pc = some x.instr := by exact fun _ => .inl)
    (hrs : ∀ e, some e ∈ t.rs → some e ∈ s.rs := by exact fun _ => id)
    (heq : ∀ x ∈ t.queues.eq.items, x ∈ s.queues.eq.items ∨ memOpOf x.op = none ∧ s.view.execSound x := by
      exact fun _ => .inl)
    (hmq : ∀ x ∈ t.queues.mq.items, x ∈ s.queues.mq.items ∨ s.view.memSound x := by exact fun _ => .inl)
    (hwq : ∀ x ∈ t.queues.wq.items, x ∈ s.queues.wq.items ∨ s.view.writeSound x := by exact fun _ => .inl)
    (hlsq : s.view.QueueSound t.lsq.entries := by exact h.values.queue) : CoreSound t := by
  have hcode : t.instrAt = s.instrAt := congrArg (fun V : View => V.prog.code) same.view
  constructor
  · exact hp
  · constructor
    · rw [same.imem]
      exact fun x hx => (hfq x hx).elim (h.decoded.fetched x) id
    · rw [hcode]
      exact fun x hx => (hiq x hx).elim (h.decoded.decoded x) id
    · rw [hcode, same.rob]
      exact h.decoded.held
  · intro r
    rw [same.view, State.alias?_congr same.rat]
    exact h.mapped r
  · constructor
    · exact fun e he => h.computes.stations e (hrs e he)
    · exact fun x hx => (heq x hx).elim (h.computes.execs x) And.left
  · constructor <;> rw [same.view]
    · rw [same.rob]
      exact h.values.entries
    · exact fun e he => h.values.stations e (hrs e he)
    · exact fun x hx => (heq x hx).elim (h.values.execs x) And.right
    · exact fun x hx => (hmq x hx).elim (h.values.mems x) id
    · exact fun x hx => (hwq x hx).elim (h.values.writes x) id
    · exact hlsq
  · intro slot ha
    rw [same.rob] at ha
    have := List.count_pos_iff.mpr (h.carried slot ha)
    exact List.count_pos_iff.mp (this.trans_le (hflight slot))

/-! ### Fetch and decode -/

theorem stageFetch_coreSound {s : State} (h : CoreSound s) : CoreSound (stageFetch s) := by
  have hp : pipelineSound (stageFetch s) :=
    ⟨stageFetch_structuresSound h.pipeline.1, stageFetch_tracked h.pipeline.2⟩
  rcases stageFetch_cases s with ⟨code, hcode, -, he⟩ | he <;> rw [he] at hp ⊢
  · refine h.moved hp ⟨rfl, rfl, rfl, rfl⟩ (fun _ => le_rfl) (hfq := fun x hx => ?_)
    rcases Fifo.mem_items_push hx with hx | rfl
    · exact .inl hx
    · exact .inr hcode
  · exact h

theorem SubResult.of_all_cont {P : State → Prop} {r : SubResult} {t : State} (h : r.all P) (ht : r = .cont t) :
    P t := by
  rw [ht] at h
  exact h

theorem stageDecode_coreSound {s t : State} (h : CoreSound s) (ht : stageDecode s = .cont t) : CoreSound t := by
  have hp : pipelineSound t := SubResult.of_all_cont
    ((stageDecode_structuresSound h.pipeline.1).and (stageDecode_tracked h.pipeline.2)) ht
  rcases stageDecode_cases s with ⟨item, rest, i, hfront, hi, he⟩ | ⟨_, _, _, -, -, he⟩ | he <;> cases he.symm.trans ht
  · refine h.moved hp ⟨rfl, rfl, rfl, rfl⟩ (fun _ => le_rfl) (hfq := fun x hx => .inl (Fifo.mem_items_of_pop hx))
      (hiq := fun x hx => ?_)
    rcases Fifo.mem_items_push hx with hx | rfl
    · exact .inl hx
    · right
      have hcode := h.decoded.fetched item (Fifo.mem_items_of_visible hfront)
      simp [State.instrAt, hcode, hi, Except.toOption]
  · exact h

/-! ### Dispatch -/

/-- The operands of a ready entry are those of its instruction (R123, R124). -/
theorem View.stationSound.ready {V : View} {e : RsEntry} {item : ExecItem} (h : V.stationSound e)
    (hready : e.ready? = some item) : V.execSound item := by
  obtain ⟨a, b, h1, h2, rfl⟩ := RsEntry.ready?_eq_some_iff.mp hready
  intro older i A hat
  obtain ⟨hop, hd1, hd2⟩ := h older i A hat
  rw [h1] at hd1
  rw [h2] at hd2
  exact ⟨hop, hd1, hd2⟩

theorem dispatchStation_coreSound {s : State} (h : CoreSound s) : CoreSound (dispatchStation s) := by
  have hp : pipelineSound (dispatchStation s) :=
    ⟨dispatchStation_structuresSound h.pipeline.1, dispatchStation_tracked h.pipeline.2⟩
  rcases dispatchStation_cases s with ⟨item, rs', hn, -, he⟩ | he <;> rw [he] at hp ⊢
  · obtain ⟨k, e, hk, hready, hset, -⟩ := Stations.nextReady_eq_some hn
    have hmem := List.mem_of_getElem? hk
    refine h.moved hp ⟨rfl, rfl, rfl, rfl⟩ (fun slot => ?_) (hrs := fun e' he' => ?_) (heq := fun x hx => ?_)
    · have htaken := Stations.tags_nextReady hn slot
      have hpushed := s.queues.eq.tags_push ExecItem.tag slot item
      simp only [State.count_inFlight, State.withQueues_rs, State.withQueues_queues, State.withQueues_lsq,
        State.withRs_rs, State.withRs_lsq]
      omega
    · have he' : some e' ∈ s.rs.set k none := hset ▸ he'
      exact (List.mem_or_eq_of_mem_set he').elim id nofun
    · rcases Fifo.mem_items_push hx with hx | rfl
      · exact .inl hx
      · refine .inr ⟨?_, (h.values.stations e hmem).ready hready⟩
        obtain ⟨a, b, -, -, rfl⟩ := RsEntry.ready?_eq_some_iff.mp hready
        exact h.computes.stations e hmem
  · exact h

theorem dispatchMemory_coreSound {s : State} (h : CoreSound s) : CoreSound (dispatchMemory s) := by
  have hp : pipelineSound (dispatchMemory s) :=
    ⟨dispatchMemory_structuresSound h.pipeline.1, dispatchMemory_tracked h.pipeline.2⟩
  have hscan : s.view.QueueSound s.lsq.forwardScan.entries := h.values.queue.scan
  have hunsent : unsentTags s.lsq.forwardScan.entries = unsentTags s.lsq.entries :=
    unsentTags_eq_of_unforwarded (scanEntries_unforwarded [] _)
  rcases dispatchMemory_cases s with ⟨item, lsq', hn, -, he⟩ | he <;> rw [he] at hp ⊢
  · obtain ⟨k, l, hk, hready, -, hset⟩ := Lsq.nextReady_eq_some hn
    have hmem := List.mem_of_getElem? hk
    refine h.moved hp ⟨rfl, rfl, rfl, rfl⟩ (fun slot => ?_) (hmq := fun x hx => ?_) (hlsq := ?_)
    · obtain ⟨⟨sent, l'⟩, hd, heq⟩ := Option.map_eq_some_iff.mp hn
      cases heq
      obtain ⟨-, -, hcount⟩ := dispatchEntries_sends hd
      have hsent := hcount slot
      have hpushed := s.queues.mq.tags_push MemItem.tag slot sent
      rw [hunsent] at hsent
      simp only [State.count_inFlight, State.withQueues_rs, State.withQueues_queues, State.withQueues_lsq,
        State.withLsq_rs, State.withLsq_lsq]
      omega
    · rcases Fifo.mem_items_push hx with hx | rfl
      · exact .inl hx
      · right
        cases hop : l.op with
        | lw => exact hscan.load_ready (split_of_getElem? hk) hop hready
        | sw => exact hscan.store_ready hmem hop hready
    · show s.view.QueueSound lsq'.entries
      rw [hset]
      exact hscan.dispatch hk
  · refine h.moved hp ⟨rfl, rfl, rfl, rfl⟩ (fun slot => ?_) (hlsq := hscan)
    rw [State.count_inFlight, State.count_inFlight, State.withLsq_lsq, hunsent]
    exact le_rfl

theorem stageDispatch_coreSound {s : State} (h : CoreSound s) : CoreSound (stageDispatch s) :=
  dispatchMemory_coreSound (dispatchStation_coreSound h)

/-! ### Execute and memory -/

/-- The unit knows every opcode but those of memory instructions (R126, R128). -/
theorem alu_supported {o : Op} (h : memOpOf o = none) (a b : Word) : alu o a b ≠ .unsupported := by
  have division (q : Option Word) : AluResult.ofDivision q ≠ .unsupported := by cases q <;> exact nofun
  cases o with
  | lw | sw => cases h
  | div | idiv | mod => exact division _
  | add | sub | mul | addi | beq | j => exact nofun

/-- No opcode reaches the unit that it does not know (R128). -/
theorem stageExecute_cont {s : State} (h : Computes s) : ∃ t, stageExecute s = .cont t := by
  rcases stageExecute_cases s with ⟨item, rest, hfront, ⟨v, -, he⟩ | ⟨-, he⟩ | ⟨hunsupported, -⟩⟩ | he
  · exact ⟨_, he⟩
  · exact ⟨_, he⟩
  · exact absurd hunsupported (alu_supported (h.execs item (Fifo.mem_items_of_visible hfront)) _ _)
  · exact ⟨_, he⟩

theorem stageExecute_coreSound {s t : State} (h : CoreSound s) (ht : stageExecute s = .cont t) : CoreSound t := by
  have hp : pipelineSound t := SubResult.of_all_cont
    ((stageExecute_structuresSound h.pipeline.1).and (stageExecute_tracked h.pipeline.2)) ht
  rcases stageExecute_cases s with ⟨item, rest, hfront, he⟩ | he
  · have hmem := Fifo.mem_items_of_visible hfront
    have hnot := h.computes.execs item hmem
    have popped (slot : Nat) := State.count_popEq slot hfront
    have keeps (w : WriteItem) (n : Nat) (htag : w.tag = item.tag)
        (hw : ∀ i, memOpOf i.op = none → delivered i (alu item.op item.v1 item.v2).outcome w.value w.fault)
        (hp : pipelineSound (((s.withQueues { s.queues with eq := s.queues.eq.pop }).pushWrite w).withPoisonSeq n)) :
        CoreSound (((s.withQueues { s.queues with eq := s.queues.eq.pop }).pushWrite w).withPoisonSeq n) := by
      refine h.moved hp ⟨rfl, rfl, rfl, rfl⟩ (fun slot => ?_) (heq := fun x hx => .inl (Fifo.mem_items_of_pop hx))
        (hwq := fun x hx => ?_)
      · rw [popped slot, ← htag]
        exact (State.count_pushWrite slot w).ge
      · rcases Fifo.mem_items_push hx with hx | rfl
        · exact .inl hx
        · refine .inr fun older i A hat => ?_
          obtain ⟨hop, h1, h2⟩ := h.values.execs item hmem older i A (htag ▸ hat)
          have := hw i (hop ▸ hnot)
          rwa [hop, h1, h2, ← Arch.outcome_of_not_memory (hop ▸ hnot)] at this
    rcases he with ⟨v, hv, he⟩ | ⟨hv, he⟩ | ⟨-, he⟩ <;> cases he.symm.trans ht
    · exact keeps ⟨item.tag, v, none⟩ s.poisonSeq rfl (fun i _ => delivered_of_ok (by rw [hv]; rfl)) hp
    · exact keeps ⟨item.tag, _, some .arithmetic⟩ _ rfl
        (fun i hi => delivered_of_error (by rw [hv]; rfl) (by simp [hi]) _) hp
  · cases he.symm.trans ht
    exact h

/-- What the memory stage delivers for an item (R139, R140). -/
theorem evalMemory_sound {s : State} {m : MemItem} (h : s.view.memSound m) :
    ∃ w n, w.tag = m.tag ∧ s.evalMemory m = (s.pushWrite w).withPoisonSeq n ∧ s.view.writeSound w := by
  match m with
  | .store tag a v =>
    refine ⟨⟨tag, v, none⟩, s.poisonSeq, rfl, rfl, fun older i A hat => ?_⟩
    obtain ⟨hop, rfl⟩ := h older i A hat
    cases ho : A.outcome s.view.prog.size i with
    | ok u =>
      obtain ⟨-, -, hright⟩ := (Arch.store_ok_iff hop).mp ho
      exact ⟨hright, rfl⟩
    | error f => exact (if_pos hop).symm
  | .load tag a (some v) =>
    refine ⟨⟨tag, v, none⟩, s.poisonSeq, rfl, rfl, fun older i A hat => ?_⟩
    obtain ⟨-, hv⟩ := h older i A hat
    exact delivered_of_ok hv
  | .load tag a none =>
    -- No store in flight is to the address, so the cell is as committed.
    cases hcell : cellOf s.params.memSize a with
    | some k =>
      refine ⟨⟨tag, s.mem.read k, none⟩, s.poisonSeq, rfl, ?_, fun older i A hat => ?_⟩
      · simp only [State.evalMemory, s.loadCell_eq_some.mpr ⟨k, hcell, rfl⟩]
        rfl
      · obtain ⟨hop, rfl, hnone⟩ := h older i A hat
        exact delivered_of_ok ((Arch.load_ok_iff hop).mpr ⟨k, hcell, Program.after_read hat.arch hnone hcell⟩)
    | none =>
      refine ⟨⟨tag, Config.poison s.poisonSeq, some (.memoryAddress a)⟩, s.poisonSeq + 1, rfl, ?_,
        fun older i A hat => ?_⟩
      · simp only [State.evalMemory, s.loadCell_eq_none.mpr hcell]
        rfl
      · obtain ⟨hop, rfl, -⟩ := h older i A hat
        exact delivered_of_error ((Arch.memory_error_iff hop).mpr ⟨hcell, rfl⟩) (by simp [hop]) _

theorem stageMemory_coreSound {s : State} (h : CoreSound s) : CoreSound (stageMemory s) := by
  have hp : pipelineSound (stageMemory s) :=
    ⟨stageMemory_structuresSound h.pipeline.1, stageMemory_tracked h.pipeline.2⟩
  rcases stageMemory_cases s with ⟨item, rest, hfront, he⟩ | he <;> rw [he] at hp ⊢
  · have hmem := Fifo.mem_items_of_visible hfront
    obtain ⟨w, n, htag, heval, hw⟩ :=
      evalMemory_sound (s := s.withQueues { s.queues with mq := s.queues.mq.pop }) (h.values.mems item hmem)
    rw [heval] at hp ⊢
    refine h.moved hp ⟨rfl, rfl, rfl, rfl⟩ (fun slot => ?_) (hmq := fun x hx => .inl (Fifo.mem_items_of_pop hx))
      (hwq := fun x hx => ?_)
    · rw [State.count_popMq slot hfront, ← htag]
      exact (State.count_pushWrite slot w).ge
    · rcases Fifo.mem_items_push hx with hx | rfl
      · exact .inl hx
      · exact .inr hw
  · exact h

end Sys2Proof.Machine
end

section
/-! Issue and writeback keep the invariant of the scheduled core: an operand read through the alias table stands for the
value the register has in program order (R104), and a broadcast delivers it (R122, R134). -/

namespace Sys2Proof.Machine

/-! ### Slots carried -/

theorem State.mem_inFlight {s : State} {slot : Nat} : slot ∈ s.inFlight ↔
    slot ∈ Stations.tags s.rs ∨ slot ∈ s.queues.eq.tags ExecItem.tag ∨ slot ∈ s.queues.mq.tags MemItem.tag ∨
      slot ∈ s.queues.wq.tags WriteItem.tag ∨ slot ∈ unsentTags s.lsq.entries := by
  simp only [State.inFlight, List.mem_append, or_assoc]

theorem Stations.mem_tags {p : Stations} {slot : Nat} : slot ∈ Stations.tags p ↔ ∃ e, some e ∈ p ∧ e.tag = slot := by
  simp only [Stations.tags, List.mem_filterMap, Option.map_eq_some_iff]
  constructor
  · rintro ⟨_, hx, e, rfl, he⟩
    exact ⟨e, hx, he⟩
  · rintro ⟨e, hx, he⟩
    exact ⟨some e, hx, e, rfl, he⟩

theorem Fifo.mem_tags {α : Type} {tag : α → Nat} {q : Fifo α} {slot : Nat} :
    slot ∈ q.tags tag ↔ ∃ x ∈ q.items, tag x = slot := List.mem_map

/-- What carries a slot belongs to an instruction in flight that waits for its result. -/
theorem CoreSound.awaits_of_mem {s : State} (h : CoreSound s) {slot : Nat} (hm : slot ∈ s.inFlight) :
    s.rob.awaits slot = true := by
  have hpos := List.count_pos_iff.mpr hm
  have hle := h.pipeline.2.carried slot
  by_contra hn
  rw [Bool.not_eq_true] at hn
  rw [hn, Bool.toNat_false] at hle
  omega

theorem CoreSound.mem_line {s : State} (h : CoreSound s) {slot : Nat} (hm : slot ∈ s.inFlight) :
    slot ∈ s.view.line.map Prod.fst := h.pipeline.1.1.mem_line_of_awaits (h.awaits_of_mem hm)

theorem CoreSound.station_mem_line {s : State} (h : CoreSound s) {e : RsEntry} (he : some e ∈ s.rs) :
    e.tag ∈ s.view.line.map Prod.fst :=
  h.mem_line (State.mem_inFlight.mpr (.inl (Stations.mem_tags.mpr ⟨e, he, rfl⟩)))

theorem CoreSound.exec_mem_line {s : State} (h : CoreSound s) {x : ExecItem} (hx : x ∈ s.queues.eq.items) :
    x.tag ∈ s.view.line.map Prod.fst :=
  h.mem_line (State.mem_inFlight.mpr (.inr (.inl (Fifo.mem_tags.mpr ⟨x, hx, rfl⟩))))

theorem CoreSound.mem_mem_line {s : State} (h : CoreSound s) {x : MemItem} (hx : x ∈ s.queues.mq.items) :
    x.tag ∈ s.view.line.map Prod.fst :=
  h.mem_line (State.mem_inFlight.mpr (.inr (.inr (.inl (Fifo.mem_tags.mpr ⟨x, hx, rfl⟩)))))

theorem CoreSound.write_mem_line {s : State} (h : CoreSound s) {x : WriteItem} (hx : x ∈ s.queues.wq.items) :
    x.tag ∈ s.view.line.map Prod.fst :=
  h.mem_line (State.mem_inFlight.mpr (.inr (.inr (.inr (.inl (Fifo.mem_tags.mpr ⟨x, hx, rfl⟩))))))

theorem CoreSound.entry_mem_line {s : State} (h : CoreSound s) {slot : Nat} {e : RobEntry}
    (he : s.rob.entry? slot = some e) : slot ∈ s.view.line.map Prod.fst :=
  List.mem_map_of_mem (f := Prod.fst) (h.pipeline.1.1.mem_line he)

/-! ### The operand read -/

/-- An operand read through the alias table stands for the value its register has in program order (R104). -/
theorem CoreSound.read_denotes {s : State} (h : CoreSound s) {A : Arch}
    (hA : s.program.after s.view.line s.arch = some A) (hwf : s.view.line ≠ [] → s.mem.wf)
    (hroom : s.rob.count ≠ s.params.robSize) (i : Instr) (pc : Word) (r : RegId) :
    s.view.Denotes s.view.line ((s.withRob (s.rob.add s.params.robSize i pc)).readOperand r) (A.reg r) := by
  have hmap := h.mapped r
  cases ha : s.alias? r with
  | none =>
    rw [ha] at hmap
    have hread : (s.withRob (s.rob.add s.params.robSize i pc)).readOperand r = .val (s.reg r) :=
      State.readOperand_of_unmapped ha
    rw [hread]
    exact (Program.after_reg hA fun y hy j hj hd => hmap ⟨y, hy, j, hj, hd⟩).symm
  | some slot =>
    rw [ha] at hmap
    obtain ⟨o1, spc, o2, j, hline, hj, hd, hyoungest⟩ := hmap
    have hprovides : s.program.Provides s.arch s.view.line slot (A.reg r) := by
      rw [hline] at hA ⊢
      exact Program.provides_reg hA hj hd fun y hy j hj hd => hyoungest ⟨y, hy, j, hj, hd⟩
    have hmem : (slot, spc) ∈ s.view.line := by rw [hline]; simp
    obtain ⟨e, he, -⟩ := Rob.entry_of_mem_line hmem
    have hne : slot ≠ s.rob.tail := fun e => h.pipeline.1.1.tail_not_mem_line hroom
      (e ▸ List.mem_map_of_mem (f := Prod.fst) hmem)
    have he' : (s.rob.add s.params.robSize i pc).entry? slot = some e := by
      rw [Rob.add_entry? _ _ _ _ _ h.pipeline.1.1.tail_lt, if_neg hne, he]
    have hread : (s.withRob (s.rob.add s.params.robSize i pc)).readOperand r =
        ((if e.done then e.result else none).map .val).getD (.tag slot) := by
      exact (State.readOperand_of_mapped (s := s.withRob (s.rob.add s.params.robSize i pc)) (r := r) (slot := slot)
        ha).trans (congrArg (fun o : Option Word => (o.map Operand.val).getD (.tag slot)) (Rob.doneValue?_of_entry he'))
    rw [hread]
    cases hdone : e.done with
    | false =>
      refine ⟨?_, hprovides⟩
      show s.rob.awaits slot = true
      simp [Rob.awaits, he, hdone]
    | true =>
      obtain ⟨p1, ppc, p2, k, B, hsplit, hk, hB, hv⟩ := hprovides
      have hat : s.view.At slot p1 k B := ⟨⟨ppc, p2, hsplit, hk⟩, hB, fun _ => hwf (by rw [hsplit]; simp)⟩
      obtain ⟨v, hres, hdel⟩ := h.values.entries slot e he hdone p1 k B hat
      have hdel : delivered k (B.outcome s.program.size k) v e.fault := hdel
      rw [hv] at hdel
      rw [if_pos rfl, hres]
      exact hdel.1

/-- The operands of a station stand for the sources, if operands are read so. -/
theorem stationOperands_denote {read : RegId → Operand} {D : Operand → Word → Prop} {A : Arch} {i : Instr}
    {o1 o2 : Operand} (hread : ∀ r, D (read r) (A.reg r)) (hval : ∀ w, D (.val w) w)
    (h : stationOperands read i = some (o1, o2)) : D o1 (A.left i) ∧ D o2 (A.right i) := by
  cases i with
  | lw | sw => cases h
  | add | sub | mul | div | idiv | mod | beq =>
    cases h
    exact ⟨hread _, hread _⟩
  | addi =>
    cases h
    exact ⟨hread _, hval _⟩
  | j =>
    cases h
    exact ⟨hval _, hval _⟩

/-- A new LSQ entry is what is said of it, if operands are read so (R131, R132). -/
theorem View.queuedFor_of_queuedEntry {V : View} {read : RegId → Operand} {older : List (Nat × Word)} {i : Instr}
    {A : Arch} {slot seq : Nat} {l : LsqEntry} (hread : ∀ r, V.Denotes older (read r) (A.reg r))
    (h : queuedEntry read slot seq i = some l) : V.QueuedFor l older i A := by
  have unforwarded {l : LsqEntry} (hn : l.fwd = none) : V.forwardSound older l :=
    fun _ _ _ _ hw => nomatch hn.symm.trans hw
  cases i with
  | lw rt imm rs =>
    cases h
    exact ⟨rfl, hread rs, rfl, (addrOfBase_eq_issueAddress _ _).symm, nofun, fun _ => unforwarded rfl, fun _ => rfl⟩
  | sw rt imm rs =>
    cases h
    exact ⟨rfl, hread rs, rfl, (addrOfBase_eq_issueAddress _ _).symm, fun _ => ⟨_, rfl, hread rt⟩,
      fun _ => unforwarded rfl, fun _ => rfl⟩
  | add | sub | mul | div | idiv | mod | addi | beq | j => cases h

/-! ### Issue -/

theorem Stations.mem_add {p : Stations} {e x : RsEntry} (h : some x ∈ Stations.add p e) : some x ∈ p ∨ x = e := by
  induction p with
  | nil => cases h
  | cons y rest ih =>
    cases y with
    | none =>
      rcases List.mem_cons.mp h with h | h
      · exact .inr (Option.some.inj h)
      · exact .inl (List.mem_cons_of_mem _ h)
    | some o =>
      rcases List.mem_cons.mp h with h | h
      · exact .inl (h ▸ List.mem_cons_self)
      · exact (ih h).imp_left (List.mem_cons_of_mem _)

/-- The new mapping names the new slot, the youngest that writes the register; every other mapping stands (R105). -/
theorem View.mapped_push {V : View} {r : RegId} {a : Option Nat} {t : Nat} {pc : Word} {i : Instr}
    (h : V.mapped r a) (hi : V.prog.code pc = some i) :
    (V.push t pc).mapped r (if i.dest = some r then some t else a) := by
  split
  · rename_i hd
    exact ⟨V.line, pc, [], i, rfl, hi, hd, by rintro ⟨_, hx, -⟩; cases hx⟩
  · rename_i hd
    have appended {l : List (Nat × Word)} (hl : ¬ V.prog.writes l r) : ¬ V.prog.writes (l ++ [(t, pc)]) r := by
      rintro ⟨x, hx, j, hj, hjd⟩
      rcases List.mem_append.mp hx with hx | hx
      · exact hl ⟨x, hx, j, hj, hjd⟩
      · obtain rfl := List.mem_singleton.mp hx
        obtain rfl : i = j := Option.some.inj (hi.symm.trans hj)
        exact hd hjd
    cases a with
    | none => exact appended h
    | some slot =>
      obtain ⟨o1, spc, o2, j, hline, hj, hjd, hyoungest⟩ := h
      exact ⟨o1, spc, o2 ++ [(t, pc)], j, by simp [View.push, hline], hj, hjd, appended hyoungest⟩

theorem State.imem?_congr {s t : State} (hprog : t.prog = s.prog) : t.imem? = s.imem? := by
  funext pc
  unfold State.imem? State.pcInRange
  rw [hprog]

theorem State.instrAt_congr {s t : State} (hprog : t.prog = s.prog) (hsymtab : t.symtab = s.symtab) :
    t.instrAt = s.instrAt := by
  funext pc
  unfold State.instrAt
  rw [State.imem?_congr hprog, hsymtab]

theorem issue_view {s : State} (hrob : robShape s) (hroom : s.rob.count ≠ s.params.robSize) (i : Instr) (pc : Word) :
    (s.issue i pc).view = s.view.push s.rob.tail pc := by
  obtain ⟨hadded, -, hregs, hmem, -, -, -, -, -, hparams, hprog, hsymtab, -⟩ := s.issue_frame i pc
  have hcode := State.instrAt_congr hprog hsymtab
  rw [State.view, State.program, State.arch, hcode, hregs, hmem, hparams, hadded, Rob.line_add hrob hroom]
  have hawaits : (s.rob.add s.params.robSize i pc).awaits = fun slot =>
      if slot = s.rob.tail then true else s.rob.awaits slot := funext (Rob.awaits_add i pc hrob.tail_lt)
  rw [hawaits]
  rfl

/-- Issue adds one item in flight, for the slot allocated (R163). -/
theorem issue_inFlight {s : State} {i : Instr} (hfree : s.issueBlocked i.cls = false) (pc : Word) {slot : Nat}
    (h : slot = s.rob.tail ∨ slot ∈ s.inFlight) : slot ∈ (s.issue i pc).inFlight := by
  obtain ⟨-, hqueues, -⟩ := s.issue_frame i pc
  rw [State.mem_inFlight] at h ⊢
  rw [hqueues]
  rcases stationOperands_or_queuedEntry (s.withRob (s.rob.add s.params.robSize i pc)).readOperand s.rob.tail
    s.lsq.nextSeq i with ⟨hc, -, o1, o2, ho⟩ | ⟨-, e, he, -, htag, hunsent⟩
  · obtain ⟨hlsq, hrs⟩ := State.issue_of_station (pc := pc) ho
    rw [hlsq, hrs]
    have hadd : slot = s.rob.tail ∨ slot ∈ Stations.tags s.rs →
        slot ∈ Stations.tags (Stations.add s.rs ⟨s.rob.tail, i.op, o1, o2⟩) := fun h => by
      have hcount := Stations.tags_add (State.exists_free_station hfree hc) ⟨s.rob.tail, i.op, o1, o2⟩ slot
      refine List.count_pos_iff.mp (hcount ▸ ?_)
      rcases h with rfl | h
      · simp
      · exact Nat.add_pos_left (List.count_pos_iff.mpr h) _
    rw [← or_assoc] at h
    exact h.imp_left hadd
  · obtain ⟨hrs, hlsq⟩ := State.issue_of_queued he
    have hentries : (s.issue i pc).lsq.entries = s.lsq.entries ++ [e] := congrArg Lsq.entries hlsq
    have hadd : unsentTags (s.lsq.entries ++ [e]) = unsentTags s.lsq.entries ++ [s.rob.tail] := by
      rw [unsentTags, List.filterMap_append, ← htag]
      simp [unsentTags, hunsent]
    rw [hrs, hentries, hadd, List.mem_append, List.mem_singleton]
    tauto

theorem issue_coreSound {s : State} {i : Instr} {pc : Word} (h : CoreSound s) (hp : pipelineSound (s.issue i pc))
    (hfree : s.issueBlocked i.cls = false) (hi : s.instrAt pc = some i) : CoreSound (s.issue i pc) := by
  have hrob := h.pipeline.1.1
  have hroom := State.issueBlocked_rob hfree
  have hfresh := hrob.tail_not_mem_line hroom
  have hview := issue_view hrob hroom i pc
  obtain ⟨hadded, hqueues, hregs, hmem, -, -, -, -, -, hparams, hprog, hsymtab, -⟩ := s.issue_frame i pc
  have hcode : (s.issue i pc).instrAt = s.instrAt := congrArg (fun V : View => V.prog.code) hview
  have himem := State.imem?_congr hprog
  have hentry (slot : Nat) : (s.issue i pc).rob.entry? slot =
      if slot = s.rob.tail then some (robEntryOf i pc) else s.rob.entry? slot := by
    rw [hadded]
    exact Rob.add_entry? _ s.rob i pc slot hrob.tail_lt
  -- The new instruction sees what all those before it leave, and its operands stand for that.
  have sees {older : List (Nat × Word)} {j : Instr} {A : Arch}
      (hat : (s.view.push s.rob.tail pc).At s.rob.tail older j A) : older = s.view.line ∧ j = i ∧
        ∀ r, (s.view.push s.rob.tail pc).Denotes s.view.line
          ((s.withRob (s.rob.add s.params.robSize i pc)).readOperand r) (A.reg r) := by
    obtain ⟨holder, hj, hA, hwf⟩ := hat.of_push_self hfresh
    exact ⟨holder, Option.some.inj (hj.symm.trans hi),
      fun r => (h.read_denotes hA hwf hroom i pc r).push _ _⟩
  constructor
  · exact hp
  · constructor
    · rw [himem, hqueues]
      exact h.decoded.fetched
    · rw [hcode, hqueues]
      exact h.decoded.decoded
    · intro slot e he
      rw [hentry] at he
      rw [hcode]
      split at he
      · obtain rfl := Option.some.inj he
        exact ⟨i, hi, rfl, rfl, rfl⟩
      · exact h.decoded.held slot e he
  · intro r
    rw [hview, s.issue_alias i pc r]
    exact View.mapped_push (h.mapped r) hi
  · constructor
    · intro e he
      rcases stationOperands_or_queuedEntry (s.withRob (s.rob.add s.params.robSize i pc)).readOperand s.rob.tail
        s.lsq.nextSeq i with ⟨-, hop, o1, o2, ho⟩ | ⟨-, l, hl, -⟩
      · obtain ⟨-, hrs⟩ := State.issue_of_station (pc := pc) ho
        rw [hrs] at he
        rcases Stations.mem_add he with he | rfl
        · exact h.computes.stations e he
        · exact hop
      · obtain ⟨hrs, -⟩ := State.issue_of_queued hl
        exact h.computes.stations e (hrs ▸ he)
    · rw [hqueues]
      exact h.computes.execs
  · constructor <;> rw [hview]
    · intro slot e he
      rw [hentry] at he
      split at he
      · obtain rfl := Option.some.inj he
        exact nofun
      · exact (h.values.entries slot e he).push hfresh (h.entry_mem_line he)
    · intro e he
      rcases stationOperands_or_queuedEntry (s.withRob (s.rob.add s.params.robSize i pc)).readOperand s.rob.tail
        s.lsq.nextSeq i with ⟨-, -, o1, o2, ho⟩ | ⟨-, l, hl, -⟩
      · obtain ⟨-, hrs⟩ := State.issue_of_station (pc := pc) ho
        rw [hrs] at he
        rcases Stations.mem_add he with he | rfl
        · exact (h.values.stations e he).push hfresh (h.station_mem_line he)
        · intro older j A hat
          obtain ⟨rfl, rfl, hread⟩ := sees hat
          exact ⟨rfl, stationOperands_denote hread (fun _ => rfl) ho⟩
      · obtain ⟨hrs, -⟩ := State.issue_of_queued hl
        have he : some e ∈ s.rs := hrs ▸ he
        exact (h.values.stations e he).push hfresh (h.station_mem_line he)
    · rw [hqueues]
      exact fun x hx => (h.values.execs x hx).push hfresh (h.exec_mem_line hx)
    · rw [hqueues]
      exact fun x hx => (h.values.mems x hx).push hfresh (h.mem_mem_line hx)
    · rw [hqueues]
      exact fun x hx => (h.values.writes x hx).push hfresh (h.write_mem_line hx)
    · rcases stationOperands_or_queuedEntry (s.withRob (s.rob.add s.params.robSize i pc)).readOperand s.rob.tail
        s.lsq.nextSeq i with ⟨-, hop, o1, o2, ho⟩ | ⟨-, l, hl, hop, htag, -⟩
      · obtain ⟨hlsq, -⟩ := State.issue_of_station (pc := pc) ho
        rw [hlsq]
        exact h.values.queue.push_other hfresh hi hop
      · obtain ⟨-, hlsq⟩ := State.issue_of_queued hl
        have hentries : (s.issue i pc).lsq.entries = s.lsq.entries ++ [l] := congrArg Lsq.entries hlsq
        rw [hentries]
        refine h.values.queue.push_memory hfresh hi hop htag fun older j A hat => ?_
        obtain ⟨rfl, rfl, hread⟩ := sees (htag ▸ hat)
        exact View.queuedFor_of_queuedEntry hread hl
  · intro slot ha
    refine issue_inFlight hfree pc ?_
    rw [hadded, Rob.awaits_add i pc hrob.tail_lt] at ha
    split at ha
    · exact .inl ‹_›
    · exact .inr (h.carried slot ha)

theorem stageIssue_coreSound {s : State} (h : CoreSound s) : CoreSound (stageIssue s) := by
  have hp : pipelineSound (stageIssue s) :=
    ⟨stageIssue_structuresSound h.pipeline.1, stageIssue_tracked h.pipeline.1.1 h.pipeline.2⟩
  rcases stageIssue_cases s with ⟨item, rest, hfront, hfree, he⟩ | he <;> rw [he] at hp ⊢
  · obtain ⟨-, -, -, hfq, hiq, heq, hmq, hwq⟩ := id h.pipeline.1
    have popped : CoreSound (s.withQueues { s.queues with iq := s.queues.iq.pop }) :=
      h.moved ⟨h.pipeline.1.congr_queues (queuesShape_of (s := s) hfq (queueFits_pop hiq) heq hmq hwq),
        h.pipeline.2.moved fun _ => le_rfl⟩ ⟨rfl, rfl, rfl, rfl⟩ (fun _ => le_rfl)
        (hiq := fun x hx => .inl (Fifo.mem_items_of_pop hx))
    exact issue_coreSound popped hp hfree (h.decoded.decoded item (Fifo.mem_items_of_visible hfront))
  · exact h

/-! ### Writeback -/

theorem View.mapped.complete {V : View} {r : RegId} {a : Option Nat} {t : Nat} (h : V.mapped r a) :
    (V.complete t).mapped r a := by
  cases a with
  | none => exact h
  | some slot => exact h

theorem writeback_view (s : State) (q : Queues) (rs : Stations) (lsq : Lsq) (t : Nat) (v : Word)
    (f : Option SlotFault) :
    ((((s.withQueues q).withRs rs).withLsq lsq).withRob (s.rob.complete t v f)).view = s.view.complete t := by
  have hline := s.rob.line_complete s.params.robSize t v f
  have hawaits : (s.rob.complete t v f).awaits = fun slot => if slot = t then false else s.rob.awaits slot :=
    funext (s.rob.awaits_complete t v f)
  rw [State.view, State.withRob_rob, hawaits]
  simp only [State.withRob_params, State.withLsq_params, State.withRs_params, State.withQueues_params, hline]
  rfl

theorem stageWriteback_coreSound {s : State} (h : CoreSound s) : CoreSound (stageWriteback s) := by
  have hp : pipelineSound (stageWriteback s) :=
    ⟨stageWriteback_structuresSound h.pipeline.1, stageWriteback_tracked h.pipeline.2⟩
  rcases stageWriteback_cases s with ⟨item, rest, hfront, he⟩ | he <;> rw [he] at hp ⊢
  · have hw : s.view.writeSound ⟨item.tag, item.value, item.fault⟩ :=
      h.values.writes item (Fifo.mem_items_of_visible hfront)
    have hview := writeback_view s { s.queues with wq := s.queues.wq.pop } (Stations.capture s.rs item.tag item.value)
      (s.lsq.capture item.tag item.value) item.tag item.value item.fault
    have hentry (slot : Nat) (e : RobEntry)
        (he : (s.rob.complete item.tag item.value item.fault).entry? slot = some e) :
        ∃ e', s.rob.entry? slot = some e' ∧
          e = if slot = item.tag then
            { e' with result := some item.value, fault := item.fault, done := true } else e' := by
      rw [Rob.complete_entry?, Option.map_eq_some_iff] at he
      obtain ⟨e', he', rfl⟩ := he
      exact ⟨e', he', rfl⟩
    have captured (e : RsEntry) (he : some e ∈ Stations.capture s.rs item.tag item.value) :
        ∃ e', some e' ∈ s.rs ∧ e = e'.capture item.tag item.value := by
      obtain ⟨x, hx, hxe⟩ := List.mem_map.mp he
      obtain ⟨e', rfl, rfl⟩ := Option.map_eq_some_iff.mp hxe
      exact ⟨e', hx, rfl⟩
    constructor
    · exact hp
    · refine ⟨h.decoded.fetched, h.decoded.decoded, fun slot e he => ?_⟩
      obtain ⟨e', he', rfl⟩ := hentry slot e he
      obtain ⟨i, hi, hop, hd, hrpc⟩ := h.decoded.held slot e' he'
      refine ⟨i, ?_⟩
      split <;> exact ⟨hi, hop, hd, hrpc⟩
    · intro r
      rw [hview]
      exact (h.mapped r).complete
    · refine ⟨fun e he => ?_, h.computes.execs⟩
      obtain ⟨e', he', rfl⟩ := captured e he
      exact h.computes.stations e' he'
    · constructor <;> rw [hview]
      · intro slot e he
        obtain ⟨e', he', rfl⟩ := hentry slot e he
        split
        · rename_i hslot
          exact hslot ▸ View.entrySound.completed hw rfl rfl
        · exact (h.values.entries slot e' he').complete
      · intro e he
        obtain ⟨e', he', rfl⟩ := captured e he
        exact (h.values.stations e' he').capture hw
      · exact fun x hx => (h.values.execs x hx).complete
      · exact fun x hx => (h.values.mems x hx).complete
      · exact fun x hx => (h.values.writes x (Fifo.mem_items_of_pop hx)).complete
      · exact h.values.queue.capture hw
    · intro slot ha
      rw [State.withRob_rob, Rob.awaits_complete] at ha
      split at ha
      · cases ha
      · rename_i hne
        have hpos := List.count_pos_iff.mpr (h.carried slot ha)
        have hpopped := State.count_popWq slot hfront
        rw [List.count_singleton, if_neg (by simpa using Ne.symm hne), Nat.add_zero] at hpopped
        have hkept := (s.withQueues { s.queues with wq := s.queues.wq.pop }).inFlight_broadcast item.tag item.value
          (s.rob.complete item.tag item.value item.fault)
        refine List.count_pos_iff.mp ?_
        exact (hpopped ▸ hpos).trans_eq (congrArg (List.count slot) hkept).symm
  · exact h

end Sys2Proof.Machine
end

section
/-! The commit of the oldest instruction in flight: what was recorded for it is its outcome, so a fault is raised as its
meaning raises it, and a result retires as its meaning leaves it, or with a flush (R168, R178). -/

namespace Sys2Proof.Machine

/-! ### The oldest instruction -/

/-- The head slot of the ROB holds the entry `e` of the instruction `i`. -/
structure State.Oldest (s : State) (e : RobEntry) (i : Instr) : Prop where
  live : s.rob.count ≠ 0
  entry : s.rob.entry? s.rob.head = some e
  code : s.instrAt e.pc = some i
  op : e.op = i.op
  dest : e.dest = i.dest
  rpc : e.rpc = recoveryPc i e.pc

variable {s : State} {e : RobEntry} {i : Instr} {v : Word}

theorem CoreSound.oldest (h : CoreSound s) (hc : s.rob.count ≠ 0) : ∃ e i, s.Oldest e i := by
  obtain ⟨e, he⟩ := h.pipeline.1.1.head_entry hc
  obtain ⟨i, hi, hop, hd, hrpc⟩ := h.decoded.held _ e he
  exact ⟨e, i, hc, he, hi, hop, hd, hrpc⟩

namespace State.Oldest

theorem line (h : CoreSound s) (ho : s.Oldest e i) : s.view.line =
    (s.rob.head, e.pc) :: (s.rob.free s.params.robSize).line s.params.robSize :=
  Rob.line_free h.pipeline.1.1 ho.live ho.entry

/-- It sees committed registers and memory. -/
theorem sees (h : CoreSound s) (ho : s.Oldest e i) : s.view.At s.rob.head [] i s.arch :=
  View.at_head (ho.line h) ho.code

/-- A complete entry has what the instruction delivers. -/
theorem delivered (h : CoreSound s) (ho : s.Oldest e i) (hd : e.done = true) :
    ∃ v, e.result = some v ∧ Machine.delivered i (s.arch.outcome s.params.memSize i) v e.fault :=
  h.values.entries _ e ho.entry hd _ _ _ (ho.sees h)

theorem result (h : CoreSound s) (ho : s.Oldest e i) (hd : e.done = true)
    (hv : s.arch.outcome s.params.memSize i = .ok v) : e.result = some v ∧ e.fault = none := by
  obtain ⟨w, hw, hdel⟩ := ho.delivered h hd
  rw [hv] at hdel
  obtain ⟨rfl, hf⟩ := hdel
  exact ⟨hw, hf⟩

/-- A memory instruction that is complete has the entry at the head of the LSQ, sent and with its address (R145). -/
theorem queued (h : CoreSound s) (ho : s.Oldest e i) (hd : e.done = true) {op : MemOp} (hop : memOpOf i.op = some op) :
    ∃ l rest, s.lsq.entries = l :: rest ∧ s.lsq.headFor s.rob.head op = some l ∧ l.addr = some (s.arch.addr i) ∧
      unsentTags rest = unsentTags s.lsq.entries := by
  obtain ⟨l, a, hl, ha⟩ := h.pipeline.2.headFor h.pipeline.1.1 ho.live ho.entry hd (ho.op ▸ hop)
  obtain ⟨⟨rest, hentries⟩, htag, -⟩ := Lsq.headFor_eq_some.mp hl
  have hmem : l ∈ s.lsq.entries := hentries ▸ List.mem_cons_self
  have hsent := h.pipeline.2.sent_of_done hmem (htag ▸ Rob.awaits_of_done ho.entry hd)
  have hqueued := h.values.queue.queued l hmem [] i s.arch (htag ▸ ho.sees h)
  refine ⟨l, rest, hentries, hl, by rw [ha, hqueued.addr_eq ha], ?_⟩
  rw [hentries, unsentTags_cons, if_pos hsent]

end State.Oldest

/-! ### Retirement -/

/-- The predictor after the commit of a branch or jump is as its validation leaves it (R154). -/
def State.predHead (s : State) (e : RobEntry) (i : Instr) (v : Word) : Predictor := (s.withPc e.pc).predAfter i v

/-- The state before the part of commit that is common to all classes, with `q` for the LSQ (R168). -/
def State.ownPart (s : State) (e : RobEntry) (i : Instr) (v : Word) (q : Lsq) : State :=
  ((s.withMem (s.arch.memAfter s.params.memSize i v)).withLsq q).withPred (s.predHead e i v)

/-- The state after the oldest instruction has retired with result `v` and left `q` for the LSQ (R168). -/
def State.retired (s : State) (e : RobEntry) (i : Instr) (v : Word) (q : Lsq) : State :=
  (((s.ownPart e i v q).commitReg e.dest v s.rob.head).withRob (s.rob.free s.params.robSize)).withExecuted
    (s.executed + 1)

/-- The state after a misprediction (R169, R174). -/
def State.flushed (s : State) (e : RobEntry) (i : Instr) (v : Word) : State :=
  ((s.withPred (s.predHead e i v)).flush (correctNext e.pc e.rpc v)).withExecuted (s.executed + 1)

/-- The LSQ a retired instruction leaves: the entries behind its own are sound, and the unsent ones are as before. -/
structure State.Leaves (s : State) (i : Instr) (v : Word) (q : Lsq) : Prop where
  queue : (s.view.pop (s.arch.advance s.params.memSize i v)).QueueSound q.entries
  unsent : unsentTags q.entries = unsentTags s.lsq.entries

/-- An instruction went on where the table says it would (R154). -/
def State.predicted (s : State) (e : RobEntry) (i : Instr) (v : Word) : Prop :=
  isControl i.op = true → s.pred.target? e.pc = some (correctNext e.pc e.rpc v)

/-- The class of an opcode is that of a branch or jump exactly if the predictor validates it. -/
theorem isControl_iff {o : Op} : isControl o = true ↔ o.cls = .branch ∨ o.cls = .jump := by
  cases o <;> simp [isControl, Op.cls]

theorem isControl_of_memory {o : Op} {op : MemOp} (h : memOpOf o = some op) : isControl o = false := by
  cases o with
  | lw | sw | add | sub | mul | div | idiv | mod | addi => rfl
  | beq | j => cases h

section
variable (h : CoreSound s) (ho : s.Oldest e i) (hd : e.done = true)
include h ho hd

/-- A fault of the oldest instruction is raised with nothing changed, that of a store's address at its commit (R141,
R187, R188, R190). -/
theorem commitEntry_of_error {f : SlotFault} (hf : s.arch.outcome s.params.memSize i = .error f) :
    s.commitEntry e = .fatal (s.raise f.error) := by
  obtain ⟨v, hv, hdel⟩ := ho.delivered h hd
  rw [hf] at hdel
  have hfault : e.fault = if memOpOf i.op = some .sw then none else some f := hdel
  split at hfault
  · rename_i hop
    obtain ⟨l, rest, -, hl, haddr, -⟩ := ho.queued h hd hop
    obtain ⟨hcell, rfl⟩ := (Arch.memory_error_iff hop).mp hf
    have hcls : e.op.cls = .store := by
      rw [ho.op]
      cases ho : i.op <;> rw [ho] at hop <;> cases hop
      rfl
    have hcommit : s.commitEntry e = s.commitStore e v := by simp only [State.commitEntry, hfault, hv, hcls]
    rw [hcommit, State.commitStore, hl, Option.bind_some, haddr]
    simp only [s.storeCell_eq_none.mpr hcell]
    rfl
  · rw [State.commitEntry, hfault]

variable (hv : s.arch.outcome s.params.memSize i = .ok v)
include hv

/-- A retired instruction that is no store leaves the entries behind it. -/
theorem State.leaves_of_not_store {q : Lsq} (hwf : s.mem.wf) (hop : memOpOf i.op ≠ some .sw)
    (hq : q.entries = s.lsq.entries ∧ memOpOf i.op = none ∨
      ∃ l rest op, s.lsq.entries = l :: rest ∧ q.entries = rest ∧ memOpOf i.op = some op ∧
        unsentTags rest = unsentTags s.lsq.entries) : s.Leaves i v q := by
  have hline := ho.line h
  have hawaits : s.view.awaits s.rob.head = false := Rob.awaits_of_done ho.entry hd
  have hkeys := h.values.queue.keys_pop hline ho.code
  rcases hq with ⟨hq, hnone⟩ | ⟨l, rest, op, hentries, hq, hsome, hunsent⟩
  · rw [hnone] at hkeys
    refine ⟨hq ▸ ?_, by rw [hq]⟩
    exact h.values.queue.pop hline ho.code hv hwf hawaits (fun _ => id) hkeys hop
  · rw [hentries, hsome, List.map_cons] at hkeys
    refine ⟨hq ▸ ?_, by rw [hq, hunsent]⟩
    exact h.values.queue.pop hline ho.code hv hwf hawaits (fun x hx => hentries ▸ List.mem_cons_of_mem l hx)
      (List.cons.inj hkeys).2 hop

/-- A result of the oldest instruction retires it, or flushes behind a misprediction (R168, R169). -/
theorem commitEntry_of_ok :
    (isControl i.op = true ∧ ¬ s.predicted e i v ∧ s.commitEntry e = .flush (s.flushed e i v)) ∨
      (s.predicted e i v ∧ ∃ q, (s.mem.wf → s.Leaves i v q) ∧
        s.commitEntry e = (s.ownPart e i v q).finishCommit e v) := by
  obtain ⟨hresult, hfault⟩ := ho.result h hd hv
  have hmem (hop : memOpOf i.op ≠ some .sw) : s.arch.memAfter s.params.memSize i v = s.mem :=
    Arch.memAfter_of_not_store hop v
  have hpred (hc : isControl i.op = false) : s.predHead e i v = s.pred := by simp [State.predHead, State.predAfter, hc]
  rcases s.commitEntry_cases e with ⟨f, hf, -⟩ | ⟨-, hn, -⟩ | ⟨w, -, hw, hcases⟩
  · cases hfault.symm.trans hf
  · cases hresult.symm.trans hn
  obtain rfl : v = w := Option.some.inj (hresult.symm.trans hw)
  rw [ho.op] at hcases
  rcases hcases with ⟨hcls, hcommit⟩ | ⟨hcls, hcommit⟩ | ⟨hcls, hcommit⟩ | ⟨hcls, hcommit⟩
  · have hcontrol := isControl_iff.mpr hcls
    have hop : memOpOf i.op = none := memOpOf_of_not_memory (by rcases hcls with hk | hk <;> simp [hk])
    have hcheck : (s.pred.check s.cfgPolicy e.pc e.rpc v).pred = s.predHead e i v := by
      rw [State.predHead, State.predAfter, if_pos hcontrol, ho.rpc]
      rfl
    rw [hcommit]
    rcases s.commitBranch_cases e v with ⟨hok, hbranch⟩ | ⟨hok, hbranch⟩ <;> rw [hbranch, hcheck]
    · refine .inr ⟨fun _ => by simpa [Predictor.check_ok] using hok, s.lsq, ?_, ?_⟩
      · exact fun hwf => State.leaves_of_not_store h ho hd hv hwf (by simp [hop]) (.inl ⟨rfl, hop⟩)
      · rw [State.ownPart, hmem (by simp [hop])]
        rfl
    · refine .inl ⟨hcontrol, fun hp => ?_, ?_⟩
      · cases hok.symm.trans ((Predictor.check_ok ..).mpr (hp hcontrol))
      · rw [Predictor.check_correct]
        rfl
  · have hop := memOpOf_of_store hcls
    have hcontrol := isControl_of_memory hop
    obtain ⟨l, rest, hentries, hl, haddr, hunsent⟩ := ho.queued h hd hop
    obtain ⟨k, hk, -⟩ := (Arch.store_ok_iff hop).mp hv
    refine .inr ⟨fun hc => by simp [hcontrol] at hc,
      (s.lsq.forwardStore (s.arch.addr i) v).free s.params.lsqSize, ?_, ?_⟩
    · have hforward : ((s.lsq.forwardStore (s.arch.addr i) v).free s.params.lsqSize).entries =
          forwardStoreTo (s.arch.addr i) v rest := by
        simp only [Lsq.forwardStore, hentries, Lsq.free, List.tail_cons]
      refine fun hwf => ⟨hforward ▸ ?_, ?_⟩
      · exact View.QueueSound.pop_store (ho.line h) ho.code hv hwf (Rob.awaits_of_done ho.entry hd)
          (hentries ▸ h.values.queue) hop
      · rw [hforward, unsentTags_eq_of_unforwarded (forwardStoreTo_unforwarded _ v rest), hunsent]
    · rw [hcommit, State.commitStore, hl, Option.bind_some, haddr]
      simp only [s.storeCell_eq_some.mpr ⟨k, hk, rfl⟩]
      rw [State.ownPart, Arch.memAfter_of_store hop hk, hpred hcontrol]
      rfl
  · have hop := memOpOf_of_load hcls
    have hcontrol := isControl_of_memory hop
    obtain ⟨l, rest, hentries, hl, -, hunsent⟩ := ho.queued h hd hop
    refine .inr ⟨fun hc => by simp [hcontrol] at hc, s.lsq.free s.params.lsqSize, ?_, ?_⟩
    · exact fun hwf => State.leaves_of_not_store h ho hd hv hwf (by simp [hop])
        (.inr ⟨l, rest, _, hentries, by simp [Lsq.free, hentries], hop, hunsent⟩)
    · rw [hcommit, State.commitLoad, hl, State.ownPart, hmem (by simp [hop]), hpred hcontrol]
      rfl
  · have hcontrol : isControl i.op = false := by
      rw [← Bool.not_eq_true, isControl_iff]
      rcases hcls with hk | hk <;> simp [hk]
    have hop : memOpOf i.op = none := memOpOf_of_not_memory (by rcases hcls with hk | hk <;> simp [hk])
    refine .inr ⟨fun hc => by simp [hcontrol] at hc, s.lsq, ?_, ?_⟩
    · exact fun hwf => State.leaves_of_not_store h ho hd hv hwf (by simp [hop]) (.inl ⟨rfl, hop⟩)
    · rw [hcommit, State.ownPart, hmem (by simp [hop]), hpred hcontrol]
      rfl

end

/-! ### The commit stage -/

/-- The commit stage waits for the oldest instruction (R114). -/
def State.waits (s : State) : Prop := s.rob.count = 0 ∨ ∃ e i, s.Oldest e i ∧ e.done = false

theorem stageCommit_of_waits (h : s.waits) : stageCommit s = .cont s := by
  rcases h with h | ⟨e, i, ho, hd⟩
  · rw [stageCommit, if_pos h]
  · simp [stageCommit, ho.live, ho.entry, hd]

theorem stageCommit_of_done (ho : s.Oldest e i) (hd : e.done = true) : stageCommit s = s.commitEntry e := by
  simp only [stageCommit, ho.live, ho.entry, hd, if_false, if_true]

/-- A retired instruction that leaves 1 in register 31 halts the core (R170). -/
theorem State.finishCommit_eq (s : State) (e : RobEntry) (i : Instr) (v : Word) (q : Lsq) :
    (s.ownPart e i v q).finishCommit e v =
      if (s.retired e i v q).reg 31 = 1 then .halt ((s.retired e i v q).withStatus .halted)
      else .cont (s.retired e i v q) := rfl

/-! ### The invariant after a commit -/

theorem State.commitReg_regs (s : State) (dest : Option RegId) (v : Word) (slot : Nat) :
    (s.commitReg dest v slot).regs = match dest with
      | some r => s.regs.set r v
      | none => s.regs := by
  rcases s.commitReg_cases dest v slot with ⟨rfl, h⟩ | ⟨r, rfl, ⟨-, h⟩ | ⟨-, h⟩⟩ <;> rw [h] <;> rfl

/-- What a retired instruction leaves is the registers and memory of its meaning, and the table, the fetch and the
queues as they were. -/
theorem State.retired_eq (ho : s.Oldest e i) (v : Word) (q : Lsq) :
    ∃ rat, s.retired e i v q = (((((s.withArch (s.arch.advance s.params.memSize i v)).withLsq q).withPred
      (s.predHead e i v)).withRat rat).withRob (s.rob.free s.params.robSize)).withExecuted (s.executed + 1) := by
  have hregs := (s.ownPart e i v q).commitReg_regs e.dest v s.rob.head
  obtain ⟨regs, rat, hreg⟩ := (s.ownPart e i v q).commitReg_eq e.dest v s.rob.head
  rw [hreg, ho.dest] at hregs
  have hregs : regs = s.arch.regsAfter i v := hregs
  refine ⟨rat, ?_⟩
  rw [State.retired, hreg, hregs]
  rfl

theorem State.retired_view (h : CoreSound s) (ho : s.Oldest e i) (hd : e.done = true) (v : Word) (q : Lsq) :
    (s.retired e i v q).view = s.view.pop (s.arch.advance s.params.memSize i v) := by
  obtain ⟨rat, heq⟩ := s.retired_eq ho v q
  have hawaits : (s.rob.free s.params.robSize).awaits = s.rob.awaits :=
    funext (Rob.awaits_free (Rob.awaits_of_done ho.entry hd) _)
  have hline : s.view.line.tail = (s.rob.free s.params.robSize).line s.params.robSize := by
    rw [ho.line h, List.tail_cons]
  rw [heq, View.pop, hline]
  show View.mk _ _ _ (s.rob.free s.params.robSize).awaits = _
  rw [hawaits]
  rfl

theorem State.retired_alias (s : State) (e : RobEntry) (i : Instr) (v : Word) (q : Lsq) (r : RegId) :
    (s.retired e i v q).alias? r =
      if e.dest = some r ∧ s.alias? r = some s.rob.head then none else s.alias? r :=
  (s.ownPart e i v q).commitReg_alias e.dest v s.rob.head r

/-- Behind the oldest instruction a register is mapped as before, but for one that only it wrote. -/
theorem View.mapped.pop {V : View} {r : RegId} {a : Option Nat} {t : Nat} {pc : Word} {rest : List (Nat × Word)}
    (h : V.mapped r a) (hnodup : (V.line.map Prod.fst).Nodup) (hline : V.line = (t, pc) :: rest)
    (hi : V.prog.code pc = some i) (A : Arch) :
    (V.pop A).mapped r (if i.dest = some r ∧ a = some t then none else a) := by
  have htail : (V.pop A).line = rest := by
    show V.line.tail = rest
    rw [hline, List.tail_cons]
  cases a with
  | none =>
    rw [if_neg (fun hc => nomatch hc.2)]
    rintro ⟨y, hy, j, hj, hd⟩
    exact h ⟨y, by rw [hline]; exact List.mem_cons_of_mem _ (htail ▸ hy), j, hj, hd⟩
  | some slot =>
    obtain ⟨o1, spc, o2, j, hsplit, hj, hd, hyoungest⟩ := h
    rw [hline] at hsplit
    cases o1 with
    | nil =>
      obtain ⟨hx, rfl⟩ := List.cons.inj hsplit
      obtain ⟨rfl, rfl⟩ := Prod.mk.inj hx
      obtain rfl : i = j := Option.some.inj (hi.symm.trans hj)
      rw [if_pos ⟨hd, rfl⟩]
      rintro ⟨y, hy, j, hj, hd⟩
      exact hyoungest ⟨y, htail ▸ hy, j, hj, hd⟩
    | cons y o1 =>
      obtain ⟨rfl, hrest⟩ := List.cons.inj hsplit
      have hne : slot ≠ t := by
        rintro rfl
        rw [hline, hrest] at hnodup
        simp at hnodup
      rw [if_neg fun hc => hne (Option.some.inj hc.2)]
      exact ⟨o1, spc, o2, j, htail.trans hrest, hj, hd, hyoungest⟩

/-- A retirement keeps the invariant. -/
theorem CoreSound.retired {q : Lsq} (h : CoreSound s) (ho : s.Oldest e i) (hd : e.done = true) (hwf : s.mem.wf)
    (hv : s.arch.outcome s.params.memSize i = .ok v) (hq : s.Leaves i v q)
    (hp : pipelineSound (s.retired e i v q)) : CoreSound (s.retired e i v q) := by
  have hline := ho.line h
  have hview := s.retired_view h ho hd v q
  obtain ⟨rat, heq⟩ := s.retired_eq ho v q
  have hentry {slot : Nat} {e' : RobEntry} (he : (s.retired e i v q).rob.entry? slot = some e') :
      s.rob.entry? slot = some e' := by
    have he : (s.rob.free s.params.robSize).entry? slot = some e' := by rwa [heq] at he
    rw [Rob.free_entry?] at he
    split at he
    · cases he
    · exact he
  have hawaits : s.view.awaits s.rob.head = false := Rob.awaits_of_done ho.entry hd
  constructor
  · exact hp
  · rw [heq]
    refine ⟨h.decoded.fetched, h.decoded.decoded, fun slot e' he' => h.decoded.held slot e' (hentry (heq ▸ he'))⟩
  · intro r
    rw [hview, s.retired_alias, ho.dest]
    exact (h.mapped r).pop h.pipeline.1.1.line_nodup hline ho.code _
  · rw [heq]
    exact ⟨h.computes.stations, h.computes.execs⟩
  · constructor <;> rw [hview]
    · exact fun slot e' he' => (h.values.entries slot e' (hentry he')).pop hline ho.code hv hwf
    · intro e' he'
      have he' : some e' ∈ s.rs := by rwa [heq] at he'
      exact (h.values.stations e' he').pop hline ho.code hv hwf hawaits
    · intro x hx
      have hx : x ∈ s.queues.eq.items := by rwa [heq] at hx
      exact (h.values.execs x hx).pop hline ho.code hv hwf
    · intro x hx
      have hx : x ∈ s.queues.mq.items := by rwa [heq] at hx
      exact (h.values.mems x hx).pop hline ho.code hv hwf
    · intro x hx
      have hx : x ∈ s.queues.wq.items := by rwa [heq] at hx
      exact (h.values.writes x hx).pop hline ho.code hv hwf
    · have hlsq : (s.retired e i v q).lsq = q := by rw [heq]; rfl
      rw [hlsq]
      exact hq.queue
  · intro slot ha
    have ha : s.rob.awaits slot = true := by
      have : (s.retired e i v q).rob.awaits = s.rob.awaits := congrArg View.awaits hview
      rwa [this] at ha
    have hmem := h.carried slot ha
    rw [State.mem_inFlight] at hmem ⊢
    rw [heq]
    rwa [← hq.unsent] at hmem

/-! ### A drained core -/

/-- What it says of a core that it is drained (R40, R169). -/
theorem State.drained_iff : s.drained = true ↔ s.queues = Queues.empty ∧ s.rob.count = 0 ∧
    (∀ x ∈ s.rob.slots, x = none) ∧ (∀ x ∈ s.rs, x = none) ∧ s.lsq.entries = [] ∧ s.rat = emptyRat := by
  simp only [State.drained, Bool.and_eq_true, beq_iff_eq, List.all_eq_true, Option.isNone_iff_eq_none,
    List.isEmpty_iff, and_assoc]

/-- Nothing is in flight in a drained core, so nothing is said of what is. -/
theorem coreSound_of_drained (hs : structuresSound s) (hd : s.drained = true) : CoreSound s := by
  obtain ⟨hqueues, hcount, hslots, hrs, hlsq, hrat⟩ := State.drained_iff.mp hd
  have hnone (slot : Nat) (e : RobEntry) : s.rob.entry? slot ≠ some e := by
    intro he
    rw [Rob.entry?, Option.join_eq_some_iff] at he
    exact nomatch hslots _ (List.mem_of_getElem? he)
  have hwaits (slot : Nat) : s.rob.awaits slot = false := by
    cases he : s.rob.entry? slot with
    | none => simp [Rob.awaits, he]
    | some e => exact absurd he (hnone slot e)
  have hstation (e : RsEntry) (he : some e ∈ s.rs) : False := nomatch hrs _ he
  have hline : s.view.line = [] := Rob.line_of_count_zero hcount _
  constructor
  · refine ⟨hs, fun slot e he => absurd he (hnone slot e), ?_, ?_, fun slot => ?_⟩
    · rw [hlsq, Rob.memoryKeys, hcount]
      rfl
    · rw [hlsq]
      exact nofun
    · have hmem : slot ∉ s.inFlight := by
        rw [State.mem_inFlight, hqueues, hlsq, Stations.mem_tags]
        rintro (⟨e, he, -⟩ | hm | hm | hm | hm)
        · exact hstation e he
        all_goals cases hm
      rw [List.count_eq_zero_of_not_mem hmem]
      exact Nat.zero_le _
  · refine ⟨?_, ?_, fun slot e he => absurd he (hnone slot e)⟩ <;> rw [hqueues] <;> exact nofun
  · intro r
    have : s.alias? r = none := by simp [State.alias?, hrat, emptyRat]
    rw [this]
    rintro ⟨y, hy, -⟩
    rw [hline] at hy
    cases hy
  · refine ⟨fun e he => (hstation e he).elim, ?_⟩
    rw [hqueues]
    exact nofun
  · refine ⟨fun slot e he => absurd he (hnone slot e), fun e he => (hstation e he).elim, ?_, ?_, ?_, ?_⟩
    · rw [hqueues]
      exact nofun
    · rw [hqueues]
      exact nofun
    · rw [hqueues]
      exact nofun
    · rw [hlsq]
      exact ⟨by rw [hline]; exact List.nodup_nil, by rw [hline]; rfl, nofun⟩
  · intro slot ha
    cases (hwaits slot).symm.trans ha

end Sys2Proof.Machine
end

section
/-! The path of the scheduled core: the pcs from the oldest instruction in flight to the one that will be fetched next.
Each follows the one before it as the table says, which is what the reference machine's table would say. -/

namespace Sys2Proof.Machine

/-! ### What a table bets on -/

/-- The next pc that a fetch at `pc` would predict (R151, R152). -/
def Predictor.bet (policy : Policy) (p : Predictor) (pc : Word) : Word := (p.predict policy pc).2

theorem Predictor.bet_eq (policy : Policy) (p : Predictor) (pc : Word) :
    p.bet policy pc = if policy = .oneBit then (p.target? pc).getD (pc + 1) else pc + 1 := by
  by_cases h : policy = .oneBit
  · subst h
    rw [if_pos rfl, Predictor.bet]
    cases ht : p.target? pc with
    | none => rw [Predictor.predict_of_no_entry .oneBit ht, Option.getD_none]
    | some t => rw [Predictor.predict_oneBit_of_entry ht, Option.getD_some]
  · rw [if_neg h, Predictor.bet, Predictor.predict_of_ne_oneBit h]

/-- A fetch records what the table bets on already (R153). -/
theorem Predictor.predict_target (policy : Policy) (p : Predictor) (pc q : Word) :
    (p.predict policy pc).1.target? q = if q = pc then some (p.bet policy pc) else p.target? q := by
  split
  · rename_i h
    rw [h]
    exact p.predict_target_self policy pc
  · rename_i h
    exact p.predict_target_ne policy h

theorem Predictor.predict_bet (policy : Policy) (p : Predictor) (pc q : Word) :
    (p.predict policy pc).1.bet policy q = p.bet policy q := by
  rw [Predictor.bet_eq, Predictor.bet_eq, Predictor.predict_target]
  by_cases hq : q = pc
  · subst hq
    rw [if_pos rfl, Predictor.bet_eq]
    split <;> rfl
  · rw [if_neg hq]

/-- A validation leaves the correct next pc in the table under one-bit, and nothing else changes there (R154). -/
theorem Predictor.check_target (policy : Policy) (p : Predictor) (pc rpc result q : Word) :
    (p.check policy pc rpc result).pred.target? q =
      if policy = .oneBit ∧ q = pc then some (correctNext pc rpc result) else p.target? q := by
  by_cases hmatch : p.target? pc = some (correctNext pc rpc result)
  · rw [Predictor.check_of_match policy hmatch]
    split
    · rename_i h
      rw [h.2]
      exact hmatch
    · rfl
  · rw [Predictor.check_of_mismatch policy hmatch]
    rcases (p.counted pc (correctNext pc rpc result)).missed_cases policy pc (correctNext pc rpc result) with
      ⟨hp, h⟩ | ⟨hp, h⟩ <;> rw [h]
    · by_cases hq : q = pc
      · rw [if_pos ⟨hp, hq⟩, hq]
        exact p.record_target_self pc _
      · rw [if_neg fun h => hq h.2]
        exact p.record_target_ne _ hq
    · rw [if_neg fun h => hp h.1]
      rfl

theorem Predictor.check_bet (policy : Policy) (p : Predictor) (pc rpc result q : Word) :
    (p.check policy pc rpc result).pred.bet policy q =
      if policy = .oneBit ∧ q = pc then correctNext pc rpc result else p.bet policy q := by
  rw [Predictor.bet_eq, Predictor.bet_eq, Predictor.check_target]
  by_cases hp : policy = .oneBit
  · by_cases hq : q = pc <;> simp [hp, hq]
  · simp [hp]

/-- What a validation counts depends on the entry of the table for that pc only (R154). -/
theorem Predictor.check_counters (policy : Policy) {p p' : Predictor} {pc : Word} (rpc result : Word)
    (hcounters : p.counters = p'.counters) (htarget : p.target? pc = p'.target? pc) :
    (p.check policy pc rpc result).pred.counters = (p'.check policy pc rpc result).pred.counters := by
  simp only [Predictor.counters, Prod.mk.injEq] at hcounters
  obtain ⟨hchecked, hmissed, hdist⟩ := hcounters
  by_cases hmatch : p.target? pc = some (correctNext pc rpc result)
  · rw [Predictor.check_of_match policy hmatch, Predictor.check_of_match policy (htarget ▸ hmatch)]
    simp [Predictor.counters, hchecked, hmissed, hdist]
  · rw [Predictor.check_of_mismatch policy hmatch, Predictor.check_of_mismatch policy (htarget ▸ hmatch)]
    by_cases hp : policy = .oneBit <;>
      simp [Predictor.missed, Predictor.counters, hp, hchecked, hmissed, hdist]

/-! ### The path -/

/-- The next pc a fetch at `pc` would predict. -/
def State.bet (s : State) (pc : Word) : Word := s.pred.bet s.cfgPolicy pc

/-- The pcs of the instructions in flight, oldest first, and `PC`. -/
def State.path (s : State) : List Word :=
  (s.rob.line s.params.robSize).map Prod.snd ++ s.queues.iq.items.map IssueItem.pc ++
    s.queues.fq.items.map FetchItem.pc ++ [s.pc]

/-- The table says that the instruction at `q` is fetched next after that at `p`, and bets so. -/
def State.goesOn (s : State) (p q : Word) : Prop := s.pred.target? p = some q ∧ s.bet p = q

/-- The instructions in flight were fetched as the table says, and only behind a branch or jump does the table say other
than the next instruction (R151 to R154). -/
structure OnPath (s : State) : Prop where
  chain : s.path.IsChain s.goesOn
  straight : ∀ pc i, s.instrAt pc = some i → isControl i.op = false → s.bet pc = pc + 1

/-- A later state of the same core has fetched on. -/
structure State.Extends (s t : State) : Prop where
  path : ∃ more, t.path = s.path ++ more
  counters : t.pred.counters = s.pred.counters
  bet : ∀ pc, t.bet pc = s.bet pc
  kept : ∀ p q, s.goesOn p q → t.goesOn p q

theorem stageFetch_path (s : State) :
    (∃ code, s.imem? s.pc = some code ∧ (stageFetch s).path = s.path ++ [s.bet s.pc] ∧
      (stageFetch s).pred = s.recordPrediction.pred) ∨ stageFetch s = s := by
  rcases stageFetch_cases s with ⟨code, hcode, -, h⟩ | h
  · left
    refine ⟨code, hcode, ?_, by rw [h]; rfl⟩
    rw [h]
    simp only [State.path, State.withPc_rob, State.withPc_queues, State.withPc_pc, State.withQueues_rob,
      State.withQueues_queues, Fifo.items_push, List.map_append, List.map_cons, List.map_nil, List.append_assoc]
    rfl
  · exact .inr h

theorem stageFetch_extends (s : State) : s.Extends (stageFetch s) := by
  rcases stageFetch_path s with ⟨code, hcode, hpath, hpred⟩ | h
  · have hpolicy : (stageFetch s).cfgPolicy = s.cfgPolicy := by
      obtain ⟨-, -, -, hfixed⟩ := State.settled_eq_iff.mp (stageFetch_settled s)
      simp only [State.fixed, Prod.mk.injEq] at hfixed
      exact hfixed.2.2.2.1
    have hbet (pc : Word) : (stageFetch s).bet pc = s.bet pc := by
      rw [State.bet, hpred, hpolicy]
      exact s.pred.predict_bet _ _ _
    refine ⟨⟨_, hpath⟩, ?_, hbet, fun p q ⟨htarget, hq⟩ => ⟨?_, (hbet p).trans hq⟩⟩
    · rw [hpred]
      exact s.pred.predict_counters _ _
    · rw [hpred]
      refine (s.pred.predict_target _ _ _).trans ?_
      split
      · rename_i hp
        rw [← hq, hp]
        rfl
      · exact htarget
  · rw [h]
    exact ⟨⟨[], (List.append_nil _).symm⟩, rfl, fun _ => rfl, fun _ _ => id⟩

/-- The last pc of the path is `PC`. -/
theorem State.path_getLast (s : State) : s.path.getLast? = some s.pc := by
  rw [State.path, List.getLast?_concat]

theorem stageFetch_onPath {s : State} (h : OnPath s) : OnPath (stageFetch s) := by
  have hextends := stageFetch_extends s
  have hcode : (stageFetch s).instrAt = s.instrAt := by
    obtain ⟨-, -, -, hfixed⟩ := State.settled_eq_iff.mp (stageFetch_settled s)
    simp only [State.fixed, Prod.mk.injEq] at hfixed
    exact State.instrAt_congr hfixed.1 hfixed.2.1
  refine ⟨?_, fun pc i hi hc => (hextends.bet pc).trans (h.straight pc i (hcode ▸ hi) hc)⟩
  rcases stageFetch_path s with ⟨code, -, hpath, hpred⟩ | he
  · rw [hpath, List.isChain_append]
    refine ⟨h.chain.imp hextends.kept, List.isChain_singleton _, fun p hp q hq => ?_⟩
    rw [State.path_getLast] at hp
    cases hp
    cases hq
    refine ⟨?_, hextends.bet _⟩
    rw [hpred]
    exact s.pred.predict_target_self _ _
  · rw [he]
    exact h.chain

/-- The stages behind fetch move the instructions in flight along the path and leave the table, until commit. -/
def State.sameFront (s t : State) : Prop := t.path = s.path ∧ t.pred = s.pred

theorem stageDecode_sameFront {s t : State} (ht : stageDecode s = .cont t) : s.sameFront t := by
  rcases stageDecode_cases s with ⟨item, rest, i, hfront, -, he⟩ | ⟨_, _, _, -, -, he⟩ | he <;> cases he.symm.trans ht
  · refine ⟨?_, rfl⟩
    simp [State.path, Fifo.items_push, Fifo.items_of_visible hfront]
  · exact ⟨rfl, rfl⟩

theorem stageIssue_sameFront {s : State} (h : CoreSound s) : s.sameFront (stageIssue s) := by
  rcases stageIssue_cases s with ⟨item, rest, hfront, hfree, he⟩ | he <;> rw [he]
  · obtain ⟨hadded, hqueues, -, -, hpc, -, hpred, -, -, hparams, -⟩ :=
      (s.withQueues { s.queues with iq := s.queues.iq.pop }).issue_frame item.instr item.pc
    have hline := Rob.line_add h.pipeline.1.1 (State.issueBlocked_rob hfree) item.instr item.pc
    refine ⟨?_, hpred⟩
    rw [State.path, hadded, hparams, hqueues, hpc]
    simp only [State.withQueues_rob, State.withQueues_params, State.withQueues_queues, State.withQueues_pc, hline]
    simp [State.path, Fifo.items_of_visible hfront]
  · exact ⟨rfl, rfl⟩

theorem stageWriteback_sameFront (s : State) : s.sameFront (stageWriteback s) := by
  rcases stageWriteback_cases s with ⟨item, rest, -, he⟩ | he <;> rw [he]
  · refine ⟨?_, rfl⟩
    simp only [State.path, State.withRob_rob, State.withRob_params, State.withLsq_params, State.withRs_params,
      State.withQueues_params, Rob.line_complete]
    rfl
  · exact ⟨rfl, rfl⟩

theorem stageDispatch_sameFront (s : State) : s.sameFront (stageDispatch s) := by
  have station : s.sameFront (dispatchStation s) := by
    rcases dispatchStation_cases s with ⟨_, _, -, -, h⟩ | h <;> rw [h] <;> exact ⟨rfl, rfl⟩
  have memory (s : State) : s.sameFront (dispatchMemory s) := by
    rcases dispatchMemory_cases s with ⟨_, _, -, -, h⟩ | h <;> rw [h] <;> exact ⟨rfl, rfl⟩
  obtain ⟨hpath, hpred⟩ := memory (dispatchStation s)
  exact ⟨hpath.trans station.1, hpred.trans station.2⟩

theorem stageExecute_sameFront {s t : State} (ht : stageExecute s = .cont t) : s.sameFront t := by
  rcases stageExecute_cases s with ⟨_, _, -, ⟨_, -, h⟩ | ⟨-, h⟩ | ⟨-, h⟩⟩ | h <;> cases h.symm.trans ht <;>
    exact ⟨rfl, rfl⟩

theorem stageMemory_sameFront (s : State) : s.sameFront (stageMemory s) := by
  rcases stageMemory_cases s with ⟨item, _, -, h⟩ | h <;> rw [h]
  · obtain ⟨_, _, -, h⟩ := (s.withQueues { s.queues with mq := s.queues.mq.pop }).evalMemory_eq item
    rw [h]
    exact ⟨rfl, rfl⟩
  · exact ⟨rfl, rfl⟩

/-! ### What the commit stage sees -/

/-- Of the stages before commit only fetch goes on along the path. -/
theorem beforeCommit_sameFront {s u : State} (h : CoreSound s) (hu : beforeCommit s = .cont u) :
    (stageFetch s).sameFront u := by
  obtain ⟨d, x, hd, hx, rfl⟩ := beforeCommit_eq_cont hu
  have hsound := stageDecode_coreSound (stageFetch_coreSound h) hd
  obtain ⟨p1, q1⟩ := stageDecode_sameFront hd
  obtain ⟨p2, q2⟩ := stageIssue_sameFront hsound
  obtain ⟨p3, q3⟩ := stageDispatch_sameFront (stageIssue d)
  obtain ⟨p4, q4⟩ := stageExecute_sameFront hx
  obtain ⟨p5, q5⟩ := stageMemory_sameFront x
  obtain ⟨p6, q6⟩ := stageWriteback_sameFront (stageMemory x)
  refine ⟨?_, ?_⟩
  · rw [p6, p5, p4, p3, p2, p1]
  · rw [q6, q5, q4, q3, q2, q1]

theorem beforeCommit_coreSound {s u : State} (h : CoreSound s) (hu : beforeCommit s = .cont u) : CoreSound u := by
  obtain ⟨d, x, hd, hx, rfl⟩ := beforeCommit_eq_cont hu
  have hdecoded := stageDecode_coreSound (stageFetch_coreSound h) hd
  have hexecuted := stageExecute_coreSound (stageDispatch_coreSound (stageIssue_coreSound hdecoded)) hx
  exact stageWriteback_coreSound (stageMemory_coreSound hexecuted)

theorem beforeCommit_fixed {s u : State} (hu : beforeCommit s = .cont u) : u.fixed = s.fixed := by
  obtain ⟨-, -, -, hfixed⟩ := State.settled_eq_iff.mp (beforeCommit_settled hu)
  exact hfixed

/-- What a run does not change, field by field. -/
theorem State.fixed_eq_iff {s t : State} : t.fixed = s.fixed ↔ t.prog = s.prog ∧ t.symtab = s.symtab ∧
    t.params = s.params ∧ t.cfgPolicy = s.cfgPolicy ∧ t.cfgWidth = s.cfgWidth := by
  simp only [State.fixed, Prod.mk.injEq]

theorem State.Extends.of_sameFront {s t u : State} (h : s.Extends t) (hsame : t.sameFront u)
    (hpolicy : u.cfgPolicy = t.cfgPolicy) : s.Extends u := by
  obtain ⟨hpath, hpred⟩ := hsame
  obtain ⟨more, hmore⟩ := h.path
  have hbet (pc : Word) : u.bet pc = t.bet pc := by rw [State.bet, hpred, hpolicy]; rfl
  refine ⟨⟨more, hpath.trans hmore⟩, by rw [hpred, h.counters], fun pc => (hbet pc).trans (h.bet pc),
    fun p q hg => ?_⟩
  obtain ⟨htarget, hq⟩ := h.kept p q hg
  exact ⟨by rw [hpred, htarget], (hbet p).trans hq⟩

theorem beforeCommit_extends {s u : State} (h : CoreSound s) (hu : beforeCommit s = .cont u) : s.Extends u := by
  have hfetch := State.settled_eq_iff.mp (stageFetch_settled s)
  obtain ⟨-, -, -, hpolicy, -⟩ := State.fixed_eq_iff.mp (beforeCommit_fixed hu)
  obtain ⟨-, -, -, hpolicy', -⟩ := State.fixed_eq_iff.mp hfetch.2.2.2
  exact (stageFetch_extends s).of_sameFront (beforeCommit_sameFront h hu) (hpolicy.trans hpolicy'.symm)

theorem OnPath.of_sameFront {s t : State} (h : OnPath s) (hsame : s.sameFront t) (hfixed : t.fixed = s.fixed) :
    OnPath t := by
  obtain ⟨hpath, hpred⟩ := hsame
  obtain ⟨hprog, hsymtab, -, hpolicy, -⟩ := State.fixed_eq_iff.mp hfixed
  have hbet : t.bet = s.bet := by
    funext pc
    rw [State.bet, hpred, hpolicy]
    rfl
  refine ⟨?_, ?_⟩
  · rw [hpath]
    refine h.chain.imp fun p q ⟨htarget, hq⟩ => ⟨by rw [hpred, htarget], by rw [hbet, hq]⟩
  · rw [hbet, State.instrAt_congr hprog hsymtab]
    exact h.straight

theorem beforeCommit_onPath {s u : State} (hs : CoreSound s) (h : OnPath s) (hu : beforeCommit s = .cont u) :
    OnPath u := by
  obtain ⟨-, -, -, hfixed⟩ := State.settled_eq_iff.mp (stageFetch_settled s)
  exact (stageFetch_onPath h).of_sameFront (beforeCommit_sameFront hs hu) ((beforeCommit_fixed hu).trans hfixed.symm)

/-- Every line of the program decodes. -/
def State.decodes (s : State) : Prop := ∀ c ∈ s.prog, ∃ i, decode s.symtab c = .ok i

theorem State.mem_prog_of_imem? {s : State} {pc : Word} {code : Code} (h : s.imem? pc = some code) : code ∈ s.prog := by
  unfold State.imem? at h
  split at h
  · exact List.mem_of_getElem? h
  · cases h

/-- No error ends the stages before commit if every line decodes (R71, R128). -/
theorem beforeCommit_cont {s : State} (h : CoreSound s) (hdec : s.decodes) : ∃ u, beforeCommit s = .cont u := by
  have hfetched := stageFetch_coreSound h
  obtain ⟨-, -, -, hfixed⟩ := State.settled_eq_iff.mp (stageFetch_settled s)
  obtain ⟨hprog, hsymtab, -⟩ := State.fixed_eq_iff.mp hfixed
  have decoded : ∃ d, stageDecode (stageFetch s) = .cont d := by
    rcases stageDecode_cases (stageFetch s) with ⟨_, _, _, -, -, he⟩ | ⟨item, _, e, hfront, he, -⟩ | he
    · exact ⟨_, he⟩
    · have hcode := hfetched.decoded.fetched item (Fifo.mem_items_of_visible hfront)
      obtain ⟨i, hi⟩ := hdec _ (hprog ▸ State.mem_prog_of_imem? hcode)
      rw [hsymtab] at he
      cases hi.symm.trans he
    · exact ⟨_, he⟩
  obtain ⟨d, hd⟩ := decoded
  have hsound := stageDecode_coreSound hfetched hd
  obtain ⟨x, hx⟩ := stageExecute_cont (stageDispatch_coreSound (stageIssue_coreSound hsound)).computes
  exact ⟨_, by rw [beforeCommit, hd, SubResult.cont_andThen, hx, SubResult.cont_andThen]⟩

end Sys2Proof.Machine
end

section
/-! The commit of the scheduled core against the step of the reference machine (R178): the oldest instruction in flight
is the one the reference machine runs next, and what its commit leaves is what that step leaves. -/

namespace Sys2Proof.Machine

/-- Two states agree on registers, memory, the count of instructions and the validation counters (R212). -/
structure Agrees (t r : State) : Prop where
  regs : t.regs = r.regs
  mem : t.mem = r.mem
  executed : t.executed = r.executed
  counters : t.pred.counters = r.pred.counters

theorem Agrees.arch {t r : State} (h : Agrees t r) : t.arch = r.arch := by rw [State.arch, h.regs, h.mem]; rfl

variable {r u : State} {e : RobEntry} {i : Instr} {v : Word}

/-! ### One commit and one instruction -/

/-- The reference state `r` is about to run the instruction that the ROB entry `e` of `u` holds, with the same entry of
the table. -/
structure AtHead (r u : State) (e : RobEntry) : Prop where
  agrees : Agrees u r
  status : r.status = u.status
  pc : r.pc = e.pc
  size : r.params.memSize = u.params.memSize
  policy : r.cfgPolicy = u.cfgPolicy
  target : r.pred.target? e.pc = u.pred.target? e.pc

/-- The reference state after its instruction ended with the result `v` (R178). -/
def State.ran (r : State) (i : Instr) (v : Word) : State :=
  ((r.withArch (r.arch.advance r.params.memSize i v)).withPred (r.predAfter i v)).retire
    (correctNext r.pc (recoveryPc i r.pc) v)

/-- What the commit of the oldest instruction and its meaning come to: the same fault, or the same result. -/
theorem commit_cases (h : CoreSound u) (ho : u.Oldest e i) (hd : e.done = true) (hhead : AtHead r u e) :
    (∃ f : SlotFault, stageCommit u = .fatal (u.raise f.error) ∧ exec i r = .next (r.raise f.error)) ∨
      ∃ v, exec i r = .next (r.ran i v) ∧ u.arch.outcome u.params.memSize i = .ok v ∧
        ((isControl i.op = true ∧ stageCommit u = .flush (u.flushed e i v)) ∨
          ∃ q, u.predicted e i v ∧ (u.mem.wf → u.Leaves i v q) ∧
            stageCommit u = (u.ownPart e i v q).finishCommit e v) := by
  rw [stageCommit_of_done ho hd]
  cases hout : u.arch.outcome u.params.memSize i with
  | error f =>
    have hout' := hout
    rw [hhead.agrees.arch, ← hhead.size] at hout'
    exact .inl ⟨f, commitEntry_of_error h ho hd hout, exec_of_error hout'⟩
  | ok v =>
    have hout' := hout
    rw [hhead.agrees.arch, ← hhead.size] at hout'
    refine .inr ⟨v, exec_of_ok hout', rfl, ?_⟩
    rcases commitEntry_of_ok h ho hd hout with ⟨hc, -, he⟩ | ⟨hp, q, hq, he⟩
    · exact .inl ⟨hc, he⟩
    · exact .inr ⟨q, hp, hq, he⟩

theorem State.ran_eq (r : State) (i : Instr) (v : Word) : r.ran i v =
    (((((r.withArch (r.arch.advance r.params.memSize i v)).withPred (r.predAfter i v)).withPc
      (correctNext r.pc (recoveryPc i r.pc) v)).withExecuted (r.executed + 1)).withStatus
        (if (r.arch.advance r.params.memSize i v).reg 31 = 1 then .halted else r.status)) := by
  rw [State.ran, State.retire, State.haltTest_eq, haltReg_eq]
  rfl

theorem State.ran_arch (r : State) (i : Instr) (v : Word) :
    (r.ran i v).arch = r.arch.advance r.params.memSize i v := by
  rw [State.ran_eq]
  rfl

/-- The counters after the commit are those after the meaning. -/
theorem AtHead.counters (hhead : AtHead r u e) (i : Instr) (v : Word) :
    (u.predHead e i v).counters = (r.predAfter i v).counters := by
  rw [State.predHead, State.predAfter, State.predAfter, hhead.pc, hhead.policy]
  split
  · exact Predictor.check_counters _ _ _ hhead.agrees.counters hhead.target.symm
  · exact hhead.agrees.counters

/-- A retired instruction leaves what its meaning leaves. -/
theorem AtHead.retired (hhead : AtHead r u e) (ho : u.Oldest e i) (v : Word) (q : Lsq) :
    Agrees (u.retired e i v q) (r.ran i v) := by
  obtain ⟨rat, heq⟩ := u.retired_eq ho v q
  rw [heq, State.ran_eq, hhead.size, ← hhead.agrees.arch, ← hhead.agrees.executed]
  exact ⟨rfl, rfl, rfl, hhead.counters i v⟩

/-- A branch or jump writes no register and no cell (R99, R102). -/
theorem advance_of_isControl (h : isControl i.op = true) (n : Nat) (A : Arch) (v : Word) : A.advance n i v = A := by
  cases i with
  | beq | j => rfl
  | add | sub | mul | div | idiv | mod | addi | lw | sw => cases h

theorem State.flushed_eq (s : State) (e : RobEntry) (i : Instr) (v : Word) :
    (s.flushed e i v).regs = s.regs ∧ (s.flushed e i v).mem = s.mem ∧ (s.flushed e i v).pred = s.predHead e i v ∧
      (s.flushed e i v).executed = s.executed + 1 ∧ (s.flushed e i v).pc = correctNext e.pc e.rpc v ∧
        (s.flushed e i v).status = s.status := by
  obtain ⟨hpc, hregs, hmem, hpred, -, -, hstatus⟩ :=
    (s.withPred (s.predHead e i v)).flush_kept (correctNext e.pc e.rpc v)
  exact ⟨hregs, hmem, hpred, rfl, hpc, hstatus⟩

/-- A mispredicted instruction leaves what its meaning leaves. -/
theorem AtHead.flushed (hhead : AtHead r u e) (hc : isControl i.op = true) (v : Word) :
    Agrees (u.flushed e i v) (r.ran i v) := by
  obtain ⟨hregs, hmem, hpred, hexecuted, -⟩ := u.flushed_eq e i v
  have harch := r.ran_arch i v
  rw [advance_of_isControl hc] at harch
  have hran := r.ran_eq i v
  refine ⟨?_, ?_, ?_, ?_⟩
  · exact hregs.trans (hhead.agrees.regs.trans (congrArg Arch.regs harch).symm)
  · exact hmem.trans (hhead.agrees.mem.trans (congrArg Arch.mem harch).symm)
  · rw [hexecuted, hhead.agrees.executed, hran]
    rfl
  · rw [hpred, hhead.counters, hran]
    rfl

theorem State.ran_status (r : State) (i : Instr) (v : Word) :
    (r.ran i v).status = if (r.ran i v).reg 31 = 1 then .halted else r.status := by
  rw [State.ran_eq]
  rfl

/-- The commit of the oldest instruction and its meaning leave the same status, registers, memory and counts. -/
theorem commit_agrees {r' : State} (h : CoreSound u) (ho : u.Oldest e i) (hd : e.done = true) (hhead : AtHead r u e)
    (hhalt : u.reg 31 ≠ 1) (he : exec i r = .next r') :
    (stageCommit u).all fun t => t.status = r'.status ∧ Agrees t r' := by
  rcases commit_cases h ho hd hhead with ⟨f, hcommit, hexec⟩ | ⟨v, hexec, -, hcases⟩ <;> cases hexec.symm.trans he
  · rw [hcommit]
    exact ⟨rfl, hhead.agrees.regs, hhead.agrees.mem, hhead.agrees.executed, hhead.agrees.counters⟩
  · rcases hcases with ⟨hc, hcommit⟩ | ⟨q, -, -, hcommit⟩ <;> rw [hcommit]
    · have hagrees := hhead.flushed hc v
      refine ⟨?_, hagrees⟩
      obtain ⟨hregs, -, -, -, -, hstatus⟩ := u.flushed_eq e i v
      have hreg : (r.ran i v).reg 31 = u.reg 31 := by
        rw [State.reg, ← hagrees.regs]
        exact congrArg (fun x : Vector Word 32 => x[(31 : RegId)]) hregs
      rw [State.ran_status, hreg, if_neg hhalt, hhead.status]
      exact hstatus
    · have hagrees := hhead.retired ho v q
      have hreg : (u.retired e i v q).reg 31 = (r.ran i v).reg 31 := by rw [State.reg, hagrees.regs]; rfl
      have hstatus : (u.retired e i v q).status = u.status := by
        obtain ⟨rat, heq⟩ := u.retired_eq ho v q
        rw [heq]
        rfl
      rw [State.finishCommit_eq, hreg]
      have hran := r.ran_status i v
      split
      · rename_i h1
        rw [if_pos h1] at hran
        exact ⟨hran.symm, hagrees.regs, hagrees.mem, hagrees.executed, hagrees.counters⟩
      · rename_i h1
        rw [if_neg h1] at hran
        exact ⟨by rw [hran, hstatus, hhead.status], hagrees⟩

end Sys2Proof.Machine
end

section
/-! A reference machine shadows the scheduled core: it stands where the oldest instruction not yet committed is.  What
the core does before commit leaves it there, and each commit is one step of it. -/

namespace Sys2Proof.Machine

/-! ### Shadowing -/

/-- The reference machine `r` and the scheduled core `s` are given the same inputs, which the core accepts and whose
every line decodes. -/
structure Setting (r s : State) : Prop where
  engines : r.params.engine = .reference ∧ s.params.engine = .scheduled
  prog : r.prog = s.prog
  symtab : r.symtab = s.symtab
  size : r.params.memSize = s.params.memSize
  policy : r.cfgPolicy = s.cfgPolicy
  width : r.cfgWidth = s.cfgWidth
  configured : s.configured = true
  params : s.params.wellFormed = true
  decodes : s.decodes

/-- The reference machine `r` stands at the oldest instruction of the core `s` that has not committed. -/
structure Shadows (r s : State) : Prop where
  setting : Setting r s
  core : CoreSound s
  path : OnPath s
  wf : s.mem.wf
  agrees : Agrees s r
  running : r.status = .running ∧ s.status = .running
  halt : s.reg 31 ≠ 1
  bet : ∀ pc, r.bet pc = s.bet pc
  pc : s.path.head? = some r.pc

/-- Both machines have stopped in the same way (R178, R212). -/
structure StopsAs (r t : State) : Prop where
  stopped : r.status ≠ .running
  status : t.status = r.status
  agrees : Agrees t r

/-- What a sub-step ends in against a state of the reference machine. -/
def SubResult.shadowedBy (r : State) : SubResult → Prop
  | .cont t | .flush t => Shadows r t
  | .halt t | .fatal t => StopsAs r t
  | .broken _ => False

theorem Setting.of_fixed {r s r' s' : State} (h : Setting r s) (hr : r'.fixed = r.fixed) (hs : s'.fixed = s.fixed) :
    Setting r' s' := by
  obtain ⟨rprog, rsymtab, rparams, rpolicy, rwidth⟩ := State.fixed_eq_iff.mp hr
  obtain ⟨sprog, ssymtab, sparams, spolicy, swidth⟩ := State.fixed_eq_iff.mp hs
  constructor
  · rw [rparams, sparams]
    exact h.engines
  · rw [rprog, sprog, h.prog]
  · rw [rsymtab, ssymtab, h.symtab]
  · rw [rparams, sparams, h.size]
  · rw [rpolicy, spolicy, h.policy]
  · rw [rwidth, swidth, h.width]
  · rw [State.configured, spolicy, swidth]
    exact h.configured
  · rw [sparams]
    exact h.params
  · rw [State.decodes, sprog, ssymtab]
    exact h.decodes

variable {r s u : State} {e : RobEntry} {i : Instr} {v : Word}

/-- A change of the core before commit leaves the reference machine where it is. -/
theorem Shadows.of_extends (h : Shadows r s) (hcore : CoreSound u) (hpath : OnPath u) (hextends : s.Extends u)
    (hsettled : u.settled = s.settled) : Shadows r u := by
  obtain ⟨⟨hregs, hmem, hexecuted⟩, hstatus, -, hfixed⟩ := State.settled_eq_iff.mp hsettled
  obtain ⟨more, hmore⟩ := hextends.path
  constructor
  · exact h.setting.of_fixed rfl hfixed
  · exact hcore
  · exact hpath
  · rw [hmem]
    exact h.wf
  · exact ⟨hregs.trans h.agrees.regs, hmem.trans h.agrees.mem, hexecuted.trans h.agrees.executed,
      hextends.counters.trans h.agrees.counters⟩
  · exact ⟨h.running.1, hstatus.trans h.running.2⟩
  · rw [State.reg, hregs]
    exact h.halt
  · exact fun pc => (h.bet pc).trans (hextends.bet pc).symm
  · rw [hmore, List.head?_append, h.pc, Option.some_or]

theorem Shadows.beforeCommit (h : Shadows r s) (hu : beforeCommit s = .cont u) : Shadows r u :=
  h.of_extends (beforeCommit_coreSound h.core hu) (beforeCommit_onPath h.core h.path hu)
    (beforeCommit_extends h.core hu) (beforeCommit_settled hu)

/-! ### One commit and one step -/

/-- Behind the oldest instruction the path goes on. -/
theorem State.Oldest.path (h : CoreSound s) (ho : s.Oldest e i) : ∃ q rest, s.path = e.pc :: q :: rest := by
  have hline : s.rob.line s.params.robSize = _ := ho.line h
  have hpath : s.path = e.pc :: s.path.tail := by
    rw [State.path, hline]
    rfl
  cases ht : s.path.tail with
  | nil =>
    have : s.path.tail.getLast? = none := by rw [ht]; rfl
    rw [State.path, hline] at this
    simp at this
  | cons q rest => exact ⟨q, rest, ht ▸ hpath⟩

theorem Shadows.atHead (h : Shadows r s) (ho : s.Oldest e i) : AtHead r.recordPrediction s e := by
  obtain ⟨q, rest, hpath⟩ := ho.path h.core
  have hpc : r.pc = e.pc := by
    have := h.pc
    rw [hpath] at this
    exact (Option.some.inj this).symm
  have hchain := h.path.chain
  rw [hpath, List.isChain_cons_cons] at hchain
  obtain ⟨⟨htarget, hbet⟩, -⟩ := hchain
  constructor
  · exact ⟨h.agrees.regs, h.agrees.mem, h.agrees.executed,
      h.agrees.counters.trans (r.pred.predict_counters _ _).symm⟩
  · exact h.running.1.trans h.running.2.symm
  · exact hpc
  · exact h.setting.size
  · exact h.setting.policy
  · rw [htarget, ← hbet, ← h.bet, ← hpc]
    exact r.pred.predict_target_self _ _

/-- The reference machine runs what stands at its `PC`. -/
theorem Shadows.step_eq (h : Shadows r s) : step r = fetchAndExec r := by
  have hconf : r.configured = true := by
    rw [State.configured, h.setting.policy, h.setting.width]
    exact h.setting.configured
  have hhalt : r.reg 31 ≠ 1 := by
    rw [State.reg, ← h.agrees.regs]
    exact h.halt
  rw [step, h.setting.engines.1]
  exact referenceStep_of_running h.running.1 hconf hhalt

/-- The reference machine runs the oldest instruction of the core next. -/
theorem Shadows.step_of_oldest (h : Shadows r s) (ho : s.Oldest e i) : step r = exec i r.recordPrediction := by
  have hhead := h.atHead ho
  have hpc : r.pc = e.pc := hhead.pc
  obtain ⟨code, hcode, hi⟩ := Option.bind_eq_some_iff.mp ho.code
  have hcode' : r.imem? r.pc = some code := by rw [State.imem?_congr h.setting.prog, hpc, hcode]
  refine h.step_eq.trans (fetchAndExec_of_decode hcode' ?_)
  rw [h.setting.symtab]
  exact toOption_eq_some_iff.mp hi

/-! ### The commit stage -/

/-- A commit changes the table only where its branch or jump stands, and there as the meaning does (R154). -/
theorem Shadows.bet_after (h : Shadows r s) (ho : s.Oldest e i) (v pc : Word) :
    (r.recordPrediction.predAfter i v).bet r.cfgPolicy pc = (s.predHead e i v).bet s.cfgPolicy pc := by
  have hhead := h.atHead ho
  have hpc : r.pc = e.pc := hhead.pc
  have hrecorded : r.recordPrediction.pred.bet r.cfgPolicy pc = s.bet pc :=
    (r.pred.predict_bet r.cfgPolicy r.pc pc).trans (h.bet pc)
  rw [State.predHead, State.predAfter, State.predAfter]
  split
  · show (Predictor.check r.cfgPolicy r.recordPrediction.pred r.pc _ v).pred.bet r.cfgPolicy pc =
      (Predictor.check s.cfgPolicy s.pred e.pc _ v).pred.bet s.cfgPolicy pc
    rw [Predictor.check_bet, Predictor.check_bet, hrecorded, h.setting.policy]
    show (if _ ∧ pc = r.pc then correctNext r.pc (recoveryPc i r.pc) v else _) = _
    rw [hpc]
    rfl
  · exact hrecorded

/-- A right prediction leaves the table. -/
theorem State.predHead_goesOn (s : State) {e : RobEntry} (ho : s.Oldest e i) (hp : s.predicted e i v) (pc : Word) :
    (s.predHead e i v).target? pc = s.pred.target? pc := by
  rw [State.predHead, State.predAfter]
  split
  · rename_i hc
    refine (Predictor.check_target ..).trans ?_
    split
    · rename_i hpc
      rw [hpc.2]
      have := hp hc
      rw [ho.rpc] at this
      exact this.symm
    · rfl
  · rfl

/-- The next pc of the path behind a retired instruction is that of its meaning. -/
theorem Shadows.next_of_predicted (h : Shadows r s) (ho : s.Oldest e i) (hp : s.predicted e i v) :
    s.path.tail.head? = some (correctNext e.pc (recoveryPc i e.pc) v) := by
  obtain ⟨q, rest, hpath⟩ := ho.path h.core
  have hchain := h.path.chain
  rw [hpath, List.isChain_cons_cons] at hchain
  obtain ⟨⟨htarget, hbet⟩, -⟩ := hchain
  rw [hpath, List.tail_cons, List.head?_cons]
  cases hc : isControl i.op with
  | true =>
    have := htarget.symm.trans (hp hc)
    rw [← ho.rpc]
    exact this
  | false => rw [correctNext_of_not_control hc, ← hbet, h.path.straight e.pc i ho.code hc]

theorem State.retired_path (h : CoreSound s) (ho : s.Oldest e i) (v : Word) (q : Lsq) :
    (s.retired e i v q).path = s.path.tail := by
  obtain ⟨rat, heq⟩ := s.retired_eq ho v q
  have hline : s.rob.line s.params.robSize = _ := ho.line h
  rw [State.path, State.path, hline, heq]
  rfl

/-- A retirement changes the registers and memory, and takes the predictor on, but neither status nor inputs. -/
theorem State.retired_kept (ho : s.Oldest e i) (v : Word) (q : Lsq) :
    (s.retired e i v q).pred = s.predHead e i v ∧ (s.retired e i v q).status = s.status ∧
      (s.retired e i v q).fixed = s.fixed ∧
        (s.retired e i v q).arch = s.arch.advance s.params.memSize i v := by
  obtain ⟨rat, heq⟩ := s.retired_eq ho v q
  rw [heq]
  exact ⟨rfl, rfl, rfl, rfl⟩

/-- The reference state after its instruction, field by field. -/
theorem State.ran_kept (r : State) (i : Instr) (v : Word) :
    (r.ran i v).pc = correctNext r.pc (recoveryPc i r.pc) v ∧ (r.ran i v).pred = r.predAfter i v ∧
      (r.ran i v).fixed = r.fixed := by
  rw [State.ran_eq]
  exact ⟨rfl, rfl, rfl⟩

theorem State.bet_of_fixed {s t : State} (h : t.fixed = s.fixed) (pc : Word) :
    t.bet pc = t.pred.bet s.cfgPolicy pc := by
  obtain ⟨-, -, -, hpolicy, -⟩ := State.fixed_eq_iff.mp h
  rw [State.bet, hpolicy]

/-- The status of the reference machine after an instruction that leaves no 1 in register 31. -/
theorem State.ran_running {r t : State} (hagrees : Agrees t (r.ran i v)) (hhalt : t.reg 31 ≠ 1)
    (hrunning : r.status = .running) : (r.ran i v).status = .running := by
  have hreg : (r.ran i v).reg 31 = t.reg 31 := by rw [State.reg, ← hagrees.regs]; rfl
  rw [State.ran_status, hreg, if_neg hhalt, hrunning]

theorem Shadows.retired (h : Shadows r s) (ho : s.Oldest e i) (hd : e.done = true)
    (hv : s.arch.outcome s.params.memSize i = .ok v) (hp : s.predicted e i v) {q : Lsq} (hq : s.Leaves i v q)
    (hsound : pipelineSound (s.retired e i v q)) (hhalt : (s.retired e i v q).reg 31 ≠ 1) :
    Shadows (r.recordPrediction.ran i v) (s.retired e i v q) := by
  have hhead := h.atHead ho
  have hpath := s.retired_path h.core ho v q
  obtain ⟨hpred, hstatus, hfixed, harch⟩ := s.retired_kept ho v q
  obtain ⟨hranpc, hranpred, hranfixed⟩ := r.recordPrediction.ran_kept i v
  have hranfixed : (r.recordPrediction.ran i v).fixed = r.fixed := hranfixed
  have hagrees := hhead.retired ho v q
  have hbet (pc : Word) : (s.retired e i v q).bet pc = s.bet pc := by
    rw [State.bet_of_fixed hfixed, hpred, Predictor.bet_eq, s.predHead_goesOn ho hp, State.bet, Predictor.bet_eq]
  constructor
  · exact h.setting.of_fixed hranfixed hfixed
  · exact h.core.retired ho hd h.wf hv hq hsound
  · obtain ⟨hprog, hsymtab, -⟩ := State.fixed_eq_iff.mp hfixed
    refine ⟨?_, fun pc j hj hc => ?_⟩
    · rw [hpath]
      refine h.path.chain.tail.imp fun x y ⟨htarget, hy⟩ => ⟨?_, (hbet x).trans hy⟩
      rw [hpred, s.predHead_goesOn ho hp, htarget]
    · rw [hbet]
      exact h.path.straight pc j (State.instrAt_congr hprog hsymtab ▸ hj) hc
  · have hmem : (s.retired e i v q).mem = s.arch.memAfter s.params.memSize i v := congrArg Arch.mem harch
    rw [hmem]
    exact Arch.memAfter_wf h.wf _ _ _
  · exact hagrees
  · exact ⟨State.ran_running hagrees hhalt h.running.1, hstatus.trans h.running.2⟩
  · exact hhalt
  · intro pc
    rw [State.bet_of_fixed hranfixed, State.bet_of_fixed hfixed, hranpred, hpred]
    exact h.bet_after ho v pc
  · rw [hpath, h.next_of_predicted ho hp, hranpc]
    exact congrArg (fun pc => some (correctNext pc (recoveryPc i pc) v)) hhead.pc.symm

/-- Behind a flush the path is the correct next pc alone (R169). -/
theorem State.flushed_path (s : State) (e : RobEntry) (i : Instr) (v : Word) :
    (s.flushed e i v).path = [correctNext e.pc e.rpc v] := by
  obtain ⟨-, -, -, -, hpc, -⟩ := s.flushed_eq e i v
  have hdrained : (s.flushed e i v).drained = true := flush_drained _ _ _
  obtain ⟨hqueues, hcount, -⟩ := State.drained_iff.mp hdrained
  rw [State.path, Rob.line_of_count_zero hcount, hqueues, hpc]
  rfl

theorem State.flushed_fixed (s : State) (e : RobEntry) (i : Instr) (v : Word) : (s.flushed e i v).fixed = s.fixed := by
  simp [State.fixed, State.flushed, State.flush_eq]

theorem Shadows.flushed (h : Shadows r s) (ho : s.Oldest e i) (hc : isControl i.op = true)
    (hsound : structuresSound (s.flushed e i v)) :
    Shadows (r.recordPrediction.ran i v) (s.flushed e i v) := by
  have hhead := h.atHead ho
  obtain ⟨hregs, hmem, hpred, -, -, hstatus⟩ := s.flushed_eq e i v
  have hfixed := s.flushed_fixed e i v
  obtain ⟨hranpc, hranpred, hranfixed⟩ := r.recordPrediction.ran_kept i v
  have hranfixed : (r.recordPrediction.ran i v).fixed = r.fixed := hranfixed
  have hagrees := hhead.flushed hc v
  have hhalt : (s.flushed e i v).reg 31 ≠ 1 := by
    rw [State.reg, hregs]
    exact h.halt
  constructor
  · exact h.setting.of_fixed hranfixed hfixed
  · exact coreSound_of_drained hsound (flush_drained _ _ _)
  · obtain ⟨hprog, hsymtab, -⟩ := State.fixed_eq_iff.mp hfixed
    refine ⟨by rw [State.flushed_path]; exact List.isChain_singleton _, fun pc j hj hc' => ?_⟩
    have hj : s.instrAt pc = some j := State.instrAt_congr hprog hsymtab ▸ hj
    rw [State.bet_of_fixed hfixed, hpred, State.predHead, State.predAfter, if_pos hc]
    refine (Predictor.check_bet ..).trans ?_
    split
    · rename_i hpc
      have hcode : some i = some j := by rw [← ho.code, ← hj, hpc.2]; rfl
      cases hcode
      cases hc'.symm.trans hc
    · exact h.path.straight pc j hj hc'
  · rw [hmem]
    exact h.wf
  · exact hagrees
  · exact ⟨State.ran_running hagrees hhalt h.running.1, hstatus.trans h.running.2⟩
  · exact hhalt
  · intro pc
    rw [State.bet_of_fixed hranfixed, State.bet_of_fixed hfixed, hranpred, hpred]
    exact h.bet_after ho v pc
  · rw [State.flushed_path, hranpc, ho.rpc]
    exact congrArg (fun pc => some (correctNext pc (recoveryPc i pc) v)) hhead.pc.symm

/-- A commit of the core is one step of the reference machine that shadows it. -/
theorem Shadows.stageCommit (h : Shadows r s) (ho : s.Oldest e i) (hd : e.done = true) :
    ∃ r', step r = .next r' ∧ (stageCommit s).shadowedBy r' := by
  have hhead := h.atHead ho
  have hstep := h.step_of_oldest ho
  have hsound := stageCommit_pipelineSound h.core.pipeline
  obtain ⟨r', hexec⟩ := exec_next i r.recordPrediction
  refine ⟨r', hstep.trans hexec, ?_⟩
  have hagrees := commit_agrees h.core ho hd hhead h.halt hexec
  rcases commit_cases h.core ho hd hhead with ⟨f, hcommit, hran⟩ | ⟨v, hran, hv, hcases⟩ <;> cases hran.symm.trans hexec
  · rw [hcommit] at hagrees ⊢
    exact ⟨nofun, hagrees.1, hagrees.2⟩
  · rcases hcases with ⟨hc, hcommit⟩ | ⟨q, hp, hq, hcommit⟩
    · rw [hcommit] at hsound ⊢
      exact h.flushed ho hc hsound.1
    · rw [hcommit, State.finishCommit_eq] at hagrees hsound ⊢
      split at hagrees
      · rename_i h1
        rw [if_pos h1] at hsound ⊢
        exact ⟨fun hrun => (nomatch hagrees.1.trans hrun), hagrees.1, hagrees.2⟩
      · rename_i h1
        rw [if_neg h1] at hsound ⊢
        exact h.retired ho hd hv hp (hq h.wf) hsound h1

/-! ### The end of a sub-step -/

/-- The queues of a core that settled have nothing pending (R171). -/
def State.quiet (s : State) : Prop := s.queues.settle = s.queues

theorem State.settle_quiet (s : State) : (s.withQueues s.queues.settle).quiet := by
  simp [State.quiet, Queues.settle, Fifo.settle]

theorem CoreSound.settle (h : CoreSound s) : CoreSound (s.withQueues s.queues.settle) := by
  have hp : pipelineSound (s.withQueues s.queues.settle) := by
    obtain ⟨-, -, -, hfq, hiq, heq, hmq, hwq⟩ := id h.pipeline.1
    refine ⟨h.pipeline.1.congr_queues (queuesShape_of (s := s) (queueFits_settle hfq) (queueFits_settle hiq)
      (queueFits_settle heq) (queueFits_settle hmq) (queueFits_settle hwq)), h.pipeline.2.moved fun _ => ?_⟩
    rw [s.inFlight_settle]
  refine h.moved hp ⟨rfl, rfl, rfl, rfl⟩ (fun slot => by rw [State.inFlight_settle]) ?_ ?_ (fun _ => id) ?_ ?_ ?_
  all_goals
    intro x hx
    exact .inl (Fifo.items_settle _ ▸ hx)

theorem Shadows.settle (h : Shadows r s) : Shadows r (s.withQueues s.queues.settle) := by
  have hsame : s.sameFront (s.withQueues s.queues.settle) := by
    refine ⟨?_, rfl⟩
    simp only [State.path, State.withQueues_queues, Queues.settle, Fifo.items_settle]
    rfl
  refine h.of_extends h.core.settle (h.path.of_sameFront hsame rfl) ?_ rfl
  exact State.Extends.of_sameFront ⟨⟨[], (List.append_nil _).symm⟩, rfl, fun _ => rfl, fun _ _ => id⟩ hsame rfl

/-- The two ends of a sub-step (R171, R184). -/
theorem endOfSubstep_eq (s : State) :
    endOfSubstep s = .cont (s.withQueues s.queues.settle) ∨
      (s.imem? s.pc = none ∧ s.path = [s.pc] ∧ endOfSubstep s =
        .fatal ((s.withQueues s.queues.settle).raise (.programCounterOutOfRange s.pc))) := by
  unfold endOfSubstep
  dsimp only
  split
  · rename_i h
    simp only [Bool.and_eq_true, Bool.not_eq_true', beq_iff_eq, Queues.isEmpty, Queues.settle, Fifo.size] at h
    obtain ⟨⟨hrange, hempty⟩, hcount⟩ := h
    have hrange : s.pcInRange s.pc = false := hrange
    refine .inr ⟨by rw [State.imem?, hrange]; rfl, ?_, rfl⟩
    have hcount : s.rob.count = 0 := hcount
    have hfq : s.queues.fq.items = [] := by
      rw [← Fifo.items_settle]
      exact List.eq_nil_of_length_eq_zero (by simp only [Fifo.items, List.length_append]; exact hempty.1.1.1.1)
    have hiq : s.queues.iq.items = [] := by
      rw [← Fifo.items_settle]
      exact List.eq_nil_of_length_eq_zero (by simp only [Fifo.items, List.length_append]; exact hempty.1.1.1.2)
    rw [State.path, Rob.line_of_count_zero hcount, hfq, hiq]
    rfl
  · exact .inl rfl

/-- A core with nothing in flight and `PC` out of range stops as the reference machine does (R171, R184). -/
theorem Shadows.endOfSubstep (h : Shadows r s) :
    (endOfSubstep s = .cont (s.withQueues s.queues.settle) ∧ Shadows r (s.withQueues s.queues.settle)) ∨
      ∃ t r', endOfSubstep s = .fatal t ∧ step r = .next r' ∧ StopsAs r' t := by
  rcases endOfSubstep_eq s with he | ⟨hcode, hpath, he⟩
  · exact .inl ⟨he, h.settle⟩
  · right
    have hpc : r.pc = s.pc := by
      have := h.pc
      rw [hpath] at this
      exact (Option.some.inj this).symm
    have hcode' : r.imem? r.pc = none := by rw [State.imem?_congr h.setting.prog, hpc, hcode]
    have hstep : step r = fetchAndExec r := h.step_eq
    refine ⟨_, r.raise (.programCounterOutOfRange s.pc), he, ?_, nofun, rfl, ?_⟩
    · rw [hstep, fetchAndExec, hcode', hpc]
    · exact ⟨h.agrees.regs, h.agrees.mem, h.agrees.executed, h.agrees.counters⟩

end Sys2Proof.Machine
end

section
/-! The scheduled core makes progress: until the oldest instruction commits, each sub-step takes some instruction a
stage on, and none back (R160 to R168). -/

namespace Sys2Proof.Machine

/-! ### What a stage does with what it finds -/

variable {s t : State}

/-- A queue of capacity at least one has room when it is empty (R15, R172). -/
theorem Fifo.hasRoom_of_empty {α : Type} {q : Fifo α} {cap : Option Nat} (hcap : cap.all (0 < ·) = true)
    (h : q.items = []) : q.hasRoom cap = true := by
  have hsize : q.size = 0 := by
    rw [Fifo.size, ← List.length_append]
    exact congrArg List.length h
  rw [Fifo.hasRoom, hsize]
  exact hcap

theorem stageDecode_of_front {item : FetchItem} {rest : List FetchItem} {i : Instr}
    (hfront : s.queues.fq.visible = item :: rest) (hroom : s.queues.iq.hasRoom s.params.qCap = true)
    (hi : decode s.symtab item.code = .ok i) :
    stageDecode s =
      .cont (s.withQueues { s.queues with fq := s.queues.fq.pop, iq := s.queues.iq.push ⟨i, item.pc⟩ }) := by
  simp only [stageDecode, hfront, hroom, hi]

theorem dispatchStation_of_ready {item : ExecItem} {p : Stations} (hready : Stations.nextReady s.rs = some (item, p))
    (hroom : s.queues.eq.hasRoom s.params.qCap = true) :
    dispatchStation s = (s.withRs p).withQueues { s.queues with eq := s.queues.eq.push item } := by
  simp only [dispatchStation, hroom, hready, if_true]

theorem dispatchMemory_of_ready {item : MemItem} {q : Lsq} (hready : s.lsq.forwardScan.nextReady = some (item, q))
    (hroom : s.queues.mq.hasRoom s.params.qCap = true) :
    dispatchMemory s = (s.withLsq q).withQueues { s.queues with mq := s.queues.mq.push item } := by
  have hroom : (s.withLsq s.lsq.forwardScan).queues.mq.hasRoom (s.withLsq s.lsq.forwardScan).params.qCap = true := hroom
  have hready : (s.withLsq s.lsq.forwardScan).lsq.nextReady = some (item, q) := hready
  rw [dispatchMemory]
  simp only [hroom, hready, if_true]
  rfl

/-- Execute delivers for the item at the front of `EQ` (R165). -/
theorem stageExecute_of_front (h : Computes s) {item : ExecItem} {rest : List ExecItem}
    (hfront : s.queues.eq.visible = item :: rest) (hroom : s.queues.wq.hasRoom s.params.qCap = true) :
    ∃ w n, w.tag = item.tag ∧ stageExecute s =
      .cont (((s.withQueues { s.queues with eq := s.queues.eq.pop }).pushWrite w).withPoisonSeq n) := by
  have hsupported := alu_supported (h.execs item (Fifo.mem_items_of_visible hfront)) item.v1 item.v2
  cases hr : alu item.op item.v1 item.v2 with
  | value v =>
    refine ⟨⟨item.tag, v, none⟩, s.poisonSeq, rfl, ?_⟩
    simp only [stageExecute, hfront, hroom, hr]
    rfl
  | arithmeticFault =>
    refine ⟨⟨item.tag, Config.poison s.poisonSeq, some .arithmetic⟩, s.poisonSeq + 1, rfl, ?_⟩
    simp only [stageExecute, hfront, hroom, hr]
    rfl
  | unsupported => exact absurd hr hsupported

/-- The memory stage delivers for the item at the front of `MQ` (R166). -/
theorem stageMemory_of_front {item : MemItem} {rest : List MemItem} (hfront : s.queues.mq.visible = item :: rest)
    (hroom : s.queues.wq.hasRoom s.params.qCap = true) :
    ∃ w n, w.tag = item.tag ∧ stageMemory s =
      ((s.withQueues { s.queues with mq := s.queues.mq.pop }).pushWrite w).withPoisonSeq n := by
  obtain ⟨w, n, hw, he⟩ := (s.withQueues { s.queues with mq := s.queues.mq.pop }).evalMemory_eq item
  refine ⟨w, n, hw, ?_⟩
  simp only [stageMemory, hfront, hroom]
  exact he

theorem stageWriteback_of_front {item : WriteItem} {rest : List WriteItem}
    (hfront : s.queues.wq.visible = item :: rest) :
    stageWriteback s = (((s.withQueues { s.queues with wq := s.queues.wq.pop }).withRs
      (Stations.capture s.rs item.tag item.value)).withLsq (s.lsq.capture item.tag item.value)).withRob
      (s.rob.complete item.tag item.value item.fault) := by
  simp only [stageWriteback, hfront]

/-! ### Work left -/

/-- The stages that the instructions in flight, and those for which the ROB has room, have before them until they are
complete. -/
def State.work (s : State) : Nat :=
  4 * (s.params.robSize - s.rob.count) + 3 * ((Stations.tags s.rs).length + (unsentTags s.lsq.entries).length) +
    2 * (s.queues.eq.items.length + s.queues.mq.items.length) + s.queues.wq.items.length

/-- A stage has taken an instruction on, or found nothing it could take. -/
def State.acts (s t : State) (idle : Prop) : Prop := t.work < s.work ∨ (t = s ∧ idle)

theorem State.acts.le {idle : Prop} (h : s.acts t idle) : t.work ≤ s.work := by
  rcases h with h | ⟨rfl, -⟩
  · exact h.le
  · exact le_rfl

theorem Fifo.items_pop {α : Type} {q : Fifo α} {i : α} {rest : List α} (h : q.visible = i :: rest) :
    q.items.length = q.pop.items.length + 1 := by
  rw [Fifo.items_of_visible h, List.length_cons]

/-- A list in which every slot is counted as in another and one more is longer by one. -/
theorem length_of_count {l m : List Nat} {x : Nat} (h : ∀ slot, l.count slot = m.count slot + [x].count slot) :
    l.length = m.length + 1 := by
  have : l.Perm (m ++ [x]) := List.perm_iff_count.mpr fun slot => by rw [h, List.count_append]
  rw [this.length_eq, List.length_append, List.length_singleton]

theorem Stations.tags_length_add {p : Stations} (h : ∃ x ∈ p, x = none) (e : RsEntry) :
    (Stations.tags (Stations.add p e)).length = (Stations.tags p).length + 1 :=
  length_of_count (Stations.tags_add h e)

theorem Stations.tags_length_nextReady {p p' : Stations} {item : ExecItem}
    (h : Stations.nextReady p = some (item, p')) :
    (Stations.tags p).length = (Stations.tags p').length + 1 :=
  length_of_count (Stations.tags_nextReady h)

theorem unsentTags_length_nextReady {q q' : Lsq} {item : MemItem} (h : q.nextReady = some (item, q')) :
    (unsentTags q.entries).length = (unsentTags q'.entries).length + 1 := by
  obtain ⟨⟨sent, l⟩, hd, he⟩ := Option.map_eq_some_iff.mp h
  obtain ⟨rfl, rfl⟩ := Prod.mk.inj he
  obtain ⟨-, -, hcount⟩ := dispatchEntries_sends hd
  exact length_of_count hcount

theorem unsentTags_forwardScan (q : Lsq) : unsentTags q.forwardScan.entries = unsentTags q.entries :=
  unsentTags_eq_of_unforwarded (scanEntries_unforwarded [] _)

theorem stageFetch_work (s : State) : (stageFetch s).work = s.work := by
  rcases stageFetch_cases s with ⟨_, -, -, h⟩ | h <;> rw [h]
  rfl

theorem stageDecode_work (h : stageDecode s = .cont t) : t.work = s.work := by
  rcases stageDecode_cases s with ⟨_, _, _, -, -, he⟩ | ⟨_, _, _, -, -, he⟩ | he <;> cases he.symm.trans h <;> rfl

/-- An instruction that is issued takes a slot, and one item is in flight for it (R163). -/
theorem issue_work (hrob : robShape s) {i : Instr} (hfree : s.issueBlocked i.cls = false) (pc : Word) :
    (s.issue i pc).work < s.work := by
  have hroom := State.issueBlocked_rob hfree
  obtain ⟨-, -, hcount, -⟩ := hrob
  obtain ⟨hadded, hqueues, -, -, -, -, -, -, -, hparams, -⟩ := s.issue_frame i pc
  have hlength : (s.issue i pc).rob.count = s.rob.count + 1 := by rw [hadded]; rfl
  rw [State.work, State.work, hqueues, hparams, hlength]
  rcases stationOperands_or_queuedEntry (s.withRob (s.rob.add s.params.robSize i pc)).readOperand s.rob.tail
    s.lsq.nextSeq i with ⟨hc, -, o1, o2, ho⟩ | ⟨-, e, he, -, -, hunsent⟩
  · obtain ⟨hlsq, hrs⟩ := State.issue_of_station (pc := pc) ho
    rw [hlsq, hrs, Stations.tags_length_add (State.exists_free_station hfree hc)]
    omega
  · obtain ⟨hrs, hlsq⟩ := State.issue_of_queued he
    have hentries : (s.issue i pc).lsq.entries = s.lsq.entries ++ [e] := congrArg Lsq.entries hlsq
    have hadd : (unsentTags (s.lsq.entries ++ [e])).length = (unsentTags s.lsq.entries).length + 1 := by
      simp [unsentTags, hunsent]
    rw [hrs, hentries, hadd]
    omega

theorem stageIssue_acts (hrob : robShape s) : s.acts (stageIssue s) True := by
  rcases stageIssue_cases s with ⟨item, rest, -, hfree, he⟩ | he <;> rw [he]
  · exact .inl (issue_work (s := s.withQueues { s.queues with iq := s.queues.iq.pop }) hrob.congr hfree item.pc)
  · exact .inr ⟨rfl, trivial⟩

theorem dispatchStation_acts (s : State) : s.acts (dispatchStation s)
    (s.queues.eq.hasRoom s.params.qCap = true → Stations.nextReady s.rs = none) := by
  cases hready : Stations.nextReady s.rs with
  | none =>
    refine .inr ⟨?_, fun _ => rfl⟩
    rcases dispatchStation_cases s with ⟨_, _, hsome, -, -⟩ | he
    · cases hready.symm.trans hsome
    · exact he
  | some r =>
    obtain ⟨item, p⟩ := r
    cases hroom : s.queues.eq.hasRoom s.params.qCap with
    | false =>
      refine .inr ⟨?_, nofun⟩
      rcases dispatchStation_cases s with ⟨_, _, -, hsome, -⟩ | he
      · cases hroom.symm.trans hsome
      · exact he
    | true =>
      left
      rw [dispatchStation_of_ready hready hroom]
      have hsent := Stations.tags_length_nextReady hready
      simp only [State.work, State.withQueues_queues, State.withQueues_rs, State.withQueues_rob, State.withQueues_lsq,
        State.withQueues_params, State.withRs_rs, State.withRs_rob, State.withRs_lsq, State.withRs_params,
        Fifo.items_push, List.length_append, List.length_singleton]
      omega

/-- The memory half of dispatch, when it sends nothing, has scanned the LSQ (R137, R164). -/
theorem dispatchMemory_acts (s : State) : (s.withLsq s.lsq.forwardScan).acts (dispatchMemory s)
    (s.queues.mq.hasRoom s.params.qCap = true → s.lsq.forwardScan.nextReady = none) := by
  cases hready : s.lsq.forwardScan.nextReady with
  | none =>
    refine .inr ⟨?_, fun _ => rfl⟩
    rcases dispatchMemory_cases s with ⟨_, _, hsome, -, -⟩ | he
    · cases hready.symm.trans hsome
    · exact he
  | some r =>
    obtain ⟨item, q⟩ := r
    cases hroom : s.queues.mq.hasRoom s.params.qCap with
    | false =>
      refine .inr ⟨?_, nofun⟩
      rcases dispatchMemory_cases s with ⟨_, _, -, hsome, -⟩ | he
      · cases hroom.symm.trans hsome
      · exact he
    | true =>
      left
      rw [dispatchMemory_of_ready hready hroom]
      have hsent := unsentTags_length_nextReady hready
      simp only [State.work, State.withQueues_queues, State.withQueues_rs, State.withQueues_rob, State.withQueues_lsq,
        State.withQueues_params, State.withLsq_rs, State.withLsq_rob, State.withLsq_lsq, State.withLsq_params,
        State.withLsq_queues, Fifo.items_push, List.length_append, List.length_singleton]
      omega

theorem scan_work (s : State) : (s.withLsq s.lsq.forwardScan).work = s.work := by
  rw [State.work, State.work, State.withLsq_lsq, unsentTags_forwardScan]
  rfl

/-- An item that leaves `EQ` or `MQ` for `WQ` has a stage less before it (R165, R166). -/
theorem delivery_work {q : Queues} (w : WriteItem) (n : Nat) (hwq : q.wq = s.queues.wq)
    (hless : s.queues.eq.items.length + s.queues.mq.items.length = q.eq.items.length + q.mq.items.length + 1) :
    (((s.withQueues q).pushWrite w).withPoisonSeq n).work < s.work := by
  have hpushed : (q.wq.push w).items.length = s.queues.wq.items.length + 1 := by
    rw [hwq, Fifo.items_push, List.length_append, List.length_singleton]
  show 4 * (s.params.robSize - s.rob.count) +
    3 * ((Stations.tags s.rs).length + (unsentTags s.lsq.entries).length) +
      2 * (q.eq.items.length + q.mq.items.length) + (q.wq.push w).items.length < _
  rw [hpushed, State.work, hless]
  omega

theorem stageExecute_acts (h : Computes s) (ht : stageExecute s = .cont t) : s.acts t
    (s.queues.wq.hasRoom s.params.qCap = true → s.queues.eq.visible = []) := by
  cases hroom : s.queues.wq.hasRoom s.params.qCap with
  | false =>
    rw [stageExecute_stall hroom] at ht
    exact .inr ⟨(SubResult.cont.inj ht).symm, nofun⟩
  | true =>
    cases hfront : s.queues.eq.visible with
    | nil =>
      refine .inr ⟨?_, fun _ => rfl⟩
      rw [stageExecute, hfront] at ht
      exact (SubResult.cont.inj ht).symm
    | cons item rest =>
      obtain ⟨w, n, -, he⟩ := stageExecute_of_front h hfront hroom
      rw [he] at ht
      cases ht
      exact .inl (delivery_work w n rfl (by rw [Fifo.items_pop hfront, Nat.add_right_comm]))

theorem stageMemory_acts (s : State) : s.acts (stageMemory s)
    (s.queues.wq.hasRoom s.params.qCap = true → s.queues.mq.visible = []) := by
  cases hroom : s.queues.wq.hasRoom s.params.qCap with
  | false => exact .inr ⟨stageMemory_stall hroom, nofun⟩
  | true =>
    cases hfront : s.queues.mq.visible with
    | nil =>
      refine .inr ⟨?_, fun _ => rfl⟩
      rw [stageMemory, hfront]
    | cons item rest =>
      obtain ⟨w, n, -, he⟩ := stageMemory_of_front hfront hroom
      rw [he]
      exact .inl (delivery_work w n rfl (by rw [Fifo.items_pop hfront, Nat.add_assoc]))

theorem stageWriteback_acts (s : State) : s.acts (stageWriteback s) (s.queues.wq.visible = []) := by
  cases hfront : s.queues.wq.visible with
  | nil =>
    refine .inr ⟨?_, rfl⟩
    rw [stageWriteback, hfront]
  | cons item rest =>
    rw [stageWriteback_of_front hfront]
    left
    have hpop := Fifo.items_pop hfront
    show 4 * (s.params.robSize - (s.rob.complete item.tag item.value item.fault).count) +
      3 * ((Stations.tags (Stations.capture s.rs item.tag item.value)).length +
        (unsentTags (s.lsq.entries.map (LsqEntry.capture item.tag item.value))).length) + 2 * _ +
          s.queues.wq.pop.items.length < _
    rw [Rob.complete_count, Stations.tags_capture, unsentTags_capture, State.work, hpop]
    show _ + _ + 2 * (s.queues.eq.items.length + s.queues.mq.items.length) + _ < _
    omega

/-! ### The oldest instruction is taken on -/

/-- The stages behind issue find nothing they could take. -/
structure State.Idle (s : State) : Prop where
  stations : s.queues.eq.hasRoom s.params.qCap = true → Stations.nextReady s.rs = none
  entries : s.queues.mq.hasRoom s.params.qCap = true → s.lsq.forwardScan.nextReady = none
  execs : s.queues.wq.hasRoom s.params.qCap = true → s.queues.eq.visible = []
  mems : s.queues.wq.hasRoom s.params.qCap = true → s.queues.mq.visible = []
  writes : s.queues.wq.visible = []

/-- If the stages before commit take no instruction on, they are idle, and only scan the LSQ. -/
theorem beforeCommit_idle {u : State} (h : CoreSound s) (hu : beforeCommit s = .cont u) :
    u.work < s.work ∨ ∃ d, stageDecode (stageFetch s) = .cont d ∧ stageIssue d = d ∧ d.Idle ∧
      u = d.withLsq d.lsq.forwardScan := by
  obtain ⟨d, x, hd, hx, rfl⟩ := beforeCommit_eq_cont hu
  have hdecoded := stageDecode_coreSound (stageFetch_coreSound h) hd
  have hissued := stageIssue_coreSound hdecoded
  have hdwork := (stageDecode_work hd).trans (stageFetch_work s)
  have hissue := stageIssue_acts hdecoded.pipeline.1.1
  have hstation := dispatchStation_acts (stageIssue d)
  have hmemory := dispatchMemory_acts (dispatchStation (stageIssue d))
  have hscan := scan_work (dispatchStation (stageIssue d))
  have hexecute := stageExecute_acts (stageDispatch_coreSound hissued).computes hx
  have hmem := stageMemory_acts x
  have hwrite := stageWriteback_acts (stageMemory x)
  have hle := hissue.le
  have hle1 := hstation.le
  have hle2 := hmemory.le
  have hle3 := hexecute.le
  have hle4 := hmem.le
  have hle5 := hwrite.le
  rw [stageDispatch] at hle3
  by_cases hlt : (stageWriteback (stageMemory x)).work < s.work
  · exact .inl hlt
  right
  have still {a b : State} {P : Prop} (hact : a.acts b P) (hge : a.work ≤ b.work) : b = a ∧ P := by
    rcases hact with hlt | hidle
    · omega
    · exact hidle
  obtain ⟨e1, -⟩ := still hissue (by omega)
  obtain ⟨e2, h2⟩ := still hstation (by omega)
  obtain ⟨e3, h3⟩ := still hmemory (by omega)
  obtain ⟨e4, h4⟩ := still hexecute (by rw [stageDispatch]; omega)
  obtain ⟨e5, h5⟩ := still hmem (by omega)
  obtain ⟨e6, h6⟩ := still hwrite (by omega)
  rw [stageDispatch, e3, e2, e1] at e4 h4
  rw [e2, e1] at h3
  rw [e1] at h2
  rw [e4] at h5
  rw [e5, e4] at h6
  refine ⟨d, hd, e1, ⟨h2, h3, h4, h5, h6⟩, ?_⟩
  rw [e6, e5, e4]

end Sys2Proof.Machine
end

section
/-! The oldest instruction is always taken on: its operands are values, so something is ready, and a stage that finds
something finds room for it.  With nothing in flight the front end goes on, or the program has ended. -/

namespace Sys2Proof.Machine

variable {s t u d : State} {e : RobEntry} {i : Instr}

/-! ### The oldest instruction is ready -/

/-- An operand of the oldest instruction is a value. -/
theorem View.Denotes.value {V : View} {o : Operand} {v : Word} (h : V.Denotes [] o v) : o = .val v := by
  cases o with
  | val w => exact congrArg Operand.val h
  | tag t =>
    obtain ⟨-, o1, pc, o2, j, B, hsplit, -⟩ := h
    simp at hsplit

theorem State.Oldest.station_ready (h : CoreSound s) (ho : s.Oldest e i) {x : RsEntry} (hx : some x ∈ s.rs)
    (htag : x.tag = s.rob.head) : Stations.nextReady s.rs ≠ none := by
  obtain ⟨-, h1, h2⟩ := h.values.stations x hx [] i s.arch (htag ▸ ho.sees h)
  intro hnone
  have := Stations.nextReady_eq_none_iff.mp hnone (some x) hx
  rw [Option.bind_some, RsEntry.ready?_eq_none_iff] at this
  exact this ⟨_, _, h1.value, h2.value⟩

theorem State.Oldest.entry_ready (h : CoreSound s) (ho : s.Oldest e i) {l : LsqEntry} (hl : l ∈ s.lsq.entries)
    (htag : l.tag = s.rob.head) (hsent : l.disp = false) : s.lsq.forwardScan.nextReady ≠ none := by
  have hat := htag ▸ ho.sees h
  have hqueued := h.values.queue.queued l hl [] i s.arch hat
  obtain ⟨q1, q2, hsplit⟩ := List.append_of_mem hl
  have hq1 : q1 = [] := List.map_eq_nil_iff.mp (h.values.queue.older_keys hsplit hat)
  subst hq1
  have haddr : l.addr = some (effAddr (s.arch.left i) l.imm) := by
    rw [hqueued.addr, hqueued.base.value]
    rfl
  have hscan : s.lsq.forwardScan.entries = l :: scanEntries [l] q2 := by
    have hself : l.scan [] = l := by
      cases hop : l.op with
      | lw => exact LsqEntry.scan_of_no_store hop haddr rfl
      | sw => simp [LsqEntry.scan, hop]
    show scanEntries [] s.lsq.entries = _
    rw [hsplit, List.nil_append, scanEntries, hself]
  intro hnone
  have hready := Lsq.nextReady_eq_none_iff.mp hnone 0 l (by rw [hscan]; rfl)
  rw [List.take_zero, List.reverse_nil] at hready
  cases hop : l.op with
  | lw =>
    have hload : l.loadReady [] (effAddr (s.arch.left i) l.imm) = true :=
      LsqEntry.loadReady_iff.mpr ⟨hsent, nofun, nofun⟩
    cases hready.symm.trans ((LsqEntry.ready?_load_iff hop).mpr ⟨_, haddr, hload, rfl⟩)
  | sw =>
    obtain ⟨o, ho, hden⟩ := hqueued.val hop
    rw [hden.value] at ho
    cases hready.symm.trans ((LsqEntry.ready?_store_iff hop).mpr ⟨hsent, _, _, haddr, ho, rfl⟩)

/-- The queues behind issue have nothing pending. -/
def State.backQuiet (s : State) : Prop :=
  s.queues.eq.pending = [] ∧ s.queues.mq.pending = [] ∧ s.queues.wq.pending = []

/-- Some stage behind issue finds what it can take while the oldest instruction waits. -/
theorem State.Oldest.not_idle (h : CoreSound s) (hparams : s.params.wellFormed = true) (hquiet : s.backQuiet)
    (ho : s.Oldest e i) (hwaits : e.done = false) : ¬ s.Idle := by
  intro hidle
  obtain ⟨hstations, hentries, hexecs, hmems, hwrites⟩ := hidle
  obtain ⟨qe, qm, qw⟩ := hquiet
  simp only [Params.wellFormed, Bool.and_eq_true] at hparams
  obtain ⟨-, hcap⟩ := hparams
  have hwq : s.queues.wq.items = [] := by rw [Fifo.items, hwrites, qw]; rfl
  have hwroom := Fifo.hasRoom_of_empty hcap hwq
  have heq : s.queues.eq.items = [] := by rw [Fifo.items, hexecs hwroom, qe]; rfl
  have hmq : s.queues.mq.items = [] := by rw [Fifo.items, hmems hwroom, qm]; rfl
  have hawaits : s.rob.awaits s.rob.head = true := by simp [Rob.awaits, ho.entry, hwaits]
  rcases State.mem_inFlight.mp (h.carried _ hawaits) with hm | hm | hm | hm | hm
  · obtain ⟨x, hx, htag⟩ := Stations.mem_tags.mp hm
    exact ho.station_ready h hx htag (hstations (Fifo.hasRoom_of_empty hcap heq))
  · obtain ⟨x, hx, -⟩ := Fifo.mem_tags.mp hm
    exact nomatch heq ▸ hx
  · obtain ⟨x, hx, -⟩ := Fifo.mem_tags.mp hm
    exact nomatch hmq ▸ hx
  · obtain ⟨x, hx, -⟩ := Fifo.mem_tags.mp hm
    exact nomatch hwq ▸ hx
  · obtain ⟨l, hl, hsent⟩ := List.mem_filterMap.mp hm
    cases hd : l.disp with
    | true => simp [hd] at hsent
    | false =>
      rw [hd] at hsent
      exact ho.entry_ready h hl (Option.some.inj hsent) hd (hentries (Fifo.hasRoom_of_empty hcap hmq))

/-! ### The front end with nothing in flight -/

theorem State.pcInRange_of_imem? {pc : Word} (h : s.imem? pc = none) : s.pcInRange pc = false := by
  by_contra hrange
  rw [Bool.not_eq_false] at hrange
  rw [State.imem?, hrange, if_pos rfl, List.getElem?_eq_none_iff] at h
  simp only [State.pcInRange, Bool.and_eq_true, decide_eq_true_eq] at hrange
  obtain ⟨hzero, hlt⟩ := hrange
  have : (pc.toNat : Int) = pc.toInt := by
    rw [BitVec.toInt_eq_toNat_cond] at hzero ⊢
    split <;> omega
  omega

/-- With no slot live nothing is in flight (R29). -/
theorem CoreSound.nothing_of_empty (h : CoreSound s) (hc : s.rob.count = 0) : s.queues.eq.items = [] ∧
    s.queues.mq.items = [] ∧ s.queues.wq.items = [] ∧ s.lsq.entries = [] ∧ ∀ x ∈ s.rs, x = none := by
  have hline : s.view.line = [] := Rob.line_of_count_zero hc _
  have absent {slot : Nat} (hm : slot ∈ s.view.line.map Prod.fst) : False := by
    rw [hline] at hm
    cases hm
  refine ⟨?_, ?_, ?_, ?_, fun x hx => ?_⟩
  · exact List.eq_nil_iff_forall_not_mem.mpr fun x hx => absent (h.exec_mem_line hx)
  · exact List.eq_nil_iff_forall_not_mem.mpr fun x hx => absent (h.mem_mem_line hx)
  · exact List.eq_nil_iff_forall_not_mem.mpr fun x hx => absent (h.write_mem_line hx)
  · exact List.eq_nil_iff_forall_not_mem.mpr fun x hx => absent (h.values.queue.mem_line hx)
  · cases x with
    | none => rfl
    | some e => exact (absent (h.station_mem_line hx)).elim

/-- With nothing in flight nothing blocks an instruction (R163). -/
theorem CoreSound.not_blocked_of_empty (h : CoreSound s) (hparams : s.params.wellFormed = true)
    (hc : s.rob.count = 0) (c : OpClass) : s.issueBlocked c = false := by
  obtain ⟨-, -, -, hlsq, hrs⟩ := h.nothing_of_empty hc
  obtain ⟨-, hstations, -⟩ := h.pipeline.1
  have hstations : s.rs.length = s.params.rsSize := hstations
  simp only [Params.wellFormed, Bool.and_eq_true, decide_eq_true_eq] at hparams
  obtain ⟨⟨⟨⟨-, hrob⟩, hlsqSize⟩, hrsSize⟩, -⟩ := hparams
  rw [Bool.eq_false_iff, ne_eq, s.issueBlocked_iff]
  rintro (hfull | ⟨-, hfull⟩ | ⟨-, hfull⟩)
  · omega
  · rw [hlsq, List.length_nil] at hfull
    omega
  · obtain ⟨x, hx⟩ := List.exists_mem_of_length_pos (hstations ▸ hrsSize)
    exact hfull x hx (hrs x hx)

/-- The stages the next instruction has before it until it is issued. -/
def State.front (s : State) : Nat :=
  if s.queues.iq.items ≠ [] then 0 else if s.queues.fq.items ≠ [] then 1 else 2

/-- Each sub-step without a commit lowers this. -/
def State.rank (s : State) : Nat := 3 * s.work + s.front

theorem State.front_le (s : State) : s.front ≤ 2 := by
  unfold State.front
  split
  · omega
  · split <;> omega

/-- What fetch and decode make of the queues of a core that has settled. -/
theorem State.quiet_pending (h : s.quiet) : s.queues.fq.pending = [] ∧ s.queues.iq.pending = [] ∧ s.backQuiet := by
  have hpending {α : Type} {q : Fifo α} (hq : q.settle = q) : q.pending = [] := (congrArg Fifo.pending hq).symm
  exact ⟨hpending (congrArg Queues.fq h), hpending (congrArg Queues.iq h), hpending (congrArg Queues.eq h),
    hpending (congrArg Queues.mq h), hpending (congrArg Queues.wq h)⟩

/-- Fetch and decode leave what is behind issue. -/
theorem frontEnd_kept (hd : stageDecode (stageFetch s) = .cont d) :
    d.rob = s.rob ∧ d.params = s.params ∧ d.queues.eq = s.queues.eq ∧ d.queues.mq = s.queues.mq ∧
      d.queues.wq = s.queues.wq := by
  have hfetch : (stageFetch s).rob = s.rob ∧ (stageFetch s).params = s.params ∧
      (stageFetch s).queues.eq = s.queues.eq ∧ (stageFetch s).queues.mq = s.queues.mq ∧
        (stageFetch s).queues.wq = s.queues.wq := by
    rcases stageFetch_cases s with ⟨_, -, -, h⟩ | h <;> rw [h] <;> exact ⟨rfl, rfl, rfl, rfl, rfl⟩
  rcases stageDecode_cases (stageFetch s) with ⟨_, _, _, -, -, he⟩ | ⟨_, _, _, -, -, he⟩ | he <;>
    cases he.symm.trans hd <;> exact hfetch

/-- With nothing in flight the front end goes on, unless the program has ended (R184). -/
theorem frontEnd_progress (h : CoreSound s) (hdec : s.decodes) (hparams : s.params.wellFormed = true) (hquiet : s.quiet)
    (hc : s.rob.count = 0) (hd : stageDecode (stageFetch s) = .cont d) (hissue : stageIssue d = d) :
    d.front < s.front ∨ (d.imem? d.pc = none ∧ d.queues.fq.items = [] ∧ d.queues.iq.items = []) := by
  have hsound := stageDecode_coreSound (stageFetch_coreSound h) hd
  obtain ⟨hrob, hpar, -⟩ := frontEnd_kept hd
  obtain ⟨qf, qi, -⟩ := State.quiet_pending hquiet
  have hcap : s.params.qCap.all (0 < ·) = true := by
    simp only [Params.wellFormed, Bool.and_eq_true] at hparams
    exact hparams.2
  obtain ⟨hfq, hiq, hp, hsymtab, -⟩ := stageFetch_unchanged s
  have hfetched := stageFetch_coreSound h
  cases hiqv : s.queues.iq.visible with
  | cons item rest =>
    -- Issue takes what waits in `IQ`.
    exfalso
    have hvisible : d.queues.iq.visible = item :: rest := by
      rw [← hiqv, ← hiq]
      rcases stageDecode_cases (stageFetch s) with ⟨_, _, _, -, -, he⟩ | ⟨_, _, _, -, -, he⟩ | he <;>
        cases he.symm.trans hd <;> rfl
    have hfree := hsound.not_blocked_of_empty (hpar ▸ hparams) (hrob ▸ hc) item.instr.cls
    have hless := issue_work (s := d.withQueues { d.queues with iq := { d.queues.iq with visible := rest } })
      hsound.pipeline.1.1.congr hfree item.pc
    rw [← stageIssue_of_not_blocked hvisible hfree, hissue] at hless
    exact lt_irrefl _ hless
  | nil =>
    have hiqi : s.queues.iq.items = [] := by rw [Fifo.items, hiqv, qi]; rfl
    have hroom : (stageFetch s).queues.iq.hasRoom (stageFetch s).params.qCap = true := by
      rw [hiq, hp]
      exact Fifo.hasRoom_of_empty hcap hiqi
    cases hfqv : s.queues.fq.visible with
    | cons item rest =>
      -- Decode takes what waits in `FQ`.
      left
      have hfqi : s.queues.fq.items ≠ [] := by simp [Fifo.items, hfqv]
      have hfront : s.front = 1 := by simp [State.front, hiqi, hfqi]
      have hvisible := hfq.trans hfqv
      have hcode := hfetched.decoded.fetched item (Fifo.mem_items_of_visible hvisible)
      obtain ⟨hprog, -⟩ := State.fixed_eq_iff.mp (State.settled_eq_iff.mp (stageFetch_settled s)).2.2.2
      obtain ⟨i, hi⟩ := hdec _ (hprog ▸ State.mem_prog_of_imem? hcode)
      rw [stageDecode_of_front hvisible hroom (hsymtab ▸ hi)] at hd
      cases hd
      rw [hfront]
      simp [State.front, Fifo.items_push]
    | nil =>
      have hfqi : s.queues.fq.items = [] := by rw [Fifo.items, hfqv, qf]; rfl
      have hstay : stageDecode (stageFetch s) = .cont (stageFetch s) := by
        rw [stageDecode, hfq.trans hfqv]
      rw [hstay] at hd
      cases hd
      cases hcode : s.imem? s.pc with
      | some code =>
        -- Fetch goes on.
        left
        have hfront : s.front = 2 := by simp [State.front, hiqi, hfqi]
        have hfroom : s.queues.fq.hasRoom s.params.qCap = true := Fifo.hasRoom_of_empty hcap hfqi
        have : (stageFetch s).queues.fq.items ≠ [] := by
          simp only [stageFetch, hcode, hfroom]
          simp [Fifo.items_push]
        rw [hfront, State.front]
        simp only [this, ne_eq, not_false_iff, if_true]
        split <;> omega
      | none =>
        have hsame : stageFetch s = s := by rw [stageFetch, hcode]
        rw [hsame]
        exact .inr ⟨hcode, hfqi, hiqi⟩

/-- The end of a sub-step with nothing in flight anywhere and no instruction at `PC` is fatal (R184). -/
theorem endOfSubstep_of_end (hcode : s.imem? s.pc = none) (hc : s.rob.count = 0) (hfq : s.queues.fq.items = [])
    (hiq : s.queues.iq.items = []) (heq : s.queues.eq.items = []) (hmq : s.queues.mq.items = [])
    (hwq : s.queues.wq.items = []) (t : State) : endOfSubstep s ≠ .cont t := by
  have hsize {α : Type} {q : Fifo α} (h : q.items = []) : q.settle.size = 0 := by
    rw [← Fifo.items_settle] at h
    rw [Fifo.size, ← List.length_append]
    exact congrArg List.length h
  have hrange : (s.withQueues s.queues.settle).pcInRange (s.withQueues s.queues.settle).pc = false :=
    State.pcInRange_of_imem? hcode
  have hempty : (s.withQueues s.queues.settle).queues.isEmpty = true := by
    simp [Queues.isEmpty, Queues.settle, hsize hfq, hsize hiq, hsize heq, hsize hmq, hsize hwq]
  have hcount : (s.withQueues s.queues.settle).rob.count = 0 := hc
  simp only [endOfSubstep, hrange, hempty, hcount]
  exact nofun

/-! ### A sub-step without a commit -/

theorem State.settle_rank (s : State) : (s.withQueues s.queues.settle).rank = s.rank := by
  simp only [State.rank, State.work, State.front, State.withQueues_queues, Queues.settle, Fifo.items_settle]
  rfl

/-- A sub-step that commits nothing and goes on makes progress. -/
theorem substep_progress (h : CoreSound s) (hdec : s.decodes) (hparams : s.params.wellFormed = true)
    (hquiet : s.quiet) (hu : beforeCommit s = .cont u) (hwaits : u.waits) (hend : endOfSubstep u = .cont t) :
    t.rank < s.rank := by
  have hsettle : t = u.withQueues u.queues.settle := by
    rcases endOfSubstep_eq u with he | ⟨-, -, he⟩ <;> cases he.symm.trans hend
    rfl
  rw [hsettle, State.settle_rank]
  have hfront := u.front_le
  have husound := beforeCommit_coreSound h hu
  rcases beforeCommit_idle h hu with hless | ⟨d, hd, hissue, hidle, rfl⟩
  · rw [State.rank, State.rank]
    omega
  have hdsound := stageDecode_coreSound (stageFetch_coreSound h) hd
  obtain ⟨hrob, hpar, heq, hmq, hwq⟩ := frontEnd_kept hd
  have hwork : (d.withLsq d.lsq.forwardScan).work = s.work :=
    (scan_work d).trans ((stageDecode_work hd).trans (stageFetch_work s))
  obtain ⟨-, -, hback⟩ := State.quiet_pending hquiet
  have hdback : d.backQuiet := by
    rw [State.backQuiet, heq, hmq, hwq]
    exact hback
  rcases hwaits with hc | ⟨e, i, ho, hdone⟩
  · have hc : d.rob.count = 0 := hc
    rcases frontEnd_progress h hdec hparams hquiet (hrob ▸ hc) hd hissue with hless | ⟨hcode, hfq, hiq⟩
    · have hless : (d.withLsq d.lsq.forwardScan).front < s.front := hless
      rw [State.rank, State.rank, hwork]
      omega
    · obtain ⟨heq, hmq, hwq, -⟩ := hdsound.nothing_of_empty hc
      exact absurd hend (endOfSubstep_of_end (s := d.withLsq d.lsq.forwardScan) hcode hc hfq hiq heq hmq hwq t)
  · have ho' : d.Oldest e i := ⟨ho.live, ho.entry, ho.code, ho.op, ho.dest, ho.rpc⟩
    exact absurd hidle (ho'.not_idle hdsound (hpar ▸ hparams) hdback hdone)

end Sys2Proof.Machine
end

section
/-! Runs of the two machines: a cycle of the scheduled core is some steps of the reference machine, and one that commits
nothing makes progress; so when the reference machine stops, the core stops as it does (R178, R212). -/

namespace Sys2Proof.Machine

/-! ### Runs -/

/-- A run that ends in a next state made its first step. -/
theorem run_succ_eq_next {r u : State} {n : Nat} (h : Sys2Proof.core.run (n + 1) r = .next u) :
    ∃ v, step r = .next v ∧ Sys2Proof.core.run n v = .next u := by
  have hstep : Sys2Proof.core.step r = step r := rfl
  simp only [Host.Core.run, hstep] at h
  cases hr : step r with
  | next v => exact ⟨v, rfl, by simpa only [hr] using h⟩
  | fault f | refused f =>
    rw [hr] at h
    cases h

theorem run_add {r u : State} (j k : Nat) (hj : Sys2Proof.core.run j r = .next u) :
    Sys2Proof.core.run (j + k) r = Sys2Proof.core.run k u := by
  induction j generalizing r with
  | zero =>
    cases hj
    rw [Nat.zero_add]
  | succ j ih =>
    obtain ⟨v, hv, hrest⟩ := run_succ_eq_next hj
    rw [Nat.succ_add]
    exact (run_succ Sys2Proof.core (j + k) hv).trans (ih hrest)

theorem run_one {r u : State} (h : step r = .next u) : Sys2Proof.core.run 1 r = .next u :=
  run_succ Sys2Proof.core 0 h

/-- A machine that has stopped stays as it is (R26, R158, R193). -/
theorem run_of_stopped {s : State} (h : s.status ≠ .running) (n : Nat) : Sys2Proof.core.run n s = .next s := by
  induction n with
  | zero => rfl
  | succ n ih => exact (run_succ Sys2Proof.core n (step_of_not_running (beq_eq_false_iff_ne.mpr h))).trans ih

/-- Two runs from one state that reach a machine that has stopped end there. -/
theorem stopped_unique {r t u : State} {n m : Nat} (hn : Sys2Proof.core.run n r = .next t)
    (ht : t.status ≠ .running) (hm : Sys2Proof.core.run m r = .next u) (hu : u.status ≠ .running) : t = u := by
  have h1 : Sys2Proof.core.run (n + m) r = .next t := (run_add n m hn).trans (run_of_stopped ht m)
  have h2 : Sys2Proof.core.run (m + n) r = .next u := (run_add m n hm).trans (run_of_stopped hu n)
  rw [Nat.add_comm] at h1
  exact Host.Outcome.next.inj (h1.symm.trans h2)

/-! ### A sub-step -/

/-- What a sub-step ends in against a state of the reference machine. -/
def SubResult.follows (r : State) : SubResult → Prop
  | .cont t | .flush t => Shadows r t ∧ t.quiet
  | .halt t | .fatal t => StopsAs r t
  | .broken _ => False

/-- The reference machine has caught up with the core after some steps, and if it took none the core made progress. -/
def SubResult.catchesUp (r s : State) (res : SubResult) : Prop :=
  ∃ j r', Sys2Proof.core.run j r = .next r' ∧ res.follows r' ∧ (0 < j ∨ ∃ t, res = .cont t ∧ t.rank < s.rank)

variable {r s : State}

theorem flush_quiet {t : State} (h : t.drained = true) : t.quiet := by
  obtain ⟨hqueues, -⟩ := State.drained_iff.mp h
  rw [State.quiet, hqueues]
  rfl

theorem Shadows.substep (h : Shadows r s) (hquiet : s.quiet) : (substep s).catchesUp r s := by
  obtain ⟨u, hu⟩ := beforeCommit_cont h.core h.setting.decodes
  have hshadow := h.beforeCommit hu
  have hsub : Machine.substep s = (Machine.stageCommit u).andThen Machine.endOfSubstep := by
    rw [Machine.substep, hu, SubResult.cont_andThen]
  rw [hsub]
  have hcases : u.waits ∨ ∃ e i, u.Oldest e i ∧ e.done = true := by
    by_cases hc : u.rob.count = 0
    · exact .inl (.inl hc)
    · obtain ⟨e, i, ho⟩ := hshadow.core.oldest hc
      cases hd : e.done with
      | false => exact .inl (.inr ⟨e, i, ho, hd⟩)
      | true => exact .inr ⟨e, i, ho, hd⟩
  rcases hcases with hwaits | ⟨e, i, ho, hd⟩
  · rw [stageCommit_of_waits hwaits, SubResult.cont_andThen]
    rcases hshadow.endOfSubstep with ⟨he, hsettled⟩ | ⟨t, r', he, hstep, hstops⟩
    · refine ⟨0, r, rfl, ?_, .inr ⟨_, he, ?_⟩⟩
      · rw [he]
        exact ⟨hsettled, u.settle_quiet⟩
      · exact substep_progress h.core h.setting.decodes h.setting.params hquiet hu hwaits he
    · refine ⟨1, r', run_one hstep, ?_, .inl Nat.one_pos⟩
      rw [he]
      exact hstops
  · obtain ⟨r1, hstep, hcommit⟩ := hshadow.stageCommit ho hd
    have hreports := stageCommit_reports u
    cases hr : Machine.stageCommit u with
    | cont t =>
      rw [hr] at hcommit
      have ht : Shadows r1 t := hcommit
      rw [SubResult.cont_andThen]
      rcases ht.endOfSubstep with ⟨he, hsettled⟩ | ⟨t', r', he, hstep', hstops⟩
      · refine ⟨1, r1, run_one hstep, ?_, .inl Nat.one_pos⟩
        rw [he]
        exact ⟨hsettled, t.settle_quiet⟩
      · refine ⟨2, r', (run_succ Sys2Proof.core 1 hstep).trans (run_one hstep'), ?_, .inl Nat.two_pos⟩
        rw [he]
        exact hstops
    | flush t =>
      rw [hr] at hcommit hreports
      exact ⟨1, r1, run_one hstep, ⟨hcommit, flush_quiet hreports.2⟩, .inl Nat.one_pos⟩
    | halt t =>
      rw [hr] at hcommit
      exact ⟨1, r1, run_one hstep, hcommit, .inl Nat.one_pos⟩
    | fatal t =>
      rw [hr] at hcommit
      exact ⟨1, r1, run_one hstep, hcommit, .inl Nat.one_pos⟩
    | broken f =>
      rw [hr] at hcommit
      exact hcommit.elim

/-! ### A cycle -/

/-- The sub-steps of a cycle, at least one of them (R159). -/
theorem Shadows.subLoop (h : Shadows r s) (hquiet : s.quiet) (n : Nat) : (subLoop (n + 1) s).catchesUp r s := by
  induction n generalizing r s with
  | zero =>
    have hone : Machine.subLoop 1 s = Machine.substep s := by
      show (Machine.substep s).andThen (fun t => .cont t) = _
      cases Machine.substep s <;> rfl
    exact hone ▸ h.substep hquiet
  | succ n ih =>
    obtain ⟨j, r', hrun, hfollows, hprogress⟩ := h.substep hquiet
    have hloop : Machine.subLoop (n + 1 + 1) s = (Machine.substep s).andThen (Machine.subLoop (n + 1)) := rfl
    rw [hloop]
    cases hr : Machine.substep s with
    | cont t =>
      rw [hr] at hfollows hprogress
      obtain ⟨j', r'', hrun', hfollows', hprogress'⟩ := ih hfollows.1 hfollows.2
      refine ⟨j + j', r'', (run_add j j' hrun).trans hrun', hfollows', ?_⟩
      rcases hprogress with hj | ⟨t', ht', hless⟩
      · exact .inl (Nat.add_pos_left hj j')
      · cases ht'
        rcases hprogress' with hj' | ⟨t'', ht'', hless'⟩
        · exact .inl (Nat.add_pos_right j hj')
        · exact .inr ⟨t'', ht'', hless'.trans hless⟩
    | flush t | halt t | fatal t =>
      rw [hr] at hfollows hprogress
      refine ⟨j, r', hrun, hfollows, .inl (hprogress.resolve_right ?_)⟩
      rintro ⟨t', ht', -⟩
      cases ht'
    | broken f =>
      rw [hr] at hfollows
      exact hfollows.elim

theorem CoreSound.congr {t : State} (h : CoreSound s) (hp : pipelineSound t) (same : SameCore s t)
    (hqueues : t.queues = s.queues) (hrs : t.rs = s.rs) (hlsq : t.lsq = s.lsq) : CoreSound t := by
  have hflight : t.inFlight = s.inFlight := by rw [State.inFlight, hqueues, hrs, hlsq]; rfl
  exact h.moved hp same (fun _ => by rw [hflight]) (fun _ hx => .inl (hqueues ▸ hx)) (fun _ hx => .inl (hqueues ▸ hx))
    (fun _ he => hrs ▸ he) (fun _ hx => .inl (hqueues ▸ hx)) (fun _ hx => .inl (hqueues ▸ hx))
    (fun _ hx => .inl (hqueues ▸ hx)) (hlsq ▸ h.values.queue)

theorem Shadows.withCycles (h : Shadows r s) (n : Nat) : Shadows r (s.withCycles n) := by
  obtain ⟨hsetting, hcore, ⟨hchain, hstraight⟩, hwf, ⟨hregs, hmem, hexecuted, hcounters⟩, hrunning, hhalt, hbet,
    hpc⟩ := h
  exact ⟨hsetting.of_fixed rfl rfl, hcore.congr hcore.pipeline.congr ⟨rfl, rfl, rfl, rfl⟩ rfl rfl rfl,
    ⟨hchain, hstraight⟩, hwf, ⟨hregs, hmem, hexecuted, hcounters⟩, hrunning, hhalt, hbet, hpc⟩

/-- After a cycle of the core the reference machine has caught up with it, or both have stopped (R158, R159). -/
theorem Shadows.cycle (h : Shadows r s) (hquiet : s.quiet) :
    ∃ t j r', step s = .next t ∧ Sys2Proof.core.run j r = .next r' ∧
      (StopsAs r' t ∨ (Shadows r' t ∧ t.quiet ∧ (0 < j ∨ t.rank < s.rank))) := by
  have hwidth : ∃ n, s.cfgWidth.toNat = n + 1 := by
    have := h.setting.configured
    simp only [State.configured, configAccepted, Bool.and_eq_true, decide_eq_true_eq] at this
    exact ⟨s.cfgWidth.toNat - 1, by omega⟩
  obtain ⟨n, hn⟩ := hwidth
  have hstep : step s = runCycle s := by
    rw [step, h.setting.engines.2]
    exact cycle_of_running h.running.2 h.setting.configured
  obtain ⟨j, r', hrun, hfollows, hprogress⟩ := h.subLoop hquiet n
  rw [hstep, runCycle, hn]
  cases hr : Machine.subLoop (n + 1) s with
  | cont t =>
    rw [hr] at hfollows hprogress
    refine ⟨_, j, r', rfl, hrun, .inr ⟨hfollows.1.withCycles _, hfollows.2, hprogress.imp_right ?_⟩⟩
    rintro ⟨t', ht', hless⟩
    cases ht'
    exact hless
  | flush t =>
    rw [hr] at hfollows hprogress
    refine ⟨_, j, r', rfl, hrun, .inr ⟨hfollows.1.withCycles _, hfollows.2, .inl (hprogress.resolve_right ?_)⟩⟩
    rintro ⟨t', ht', -⟩
    cases ht'
  | halt t =>
    rw [hr] at hfollows
    obtain ⟨hstopped, hstatus, ⟨hregs, hmem, hexecuted, hcounters⟩⟩ := hfollows
    exact ⟨_, j, r', rfl, hrun, .inl ⟨hstopped, hstatus, hregs, hmem, hexecuted, hcounters⟩⟩
  | fatal t =>
    rw [hr] at hfollows
    exact ⟨_, j, r', rfl, hrun, .inl hfollows⟩
  | broken f =>
    rw [hr] at hfollows
    exact hfollows.elim

/-! ### Whole runs -/

/-- If the reference machine stops, the core it shadows stops as it does: by induction on the steps it has left, and
between them on the progress of the core. -/
theorem Shadows.stops {r s t : State} (n : Nat) (h : Shadows r s) (hquiet : s.quiet)
    (hn : Sys2Proof.core.run n r = .next t) (ht : t.status ≠ .running) :
    ∃ m u, Sys2Proof.core.run m s = .next u ∧ StopsAs t u := by
  obtain ⟨s', j, r', hstep, hrun, hcases⟩ := h.cycle hquiet
  rcases hcases with hstops | ⟨hshadow, hquiet', hprogress⟩
  · obtain rfl := stopped_unique hn ht hrun hstops.stopped
    exact ⟨1, s', run_one hstep, hstops⟩
  · have hjn : j < n := by
      by_contra hge
      have hlate := run_add n (j - n) hn
      rw [Nat.add_sub_cancel' (by omega), run_of_stopped ht, hrun] at hlate
      cases hlate
      exact ht hshadow.running.1
    have hrest : Sys2Proof.core.run (n - j) r' = .next t := by
      rw [← run_add j (n - j) hrun, Nat.add_sub_cancel' hjn.le, hn]
    have hmeasure : n - j < n ∨ n - j = n ∧ s'.rank < s.rank := by omega
    obtain ⟨m, u, hm, hstops⟩ := hshadow.stops (n - j) hquiet' hrest ht
    exact ⟨m + 1, u, (run_succ Sys2Proof.core m hstep).trans hm, hstops⟩
termination_by (n, s.rank)
decreasing_by
  rcases hmeasure with hless | ⟨heq, hless⟩
  · exact Prod.Lex.left _ _ hless
  · rw [heq]
    exact Prod.Lex.right _ hless

/-- After reset the reference machine shadows the core. -/
theorem boot_shadows {inp : Inputs} (hwf : inp.wellFormed = true) (hdec : inp.linesDecode) :
    Shadows (State.boot (inp.withEngine .reference)) (State.boot (inp.withEngine .scheduled)) := by
  simp only [Inputs.wellFormed, Bool.and_eq_true] at hwf
  obtain ⟨⟨⟨hparams, -⟩, -⟩, hconf⟩ := hwf
  have hrun (engine : Engine) : (State.boot (inp.withEngine engine)).status = .running := if_pos hconf
  have hparams' (engine : Engine) : (inp.withEngine engine).params.wellFormed = true := hparams
  have hbet (engine : Engine) (pc : Word) : (State.boot (inp.withEngine engine)).bet pc = pc + 1 := by
    rw [State.bet, Predictor.bet_eq]
    split <;> rfl
  have hdrained : (State.boot (inp.withEngine .scheduled)).drained = true :=
    State.drained_iff.mpr ⟨rfl, rfl, fun _ hx => List.eq_of_mem_replicate hx, fun _ hx => List.eq_of_mem_replicate hx,
      rfl, rfl⟩
  have hpath : (State.boot (inp.withEngine .scheduled)).path = [0] := rfl
  constructor
  · exact ⟨⟨rfl, rfl⟩, rfl, rfl, rfl, rfl, rfl, hconf, hparams' _, hdec⟩
  · exact coreSound_of_drained (boot_structuresSound (hparams' _)) hdrained
  · exact ⟨hpath ▸ List.isChain_singleton _, fun pc i _ _ => hbet _ pc⟩
  · exact Memory.load_wf _ _ Memory.wf_nil
  · exact ⟨rfl, rfl, rfl, rfl⟩
  · exact ⟨hrun _, hrun _⟩
  · rw [boot_reg]
    decide
  · exact fun pc => (hbet _ pc).trans (hbet _ pc).symm
  · rw [hpath]
    rfl

/-- Settles O60. -/
theorem scheduledCoreEqualsTheReference : Obligations.ScheduledCoreEqualsTheReference := by
  intro inp n t hwf hdec hn ht
  have hquiet : (State.boot (inp.withEngine .scheduled)).quiet := rfl
  obtain ⟨m, u, hm, -, hstatus, hregs, hmem, hexecuted, hcounters⟩ :=
    (boot_shadows hwf hdec).stops n hquiet hn ht
  simp only [Predictor.counters, Prod.mk.injEq] at hcounters
  exact ⟨m, u, hm, hstatus, hregs, hmem, hexecuted, hcounters⟩

end Sys2Proof.Machine
end

section
/-! The first five sub-steps of a drained core (R171, R180): the instruction at `PC` is fetched, decoded, issued and
sent, computed, and written back, one after the other, and commits in the fifth as its meaning says. -/

namespace Sys2Proof.Machine

variable {s t u v d : State} {i : Instr}

/-! ### What the stages leave -/

/-- The stages behind issue leave `FQ` and `IQ`, the count of live slots and the head. -/
structure SameFrontQueues (s t : State) : Prop where
  fq : t.queues.fq = s.queues.fq
  iq : t.queues.iq = s.queues.iq
  count : t.rob.count = s.rob.count
  head : t.rob.head = s.rob.head

theorem SameFrontQueues.refl (s : State) : SameFrontQueues s s := ⟨rfl, rfl, rfl, rfl⟩

theorem SameFrontQueues.trans (h : SameFrontQueues s t) (h' : SameFrontQueues t u) : SameFrontQueues s u :=
  ⟨h'.fq.trans h.fq, h'.iq.trans h.iq, h'.count.trans h.count, h'.head.trans h.head⟩

theorem stageMemory_frontQueues (s : State) : SameFrontQueues s (stageMemory s) := by
  rcases stageMemory_cases s with ⟨item, _, -, h⟩ | h <;> rw [h]
  · obtain ⟨_, _, -, h⟩ := (s.withQueues { s.queues with mq := s.queues.mq.pop }).evalMemory_eq item
    rw [h]
    exact ⟨rfl, rfl, rfl, rfl⟩
  · exact .refl s

theorem stageExecute_frontQueues (h : stageExecute s = .cont t) : SameFrontQueues s t := by
  rcases stageExecute_cases s with ⟨_, _, -, ⟨_, -, he⟩ | ⟨-, he⟩ | ⟨-, he⟩⟩ | he <;> cases he.symm.trans h <;>
    exact ⟨rfl, rfl, rfl, rfl⟩

theorem stageWriteback_frontQueues (s : State) : SameFrontQueues s (stageWriteback s) := by
  rcases stageWriteback_cases s with ⟨item, _, -, h⟩ | h <;> rw [h]
  · exact ⟨rfl, rfl, Rob.complete_count .., Rob.complete_head ..⟩
  · exact .refl s

/-- Dispatch changes the stations and the LSQ, and adds to `EQ` and `MQ` behind what waits there. -/
structure OnlySends (s t : State) : Prop where
  front : SameFrontQueues s t
  rob : t.rob = s.rob
  params : t.params = s.params
  wq : t.queues.wq = s.queues.wq
  eq : t.queues.eq.visible = s.queues.eq.visible
  mq : t.queues.mq.visible = s.queues.mq.visible

theorem stageDispatch_onlySends (s : State) : OnlySends s (stageDispatch s) := by
  have station : OnlySends s (dispatchStation s) := by
    rcases dispatchStation_cases s with ⟨_, _, -, -, h⟩ | h <;> rw [h] <;>
      exact ⟨⟨rfl, rfl, rfl, rfl⟩, rfl, rfl, rfl, rfl, rfl⟩
  have memory (s : State) : OnlySends s (dispatchMemory s) := by
    rcases dispatchMemory_cases s with ⟨_, _, -, -, h⟩ | h <;> rw [h] <;>
      exact ⟨⟨rfl, rfl, rfl, rfl⟩, rfl, rfl, rfl, rfl, rfl⟩
  obtain ⟨hfront, hrob, hparams, hwq, heq, hmq⟩ := memory (dispatchStation s)
  exact ⟨station.front.trans hfront, hrob.trans station.rob, hparams.trans station.params, hwq.trans station.wq,
    heq.trans station.eq, hmq.trans station.mq⟩

theorem stageExecute_of_empty (h : s.queues.eq.visible = []) : stageExecute s = .cont s := by rw [stageExecute, h]

theorem stageMemory_of_empty (h : s.queues.mq.visible = []) : stageMemory s = s := by rw [stageMemory, h]

theorem stageWriteback_of_empty (h : s.queues.wq.visible = []) : stageWriteback s = s := by rw [stageWriteback, h]

/-- Execute adds to `WQ` behind what waits there. -/
theorem stageExecute_back (h : stageExecute s = .cont t) :
    t.queues.wq.visible = s.queues.wq.visible ∧ t.queues.mq = s.queues.mq := by
  rcases stageExecute_cases s with ⟨_, _, -, ⟨_, -, he⟩ | ⟨-, he⟩ | ⟨-, he⟩⟩ | he <;> cases he.symm.trans h <;>
    exact ⟨rfl, rfl⟩

/-- So does the memory stage. -/
theorem stageMemory_back (s : State) : (stageMemory s).queues.wq.visible = s.queues.wq.visible := by
  rcases stageMemory_cases s with ⟨item, _, -, h⟩ | h <;> rw [h]
  obtain ⟨_, _, -, h⟩ := (s.withQueues { s.queues with mq := s.queues.mq.pop }).evalMemory_eq item
  rw [h]
  rfl

/-- Fetch and decode add to `IQ` behind what waits there. -/
theorem frontEnd_iq (hd : stageDecode (stageFetch s) = .cont d) : d.queues.iq.visible = s.queues.iq.visible := by
  obtain ⟨-, hiq, -⟩ := stageFetch_unchanged s
  rw [← hiq]
  rcases stageDecode_cases (stageFetch s) with ⟨_, _, _, -, -, he⟩ | ⟨_, _, _, -, -, he⟩ | he <;>
    cases he.symm.trans hd <;> rfl

/-- Issue leaves the queues behind it, the head and the slots that wait. -/
theorem stageIssue_kept (h : robShape s) : (stageIssue s).queues.eq = s.queues.eq ∧
    (stageIssue s).queues.mq = s.queues.mq ∧ (stageIssue s).queues.wq = s.queues.wq ∧
      (stageIssue s).rob.head = s.rob.head ∧ s.rob.count ≤ (stageIssue s).rob.count ∧
        (∀ slot, s.rob.awaits slot = true → (stageIssue s).rob.awaits slot = true) ∧
          (stageIssue s).params = s.params := by
  rcases stageIssue_cases s with ⟨item, rest, -, hfree, he⟩ | he <;> rw [he]
  · obtain ⟨hadded, hqueues, -, -, -, -, -, -, -, hparams, -⟩ :=
      (s.withQueues { s.queues with iq := s.queues.iq.pop }).issue_frame item.instr item.pc
    rw [hadded, hqueues, hparams]
    refine ⟨rfl, rfl, rfl, rfl, Nat.le_succ _, fun slot ha => ?_, rfl⟩
    refine (Rob.awaits_add item.instr item.pc h.tail_lt slot).trans ?_
    split
    · rfl
    · exact ha
  · exact ⟨rfl, rfl, rfl, rfl, le_rfl, fun _ => id, rfl⟩

/-- What the commit stage sees of `FQ`, `IQ` and the head is what issue left. -/
theorem beforeCommit_frontQueues (hv : beforeCommit s = .cont v) :
    ∃ d, stageDecode (stageFetch s) = .cont d ∧ SameFrontQueues (stageIssue d) v := by
  obtain ⟨d, x, hd, hx, rfl⟩ := beforeCommit_eq_cont hv
  exact ⟨d, hd, (((stageDispatch_onlySends _).front.trans (stageExecute_frontQueues hx)).trans
    (stageMemory_frontQueues x)).trans (stageWriteback_frontQueues _)⟩

/-! ### A core on its first instruction -/

theorem State.Extends.trans (h : s.Extends t) (h' : t.Extends u) : s.Extends u := by
  obtain ⟨more, hmore⟩ := h.path
  obtain ⟨more', hmore'⟩ := h'.path
  exact ⟨⟨more ++ more', by rw [hmore', hmore, List.append_assoc]⟩, h'.counters.trans h.counters,
    fun pc => (h'.bet pc).trans (h.bet pc), fun p q hg => h'.kept p q (h.kept p q hg)⟩

/-- The state `t` comes from the core `s` with nothing committed since. -/
structure Since (s t : State) : Prop where
  core : CoreSound t
  settled : t.settled = s.settled
  onward : s.Extends t

theorem Since.refl (h : CoreSound s) : Since s s :=
  ⟨h, rfl, ⟨⟨[], (List.append_nil _).symm⟩, rfl, fun _ => rfl, fun _ _ => id⟩⟩

theorem Since.trans (h : Since s t) (h' : Since t u) : Since s u :=
  ⟨h'.core, h'.settled.trans h.settled, h.onward.trans h'.onward⟩

theorem Since.beforeCommit (h : Since s t) (hv : beforeCommit t = .cont v) : Since s v :=
  ⟨beforeCommit_coreSound h.core hv, (beforeCommit_settled hv).trans h.settled,
    h.onward.trans (beforeCommit_extends h.core hv)⟩

theorem Since.settle (h : Since s t) : Since s (t.withQueues t.queues.settle) := by
  have hsame : t.sameFront (t.withQueues t.queues.settle) := by
    refine ⟨?_, rfl⟩
    simp only [State.path, State.withQueues_queues, Queues.settle, Fifo.items_settle]
    rfl
  exact ⟨h.core.settle, h.settled, h.onward.of_sameFront hsame rfl⟩

/-- A sub-step that goes on, if the commit stage waits in it. -/
theorem substep_of_waits (hwaits : ∀ v, beforeCommit s = .cont v → v.waits) (hu : substep s = .cont u) :
    ∃ v, beforeCommit s = .cont v ∧ u = v.withQueues v.queues.settle := by
  obtain ⟨v, hv, hrest⟩ := SubResult.andThen_eq_cont.mp hu
  rw [stageCommit_of_waits (hwaits v hv), SubResult.cont_andThen] at hrest
  rcases endOfSubstep_eq v with he | ⟨-, -, he⟩ <;> cases he.symm.trans hrest
  exact ⟨v, hv, rfl⟩

theorem CoreSound.oldest_waits (h : CoreSound s) (hc : s.rob.count ≠ 0)
    (hwaits : s.rob.awaits s.rob.head = true) : s.waits := by
  obtain ⟨e, i, ho⟩ := h.oldest hc
  refine .inr ⟨e, i, ho, ?_⟩
  rw [Rob.awaits, ho.entry] at hwaits
  simpa using hwaits

/-! ### The five sub-steps -/

/-- In the first sub-step the instruction at `PC` is fetched (R161). -/
theorem substep_fetches {code : Code} (hs : structuresSound s) (hparams : s.params.wellFormed = true)
    (hdrained : s.drained = true) (hcode : s.imem? s.pc = some code) (hu : substep s = .cont u) :
    Since s u ∧ u.quiet ∧ u.goesOn s.pc (s.bet s.pc) ∧ u.rob.count = 0 ∧ u.queues.iq.visible = [] ∧
      u.queues.fq.visible = [⟨code, s.pc⟩] := by
  have hcore := coreSound_of_drained hs hdrained
  obtain ⟨hqueues, hcount, -⟩ := State.drained_iff.mp hdrained
  have hcap : s.params.qCap.all (0 < ·) = true := by
    simp only [Params.wellFormed, Bool.and_eq_true] at hparams
    exact hparams.2
  have hroom : s.queues.fq.hasRoom s.params.qCap = true :=
    Fifo.hasRoom_of_empty hcap (by rw [hqueues]; rfl)
  have hfetch : stageFetch s = ((s.withPred (s.pred.predict s.cfgPolicy s.pc).1).withQueues
      { s.queues with fq := s.queues.fq.push ⟨code, s.pc⟩ }).withPc (s.pred.predict s.cfgPolicy s.pc).2 := by
    simp only [stageFetch, hcode, hroom]
  have hdecode : stageDecode (stageFetch s) = .cont (stageFetch s) := by
    have : (stageFetch s).queues.fq.visible = [] := by rw [hfetch, hqueues]; rfl
    rw [stageDecode, this]
  have hissue : stageIssue (stageFetch s) = stageFetch s := by
    have : (stageFetch s).queues.iq.visible = [] := by rw [hfetch, hqueues]; rfl
    rw [stageIssue, this]
  have hfront {v : State} (hv : beforeCommit s = .cont v) : SameFrontQueues (stageFetch s) v := by
    obtain ⟨d, hd, hfront⟩ := beforeCommit_frontQueues hv
    cases hdecode.symm.trans hd
    rwa [hissue] at hfront
  have hzero {v : State} (hv : beforeCommit s = .cont v) : v.rob.count = 0 := by
    rw [(hfront hv).count, hfetch]
    exact hcount
  obtain ⟨v, hv, rfl⟩ := substep_of_waits (fun v hv => .inl (hzero hv)) hu
  have hsince : Since s v :=
    (Since.refl hcore).beforeCommit hv
  refine ⟨hsince.settle, v.settle_quiet, ?_, (hzero hv : v.rob.count = 0), ?_, ?_⟩
  · obtain ⟨-, hpred⟩ := beforeCommit_sameFront hcore hv
    refine ⟨?_, hsince.settle.onward.bet s.pc⟩
    show v.pred.target? s.pc = _
    rw [hpred, hfetch]
    exact s.pred.predict_target_self _ _
  · show v.queues.iq.items = []
    rw [(hfront hv).iq, hfetch, hqueues]
    rfl
  · show v.queues.fq.items = _
    rw [(hfront hv).fq, hfetch, hqueues]
    rfl

theorem Since.fixed (h : Since s t) : t.fixed = s.fixed := by
  obtain ⟨-, -, -, hfixed⟩ := State.settled_eq_iff.mp h.settled
  exact hfixed

theorem Params.cap_pos {p : Params} (h : p.wellFormed = true) : p.qCap.all (0 < ·) = true := by
  simp only [Params.wellFormed, Bool.and_eq_true] at h
  exact h.2

/-- In the second it is decoded (R162). -/
theorem substep_decodes {code : Code} (h : Since s t) (hquiet : t.quiet) (hparams : t.params.wellFormed = true)
    (hcount : t.rob.count = 0) (hiq : t.queues.iq.visible = []) {pc : Word}
    (hfq : t.queues.fq.visible = [⟨code, pc⟩]) (hi : decode t.symtab code = .ok i) (hu : substep t = .cont u) :
    Since s u ∧ u.quiet ∧ u.rob.count = 0 ∧ u.queues.iq.visible = [⟨i, pc⟩] := by
  obtain ⟨-, qi, -⟩ := State.quiet_pending hquiet
  have hiqi : t.queues.iq.items = [] := by rw [Fifo.items, hiq, qi]; rfl
  obtain ⟨ffq, fiq, fparams, fsymtab, -, -, -, frob⟩ := stageFetch_unchanged t
  have hroom : (stageFetch t).queues.iq.hasRoom (stageFetch t).params.qCap = true := by
    rw [fiq, fparams]
    exact Fifo.hasRoom_of_empty (Params.cap_pos hparams) hiqi
  have hdecode := stageDecode_of_front (ffq.trans hfq) hroom (fsymtab ▸ hi)
  have hfront {v : State} (hv : beforeCommit t = .cont v) :
      v.rob.count = 0 ∧ v.queues.iq.items = [⟨i, pc⟩] := by
    obtain ⟨d, hd, hfront⟩ := beforeCommit_frontQueues hv
    cases hdecode.symm.trans hd
    have hvisible : ((stageFetch t).queues.iq.push ⟨i, pc⟩).visible = [] := by rw [fiq]; exact hiq
    rw [stageIssue] at hfront
    simp only [State.withQueues_queues, hvisible] at hfront
    refine ⟨hfront.count.trans ((congrArg Rob.count frob).trans hcount), ?_⟩
    rw [hfront.iq, State.withQueues_queues, Fifo.items_push, fiq, hiqi]
    rfl
  obtain ⟨v, hv, rfl⟩ := substep_of_waits (fun v hv => .inl (hfront hv).1) hu
  exact ⟨(h.beforeCommit hv).settle, v.settle_quiet, (hfront hv).1, (hfront hv).2⟩

/-- One item is in flight for a lone instruction that waits. -/
theorem CoreSound.lone_inFlight (h : CoreSound s) (hcount : s.rob.count = 1)
    (hwaits : s.rob.awaits s.rob.head = true) : s.inFlight = [s.rob.head] := by
  obtain ⟨e, i, ho⟩ := h.oldest (by omega)
  have hline : s.view.line = [(s.rob.head, e.pc)] := by
    rw [ho.line h, Rob.line_of_count_zero (by rw [Rob.free_count, hcount])]
  have hall : ∀ slot ∈ s.inFlight, slot = s.rob.head := fun slot hm => by
    have := h.mem_line hm
    rw [hline] at this
    simpa using this
  have hone := h.pipeline.2.carried s.rob.head
  rw [hwaits, Bool.toNat_true] at hone
  have hmem := h.carried _ hwaits
  rw [List.eq_replicate_of_mem hall] at hone hmem ⊢
  rw [List.count_replicate_self] at hone
  have hpos := List.length_pos_of_mem hmem
  rw [List.length_replicate] at hpos
  rw [show s.inFlight.length = 1 by omega]
  rfl

theorem State.inFlight_length (s : State) : s.inFlight.length = (Stations.tags s.rs).length +
    s.queues.eq.items.length + s.queues.mq.items.length + s.queues.wq.items.length +
      (unsentTags s.lsq.entries).length := by
  simp only [State.inFlight, List.length_append, Fifo.tags, Fifo.items, List.length_map]

/-- Dispatch sends a lone instruction that has not been sent. -/
theorem stageDispatch_sends (h : CoreSound s) (hparams : s.params.wellFormed = true) (hcount : s.rob.count = 1)
    (hwaits : s.rob.awaits s.rob.head = true) (heq : s.queues.eq.items = []) (hmq : s.queues.mq.items = [])
    (hwq : s.queues.wq.items = []) :
    (stageDispatch s).queues.eq.items.length + (stageDispatch s).queues.mq.items.length = 1 := by
  have hkept := stageDispatch_onlySends s
  have hlone := h.lone_inFlight hcount hwaits
  have hlone' := (stageDispatch_coreSound h).lone_inFlight (by rw [hkept.rob, hcount]) (by rw [hkept.rob, hwaits])
  have hone : s.inFlight.length = 1 := by rw [hlone]; rfl
  have hone' : (stageDispatch s).inFlight.length = 1 := by rw [hlone']; rfl
  rw [State.inFlight_length, heq, hmq, hwq] at hone
  rw [State.inFlight_length, hkept.wq, hwq] at hone'
  -- Not idle, so the one item in flight is sent.
  have hless : (stageDispatch s).work < s.work := by
    obtain ⟨e, i, ho⟩ := h.oldest (by omega)
    have hdone : e.done = false := by
      rw [Rob.awaits, ho.entry] at hwaits
      simpa using hwaits
    have empty {α : Type} {q : Fifo α} (hq : q.items = []) : q.visible = [] ∧ q.pending = [] :=
      List.append_eq_nil_iff.mp hq
    have hstation := dispatchStation_acts s
    have hmemory := dispatchMemory_acts (dispatchStation s)
    have hscan := scan_work (dispatchStation s)
    rcases hstation with hless | ⟨hsame, hstations⟩
    · have := hmemory.le
      rw [stageDispatch]
      omega
    · rw [hsame] at hmemory hscan
      rcases hmemory with hless | ⟨-, hentries⟩
      · rw [stageDispatch, hsame]
        omega
      · refine absurd ?_ (ho.not_idle h hparams ⟨(empty heq).2, (empty hmq).2, (empty hwq).2⟩ hdone)
        exact ⟨hstations, hentries, fun _ => (empty heq).1, fun _ => (empty hmq).1, (empty hwq).1⟩
  rw [State.work, State.work, hkept.rob, hkept.params, hkept.wq, heq, hmq, hwq] at hless
  simp only [List.length_nil] at hone hone' hless
  omega

/-- In the third it is issued, and sent to the unit it needs (R163, R164). -/
theorem substep_sends (h : Since s t) (hparams : t.params.wellFormed = true)
    (hcount : t.rob.count = 0) {pc : Word} (hiq : t.queues.iq.visible = [⟨i, pc⟩]) (hu : substep t = .cont u) :
    Since s u ∧ u.quiet ∧ u.rob.count = 1 ∧ u.rob.awaits u.rob.head = true ∧ u.queues.wq.visible = [] ∧
      u.queues.eq.visible.length + u.queues.mq.visible.length = 1 := by
  have hv {v : State} (hv : beforeCommit t = .cont v) : v.rob.count = 1 ∧ v.rob.awaits v.rob.head = true ∧
      v.queues.wq.items = [] ∧ v.queues.eq.items.length + v.queues.mq.items.length = 1 := by
    obtain ⟨d, x, hd, hx, rfl⟩ := beforeCommit_eq_cont hv
    obtain ⟨hrob, hpar, heq, hmq, hwq⟩ := frontEnd_kept hd
    have hdsound := stageDecode_coreSound (stageFetch_coreSound h.core) hd
    have hdcount : d.rob.count = 0 := hrob ▸ hcount
    obtain ⟨ieq, imq, iwq, -⟩ := hdsound.nothing_of_empty hdcount
    obtain ⟨keq, kmq, kwq, -, -, -, kpar⟩ := stageIssue_kept hdsound.pipeline.1.1
    have hissue := stageIssue_of_not_blocked ((frontEnd_iq hd).trans hiq)
      (hdsound.not_blocked_of_empty (hpar ▸ hparams) hdcount _)
    obtain ⟨hadded, -⟩ := (d.withQueues { d.queues with iq := { d.queues.iq with visible := [] } }).issue_frame i pc
    have hcount' : (stageIssue d).rob.count = 1 := by
      rw [hissue, hadded]
      exact congrArg (· + 1) hdcount
    have hwaits : (stageIssue d).rob.awaits (stageIssue d).rob.head = true := by
      obtain ⟨-, hhead, -, htail, -⟩ := id hdsound.pipeline.1.1
      have htail : d.rob.tail = d.rob.head := by rw [htail, hdcount, Nat.add_zero, Nat.mod_eq_of_lt hhead]
      rw [hissue, hadded]
      refine (Rob.awaits_add i pc hdsound.pipeline.1.1.tail_lt d.rob.head).trans ?_
      rw [if_pos htail.symm]
    have hasound := stageIssue_coreSound hdsound
    have hkept := stageDispatch_onlySends (stageIssue d)
    have hsent := stageDispatch_sends hasound (by rw [kpar, hpar, hparams]) hcount' hwaits (by rw [keq, ieq])
      (by rw [kmq, imq]) (by rw [kwq, iwq])
    have empty {α : Type} {q : Fifo α} (hq : q.items = []) : q.visible = [] := (List.append_eq_nil_iff.mp hq).1
    rw [stageExecute_of_empty (by rw [hkept.eq, keq, empty ieq])] at hx
    cases hx
    rw [stageMemory_of_empty (by rw [hkept.mq, kmq, empty imq]),
      stageWriteback_of_empty (by rw [hkept.wq, kwq, empty iwq]), hkept.rob, hkept.wq, kwq, iwq]
    exact ⟨hcount', hwaits, rfl, hsent⟩
  have hwaits (v : State) (hv' : beforeCommit t = .cont v) : v.waits := by
    obtain ⟨hcount', hawaits, -⟩ := hv hv'
    exact (beforeCommit_coreSound h.core hv').oldest_waits (by omega) hawaits
  obtain ⟨v, hv', rfl⟩ := substep_of_waits hwaits hu
  obtain ⟨hcount', hawaits, hwq, hsent⟩ := hv hv'
  exact ⟨(h.beforeCommit hv').settle, v.settle_quiet, hcount', hawaits, hwq, hsent⟩

/-- In the fourth its unit delivers (R165, R166). -/
theorem substep_delivers (h : Since s t) (hquiet : t.quiet) (hparams : t.params.wellFormed = true)
    (hcount : t.rob.count = 1) (hwaits : t.rob.awaits t.rob.head = true) (hwq : t.queues.wq.visible = [])
    (hsent : t.queues.eq.visible.length + t.queues.mq.visible.length = 1) (hu : substep t = .cont u) :
    Since s u ∧ u.rob.count ≠ 0 ∧ u.rob.awaits u.rob.head = true ∧
      ∃ w, u.queues.wq.visible = [w] ∧ w.tag = u.rob.head := by
  have hline {x : Nat} (hx : x ∈ t.inFlight) : x = t.rob.head := by
    rw [h.core.lone_inFlight hcount hwaits] at hx
    exact List.mem_singleton.mp hx
  have hv {v : State} (hv : beforeCommit t = .cont v) : v.rob.count ≠ 0 ∧ v.rob.awaits v.rob.head = true ∧
      ∃ w, v.queues.wq.items = [w] ∧ w.tag = v.rob.head := by
    obtain ⟨d, x, hd, hx, rfl⟩ := beforeCommit_eq_cont hv
    obtain ⟨hrob, hpar, heq, hmq, hwq'⟩ := frontEnd_kept hd
    have hdsound := stageDecode_coreSound (stageFetch_coreSound h.core) hd
    obtain ⟨keq, kmq, kwq, khead, kcount, kawaits, kpar⟩ := stageIssue_kept hdsound.pipeline.1.1
    have hbsound := stageDispatch_coreSound (stageIssue_coreSound hdsound)
    have hkept := stageDispatch_onlySends (stageIssue d)
    generalize stageDispatch (stageIssue d) = b at hx hbsound hkept
    have hhead : b.rob.head = t.rob.head := by rw [hkept.rob, khead, hrob]
    have hcount' : b.rob.count ≠ 0 := by
      rw [hkept.rob]
      rw [hrob] at kcount
      omega
    have hawaits : b.rob.awaits b.rob.head = true := by
      rw [hhead, hkept.rob]
      exact kawaits _ (hrob ▸ hwaits)
    have hbwq : b.queues.wq.items = [] := by
      obtain ⟨-, -, -, -, qw⟩ := State.quiet_pending hquiet
      rw [hkept.wq, kwq, hwq', Fifo.items, hwq, qw]
      rfl
    have hroom : b.queues.wq.hasRoom b.params.qCap = true :=
      Fifo.hasRoom_of_empty (by rw [hkept.params, kpar, hpar]; exact Params.cap_pos hparams) hbwq
    have hbvisible : b.queues.wq.visible = [] := (List.append_eq_nil_iff.mp hbwq).1
    have hbeq : b.queues.eq.visible = t.queues.eq.visible := by rw [hkept.eq, keq, heq]
    have hbmq : b.queues.mq.visible = t.queues.mq.visible := by rw [hkept.mq, kmq, hmq]
    obtain ⟨hxwq, hxmq⟩ := stageExecute_back hx
    rw [stageWriteback_of_empty ((stageMemory_back x).trans (hxwq.trans hbvisible))]
    -- One of the two units has the instruction.
    cases heqv : t.queues.eq.visible with
    | nil =>
      rw [heqv, List.length_nil, Nat.zero_add] at hsent
      obtain ⟨m, hm⟩ := List.length_eq_one_iff.mp hsent
      rw [stageExecute_of_empty (hbeq.trans heqv)] at hx
      cases hx
      obtain ⟨w, n, htag, he⟩ := stageMemory_of_front (hbmq.trans hm) hroom
      rw [he]
      refine ⟨hcount', hawaits, w, ?_, ?_⟩
      · show (x.queues.wq.push w).items = _
        rw [Fifo.items_push, hbwq]
        rfl
      · refine (htag.trans (hline ?_)).trans hhead.symm
        refine State.mem_inFlight.mpr (.inr (.inr (.inl (Fifo.mem_tags.mpr ⟨m, ?_, rfl⟩))))
        exact Fifo.mem_items_of_visible hm
    | cons y rest =>
      rw [heqv, List.length_cons] at hsent
      have hmqv : t.queues.mq.visible = [] := List.eq_nil_of_length_eq_zero (by omega)
      obtain ⟨w, n, htag, he⟩ := stageExecute_of_front hbsound.computes (hbeq.trans heqv) hroom
      rw [stageMemory_of_empty ((congrArg Fifo.visible hxmq).trans (hbmq.trans hmqv))]
      cases he.symm.trans hx
      refine ⟨hcount', hawaits, w, ?_, ?_⟩
      · show (b.queues.wq.push w).items = _
        rw [Fifo.items_push, hbwq]
        rfl
      · refine (htag.trans (hline ?_)).trans hhead.symm
        refine State.mem_inFlight.mpr (.inr (.inl (Fifo.mem_tags.mpr ⟨y, ?_, rfl⟩)))
        exact Fifo.mem_items_of_visible heqv
  have hwaits' (v : State) (hv' : beforeCommit t = .cont v) : v.waits := by
    obtain ⟨hcount', hawaits, -⟩ := hv hv'
    exact (beforeCommit_coreSound h.core hv').oldest_waits hcount' hawaits
  obtain ⟨v, hv', rfl⟩ := substep_of_waits hwaits' hu
  obtain ⟨hcount', hawaits, hw⟩ := hv hv'
  exact ⟨(h.beforeCommit hv').settle, hcount', hawaits, hw⟩

/-- In the fifth the result is written back before the commit (R167). -/
theorem beforeCommit_completes (h : CoreSound t) (hcount : t.rob.count ≠ 0) {w : WriteItem}
    (hwq : t.queues.wq.visible = [w]) (htag : w.tag = t.rob.head) (hv : beforeCommit t = .cont v) :
    v.rob.count ≠ 0 ∧ v.rob.awaits v.rob.head = false := by
  obtain ⟨d, x, hd, hx, rfl⟩ := beforeCommit_eq_cont hv
  obtain ⟨hrob, -, -, -, hwq'⟩ := frontEnd_kept hd
  have hdsound := stageDecode_coreSound (stageFetch_coreSound h) hd
  obtain ⟨-, -, kwq, khead, kcount, -, -⟩ := stageIssue_kept hdsound.pipeline.1.1
  have hkept := stageDispatch_onlySends (stageIssue d)
  have hback := (stageExecute_frontQueues hx).trans (stageMemory_frontQueues x)
  have hvisible : (stageMemory x).queues.wq.visible = [w] := by
    rw [stageMemory_back, (stageExecute_back hx).1, hkept.wq, kwq, hwq', hwq]
  rw [stageWriteback_of_front hvisible]
  refine ⟨?_, ?_⟩
  · show (Rob.complete _ _ _ _).count ≠ 0
    rw [Rob.complete_count, hback.count, hkept.rob]
    rw [hrob] at kcount
    omega
  · show (Rob.complete _ _ _ _).awaits (Rob.complete _ _ _ _).head = false
    rw [Rob.complete_head, Rob.awaits_complete, hback.head, hkept.rob, khead, hrob, if_pos htag.symm]

/-- An error that ends the stages before commit is one of decoding (R71, R128). -/
theorem beforeCommit_fatal (h : beforeCommit s = .fatal t) :
    t.status = .fatal .decodeError ∨ t.status = .fatal .unsupportedOpcodeError := by
  have executed {d : State} (h : (stageExecute d).andThen (fun x => .cont (stageWriteback (stageMemory x))) =
      .fatal t) : t.status = .fatal .unsupportedOpcodeError := by
    rcases stageExecute_cases d with ⟨_, _, -, ⟨_, -, hx⟩ | ⟨-, hx⟩ | ⟨-, hx⟩⟩ | hx <;> rw [hx] at h <;> cases h
    rfl
  rw [beforeCommit] at h
  rcases stageDecode_cases (stageFetch s) with ⟨_, _, _, -, -, hd⟩ | ⟨_, _, e, -, -, hd⟩ | hd <;> rw [hd] at h
  · exact .inr (executed h)
  · cases h
    cases e with
    | malformed => exact .inl rfl
    | unsupportedOpcode => exact .inr rfl
  · exact .inr (executed h)

/-- What a commit leaves that agrees with `e`, after the end of the sub-step. -/
def endsAs (e t : State) : Prop :=
  t.regs = e.regs ∧ t.mem = e.mem ∧ t.executed = e.executed ∧ t.pred.nChecked = e.pred.nChecked ∧
    t.pred.nMissed = e.pred.nMissed ∧ t.pred.distSum = e.pred.distSum ∧
      (t.status = e.status ∨ (e.status = .running ∧ t.status = .fatal (.programCounterOutOfRange t.pc)))

theorem Agrees.endsAs {e : State} (h : Agrees t e)
    (hstatus : t.status = e.status ∨ (e.status = .running ∧ t.status = .fatal (.programCounterOutOfRange t.pc))) :
    endsAs e t := by
  have hcounters := h.counters
  simp only [Predictor.counters, Prod.mk.injEq] at hcounters
  obtain ⟨hchecked, hmissed, hdist⟩ := hcounters
  exact ⟨h.regs, h.mem, h.executed, hchecked, hmissed, hdist, hstatus⟩

/-- The end of a sub-step after a commit that agrees with `e`. -/
theorem stageCommit_endsAs {e : State} (hrun : v.status = .running)
    (h : (stageCommit v).all fun t => t.status = e.status ∧ Agrees t e) :
    ((stageCommit v).andThen endOfSubstep).all (endsAs e) := by
  have hreports := stageCommit_reports v
  cases hr : stageCommit v with
  | cont t =>
    rw [hr] at h hreports
    obtain ⟨hstatus, hagrees⟩ := h
    have hrunning : t.status = .running := hreports.trans hrun
    rw [SubResult.cont_andThen]
    rcases endOfSubstep_eq t with he | ⟨-, -, he⟩ <;> rw [he]
    · exact Agrees.endsAs ⟨hagrees.regs, hagrees.mem, hagrees.executed, hagrees.counters⟩ (.inl hstatus)
    · exact Agrees.endsAs ⟨hagrees.regs, hagrees.mem, hagrees.executed, hagrees.counters⟩
        (.inr ⟨hstatus.symm.trans hrunning, rfl⟩)
  | flush t | halt t | fatal t =>
    rw [hr] at h
    exact h.2.endsAs (.inl h.1)
  | broken f => trivial

/-- The head of a core that has committed nothing since it was drained is the instruction that stood at `PC`. -/
theorem Since.oldest (h : Since s t) (hpath : s.path = [s.pc]) (hi : s.instrAt s.pc = some i)
    (hc : t.rob.count ≠ 0) : ∃ e, t.Oldest e i ∧ e.pc = s.pc := by
  obtain ⟨e, j, ho⟩ := h.core.oldest hc
  obtain ⟨q, rest, hpath'⟩ := ho.path h.core
  obtain ⟨more, hmore⟩ := h.onward.path
  rw [hpath', hpath] at hmore
  obtain ⟨hpc, -⟩ := List.cons.inj hmore
  obtain ⟨hprog, hsymtab, -⟩ := State.fixed_eq_iff.mp h.fixed
  have hcode := ho.code
  rw [State.instrAt_congr hprog hsymtab, hpc, hi] at hcode
  cases hcode
  exact ⟨e, ho, hpc⟩

/-- Settles O59: with the first four sub-steps over, the oldest instruction is the one that stood at `PC`, and the
commit stage of the fifth does with it what its meaning does. -/
theorem drainedCoreCommitsAsTheMeaning : Obligations.DrainedCoreCommitsAsTheMeaning := by
  intro s u e code i hdrained hs hparams hrun hhalt hcode hi hexec hu
  obtain ⟨s1, h1, hu⟩ := SubResult.andThen_eq_cont.mp hu
  obtain ⟨s2, h2, hu⟩ := SubResult.andThen_eq_cont.mp hu
  obtain ⟨s3, h3, hu⟩ := SubResult.andThen_eq_cont.mp hu
  obtain ⟨s4, h4, hu⟩ := SubResult.andThen_eq_cont.mp hu
  cases hu
  obtain ⟨since1, quiet1, hgoes, count1, iq1, fq1⟩ := substep_fetches hs hparams hdrained hcode h1
  obtain ⟨-, hsymtab, hpar, -⟩ := State.fixed_eq_iff.mp since1.fixed
  have params {t : State} (h : Since s1 t) : t.params.wellFormed = true := by
    obtain ⟨-, -, hpar', -⟩ := State.fixed_eq_iff.mp h.fixed
    rw [hpar', hpar, hparams]
  have here := Since.refl since1.core
  obtain ⟨since2, -, count2, iq2⟩ := substep_decodes here quiet1 (params here) count1 iq1 fq1 (hsymtab ▸ hi) h2
  obtain ⟨since3, quiet3, count3, waits3, wq3, sent3⟩ := substep_sends since2 (params since2) count2 iq2 h3
  obtain ⟨since4, count4, -, w, wq4, htag⟩ :=
    substep_delivers since3 quiet3 (params since3) count3 waits3 wq3 sent3 h4
  refine ⟨substep_unbroken since4.core.pipeline, ?_⟩
  rcases beforeCommit_cont_or_fatal u with ⟨v, hv⟩ | ⟨v, err, hv, -⟩
  · obtain ⟨countv, donev⟩ := beforeCommit_completes since4.core count4 wq4 htag hv
    have sincev := since4.beforeCommit hv
    have since := since1.trans sincev
    obtain ⟨hqueues, hcount, -⟩ := State.drained_iff.mp hdrained
    have hpath : s.path = [s.pc] := by
      rw [State.path, Rob.line_of_count_zero hcount, hqueues]
      rfl
    have hinstr : s.instrAt s.pc = some i := by simp [State.instrAt, hcode, hi, Except.toOption]
    obtain ⟨x, ho, hpc⟩ := since.oldest hpath hinstr countv
    have hdone : x.done = true := by
      rw [Rob.awaits, ho.entry] at donev
      simpa using donev
    obtain ⟨⟨hregs, hmem, hexecuted⟩, hstatus, -, hfixed⟩ := State.settled_eq_iff.mp since.settled
    obtain ⟨-, -, hpar', hpolicy, -⟩ := State.fixed_eq_iff.mp hfixed
    have hhead : AtHead s.recordPrediction v x := by
      constructor
      · exact ⟨hregs, hmem, hexecuted, since.onward.counters.trans (s.pred.predict_counters _ _).symm⟩
      · exact hstatus.symm
      · exact hpc.symm
      · exact congrArg Params.memSize hpar'.symm
      · exact hpolicy.symm
      · rw [hpc, (sincev.onward.kept _ _ hgoes).1]
        exact s.pred.predict_target_self _ _
    have hhalt' : v.reg 31 ≠ 1 := by
      rw [State.reg, hregs]
      exact hhalt
    have hagrees := commit_agrees sincev.core ho hdone hhead hhalt' hexec
    have hsub : substep u = (stageCommit v).andThen endOfSubstep := by rw [substep, hv, SubResult.cont_andThen]
    rw [hsub]
    exact (stageCommit_endsAs (hstatus.trans hrun) hagrees).mono fun t ht => .inr (.inr ht)
  · rw [substep, hv]
    rcases beforeCommit_fatal hv with h | h
    · exact .inl h
    · exact .inr (.inl h)

end Sys2Proof.Machine
end
